-- ==== Sys2Proof/Word.lean ====
section
/-!
DEFINITION. The words of the HTC core: a register of the port is 32 bits (`spec/10_state.md` R38), a character
is one 16-bit code unit (`spec/00_scope.md` R2), a cell of the file memory is a byte (`spec/10_state.md` R41).
-/

namespace Sys2Proof

/-- A register as the port carries it, REG_W = 32 bits (`spec/00_scope.md` R8). -/
abbrev Word := BitVec 32

/-- A character: one 16-bit code unit, never a code point (`spec/00_scope.md` R2). -/
abbrev CharUnit := BitVec 16

/-- A cell of the file memory FIL (`spec/10_state.md` R41). -/
abbrev Byte := BitVec 8

/-- `zext_32` of a natural number that a narrower register holds (`spec/00_scope.md` R12), and a natural number that fits
in 32 bits as the register that holds it. Log entry 16. -/
abbrev Word.ofNat (n : Nat) : Word := BitVec.ofNat 32 n

end Sys2Proof
end

