-- ==== Sys2Proof/Syntax.lean ====
section
/-!
DEFINITION. The commands of the HTC core: one constructor for each row of the command list of
`spec/30_encoding.md` R102, in its order.
-/

namespace Sys2Proof

/-- The twenty-one commands (`spec/30_encoding.md` R102). A node index `n` is a number in 0..131071 and a
character `ch` a 16-bit unit, neither extended nor scaled (R101). -/
inductive Instr where
  /-- `PL.INS n`: insert node n into the list. -/
  | plIns (n : Nat)
  /-- `PL.RMIN`: remove the minimum. -/
  | plRmin
  /-- `PL.ONE`: test for exactly one node. -/
  | plOne
  /-- `TB.LEAF ch`: make a leaf for ch with weight WARG. -/
  | tbLeaf (ch : CharUnit)
  /-- `TB.COUNT`: count the characters of TXT. -/
  | tbCount
  /-- `TB.LEAVES`: make and insert a leaf per counted character. -/
  | tbLeaves
  /-- `TB.MERGE`: merge the two lowest nodes. -/
  | tbMerge
  /-- `TB.ROOT`: take the one remaining node as root. -/
  | tbRoot
  /-- `TB.BUILD`: build the whole tree from TXT. -/
  | tbBuild
  /-- `CT.GEN`: generate the code table from the tree. -/
  | ctGen
  /-- `CT.LOOKUP ch`: look up the code of ch. -/
  | ctLookup (ch : CharUnit)
  /-- `EN.TREE`: serialise the tree into TBUF. -/
  | enTree
  /-- `EN.TEXT`: serialise the text into XBUF. -/
  | enText
  /-- `EN.EMIT`: write header, tree bytes and text bytes to FIL. -/
  | enEmit
  /-- `ENCODE`: the source's `encode`. -/
  | encode
  /-- `DE.HDR`: parse and check the header. -/
  | deHdr
  /-- `DE.TREE`: rebuild the tree from FIL. -/
  | deTree
  /-- `DE.TEXT`: decode the text region into TXT. -/
  | deText
  /-- `DECODE`: the source's `decode`. -/
  | decode
  /-- `NOP`: nothing. -/
  | nop
  /-- `CLR`: clear the working state. -/
  | clr
  deriving DecidableEq, Repr

end Sys2Proof
end

