-- ==== Sys2Proof/WellFormed.lean ====
section
/-!
DEFINITION. Which terms of `Instr` a command word can hold (`spec/30_encoding.md` R100, R101).
-/

namespace Sys2Proof

/-- The operand fits its field: `n = w[16:0]` is "a number in 0..131071" (`spec/30_encoding.md` R101). A character
is 16 bits by its type. An index at or above NODE_CNT is no encoding error, so nothing is asked of it here. -/
def Instr.wellFormed (i : Instr) : Bool :=
  match i with
  | .plIns n => decide (n ≤ 131071)
  | .plRmin => true
  | .plOne => true
  | .tbLeaf _ => true
  | .tbCount => true
  | .tbLeaves => true
  | .tbMerge => true
  | .tbRoot => true
  | .tbBuild => true
  | .ctGen => true
  | .ctLookup _ => true
  | .enTree => true
  | .enText => true
  | .enEmit => true
  | .encode => true
  | .deHdr => true
  | .deTree => true
  | .deText => true
  | .decode => true
  | .nop => true
  | .clr => true

end Sys2Proof
end

