-- ==== Sys2Proof/Decode.lean ====
section
/-!
DEFINITION. Decoding a command word (`spec/30_encoding.md` R100 to R103) and, after it, the encoder. Decoding is
total on every 32-bit word and rejects by name; the core executes a rejected word as IllegalCommand (R103).
-/

namespace Sys2Proof

/-- Why a word is no command (`spec/30_encoding.md` R101). -/
inductive DecodeError where
  /-- Bits 31:24 are none of the twenty-one opcodes. -/
  | unknownOpcode
  /-- The opcode is listed and a must-be-zero bit of its format is 1. -/
  | nonZeroReserved
  deriving DecidableEq, Repr

/-- `op = w[31:24]` (`spec/30_encoding.md` R101). -/
def opcodeOf (w : Word) : BitVec 8 := w.extractLsb' 24 8

/-- Format Z: "the word is illegal unless `w[23:0] = 0`" (`spec/30_encoding.md` R101). -/
def decodeZ (w : Word) (i : Instr) : Except DecodeError Instr :=
  if w.extractLsb' 0 24 = 0 then .ok i else .error .nonZeroReserved

/-- Format N: "the word is illegal unless `w[23:17] = 0`, and the operand is `n = w[16:0]`"
(`spec/30_encoding.md` R101). -/
def decodeN (w : Word) (mk : Nat → Instr) : Except DecodeError Instr :=
  if w.extractLsb' 17 7 = 0 then .ok (mk (w.extractLsb' 0 17).toNat) else .error .nonZeroReserved

/-- Format C: "the word is illegal unless `w[23:16] = 0`, and the operand is `ch = w[15:0]`"
(`spec/30_encoding.md` R101). -/
def decodeC (w : Word) (mk : CharUnit → Instr) : Except DecodeError Instr :=
  if w.extractLsb' 16 8 = 0 then .ok (mk (w.extractLsb' 0 16)) else .error .nonZeroReserved

/-- The command that a word encodes: opcode and format by the table of `spec/30_encoding.md` R102. -/
def decodeWord (w : Word) : Except DecodeError Instr :=
  match (opcodeOf w).toNat with
  | 0x10 => decodeN w .plIns
  | 0x11 => decodeZ w .plRmin
  | 0x12 => decodeZ w .plOne
  | 0x20 => decodeC w .tbLeaf
  | 0x21 => decodeZ w .tbCount
  | 0x22 => decodeZ w .tbLeaves
  | 0x23 => decodeZ w .tbMerge
  | 0x24 => decodeZ w .tbRoot
  | 0x25 => decodeZ w .tbBuild
  | 0x30 => decodeZ w .ctGen
  | 0x31 => decodeC w .ctLookup
  | 0x40 => decodeZ w .enTree
  | 0x41 => decodeZ w .enText
  | 0x42 => decodeZ w .enEmit
  | 0x43 => decodeZ w .encode
  | 0x50 => decodeZ w .deHdr
  | 0x51 => decodeZ w .deTree
  | 0x52 => decodeZ w .deText
  | 0x53 => decodeZ w .decode
  | 0x00 => decodeZ w .nop
  | 0x01 => decodeZ w .clr
  | _ => .error .unknownOpcode

/-- A word of the opcode table as the decoder reads it: the table numbers bit 0 as the least significant bit of the
word, as the port does, and every command word has 32 bits (`spec/30_encoding.md` R100). -/
def decodeTableWord (nbits w : Nat) : Option Instr :=
  match decodeWord (Word.ofNat (w % 2 ^ nbits)) with
  | .ok i => some i
  | .error _ => none

/-- The opcode column of the table (`spec/30_encoding.md` R102). -/
def opcodeByte (i : Instr) : BitVec 8 :=
  match i with
  | .plIns _ => 0x10
  | .plRmin => 0x11
  | .plOne => 0x12
  | .tbLeaf _ => 0x20
  | .tbCount => 0x21
  | .tbLeaves => 0x22
  | .tbMerge => 0x23
  | .tbRoot => 0x24
  | .tbBuild => 0x25
  | .ctGen => 0x30
  | .ctLookup _ => 0x31
  | .enTree => 0x40
  | .enText => 0x41
  | .enEmit => 0x42
  | .encode => 0x43
  | .deHdr => 0x50
  | .deTree => 0x51
  | .deText => 0x52
  | .decode => 0x53
  | .nop => 0x00
  | .clr => 0x01

/-- The operand field, bits 23:0: `n` in 16:0, `ch` in 15:0, 0 elsewhere (`spec/30_encoding.md` R100). -/
def operandField (i : Instr) : BitVec 24 :=
  match i with
  | .plIns n => (BitVec.ofNat 17 n).zeroExtend 24
  | .tbLeaf ch => ch.zeroExtend 24
  | .ctLookup ch => ch.zeroExtend 24
  | .plRmin | .plOne | .tbCount | .tbLeaves | .tbMerge | .tbRoot | .tbBuild | .ctGen | .enTree | .enText
  | .enEmit | .encode | .deHdr | .deTree | .deText | .decode | .nop | .clr => 0

/-- The word of a command: the opcode in bits 31:24, the operand field below (`spec/30_encoding.md` R100). -/
def encodeInstr (i : Instr) : Word := opcodeByte i ++ operandField i

end Sys2Proof
end

