-- ==== Sys2Proof/Config.lean ====
section
/-!
DEFINITION. What is fixed for one core and is no state (`spec/10_state.md` R61): the constants of
`spec/00_scope.md` R7 and R8, the two capacities that R9 leaves open, and the free values that an unwritten
cell of TXT or FIL reads as (`spec/10_state.md` R65).
-/

namespace Sys2Proof.Config

/-- NCHAR, the number of character values (`spec/00_scope.md` R7). -/
abbrev nchar : Nat := 65536

/-- CODE_W, the width of the code register of a code table entry (`spec/00_scope.md` R7). -/
abbrev codeWidth : Nat := 16

/-- META_BYTES, the length of the header in bytes (`spec/00_scope.md` R7). -/
abbrev metaBytes : Nat := 4

/-- VERSION_MAX, the highest supported format version (`spec/00_scope.md` R7). -/
abbrev versionMax : Nat := 0

/-- TREE_BYTES_MIN, the smallest legal tree length in bytes (`spec/00_scope.md` R7). -/
abbrev treeBytesMin : Nat := 3

/-- TREE_BYTES_MAX, the largest legal tree length in bytes (`spec/00_scope.md` R7). -/
abbrev treeBytesMax : Nat := 147456

/-- FILE_MIN, the smallest non-empty file the decoder accepts, in bytes (`spec/00_scope.md` R7). -/
abbrev fileMin : Nat := 8

/-- NODE_MAX, the number of entries of the node arena (`spec/00_scope.md` R8). -/
abbrev nodeMax : Nat := 131071

/-- NULL as a register shows it, the index value that means "no node" (`spec/00_scope.md` R8). -/
abbrev nullIndex : Nat := 0x1FFFF

/-- The identity constant of the ID register (`spec/10_state.md` R51). -/
abbrev idValue : Word := 0x48544300

/-- The capacities TXT_CAP (units) and FIL_CAP (bytes), which `spec/00_scope.md` R9 leaves OPEN.
A machine carries its own pair in `State.caps`, which no step writes: log entry 4. -/
structure Capacities where
  txtCap : Nat
  filCap : Nat
  deriving DecidableEq, Repr

/-- The constraints of `spec/00_scope.md` R9. -/
abbrev Capacities.Legal (c : Capacities) : Prop :=
  1 ≤ c.txtCap ∧ c.txtCap ≤ 2 ^ 28 - 1 ∧ c.filCap ≤ 2 ^ 29 - 1

/-- "A recommended instantiation is TXT_CAP = 2^20 and FIL_CAP = 2^22" (`spec/00_scope.md` R9). -/
def recommended : Capacities := { txtCap := 2 ^ 20, filCap := 2 ^ 22 }

/-- What cell `i` of TXT holds after Reset number `k` until it is written: "unspecified", so free
(`spec/10_state.md` R65, `spec/93_implementation_defined.md` U1). Log entry 5. -/
opaque txtUnwritten : (k i : Nat) → CharUnit

/-- What cell `i` of FIL holds after Reset number `k` until it is written: "unspecified", so free
(`spec/10_state.md` R65, `spec/93_implementation_defined.md` U1). Log entry 5. -/
opaque filUnwritten : (k i : Nat) → Byte

end Sys2Proof.Config
end

