-- ==== Sys2Proof/Machine/State.lean ====
section
/-!
DEFINITION. The state of the HTC core (`spec/10_state.md` R20 to R52), the queue and the transcript of its host
port (`spec/20_memory.md` R71), the reasons a step can stop, and the state right after reset
(`spec/10_state.md` R65). All of it is plain data.
-/

namespace Sys2Proof.Machine

/-- Why the machine stops with no next state. The spec has no traps (`spec/60_exceptions.md` R297): both reasons
belong to states that no run reaches, and `Safety.lean` states the invariant that rules them out. -/
inductive Fault where
  /-- Raised by a walk over the node arena (Insert, RemoveMin, HasOne, HasTwo, Visit, Ser, DE.TEXT, PL.INS) that meets
  an index at or above NODE_CNT, an internal node without a child, or a walk that does not end within its
  bound. `spec/10_state.md` R45 rules such an arena out. Safe: the model stops. Log entry 9. -/
  | brokenArena
  /-- Raised by an access to TXT or FIL at an index at or above its capacity, where no cell exists.
  `spec/20_memory.md` R77 and R78 rule such an access out. Safe: the model stops. Log entry 10. -/
  | outsideMemory
  deriving DecidableEq, Repr

/-- Why an instruction has no meaning. -/
inductive Refusal where
  /-- Raised by no arm of `exec`: every command of the table is modelled. -/
  | notModelled (mnemonic : String)
  deriving DecidableEq, Repr

/-- The outcome kinds of a command (`spec/60_exceptions.md` R290). -/
inductive ErrKind where
  | ok
  | invalidArgument
  | storageError
  | unsupportedVersion
  | corruptFormat
  | codeOverflow
  | illegalCommand
  | badState
  deriving DecidableEq, Repr

/-- What the last command left in STATUS.ERR, ERRSUB and ERRPOS (`spec/10_state.md` R36, R37). -/
structure ErrorRecord where
  kind : ErrKind
  sub : Word
  pos : Word
  deriving DecidableEq, Repr

/-- The five flags, bits 8:4 of STATUS (`spec/10_state.md` R35, R36). -/
structure Flags where
  one : Bool
  empty : Bool
  found : Bool
  hdrv : Bool
  fempty : Bool
  deriving DecidableEq, Repr

/-- One entry of the node arena (`spec/10_state.md` R44). `none` is NULL, log entry 8. -/
structure Node where
  leaf : Bool
  ch : CharUnit
  wt : Word
  left : Option Nat
  right : Option Nat
  next : Option Nat
  inl : Bool
  child : Bool
  deriving DecidableEq, Repr

/-- One entry of the code table CTAB: `CODE[c]` and `CLEN[c]` (`spec/10_state.md` R47). -/
structure CodeEntry where
  code : BitVec 16
  len : BitVec 5
  deriving DecidableEq, Repr

/-- The statistics registers (`spec/10_state.md` R49). -/
structure Stats where
  chars : Word
  metaB : Word
  tree : Word
  text : Word
  deriving DecidableEq, Repr

/-- The header registers (`spec/10_state.md` R50). -/
structure Header where
  ver : BitVec 6
  tlen : BitVec 18
  tbits : BitVec 4
  xbits : BitVec 4
  tend : Word
  xstart : Word
  xend : Word
  deriving DecidableEq, Repr

/-- A memory or table as the list of its listed cells, in rising order of index; `Machine/Ops.lean` says for each
what an unlisted cell reads as. -/
abbrev Cells (α : Type) := List (Nat × α)

/-- The three operations of the host port (`spec/20_memory.md` R71). A register number is any number, since
numbers above 39 are refused and not excluded (R76). -/
inductive HostOp where
  | read (r : Nat)
  | write (r : Nat) (v : Word)
  | reset
  deriving DecidableEq, Repr

/-- The answers of the port: a value, OK, or the refusal HERR (`spec/20_memory.md` R71, R76). -/
inductive Answer where
  | value (v : Word)
  | ok
  | herr
  deriving DecidableEq, Repr

/-- The state of the machine. `INVENTORY.md`, section State, names the rule and the reset value of every field. -/
structure State where
  /-- The model's own: the host operations that the core has not taken yet, oldest first. Log entry 1. -/
  pending : List HostOp
  /-- The model's own: the port's answers, newest first. Log entry 3. -/
  answers : List Answer
  /-- The capacities TXT_CAP and FIL_CAP (`spec/00_scope.md` R9); no step writes them. Log entry 4. -/
  caps : Config.Capacities
  /-- The model's own: how many Resets there have been, the index of the free values. Log entry 5. -/
  resets : Nat
  /-- WARG (`spec/10_state.md` R21). -/
  warg : Word
  /-- RES0 (`spec/10_state.md` R21). -/
  res0 : Word
  /-- RES1 (`spec/10_state.md` R21). -/
  res1 : Word
  /-- STATUS.ERR, ERRSUB and ERRPOS (`spec/10_state.md` R36, R37). -/
  error : ErrorRecord
  /-- The flags of STATUS (`spec/10_state.md` R35). -/
  flags : Flags
  /-- TXT_LEN (`spec/10_state.md` R42). -/
  txtLen : Word
  /-- TXT_ADDR (`spec/10_state.md` R42). -/
  txtAddr : Word
  /-- FIL_LEN (`spec/10_state.md` R42). -/
  filLen : Word
  /-- FIL_ADDR (`spec/10_state.md` R42). -/
  filAddr : Word
  /-- TXT (`spec/10_state.md` R40): the cells written since the last Reset. Log entry 5. -/
  txt : Cells CharUnit
  /-- FIL (`spec/10_state.md` R41): the cells written since the last Reset. Log entry 5. -/
  fil : List Host.Cell
  /-- FREQ (`spec/10_state.md` R43): the cells that are not 0. Log entry 11. -/
  freq : Cells Word
  /-- The allocated nodes, indices 0..NODE_CNT − 1 (`spec/10_state.md` R44, R46). Log entry 6. -/
  nodes : List Node
  /-- LIST_HEAD (`spec/10_state.md` R46). -/
  listHead : Option Nat
  /-- ROOT (`spec/10_state.md` R46). -/
  root : Option Nat
  /-- CTAB (`spec/10_state.md` R47): the entries that are not (0, 0). Log entry 11. -/
  ctab : Cells CodeEntry
  /-- NCODES (`spec/10_state.md` R47). -/
  ncodes : BitVec 17
  /-- TBUF below its cursor; TCUR is its length (`spec/10_state.md` R31, R48). Log entry 7. -/
  tbuf : List Bool
  /-- XBUF below its cursor; XCUR is its length (`spec/10_state.md` R32, R48). Log entry 7. -/
  xbuf : List Bool
  /-- RCUR (`spec/10_state.md` R33). -/
  rcur : Word
  /-- STAT_CHARS, STAT_META, STAT_TREE and STAT_TEXT (`spec/10_state.md` R49). -/
  stats : Stats
  /-- The seven HDR registers (`spec/10_state.md` R50). -/
  hdr : Header
  /-- NODE_ADDR (`spec/10_state.md` R52). -/
  nodeAddr : BitVec 17
  /-- FRQ_ADDR (`spec/10_state.md` R52). -/
  frqAddr : BitVec 16
  deriving DecidableEq, Repr

/-- The record of a command that ended with `done` (`spec/00_scope.md` R16). -/
def ErrorRecord.clear : ErrorRecord := { kind := .ok, sub := 0, pos := 0 }

/-- All five flags 0 (`spec/10_state.md` R65). -/
def Flags.zero : Flags := { one := false, empty := false, found := false, hdrv := false, fempty := false }

/-- The four statistics registers 0 (`spec/10_state.md` R65). -/
def Stats.zero : Stats := { chars := 0, metaB := 0, tree := 0, text := 0 }

/-- The seven header registers 0 (`spec/10_state.md` R65). -/
def Header.zero : Header := { ver := 0, tlen := 0, tbits := 0, xbits := 0, tend := 0, xstart := 0, xend := 0 }

/-- The machine right after reset (`spec/10_state.md` R65): every register 0, LIST_HEAD and ROOT NULL, no node, the
tables zero, the buffers empty, no cell of TXT or FIL written. The queue and the transcript are empty, the capacities
are the recommended ones (log entries 1, 3, 4, 5). -/
def State.reset : State where
  pending := []
  answers := []
  caps := Config.recommended
  resets := 0
  warg := 0
  res0 := 0
  res1 := 0
  error := ErrorRecord.clear
  flags := Flags.zero
  txtLen := 0
  txtAddr := 0
  filLen := 0
  filAddr := 0
  txt := []
  fil := []
  freq := []
  nodes := []
  listHead := none
  root := none
  ctab := []
  ncodes := 0
  tbuf := []
  xbuf := []
  rcur := 0
  stats := Stats.zero
  hdr := Header.zero
  nodeAddr := 0
  frqAddr := 0

end Sys2Proof.Machine
end

