-- ==== Sys2Proof/Machine/Ops.lean ====
section
/-!
DEFINITION. The named operations over the state: how a command ends (`spec/00_scope.md` R16), the cells of a
memory or table, reads and writes of TXT and FIL (`spec/20_memory.md` R77, R78), and the clearings
(`spec/10_state.md` R46, R55).
-/

namespace Sys2Proof.Machine

/-! ## How a command ends -/

/-- Why a body did not run to its end: a `raise`, with the state the body has left by then, or a model fault. -/
inductive Stop where
  | raised (s : State) (e : ErrorRecord)
  | fault (f : Fault)
  deriving DecidableEq, Repr

/-- The result of the body of a command: the state at its end, or why it stopped. A composite command runs bodies one
after the other, and "a `raise` in any body ends" it (`spec/43_encoder.md` R221, `spec/44_decoder.md` R260). -/
abbrev Body := Except Stop State

/-- `done`: ERR, ERRSUB and ERRPOS become 0 (`spec/00_scope.md` R16). -/
def State.done (s : State) : State := { s with error := ErrorRecord.clear }

/-- `raise`: the one way an error is taken (`spec/00_scope.md` R16, `spec/60_exceptions.md` R297): the three error
registers are written, and nothing is saved, masked or sent anywhere. There is no return from it: the next command
overwrites the record (R298). -/
def State.raise (s : State) (e : ErrorRecord) : State := { s with error := e }

/-- `raise kind(sub, pos)` inside a body whose state is `s` by then (`spec/00_scope.md` R16). -/
def raiseAt (s : State) (kind : ErrKind) (sub pos : Nat) : Body :=
  .error (.raised s { kind := kind, sub := Word.ofNat sub, pos := Word.ofNat pos })

/-- `raise BadState`, with `sub = 0` and `pos = 0` (`spec/00_scope.md` R16). -/
def badState (s : State) : Body := raiseAt s .badState 0 0

/-- A walk over the arena found no answer: log entry 9. -/
def brokenArena : Body := .error (.fault .brokenArena)

/-- An access where no cell exists: log entry 10. -/
def outsideMemory : Body := .error (.fault .outsideMemory)

/-- A command ends in exactly one of two ways (`spec/00_scope.md` R16), or the model stops. -/
def finish (b : Body) : Host.Outcome State Fault Refusal :=
  match b with
  | .ok s => .next s.done
  | .error (.raised s e) => .next (s.raise e)
  | .error (.fault f) => .fault f

/-! ## Cells -/

/-- The listed value of cell `a`, if it is listed. -/
def cellsGet? {α : Type} (m : Cells α) (a : Nat) : Option α :=
  match m with
  | [] => none
  | (k, v) :: rest => if k = a then some v else cellsGet? rest a

/-- List `v` at cell `a`, in place of what was listed there, keeping the indices rising. -/
def cellsPut {α : Type} (m : Cells α) (a : Nat) (v : α) : Cells α :=
  match m with
  | [] => [(a, v)]
  | (k, u) :: rest =>
    if a < k then (a, v) :: (k, u) :: rest
    else if a = k then (a, v) :: rest
    else (k, u) :: cellsPut rest a v

/-- Take cell `a` off the list. -/
def cellsErase {α : Type} (m : Cells α) (a : Nat) : Cells α := m.filter (fun c => c.1 != a)

/-- List the values of `vs` at the cells `a`, `a + 1`, …, in this order. -/
def cellsPutAll {α : Type} (m : Cells α) (a : Nat) (vs : List α) : Cells α :=
  match vs with
  | [] => m
  | v :: rest => cellsPutAll (cellsPut m a v) (a + 1) rest

/-- A cell of a table whose unlisted cells read as `d` (FREQ, CTAB). -/
def tableGet {α : Type} (d : α) (t : Cells α) (a : Nat) : α := (cellsGet? t a).getD d

/-- Write a cell of such a table: writing `d` takes the cell off the list. -/
def tableSet {α : Type} [DecidableEq α] (d : α) (t : Cells α) (a : Nat) (v : α) : Cells α :=
  if v = d then cellsErase t a else cellsPut t a v

/-- The canonical form of a memory of `cap` cells: indices strictly rising and below `cap`. An unlisted cell is one
that nothing has written since the last Reset, so no listed value equals it (log entry 11). -/
abbrev Memory.wf {α : Type} (cap : Nat) (m : Cells α) : Prop :=
  m.Pairwise (fun x y => x.1 < y.1) ∧ ∀ c ∈ m, c.1 < cap

/-- The canonical form of a table of `size` cells whose unlisted cells read as `d`. -/
abbrev Table.wf {α : Type} (d : α) (size : Nat) (t : Cells α) : Prop :=
  Memory.wf size t ∧ ∀ c ∈ t, c.2 ≠ d

/-! ## The two host memories -/

/-- `TXT[i]`: the value written last since the last Reset, or the free value of an unwritten cell
(`spec/20_memory.md` R77, R80). -/
def State.readTxt (s : State) (i : Nat) : CharUnit := (cellsGet? s.txt i).getD (Config.txtUnwritten s.resets i)

/-- `FIL[i]`: the value written last since the last Reset, or the free value of an unwritten cell
(`spec/20_memory.md` R77, R80). -/
def State.readFil (s : State) (i : Nat) : Byte := (cellsGet? s.fil i).getD (Config.filUnwritten s.resets i)

/-- `TXT[i] <- v` (`spec/20_memory.md` R77). -/
def State.writeTxt (s : State) (i : Nat) (v : CharUnit) : State := { s with txt := cellsPut s.txt i v }

/-- `FIL[i] <- v` (`spec/20_memory.md` R77). -/
def State.writeFil (s : State) (i : Nat) (v : Byte) : State := { s with fil := cellsPut s.fil i v }

/-! ## Registers that are views of what the state stores -/

/-- NODE_CNT, the number of allocated nodes (`spec/10_state.md` R46). -/
def State.nodeCnt (s : State) : Nat := s.nodes.length

/-- TCUR, "the number of bits that EN.TREE has appended to TBUF" (`spec/10_state.md` R31). -/
def State.tcur (s : State) : Nat := s.tbuf.length

/-- XCUR, "the number of bits that EN.TEXT has appended to XBUF" (`spec/10_state.md` R32). -/
def State.xcur (s : State) : Nat := s.xbuf.length

/-- A node reference as a register shows it: NULL is 0x1FFFF (`spec/10_state.md` R46, R52). -/
def refWord (r : Option Nat) : Word := Word.ofNat (r.getD Config.nullIndex)

/-! ## Clearing -/

/-- `ClearNodes()` (`spec/10_state.md` R46). -/
def State.clearNodes (s : State) : State := { s with nodes := [], listHead := none, root := none }

/-- The code table after "every `CODE[c] <- 0`, every `CLEN[c] <- 0`, `NCODES <- 0`" (`spec/42_code_table.md`
R192, R194). -/
def State.clearCodes (s : State) : State := { s with ctab := [], ncodes := 0 }

/-- `ClearWorking()` (`spec/10_state.md` R55). -/
def State.clearWorking (s : State) : State :=
  { s.clearNodes.clearCodes with
    res0 := 0
    res1 := 0
    flags := Flags.zero
    freq := []
    tbuf := []
    xbuf := []
    rcur := 0
    stats := Stats.zero
    hdr := Header.zero }

/-- The Reset operation, step by step as `spec/70_reset_and_hazards.md` R330 lists it. "The cells of TXT and FIL are
unspecified after it", every time, so the count of Resets goes up and no cell is listed (log entries 5, 13). -/
def State.resetCore (s : State) : State :=
  { s.clearWorking with
    warg := 0
    txtLen := 0
    txtAddr := 0
    filLen := 0
    filAddr := 0
    nodeAddr := 0
    frqAddr := 0
    error := ErrorRecord.clear
    txt := []
    fil := []
    resets := s.resets + 1 }

end Sys2Proof.Machine
end

