-- ==== Sys2Proof/Machine/Control.lean ====
section
/-!
DEFINITION. The control family (`spec/45_control.md`): NOP and CLR.
-/

namespace Sys2Proof.Machine

/-- NOP: `done` and nothing else (`spec/45_control.md` R281). -/
def execNop (s : State) : Host.Outcome State Fault Refusal := finish (.ok s)

/-- CLR: `ClearWorking()` (`spec/45_control.md` R282). -/
def execClr (s : State) : Host.Outcome State Fault Refusal := finish (.ok s.clearWorking)

end Sys2Proof.Machine
end

