-- ==== Sys2Proof/Machine/Flags.lean ====
section
/-!
DEFINITION. The five flags, the outcome codes and the STATUS word (`spec/10_state.md` R35, R36,
`spec/60_exceptions.md` R290).
-/

namespace Sys2Proof.Machine

/-- The number of an outcome (`spec/60_exceptions.md` R290). -/
def errCode (k : ErrKind) : BitVec 4 :=
  match k with
  | .ok => 0
  | .invalidArgument => 1
  | .storageError => 2
  | .unsupportedVersion => 3
  | .corruptFormat => 4
  | .codeOverflow => 5
  | .illegalCommand => 6
  | .badState => 7

/-- STATUS (`spec/10_state.md` R36): FEMPTY, HDRV, FOUND, EMPTY, ONE in bits 8 to 4, ERR in bits 3:0, zeros above. -/
def State.status (s : State) : Word :=
  0#23 ++ BitVec.ofBool s.flags.fempty ++ BitVec.ofBool s.flags.hdrv ++ BitVec.ofBool s.flags.found
    ++ BitVec.ofBool s.flags.empty ++ BitVec.ofBool s.flags.one ++ errCode s.error.kind

/-- `ONE <- b`, written by PL.ONE only (`spec/10_state.md` R35). -/
def State.setOne (s : State) (b : Bool) : State := { s with flags := { s.flags with one := b } }

/-- `EMPTY <- b`, written by PL.RMIN only (`spec/10_state.md` R35). -/
def State.setEmpty (s : State) (b : Bool) : State := { s with flags := { s.flags with empty := b } }

/-- `FOUND <- b`, written by CT.LOOKUP only (`spec/10_state.md` R35). -/
def State.setFound (s : State) (b : Bool) : State := { s with flags := { s.flags with found := b } }

/-- `HDRV <- v ; FEMPTY <- e`, written by DE.HDR only (`spec/10_state.md` R35). -/
def State.setHdrFlags (s : State) (v e : Bool) : State :=
  { s with flags := { s.flags with hdrv := v, fempty := e } }

end Sys2Proof.Machine
end

