-- ==== Sys2Proof/Machine/Stream.lean ====
section
/-!
DEFINITION. Bit streams (`spec/00_scope.md` R13, R15) and their bytes (`spec/30_encoding.md` R108,
`spec/43_encoder.md` R210): most significant bit first.
-/

namespace Sys2Proof.Machine

/-- The number that a bit string spells, first bit most significant (`spec/00_scope.md` R12, R15). -/
def bitsToNat (bits : List Bool) : Nat := bits.foldl (fun acc b => 2 * acc + b.toNat) 0

/-- What `AppendBits(B, CUR, v, n)` appends: `v[n − 1]`, then `v[n − 2]`, down to `v[0]` (`spec/00_scope.md` R15). -/
def bitsOf {w : Nat} (v : BitVec w) (n : Nat) : List Bool :=
  match n with
  | 0 => []
  | k + 1 => v.getLsbD k :: bitsOf v k

/-- `ceil8(n)`, the byte length of a stream of n bits (`spec/00_scope.md` R11, `spec/30_encoding.md` R108). -/
def ceil8 (n : Nat) : Nat := (n + 7) / 8

/-- The valid-bit count of the last byte of a stream of n bits, n ≥ 1 (`spec/30_encoding.md` R108). -/
def lastBits (n : Nat) : Nat := (n - 1) % 8 + 1

/-- The byte made of the first eight bits of a stream, bits that are not there counting as 0
(`spec/43_encoder.md` R210, `spec/10_state.md` R48). -/
def byteOfBits (bits : List Bool) : Byte :=
  BitVec.ofNat 8 (bitsToNat ((bits ++ List.replicate 8 false).take 8))

/-- The first `k` bytes of a stream: `Byte(B, CUR, i)` for i = 0 .. k − 1 (`spec/43_encoder.md` R210). -/
def packBytes (k : Nat) (bits : List Bool) : List Byte :=
  match k with
  | 0 => []
  | j + 1 => byteOfBits bits :: packBytes j (bits.drop 8)

end Sys2Proof.Machine
end

