-- ==== Sys2Proof/Machine/Operands.lean ====
section
/-!
DEFINITION. What the operands and the implied inputs of the commands denote (`spec/30_encoding.md` R100, R101): a
node index, a character, the declared text, the bits of the file.
-/

namespace Sys2Proof.Machine

/-- The node a node index names, if it is allocated (`spec/10_state.md` R44). -/
def State.node? (s : State) (n : Nat) : Option Node := s.nodes[n]?

/-- `FREQ[c]` (`spec/10_state.md` R43). -/
def State.freqOf (s : State) (c : Nat) : Word := tableGet 0 s.freq c

/-- The code table entry of no code, `CODE = 0` and `CLEN = 0` (`spec/10_state.md` R47). -/
def CodeEntry.absent : CodeEntry := { code := 0, len := 0 }

/-- The entry of character c in a code table (`spec/42_code_table.md` R190). -/
def entryOf (t : Cells CodeEntry) (c : CharUnit) : CodeEntry := tableGet CodeEntry.absent t c.toNat

/-- The code of a character as a bit string, `CODE[c][CLEN[c] − 1] ++ … ++ CODE[c][0]` (`spec/42_code_table.md`
R190). -/
def entryBits (e : CodeEntry) : List Bool := bitsOf e.code e.len.toNat

/-- `TXT[i]`, `TXT[i + 1]`, …, k units (`spec/10_state.md` R40). -/
def State.textFrom (s : State) (i k : Nat) : List CharUnit :=
  match k with
  | 0 => []
  | j + 1 => s.readTxt i :: s.textFrom (i + 1) j

/-- The declared text, `TXT[0..TXT_LEN − 1]` (`spec/10_state.md` R40). -/
def State.text (s : State) : List CharUnit := s.textFrom 0 s.txtLen.toNat

/-- Every unit of the declared text has a cell (`spec/10_state.md` R42). -/
def State.textInMemory (s : State) : Bool := decide (s.txtLen.toNat ≤ s.caps.txtCap)

/-- `FileBit(p)`: bit `7 − (p mod 8)` of `FIL[p div 8]` (`spec/00_scope.md` R15). -/
def State.fileBit (s : State) (p : Nat) : Bool := (s.readFil (p / 8)).getLsbD (7 - p % 8)

/-- The bits of `FileBits(p, n)`, in stream order (`spec/00_scope.md` R15). -/
def State.fileBits (s : State) (p n : Nat) : List Bool :=
  match n with
  | 0 => []
  | k + 1 => s.fileBit p :: s.fileBits (p + 1) k

/-- Every bit of FIL below offset `p` lies in a cell (`spec/20_memory.md` R78). -/
def State.fileInMemory (s : State) (p : Nat) : Bool := decide (p ≤ 8 * s.caps.filCap)

end Sys2Proof.Machine
end

