-- ==== Sys2Proof/Machine/PriorityList.lean ====
section
/-!
DEFINITION. The priority list family (`spec/40_priority_list.md`): the procedures Insert, RemoveMin, HasOne and
HasTwo over the arena and LIST_HEAD, and the commands PL.INS, PL.RMIN and PL.ONE. An answer `none` of a
procedure means a broken arena (log entry 9).
-/

namespace Sys2Proof.Machine

/-- The arena with the list threaded through it, as the procedures hand it on. -/
structure Arena where
  nodes : List Node
  head : Option Nat
  deriving DecidableEq, Repr

/-- The arena of a state. -/
def State.arena (s : State) : Arena := { nodes := s.nodes, head := s.listHead }

/-- The state with its arena and LIST_HEAD replaced. -/
def State.withArena (s : State) (a : Arena) : State := { s with nodes := a.nodes, listHead := a.head }

/-- `NEXT[n] <- r`. -/
def setNext (nodes : List Node) (n : Nat) (r : Option Nat) : List Node :=
  nodes.modify n (fun x => { x with next := r })

/-- `INL[n] <- b`. -/
def setInl (nodes : List Node) (n : Nat) (b : Bool) : List Node :=
  nodes.modify n (fun x => { x with inl := b })

/-- The loop of `Insert` from list node `p` on (`spec/40_priority_list.md` R141): go on while the next node's weight is
at most `w`, then link `n` after `p`. The first argument bounds the walk by the number of nodes (`spec/70_reset_and_hazards.md`
R342, log entry 12). -/
def insertAfter (nodes : List Node) (n : Nat) (w : Word) (fuel p : Nat) : Option (List Node) :=
  match fuel with
  | 0 => none
  | k + 1 =>
    match nodes[p]? with
    | none => none
    | some x =>
      match x.next with
      | none => some (setNext (setNext nodes n none) p (some n))
      | some q =>
        match nodes[q]? with
        | none => none
        | some y =>
          if y.wt ≤ w then insertAfter nodes n w k q
          else some (setNext (setNext nodes n (some q)) p (some n))

/-- `Insert(n)` (`spec/40_priority_list.md` R141). -/
def insertNode (a : Arena) (n : Nat) : Option Arena :=
  match a.nodes[n]? with
  | none => none
  | some x =>
    match a.head with
    | none => some { nodes := setInl (setNext a.nodes n none) n true, head := some n }
    | some h =>
      match a.nodes[h]? with
      | none => none
      | some y =>
        if x.wt < y.wt then some { nodes := setInl (setNext a.nodes n (some h)) n true, head := some n }
        else
          (insertAfter a.nodes n x.wt a.nodes.length h).map
            (fun nodes => { nodes := setInl nodes n true, head := some h })

/-- What `RemoveMin()` hands back when the list is not empty: the node, its weight, and the arena without it in the
list. -/
structure Removed where
  index : Nat
  wt : Word
  arena : Arena
  deriving DecidableEq, Repr

/-- `RemoveMin()` (`spec/40_priority_list.md` R143); the inner `none` is the returned NULL. -/
def removeMin (a : Arena) : Option (Option Removed) :=
  match a.head with
  | none => some none
  | some n =>
    match a.nodes[n]? with
    | none => none
    | some x =>
      some (some { index := n, wt := x.wt
                   arena := { nodes := setInl (setNext a.nodes n none) n false, head := x.next } })

/-- `HasOne()` (`spec/40_priority_list.md` R146). -/
def hasOne (a : Arena) : Option Bool :=
  match a.head with
  | none => some false
  | some h => (a.nodes[h]?).map (fun x => x.next.isNone)

/-- `HasTwo()` (`spec/40_priority_list.md` R146). -/
def hasTwo (a : Arena) : Option Bool :=
  match a.head with
  | none => some false
  | some h => (a.nodes[h]?).map (fun x => x.next.isSome)

/-- Run a body on the answer of a procedure over the arena. -/
def withAnswer {α : Type} (answer : Option α) (k : α → Body) : Body :=
  match answer with
  | none => brokenArena
  | some a => k a

/-- The body of PL.INS (`spec/40_priority_list.md` R142). -/
def plInsBody (n : Nat) (s : State) : Body :=
  match s.node? n with
  | none => badState s
  | some x =>
    if x.inl || x.child then badState s
    else withAnswer (insertNode s.arena n) (fun a => .ok (s.withArena a))

/-- The body of PL.RMIN (`spec/40_priority_list.md` R144). -/
def plRminBody (s : State) : Body :=
  withAnswer (removeMin s.arena) (fun r =>
    match r with
    | none => .ok { s.setEmpty true with res0 := refWord none, res1 := 0 }
    | some r => .ok { (s.setEmpty false).withArena r.arena with res0 := Word.ofNat r.index, res1 := r.wt })

/-- The body of PL.ONE (`spec/40_priority_list.md` R145). -/
def plOneBody (s : State) : Body := withAnswer (hasOne s.arena) (fun b => .ok (s.setOne b))

/-- PL.INS n (`spec/40_priority_list.md` R142). -/
def execPlIns (n : Nat) (s : State) : Host.Outcome State Fault Refusal := finish (plInsBody n s)

/-- PL.RMIN (`spec/40_priority_list.md` R144). -/
def execPlRmin (s : State) : Host.Outcome State Fault Refusal := finish (plRminBody s)

/-- PL.ONE (`spec/40_priority_list.md` R145). -/
def execPlOne (s : State) : Host.Outcome State Fault Refusal := finish (plOneBody s)

end Sys2Proof.Machine
end

