-- ==== Sys2Proof/Machine/TreeBuilder.lean ====
section
/-!
DEFINITION. The tree builder family (`spec/41_tree_builder.md`): allocation, TB.LEAF, TB.COUNT, TB.LEAVES,
TB.MERGE, TB.ROOT and TB.BUILD.
-/

namespace Sys2Proof.Machine

/-- The node that `AllocLeaf(c, w)` makes (`spec/41_tree_builder.md` R160). -/
def newLeaf (c : CharUnit) (w : Word) : Node :=
  { leaf := true, ch := c, wt := w, left := none, right := none, next := none, inl := false, child := false }

/-- The node that `AllocInternal(a, b, w)` makes (`spec/41_tree_builder.md` R160). -/
def newInternal (a b : Option Nat) (w : Word) : Node :=
  { leaf := false, ch := 0, wt := w, left := a, right := b, next := none, inl := false, child := false }

/-- `CHILD[n] <- 1`. -/
def setChild (nodes : List Node) (n : Nat) : List Node := nodes.modify n (fun x => { x with child := true })

/-- NODE_CNT = NODE_MAX: no index is left (`spec/41_tree_builder.md` R160; log entry 14). -/
def arenaFull (nodes : List Node) : Bool := decide (Config.nodeMax ≤ nodes.length)

/-- The body of TB.LEAF (`spec/41_tree_builder.md` R161). The new node gets the index NODE_CNT. -/
def tbLeafBody (ch : CharUnit) (s : State) : Body :=
  if arenaFull s.nodes then badState s
  else .ok { s with nodes := s.nodes ++ [newLeaf ch s.warg], res0 := Word.ofNat s.nodeCnt }

/-- `FREQ[c] <- FREQ[c] + 1` (`spec/41_tree_builder.md` R162). -/
def countUnit (freq : Cells Word) (c : CharUnit) : Cells Word :=
  tableSet 0 freq c.toNat (tableGet 0 freq c.toNat + 1)

/-- The body of TB.COUNT (`spec/41_tree_builder.md` R162): from a table of zeros, one increment per unit. -/
def tbCountBody (s : State) : Body :=
  if s.textInMemory then .ok { s with freq := s.text.foldl countUnit [] } else outsideMemory

/-- One turn of TB.LEAVES: `AllocLeaf(c, w)`, then `Insert` (`spec/41_tree_builder.md` R164). -/
def addLeaf (a : Arena) (c : Nat) (w : Word) : Option Arena :=
  insertNode { a with nodes := a.nodes ++ [newLeaf (BitVec.ofNat 16 c) w] } a.nodes.length

/-- The loop of TB.LEAVES over the characters whose count is not 0, in ascending order: these are the listed cells of
FREQ (`spec/41_tree_builder.md` R164). -/
def addLeaves (a : Arena) (freq : Cells Word) : Option Arena :=
  match freq with
  | [] => some a
  | (c, w) :: rest =>
    match addLeaf a c w with
    | none => none
    | some a' => addLeaves a' rest

/-- The body of TB.LEAVES (`spec/41_tree_builder.md` R164). -/
def tbLeavesBody (s : State) : Body :=
  withAnswer (addLeaves s.clearNodes.arena s.freq) (fun a => .ok (s.clearNodes.withArena a))

/-- The part of TB.MERGE after its three checks: two removals, the new node over them, its insertion
(`spec/41_tree_builder.md` R166). -/
def mergeArena (a : Arena) : Option (Nat × Word × Arena) :=
  match removeMin a with
  | some (some x) =>
    match removeMin x.arena with
    | some (some y) =>
      let m := y.arena.nodes.length
      let w := x.wt + y.wt
      let nodes := y.arena.nodes ++ [newInternal (some x.index) (some y.index) w]
      (insertNode { nodes := setChild (setChild nodes x.index) y.index, head := y.arena.head } m).map
        (fun a' => (m, w, a'))
    | _ => none
  | _ => none

/-- `WT[LIST_HEAD] + WT[NEXT[LIST_HEAD]]` as a natural number, for a list of two nodes or more
(`spec/41_tree_builder.md` R166). -/
def headSum (a : Arena) : Option Nat :=
  match a.head with
  | none => none
  | some h =>
    match a.nodes[h]? with
    | none => none
    | some x =>
      match x.next with
      | none => none
      | some q => (a.nodes[q]?).map (fun y => x.wt.toNat + y.wt.toNat)

/-- The body of TB.MERGE (`spec/41_tree_builder.md` R166): too few nodes, then a full arena, then a sum over 32 bits
give BadState before any change. -/
def tbMergeBody (s : State) : Body :=
  withAnswer (hasTwo s.arena) (fun two =>
    if !two then badState s
    else if arenaFull s.nodes then badState s
    else withAnswer (headSum s.arena) (fun sum =>
      if 0xFFFFFFFF < sum then badState s
      else withAnswer (mergeArena s.arena) (fun r =>
        .ok { s.withArena r.2.2 with res0 := Word.ofNat r.1, res1 := r.2.1 })))

/-- The body of TB.ROOT (`spec/41_tree_builder.md` R168). -/
def tbRootBody (s : State) : Body :=
  withAnswer (hasOne s.arena) (fun one =>
    if !one then badState s
    else withAnswer (removeMin s.arena) (fun r =>
      match r with
      | none => badState s
      | some r => .ok { s.withArena r.arena with root := some r.index, res0 := Word.ofNat r.index, res1 := r.wt }))

/-- `while not HasOne() do` the body of TB.MERGE (`spec/41_tree_builder.md` R170), with a bound on the number of turns
(`spec/70_reset_and_hazards.md` R342, log entry 12). -/
def mergeLoop (fuel : Nat) (s : State) : Body :=
  match fuel with
  | 0 => brokenArena
  | k + 1 =>
    withAnswer (hasOne s.arena) (fun one =>
      if one then .ok s
      else
        match tbMergeBody s with
        | .ok s' => mergeLoop k s'
        | .error e => .error e)

/-- The body of TB.BUILD (`spec/41_tree_builder.md` R170). -/
def tbBuildBody (s : State) : Body :=
  if s.txtLen = 0 then raiseAt s .invalidArgument 0 0
  else do
    let s ← tbCountBody s
    let s ← tbLeavesBody s
    let s ← mergeLoop s.nodeCnt s
    tbRootBody s

/-- TB.LEAF ch (`spec/41_tree_builder.md` R161). -/
def execTbLeaf (ch : CharUnit) (s : State) : Host.Outcome State Fault Refusal := finish (tbLeafBody ch s)

/-- TB.COUNT (`spec/41_tree_builder.md` R162). -/
def execTbCount (s : State) : Host.Outcome State Fault Refusal := finish (tbCountBody s)

/-- TB.LEAVES (`spec/41_tree_builder.md` R164). -/
def execTbLeaves (s : State) : Host.Outcome State Fault Refusal := finish (tbLeavesBody s)

/-- TB.MERGE (`spec/41_tree_builder.md` R166). -/
def execTbMerge (s : State) : Host.Outcome State Fault Refusal := finish (tbMergeBody s)

/-- TB.ROOT (`spec/41_tree_builder.md` R168). -/
def execTbRoot (s : State) : Host.Outcome State Fault Refusal := finish (tbRootBody s)

/-- TB.BUILD (`spec/41_tree_builder.md` R170). -/
def execTbBuild (s : State) : Host.Outcome State Fault Refusal := finish (tbBuildBody s)

end Sys2Proof.Machine
end

