-- ==== Sys2Proof/Machine/Decoder.lean ====
section
/-!
DEFINITION. The decoder family (`spec/44_decoder.md`): DE.HDR, DE.TREE, DE.TEXT and DECODE.
-/

namespace Sys2Proof.Machine

/-! ## The header -/

/-- `FIL[0][7:2]` (`spec/30_encoding.md` R106). -/
def State.fileVersion (s : State) : Nat := (s.readFil 0).toNat / 4

/-- `FIL[0][1:0] × 65536 + FIL[1] × 256 + FIL[2]` (`spec/30_encoding.md` R106). -/
def State.fileTreeLength (s : State) : Nat :=
  (s.readFil 0).toNat % 4 * 65536 + (s.readFil 1).toNat * 256 + (s.readFil 2).toNat

/-- `FIL[3][7:4]` (`spec/30_encoding.md` R106). -/
def State.fileTreeBits (s : State) : Nat := (s.readFil 3).toNat / 16

/-- `FIL[3][3:0]` (`spec/30_encoding.md` R106). -/
def State.fileTextBits (s : State) : Nat := (s.readFil 3).toNat % 16

/-- The seven header registers for a file of `len` bytes that passed every check (`spec/44_decoder.md` R241, R246). -/
def headerOf (ver tlen tbits xbits len : Nat) : Header :=
  { ver := BitVec.ofNat 6 ver
    tlen := BitVec.ofNat 18 tlen
    tbits := BitVec.ofNat 4 tbits
    xbits := BitVec.ofNat 4 xbits
    tend := Word.ofNat (24 + 8 * tlen + tbits)
    xstart := Word.ofNat (8 * (4 + tlen))
    xend := Word.ofNat (8 * (4 + tlen) + 8 * (len - 4 - tlen - 1) + xbits) }

/-- The record of `raise CorruptFormat(sub, pos)` (`spec/00_scope.md` R16). -/
def corrupt (sub pos : Nat) : ErrorRecord :=
  { kind := .corruptFormat, sub := Word.ofNat sub, pos := Word.ofNat pos }

/-- The checks of a file that is not empty, in the order of R243: the record of the first that fails, or the header
registers (`spec/44_decoder.md` R241 to R246). -/
def checkHeader (s : State) : Except ErrorRecord Header :=
  if s.filLen.toNat < Config.fileMin then .error (corrupt 1 0)
  else if Config.versionMax < s.fileVersion then .error { kind := .unsupportedVersion, sub := 0, pos := 0 }
  else if s.fileTreeLength < Config.treeBytesMin ∨ Config.treeBytesMax < s.fileTreeLength then .error (corrupt 2 0)
  else if s.fileTreeBits < 1 ∨ 8 < s.fileTreeBits then .error (corrupt 3 0)
  else if s.fileTextBits < 1 ∨ 8 < s.fileTextBits then .error (corrupt 4 0)
  else if s.filLen.toNat - 4 < s.fileTreeLength + 1 then .error (corrupt 5 0)
  else .ok (headerOf s.fileVersion s.fileTreeLength s.fileTreeBits s.fileTextBits s.filLen.toNat)

/-- HDRV, FEMPTY and the seven header registers as DE.HDR leaves them (`spec/44_decoder.md` R241). -/
def State.setHeader (s : State) (v e : Bool) (h : Header) : State := { s.setHdrFlags v e with hdr := h }

/-- The body of DE.HDR (`spec/44_decoder.md` R241, R242): everything is 0 unless the file is empty, which gives FEMPTY, or
its header passes every check, which gives HDRV. -/
def deHdrBody (s : State) : Body :=
  if s.filLen = 0 then .ok (s.setHeader false true Header.zero)
  else if s.caps.filCap < s.filLen.toNat then outsideMemory
  else
    match checkHeader s with
    | .ok h => .ok (s.setHeader true false h)
    | .error e => .error (.raised (s.setHeader false false Header.zero) e)

/-! ## The tree -/

/-- What `Parse()` hands back: the node, and the arena and RCUR after it. -/
structure Parsed where
  index : Nat
  nodes : List Node
  rcur : Nat
  deriving DecidableEq, Repr

/-- `LEFT[n] <- l ; CHILD[l] <- 1` (`spec/44_decoder.md` R250). -/
def setLeft (nodes : List Node) (n l : Nat) : List Node :=
  setChild (nodes.modify n (fun x => { x with left := some l })) l

/-- `RIGHT[n] <- r ; CHILD[r] <- 1` (`spec/44_decoder.md` R250). -/
def setRight (nodes : List Node) (n r : Nat) : List Node :=
  setChild (nodes.modify n (fun x => { x with right := some r })) r

/-- `Parse()` at RCUR = `rcur` (`spec/44_decoder.md` R250). `fuel` is at least the number of bits left before HDR_TEND,
each call consumes one, so it runs out only where the first check raises (R250, log entry 12). -/
def parse (s : State) (tend fuel : Nat) (nodes : List Node) (rcur : Nat) : Except ErrorRecord Parsed :=
  match fuel with
  | 0 => .error (corrupt 6 rcur)
  | k + 1 =>
    if tend ≤ rcur then .error (corrupt 6 rcur)
    else if arenaFull nodes then .error (corrupt 7 rcur)
    else if s.fileBit rcur then
      if tend < rcur + 1 + 16 then .error (corrupt 6 (rcur + 1))
      else .ok { index := nodes.length
                 nodes := nodes ++ [newLeaf (BitVec.ofNat 16 (bitsToNat (s.fileBits (rcur + 1) 16))) 0]
                 rcur := rcur + 1 + 16 }
    else
      match parse s tend k (nodes ++ [newInternal none none 0]) (rcur + 1) with
      | .error e => .error e
      | .ok l =>
        match parse s tend k (setLeft l.nodes nodes.length l.index) l.rcur with
        | .error e => .error e
        | .ok r => .ok { index := nodes.length, nodes := setRight r.nodes nodes.length r.index, rcur := r.rcur }

/-- The offset of the first bit of the tree region (`spec/44_decoder.md` R249). -/
abbrev treeStart : Nat := 8 * Config.metaBytes

/-- The body of DE.TREE (`spec/44_decoder.md` R249): on a raise inside Parse the nodes are freed again and RCUR, which
is the offset that ERRPOS records, is kept. -/
def deTreeBody (s : State) : Body :=
  if s.flags.hdrv = false then badState s
  else if s.fileInMemory s.hdr.tend.toNat = false then outsideMemory
  else
    match parse s s.hdr.tend.toNat (s.hdr.tend.toNat - treeStart) [] treeStart with
    | .ok p => .ok { s.clearNodes with nodes := p.nodes, root := some p.index, rcur := Word.ofNat p.rcur }
    | .error e => .error (.raised { s.clearNodes with rcur := e.pos } e)

/-! ## The text -/

/-- Why DE.TEXT did not read to HDR_XEND: a `Fail` with its record, and TXT as written by then, or a broken arena. -/
inductive TextStop where
  | fail (txt : Cells CharUnit) (e : ErrorRecord)
  | broken
  deriving DecidableEq, Repr

/-- `Emit(c, p)` with n characters written so far (`spec/44_decoder.md` R256). -/
def emit (cap n p : Nat) (c : CharUnit) (txt : Cells CharUnit) : Except TextStop (Cells CharUnit) :=
  if cap ≤ n then .error (.fail txt { kind := .storageError, sub := 0, pos := Word.ofNat p })
  else .ok (cellsPut txt n c)

/-- The loop of DE.TEXT for a tree that is one leaf (`spec/44_decoder.md` R254, R255): `k` bits from offset `p` on, n
characters written so far. -/
def oneLeafText (s : State) (c : CharUnit) (k p n : Nat) (txt : Cells CharUnit) :
    Except TextStop (Nat × Cells CharUnit) :=
  match k with
  | 0 => .ok (n, txt)
  | j + 1 =>
    if s.fileBit p then .error (.fail txt (corrupt 9 p))
    else
      match emit s.caps.txtCap n p c txt with
      | .error e => .error e
      | .ok txt' => oneLeafText s c j (p + 1) (n + 1) txt'

/-- The loop of DE.TEXT for other trees (`spec/44_decoder.md` R254): `k` bits from offset `p` on, the walk standing at
node `cur`, n characters written so far. -/
def walkText (s : State) (root k p cur n : Nat) (txt : Cells CharUnit) : Except TextStop (Nat × Cells CharUnit) :=
  match k with
  | 0 => .ok (n, txt)
  | j + 1 =>
    match s.node? cur with
    | none => .error .broken
    | some x =>
      match (if s.fileBit p then x.right else x.left) with
      | none => .error (.fail txt (corrupt 8 p))
      | some c =>
        match s.node? c with
        | none => .error .broken
        | some y =>
          if y.leaf then
            match emit s.caps.txtCap n p y.ch txt with
            | .error e => .error e
            | .ok txt' => walkText s root j (p + 1) root (n + 1) txt'
          else walkText s root j (p + 1) c n txt

/-- The body of DE.TEXT (`spec/44_decoder.md` R254, R256, R257): after a `Fail` TXT_LEN is 0, RCUR is the offset of the
bit, and the cells written before keep their new values. -/
def deTextBody (s : State) : Body :=
  match s.root with
  | none => badState s
  | some r =>
    if s.flags.hdrv = false then badState s
    else if s.fileInMemory s.hdr.xend.toNat = false then outsideMemory
    else withAnswer (s.node? r) (fun x =>
      let start := s.hdr.xstart.toNat
      let count := s.hdr.xend.toNat - start
      let out := if x.leaf then oneLeafText s x.ch count start 0 s.txt else walkText s r count start r 0 s.txt
      match out with
      | .ok (n, txt) => .ok { s with txt := txt, txtLen := Word.ofNat n, rcur := s.hdr.xend }
      | .error (.fail txt e) => .error (.raised { s with txt := txt, txtLen := 0, rcur := e.pos } e)
      | .error .broken => brokenArena)

/-- The body of DECODE (`spec/44_decoder.md` R260). -/
def decodeBody (s : State) : Body := do
  let s ← deHdrBody { s.clearWorking with txtLen := 0 }
  if s.flags.fempty then .ok s
  else do
    let s ← deTreeBody s
    deTextBody s

/-- DE.HDR (`spec/44_decoder.md` R241). -/
def execDeHdr (s : State) : Host.Outcome State Fault Refusal := finish (deHdrBody s)

/-- DE.TREE (`spec/44_decoder.md` R249). -/
def execDeTree (s : State) : Host.Outcome State Fault Refusal := finish (deTreeBody s)

/-- DE.TEXT (`spec/44_decoder.md` R254). -/
def execDeText (s : State) : Host.Outcome State Fault Refusal := finish (deTextBody s)

/-- DECODE (`spec/44_decoder.md` R260). -/
def execDecode (s : State) : Host.Outcome State Fault Refusal := finish (decodeBody s)

end Sys2Proof.Machine
end

