-- ==== Sys2Proof/Machine/CodeTable.lean ====
section
/-!
DEFINITION. The code table family (`spec/42_code_table.md`): the preorder walk Visit, CT.GEN and CT.LOOKUP.
-/

namespace Sys2Proof.Machine

/-- The code table and NCODES, as the walk hands them on. -/
structure Codes where
  ctab : Cells CodeEntry
  ncodes : BitVec 17
  deriving DecidableEq, Repr

/-- Why a walk did not fill the table: a leaf deeper than 16, or a broken arena (log entry 9). -/
inductive VisitStop where
  | overflow (ch : CharUnit)
  | broken
  deriving DecidableEq, Repr

/-- A leaf's assignment: `if CLEN[c] = 0 then NCODES <- NCODES + 1 ; CODE[c] <- code ; CLEN[c] <- len`
(`spec/42_code_table.md` R191). -/
def assignCode (t : Codes) (c : CharUnit) (code : BitVec 16) (len : Nat) : Codes :=
  { ctab := tableSet CodeEntry.absent t.ctab c.toNat { code := code, len := BitVec.ofNat 5 len }
    ncodes := if (entryOf t.ctab c).len = 0 then t.ncodes + 1 else t.ncodes }

/-- `Visit(n, code, len)` (`spec/42_code_table.md` R191, R194). The running code loses its top bit on a shift
(`spec/00_scope.md` R18). The first argument after the arena bounds the depth by the number of nodes
(`spec/70_reset_and_hazards.md` R342, log entry 12). -/
def visit (nodes : List Node) (fuel n : Nat) (code : BitVec 16) (len : Nat) (t : Codes) : Except VisitStop Codes :=
  match fuel with
  | 0 => .error .broken
  | k + 1 =>
    match nodes[n]? with
    | none => .error .broken
    | some x =>
      if x.leaf then
        if Config.codeWidth < len then .error (.overflow x.ch) else .ok (assignCode t x.ch code len)
      else
        match x.left, x.right with
        | some l, some r =>
          match visit nodes k l (code <<< 1) (len + 1) t with
          | .error e => .error e
          | .ok t' => visit nodes k r (code <<< 1 ||| 1) (len + 1) t'
        | _, _ => .error .broken

/-- The body of CT.GEN (`spec/42_code_table.md` R192, R194): a single leaf gets the code (0, length 1); on an overflow
the table is cleared again, so it is complete or empty. -/
def ctGenBody (s : State) : Body :=
  match s.root with
  | none => badState s
  | some r =>
    withAnswer (s.node? r) (fun x =>
      let t := if x.leaf then .ok (assignCode { ctab := [], ncodes := 0 } x.ch 0 1)
               else visit s.nodes s.nodeCnt r 0 0 { ctab := [], ncodes := 0 }
      match t with
      | .ok t => .ok { s with ctab := t.ctab, ncodes := t.ncodes }
      | .error (.overflow ch) => raiseAt s.clearCodes .codeOverflow 0 ch.toNat
      | .error .broken => brokenArena)

/-- The body of CT.LOOKUP (`spec/42_code_table.md` R196). -/
def ctLookupBody (ch : CharUnit) (s : State) : Body :=
  let e := entryOf s.ctab ch
  .ok { s.setFound (decide (e.len ≠ 0)) with res0 := e.code.zeroExtend 32, res1 := e.len.zeroExtend 32 }

/-- CT.GEN (`spec/42_code_table.md` R192). -/
def execCtGen (s : State) : Host.Outcome State Fault Refusal := finish (ctGenBody s)

/-- CT.LOOKUP ch (`spec/42_code_table.md` R196). -/
def execCtLookup (ch : CharUnit) (s : State) : Host.Outcome State Fault Refusal := finish (ctLookupBody ch s)

end Sys2Proof.Machine
end

