-- ==== Sys2Proof/Machine/Encoder.lean ====
section
/-!
DEFINITION. The encoder family (`spec/43_encoder.md`): EN.TREE, EN.TEXT, EN.EMIT and ENCODE.
-/

namespace Sys2Proof.Machine

/-- The bits that `Ser(n)` appends (`spec/43_encoder.md` R212, `spec/30_encoding.md` R110). The argument after the
arena bounds the depth by the number of nodes (`spec/70_reset_and_hazards.md` R342, log entry 12). -/
def serialise (nodes : List Node) (fuel n : Nat) : Option (List Bool) :=
  match fuel with
  | 0 => none
  | k + 1 =>
    match nodes[n]? with
    | none => none
    | some x =>
      if x.leaf then some (true :: bitsOf x.ch 16)
      else
        match x.left, x.right with
        | some l, some r =>
          match serialise nodes k l, serialise nodes k r with
          | some bl, some br => some (false :: (bl ++ br))
          | _, _ => none
        | _, _ => none

/-- The body of EN.TREE (`spec/43_encoder.md` R211): the old content of TBUF is dropped. -/
def enTreeBody (s : State) : Body :=
  match s.root with
  | none => badState s
  | some r => withAnswer (serialise s.nodes s.nodeCnt r) (fun bits => .ok { s with tbuf := bits })

/-- The codes of a text, joined, or the index of its first character without a code, the first unit having index `i`
(`spec/43_encoder.md` R213, `spec/30_encoding.md` R112). -/
def textBits (t : Cells CodeEntry) (i : Nat) (text : List CharUnit) : Except Nat (List Bool) :=
  match text with
  | [] => .ok []
  | c :: rest =>
    if (entryOf t c).len = 0 then .error i
    else
      match textBits t (i + 1) rest with
      | .error j => .error j
      | .ok bits => .ok (entryBits (entryOf t c) ++ bits)

/-- The body of EN.TEXT (`spec/43_encoder.md` R213): on a character without a code XCUR is 0. -/
def enTextBody (s : State) : Body :=
  if s.textInMemory then
    match textBits s.ctab 0 s.text with
    | .ok bits => .ok { s with xbuf := bits }
    | .error i => raiseAt { s with xbuf := [] } .badState 0 i
  else outsideMemory

/-- The four header bytes for version 0, tree length tb, and the two bit counts (`spec/30_encoding.md` R106,
`spec/43_encoder.md` R216). -/
def headerBytes (tb tl xl : Nat) : List Byte :=
  [BitVec.ofNat 8 (tb / 65536 % 4), BitVec.ofNat 8 (tb / 256 % 256), BitVec.ofNat 8 (tb % 256),
   BitVec.ofNat 8 (tl * 16 + xl)]

/-- The whole file that EN.EMIT writes: header, tree bytes, text bytes (`spec/30_encoding.md` R105,
`spec/43_encoder.md` R216). -/
def fileBytes (tree text : List Bool) : List Byte :=
  headerBytes (ceil8 tree.length) (lastBits tree.length) (lastBits text.length)
    ++ (packBytes (ceil8 tree.length) tree ++ packBytes (ceil8 text.length) text)

/-- The body of EN.EMIT (`spec/43_encoder.md` R216, R217, R218): an empty buffer gives BadState before the capacity
gives StorageError, and the capacity is tested before the first byte is written. -/
def enEmitBody (s : State) : Body :=
  if s.tcur = 0 ∨ s.xcur = 0 then badState s
  else
    let tb := ceil8 s.tcur
    let xb := ceil8 s.xcur
    if s.caps.filCap < 4 + tb + xb then raiseAt s .storageError 0 0
    else .ok { s with
      fil := cellsPutAll s.fil 0 (fileBytes s.tbuf s.xbuf)
      filLen := Word.ofNat (4 + tb + xb)
      stats := { chars := s.txtLen, metaB := Word.ofNat Config.metaBytes, tree := Word.ofNat tb, text := Word.ofNat xb } }

/-- The body of ENCODE (`spec/43_encoder.md` R221, R222). -/
def encodeBody (s : State) : Body :=
  let s := s.clearWorking
  if s.txtLen = 0 then .ok { s with filLen := 0 }
  else do
    let s ← tbBuildBody s
    let s ← ctGenBody s
    let s ← enTreeBody s
    let s ← enTextBody s
    enEmitBody s

/-- EN.TREE (`spec/43_encoder.md` R211). -/
def execEnTree (s : State) : Host.Outcome State Fault Refusal := finish (enTreeBody s)

/-- EN.TEXT (`spec/43_encoder.md` R213). -/
def execEnText (s : State) : Host.Outcome State Fault Refusal := finish (enTextBody s)

/-- EN.EMIT (`spec/43_encoder.md` R216). -/
def execEnEmit (s : State) : Host.Outcome State Fault Refusal := finish (enEmitBody s)

/-- ENCODE (`spec/43_encoder.md` R221). -/
def execEncode (s : State) : Host.Outcome State Fault Refusal := finish (encodeBody s)

end Sys2Proof.Machine
end

