-- ==== Sys2Proof/Machine/Dispatch.lean ====
section
/-!
DEFINITION. The meaning of each command: one arm per constructor of `Instr`.
-/

namespace Sys2Proof.Machine

def exec (i : Instr) (s : State) : Host.Outcome State Fault Refusal :=
  match i with
  | .plIns n => Sys2Proof.Machine.execPlIns n s
  | .plRmin => Sys2Proof.Machine.execPlRmin s
  | .plOne => Sys2Proof.Machine.execPlOne s
  | .tbLeaf ch => Sys2Proof.Machine.execTbLeaf ch s
  | .tbCount => Sys2Proof.Machine.execTbCount s
  | .tbLeaves => Sys2Proof.Machine.execTbLeaves s
  | .tbMerge => Sys2Proof.Machine.execTbMerge s
  | .tbRoot => Sys2Proof.Machine.execTbRoot s
  | .tbBuild => Sys2Proof.Machine.execTbBuild s
  | .ctGen => Sys2Proof.Machine.execCtGen s
  | .ctLookup ch => Sys2Proof.Machine.execCtLookup ch s
  | .enTree => Sys2Proof.Machine.execEnTree s
  | .enText => Sys2Proof.Machine.execEnText s
  | .enEmit => Sys2Proof.Machine.execEnEmit s
  | .encode => Sys2Proof.Machine.execEncode s
  | .deHdr => Sys2Proof.Machine.execDeHdr s
  | .deTree => Sys2Proof.Machine.execDeTree s
  | .deText => Sys2Proof.Machine.execDeText s
  | .decode => Sys2Proof.Machine.execDecode s
  | .nop => Sys2Proof.Machine.execNop s
  | .clr => Sys2Proof.Machine.execClr s

end Sys2Proof.Machine
end

