-- ==== Sys2Proof/Machine/Registers.lean ====
section
/-!
DEFINITION. The register map of the host port (`spec/10_state.md` R38): the forty registers, their numbers and
access rights, and the value each readable one shows.
-/

namespace Sys2Proof.Machine

/-- The forty registers, in the order of their numbers (`spec/10_state.md` R38). -/
inductive Reg where
  | cmd | status | errsub | errpos | id | warg | res0 | res1
  | txtLen | txtAddr | txtData | filLen | filAddr | filData
  | nodeCnt | listHead | root | ncodes | tcur | xcur | rcur
  | statChars | statMeta | statTree | statText
  | hdrVer | hdrTlen | hdrTbits | hdrXbits | hdrTend | hdrXstart | hdrXend
  | nodeAddr | nodeInfo | nodeWt | nodeLeft | nodeRight | nodeNext | frqAddr | frqData
  deriving DecidableEq, Repr

/-- The registers by number, 0 to 39 (`spec/10_state.md` R38). -/
def regTable : List Reg :=
  [.cmd, .status, .errsub, .errpos, .id, .warg, .res0, .res1]
    ++ [.txtLen, .txtAddr, .txtData, .filLen, .filAddr, .filData]
    ++ [.nodeCnt, .listHead, .root, .ncodes, .tcur, .xcur, .rcur]
    ++ [.statChars, .statMeta, .statTree, .statText]
    ++ [.hdrVer, .hdrTlen, .hdrTbits, .hdrXbits, .hdrTend, .hdrXstart, .hdrXend]
    ++ [.nodeAddr, .nodeInfo, .nodeWt, .nodeLeft, .nodeRight, .nodeNext, .frqAddr, .frqData]

/-- The register with a number; a number above 39 is no register (`spec/20_memory.md` R76). -/
def regOf (r : Nat) : Option Reg := regTable[r]?

/-- The registers that a host write can change, CMD apart: those marked RW (`spec/10_state.md` R38). -/
def regWritable (r : Reg) : Bool :=
  match r with
  | .warg | .txtLen | .txtAddr | .txtData | .filLen | .filAddr | .filData | .nodeAddr | .frqAddr => true
  | .cmd | .status | .errsub | .errpos | .id | .res0 | .res1 | .nodeCnt | .listHead | .root | .ncodes | .tcur | .xcur
  | .rcur | .statChars | .statMeta | .statTree | .statText | .hdrVer | .hdrTlen | .hdrTbits | .hdrXbits | .hdrTend
  | .hdrXstart | .hdrXend | .nodeInfo | .nodeWt | .nodeLeft | .nodeRight | .nodeNext | .frqData => false

/-- NODE_INFO: CH in bits 15:0, LEAF bit 16, INL bit 17, CHILD bit 18, zeros above (`spec/10_state.md` R52). -/
def nodeInfo (x : Node) : Word :=
  0#13 ++ BitVec.ofBool x.child ++ BitVec.ofBool x.inl ++ BitVec.ofBool x.leaf ++ x.ch

/-- A read through the NODE window: refused if `NODE_ADDR ≥ NODE_CNT` (`spec/10_state.md` R52). -/
def nodeWindow (s : State) (view : Node → Word) : Except Fault Answer :=
  match s.node? s.nodeAddr.toNat with
  | none => .ok .herr
  | some x => .ok (.value (view x))

/-- A read of TXT_DATA (`spec/10_state.md` R42, `spec/20_memory.md` R77; log entry 10). -/
def readTxtData (s : State) : Except Fault Answer :=
  if s.txtAddr.toNat < s.caps.txtCap then .ok (.value ((s.readTxt s.txtAddr.toNat).zeroExtend 32))
  else .error .outsideMemory

/-- A read of FIL_DATA, refused if FIL_CAP = 0 (`spec/10_state.md` R42, `spec/20_memory.md` R76, R77; log
entry 10). -/
def readFilData (s : State) : Except Fault Answer :=
  if s.caps.filCap = 0 then .ok .herr
  else if s.filAddr.toNat < s.caps.filCap then .ok (.value ((s.readFil s.filAddr.toNat).zeroExtend 32))
  else .error .outsideMemory

/-- What a host read of a register answers (`spec/10_state.md` R36 to R52, `spec/20_memory.md` R76). -/
def readReg (r : Reg) (s : State) : Except Fault Answer :=
  match r with
  | .cmd => .ok .herr
  | .status => .ok (.value s.status)
  | .errsub => .ok (.value s.error.sub)
  | .errpos => .ok (.value s.error.pos)
  | .id => .ok (.value Config.idValue)
  | .warg => .ok (.value s.warg)
  | .res0 => .ok (.value s.res0)
  | .res1 => .ok (.value s.res1)
  | .txtLen => .ok (.value s.txtLen)
  | .txtAddr => .ok (.value s.txtAddr)
  | .txtData => readTxtData s
  | .filLen => .ok (.value s.filLen)
  | .filAddr => .ok (.value s.filAddr)
  | .filData => readFilData s
  | .nodeCnt => .ok (.value (Word.ofNat s.nodeCnt))
  | .listHead => .ok (.value (refWord s.listHead))
  | .root => .ok (.value (refWord s.root))
  | .ncodes => .ok (.value (s.ncodes.zeroExtend 32))
  | .tcur => .ok (.value (Word.ofNat s.tcur))
  | .xcur => .ok (.value (Word.ofNat s.xcur))
  | .rcur => .ok (.value s.rcur)
  | .statChars => .ok (.value s.stats.chars)
  | .statMeta => .ok (.value s.stats.metaB)
  | .statTree => .ok (.value s.stats.tree)
  | .statText => .ok (.value s.stats.text)
  | .hdrVer => .ok (.value (s.hdr.ver.zeroExtend 32))
  | .hdrTlen => .ok (.value (s.hdr.tlen.zeroExtend 32))
  | .hdrTbits => .ok (.value (s.hdr.tbits.zeroExtend 32))
  | .hdrXbits => .ok (.value (s.hdr.xbits.zeroExtend 32))
  | .hdrTend => .ok (.value s.hdr.tend)
  | .hdrXstart => .ok (.value s.hdr.xstart)
  | .hdrXend => .ok (.value s.hdr.xend)
  | .nodeAddr => .ok (.value (s.nodeAddr.zeroExtend 32))
  | .nodeInfo => nodeWindow s nodeInfo
  | .nodeWt => nodeWindow s (fun x => x.wt)
  | .nodeLeft => nodeWindow s (fun x => refWord x.left)
  | .nodeRight => nodeWindow s (fun x => refWord x.right)
  | .nodeNext => nodeWindow s (fun x => refWord x.next)
  | .frqAddr => .ok (.value (s.frqAddr.zeroExtend 32))
  | .frqData => .ok (.value (s.freqOf s.frqAddr.toNat))

/-- `HostRead(r)` (`spec/20_memory.md` R71, R76). -/
def hostRead (r : Nat) (s : State) : Except Fault Answer :=
  match regOf r with
  | none => .ok .herr
  | some reg => readReg reg s

/-- A host write of `v` to a register other than CMD: the new state, or `none` for HERR (`spec/10_state.md` R42, R52,
`spec/20_memory.md` R76). -/
def writeReg (r : Reg) (v : Word) (s : State) : Except Fault (Option State) :=
  match r with
  | .warg => .ok (some { s with warg := v })
  | .txtLen => .ok (if s.caps.txtCap < v.toNat then none else some { s with txtLen := v })
  | .txtAddr => .ok (if s.caps.txtCap ≤ v.toNat then none else some { s with txtAddr := v })
  | .txtData =>
    if 0xFFFF < v.toNat then .ok none
    else if s.txtAddr.toNat < s.caps.txtCap then .ok (some (s.writeTxt s.txtAddr.toNat (v.truncate 16)))
    else .error .outsideMemory
  | .filLen => .ok (if s.caps.filCap < v.toNat then none else some { s with filLen := v })
  | .filAddr => .ok (if s.caps.filCap ≤ v.toNat then none else some { s with filAddr := v })
  | .filData =>
    if 0xFF < v.toNat ∨ s.caps.filCap = 0 then .ok none
    else if s.filAddr.toNat < s.caps.filCap then .ok (some (s.writeFil s.filAddr.toNat (v.truncate 8)))
    else .error .outsideMemory
  | .nodeAddr => .ok (if Config.nodeMax ≤ v.toNat then none else some { s with nodeAddr := v.truncate 17 })
  | .frqAddr => .ok (if 65535 < v.toNat then none else some { s with frqAddr := v.truncate 16 })
  | .cmd | .status | .errsub | .errpos | .id | .res0 | .res1 | .nodeCnt | .listHead | .root | .ncodes | .tcur | .xcur
  | .rcur | .statChars | .statMeta | .statTree | .statText | .hdrVer | .hdrTlen | .hdrTbits | .hdrXbits | .hdrTend
  | .hdrXstart | .hdrXend | .nodeInfo | .nodeWt | .nodeLeft | .nodeRight | .nodeNext | .frqData => .ok none

end Sys2Proof.Machine
end

