-- ==== Sys2Proof/Machine/Port.lean ====
section
/-!
DEFINITION. The host port (`spec/20_memory.md` R71): what one host operation does, the write of CMD among them, which
executes a command (`spec/10_state.md` R39).
-/

namespace Sys2Proof.Machine

/-- The port gives an answer; the transcript keeps it (log entry 3). -/
def State.answer (s : State) (a : Answer) : State := { s with answers := a :: s.answers }

/-- The error of a word that is no command: `raise IllegalCommand(0, w)` (`spec/30_encoding.md` R103). -/
def illegalCommand (w : Word) : ErrorRecord := { kind := .illegalCommand, sub := 0, pos := w }

/-- A command word is executed: the command it encodes, or IllegalCommand, before anything of the state is looked at
(`spec/30_encoding.md` R101, R103, `spec/60_exceptions.md` R299). -/
def execWord (w : Word) (s : State) : Host.Outcome State Fault Refusal :=
  match decodeWord w with
  | .ok i => exec i s
  | .error _ => .next (s.raise (illegalCommand w))

/-- The answer OK, given when a command has ended, "whatever the command's own outcome" (`spec/20_memory.md` R71). -/
def answerOk (o : Host.Outcome State Fault Refusal) : Host.Outcome State Fault Refusal :=
  match o with
  | .next s => .next (s.answer .ok)
  | .fault f => .fault f
  | .refused r => .refused r

/-- `HostWrite(r, v)` with r other than the number of CMD: store the value, or refuse and change nothing
(`spec/20_memory.md` R74, R76). -/
def portWrite (r : Nat) (v : Word) (s : State) : Host.Outcome State Fault Refusal :=
  match regOf r with
  | none => .next (s.answer .herr)
  | some reg =>
    match writeReg reg v s with
    | .ok (some s') => .next (s'.answer .ok)
    | .ok none => .next (s.answer .herr)
    | .error f => .fault f

/-- `HostRead(r)`: the answer, and no other effect (`spec/20_memory.md` R74). -/
def portRead (r : Nat) (s : State) : Host.Outcome State Fault Refusal :=
  match hostRead r s with
  | .ok a => .next (s.answer a)
  | .error f => .fault f

/-- One host operation (`spec/20_memory.md` R71). `HostWrite(0, w)` is the write of CMD. Reset returns nothing. -/
def hostStep (op : HostOp) (s : State) : Host.Outcome State Fault Refusal :=
  match op with
  | .read r => portRead r s
  | .write r v => if r = 0 then answerOk (execWord v s) else portWrite r v s
  | .reset => .next s.resetCore

/-- The CMD write that carries a command word of `nbits` bits (`spec/10_state.md` R39). -/
def cmdWrite (nbits w : Nat) : HostOp := .write 0 (Word.ofNat (w % 2 ^ nbits))

end Sys2Proof.Machine
end

