-- ==== Sys2Proof/Machine/Step.lean ====
section
/-!
DEFINITION. One step: the core serves the next operation that the host has issued (`spec/20_memory.md` R71, R80).
-/

namespace Sys2Proof.Machine

/-- The oldest issued host operation is served whole; with none, the core is idle and "between host operations no state
changes" (`spec/20_memory.md` R80, `spec/70_reset_and_hazards.md` R331; log entries 1, 2, 15). -/
def step (s : State) : Host.Outcome State Fault Refusal :=
  match s.pending with
  | [] => .next s
  | op :: rest => hostStep op { s with pending := rest }

/-- `s` with the host's write of the command word to CMD issued ahead of everything else, so that the very next step
executes exactly it (`spec/10_state.md` R39; log entry 1). -/
def State.withFetchWord (s : State) (nbits w : Nat) : State := { s with pending := cmdWrite nbits w :: s.pending }

end Sys2Proof.Machine
end

