-- ==== Sys2Proof/Safety.lean ====
section
/-!
DEFINITION. What the claims speak of: the abstract list and tree that an arena holds, and the invariants of
`spec/10_state.md` (R42, R45, R47, R50) under which a run is safe, that is, a step never stops with a fault.
-/

namespace Sys2Proof.Machine

/-! ## The priority list as a sequence -/

/-- The list that starts at `r` and follows NEXT is the sequence `xs` and ends at NULL (`spec/40_priority_list.md`
R140). -/
def Chain (nodes : List Node) (r : Option Nat) (xs : List Nat) : Prop :=
  match xs with
  | [] => r = none
  | n :: ns => r = some n ∧ ∃ x, nodes[n]? = some x ∧ Chain nodes x.next ns

/-- The priority list of the state is the sequence `xs`, with no repeated node and INL = 1 in each
(`spec/10_state.md` R45 (c)). -/
structure ListIs (s : State) (xs : List Nat) : Prop where
  chain : Chain s.nodes s.listHead xs
  distinct : xs.Nodup
  marked : ∀ n ∈ xs, ∃ x, s.nodes[n]? = some x ∧ x.inl = true

/-- `WT[n]`, 0 where there is no node. -/
def wtAt (nodes : List Node) (n : Nat) : Word := ((nodes[n]?).map Node.wt).getD 0

/-- The place of a new element: after every leading element of weight at most its own, so before the first with a
greater weight when the sequence is sorted (`spec/40_priority_list.md` R141). -/
def stableInsert (wt : Nat → Word) (n : Nat) (xs : List Nat) : List Nat :=
  xs.takeWhile (fun m => decide (wt m ≤ wt n)) ++ n :: xs.dropWhile (fun m => decide (wt m ≤ wt n))

/-! ## The code tree -/

/-- A code tree: a leaf holds a character, an internal node two subtrees (`spec/00_scope.md`, glossary). -/
inductive HTree where
  | leaf (c : CharUnit)
  | node (l r : HTree)
  deriving DecidableEq, Repr

/-- The arena holds the tree `t` at node `n` (`spec/10_state.md` R44). -/
def HoldsTree (nodes : List Node) (n : Nat) (t : HTree) : Prop :=
  match t with
  | .leaf c => ∃ x, nodes[n]? = some x ∧ x.leaf = true ∧ x.ch = c
  | .node l r =>
    ∃ x a b, nodes[n]? = some x ∧ x.leaf = false ∧ x.left = some a ∧ x.right = some b
      ∧ HoldsTree nodes a l ∧ HoldsTree nodes b r

/-- The number of leaves. -/
def HTree.leafCount (t : HTree) : Nat :=
  match t with
  | .leaf _ => 1
  | .node l r => l.leafCount + r.leafCount

/-- The depth of the deepest leaf. -/
def HTree.depth (t : HTree) : Nat :=
  match t with
  | .leaf _ => 0
  | .node l r => 1 + max l.depth r.depth

/-- The characters of the leaves, from left to right. -/
def HTree.chars (t : HTree) : List CharUnit :=
  match t with
  | .leaf c => [c]
  | .node l r => l.chars ++ r.chars

/-- The serialised tree (`spec/30_encoding.md` R110). -/
def HTree.ser (t : HTree) : List Bool :=
  match t with
  | .leaf c => true :: bitsOf c 16
  | .node l r => false :: (l.ser ++ r.ser)

/-- Each leaf's character with the path to it, 0 for left and 1 for right, in preorder (`spec/30_encoding.md` R113). -/
def HTree.paths (t : HTree) : List (CharUnit × List Bool) :=
  match t with
  | .leaf c => [(c, [])]
  | .node l r =>
    l.paths.map (fun p => (p.1, false :: p.2)) ++ r.paths.map (fun p => (p.1, true :: p.2))

/-- The codes of a tree in preorder: the paths, and for a single leaf the code 0 of length 1 (`spec/30_encoding.md`
R113, `spec/42_code_table.md` R192). -/
def HTree.codes (t : HTree) : List (CharUnit × List Bool) :=
  match t with
  | .leaf c => [(c, [false])]
  | .node l r => (HTree.node l r).paths

/-- The number of nodes. -/
def HTree.size (t : HTree) : Nat :=
  match t with
  | .leaf _ => 1
  | .node l r => 1 + l.size + r.size

/-- The nodes of a decoded tree in preorder, the first with index `base`; `child` says whether it is the child of
another (`spec/44_decoder.md` R250, R251). -/
def HTree.preorder (t : HTree) (base : Nat) (child : Bool) : List Node :=
  match t with
  | .leaf c =>
    [{ leaf := true, ch := c, wt := 0, left := none, right := none, next := none, inl := false, child := child }]
  | .node l r =>
    { leaf := false, ch := 0, wt := 0, left := some (base + 1), right := some (base + 1 + l.size), next := none
      inl := false, child := child } :: (l.preorder (base + 1) true ++ r.preorder (base + 1 + l.size) true)

/-- The characters that a bit string spells, each with the offset of the bit that completed it, when the string walks
the tree `root`, standing at `cur`, its first bit at offset `p`: 0 goes left, 1 goes right, a leaf emits and the walk
starts again at the root, bits after the last leaf are dropped (`spec/44_decoder.md` R254, R257). -/
def HTree.emits (root cur : HTree) (p : Nat) (bits : List Bool) : List (CharUnit × Nat) :=
  match bits with
  | [] => []
  | b :: rest =>
    match cur with
    | .leaf _ => []
    | .node l r =>
      match (if b then r else l) with
      | .leaf c => (c, p) :: HTree.emits root root (p + 1) rest
      | .node l' r' => HTree.emits root (.node l' r') (p + 1) rest

/-- The characters that the bits of a text region spell from the root: a tree of one leaf gives its character for each
bit, and only 0 bits (`spec/44_decoder.md` R254, R255). -/
def HTree.spells (u : HTree) (bits : List Bool) : Option (List CharUnit) :=
  match u with
  | .leaf c => if bits.all (fun b => !b) then some (List.replicate bits.length c) else none
  | .node l r => some ((HTree.emits (.node l r) (.node l r) 0 bits).map Prod.fst)

/-- The path that a list of paths gives a character last: "the leaf visited later overwrites the entry"
(`spec/42_code_table.md` R192). -/
def lastPath (ps : List (CharUnit × List Bool)) (c : CharUnit) : Option (List Bool) :=
  (ps.reverse.find? (fun p => p.1 == c)).map Prod.snd

/-- How the descent into a serialised tree ends: complete, at the offset of the first bit it did not consume, or
stopped with a sub-cause at an offset (`spec/44_decoder.md` R250). -/
inductive Descent where
  | complete (pos : Nat)
  | stopped (sub pos : Nat)
  deriving DecidableEq, Repr

/-- The descent as a scan: `bits` are the bits left in the region, `need` subtrees are still to come and `count` nodes
are allocated. A missing bit, then a full arena, then a cut character stop it (`spec/44_decoder.md` R250, R253). -/
def descend (fuel : Nat) (bits : List Bool) (pos need count : Nat) : Descent :=
  match fuel, need, bits with
  | _, 0, _ => .complete pos
  | _, _ + 1, [] => .stopped 6 pos
  | 0, _ + 1, _ :: _ => .stopped 6 pos
  | k + 1, m + 1, b :: rest =>
    if Config.nodeMax ≤ count then .stopped 7 pos
    else if b then
      if rest.length < 16 then .stopped 6 (pos + 1) else descend k (rest.drop 16) (pos + 17) m (count + 1)
    else descend k rest (pos + 1) (m + 2) (count + 1)

/-! ## Invariants -/

/-- The capacities, the host memories and the registers that reach them (`spec/00_scope.md` R9, `spec/10_state.md` R40
to R42, R52). -/
structure MemoryInv (s : State) : Prop where
  caps : s.caps.Legal
  txt : Memory.wf s.caps.txtCap s.txt
  fil : Memory.wf s.caps.filCap s.fil
  txtLen : s.txtLen.toNat ≤ s.caps.txtCap
  filLen : s.filLen.toNat ≤ s.caps.filCap
  txtAddr : s.txtAddr.toNat < s.caps.txtCap
  filAddr : s.filAddr.toNat < s.caps.filCap ∨ (s.caps.filCap = 0 ∧ s.filAddr = 0)
  nodeAddr : s.nodeAddr.toNat < Config.nodeMax

/-- FREQ and CTAB are canonical, no stored code is longer than 16 or has a bit above its length, and NCODES counts the
characters that have a code (`spec/10_state.md` R43, R47, `spec/42_code_table.md` R190, R194). -/
structure TableInv (s : State) : Prop where
  freq : Table.wf 0 Config.nchar s.freq
  ctab : Table.wf CodeEntry.absent Config.nchar s.ctab
  codes : ∀ c ∈ s.ctab, 1 ≤ c.2.len.toNat ∧ c.2.len.toNat ≤ 16 ∧ c.2.code.toNat < 2 ^ c.2.len.toNat
  count : s.ncodes.toNat = s.ctab.length

/-- The node invariants (`spec/10_state.md` R45 (a) to (f); `fits` and `fields` are R44, `unlinked` is
`spec/40_priority_list.md` R143). `forest` says the "no node is reachable twice" of (b) for cycles: every node holds a
finite tree. -/
structure ArenaInv (s : State) : Prop where
  fits : s.nodes.length ≤ Config.nodeMax
  fields : ∀ (n : Nat) (x : Node), s.nodes[n]? = some x → x.leaf = false → x.ch = 0
  twoOrNone : ∀ (n : Nat) (x : Node), s.nodes[n]? = some x →
    (x.leaf = true → x.left = none ∧ x.right = none) ∧
    (x.leaf = false → ∃ a b, x.left = some a ∧ x.right = some b ∧ a ≠ b ∧ a < s.nodes.length ∧ b < s.nodes.length)
  oneParent : ∀ (n m m' : Nat) (y y' : Node), s.nodes[m]? = some y → s.nodes[m']? = some y' →
    (y.left = some n ∨ y.right = some n) → (y'.left = some n ∨ y'.right = some n) → m = m'
  childIff : ∀ (n : Nat) (x : Node), s.nodes[n]? = some x →
    (x.child = true ↔ ∃ (m : Nat) (y : Node), s.nodes[m]? = some y ∧ (y.left = some n ∨ y.right = some n))
  forest : ∀ n, n < s.nodes.length → ∃ t, HoldsTree s.nodes n t
  list : ∃ xs, ListIs s xs ∧ (∀ (n : Nat) (x : Node), s.nodes[n]? = some x → x.inl = true → n ∈ xs)
    ∧ xs.Pairwise (fun a b => wtAt s.nodes a ≤ wtAt s.nodes b)
  childUnlisted : ∀ (n : Nat) (x : Node), s.nodes[n]? = some x → x.child = true → x.inl = false
  unlinked : ∀ (n : Nat) (x : Node), s.nodes[n]? = some x → x.inl = false → x.next = none
  rootIn : ∀ r, s.root = some r → r < s.nodes.length

/-- The header registers are 0 unless HDRV = 1, and then hold a header that passed every check, with its three offsets
(`spec/10_state.md` R50, `spec/44_decoder.md` R241, R246). -/
structure HeaderInv (s : State) : Prop where
  zero : s.flags.hdrv = false → s.hdr = Header.zero
  emptyFile : s.flags.fempty = true → s.flags.hdrv = false
  version : s.hdr.ver = 0
  tlen : s.flags.hdrv = true → Config.treeBytesMin ≤ s.hdr.tlen.toNat ∧ s.hdr.tlen.toNat ≤ Config.treeBytesMax
  tbits : s.flags.hdrv = true → 1 ≤ s.hdr.tbits.toNat ∧ s.hdr.tbits.toNat ≤ 8
  xbits : s.flags.hdrv = true → 1 ≤ s.hdr.xbits.toNat ∧ s.hdr.xbits.toNat ≤ 8
  tend : s.flags.hdrv = true → s.hdr.tend.toNat = 24 + 8 * s.hdr.tlen.toNat + s.hdr.tbits.toNat
  xstart : s.flags.hdrv = true → s.hdr.xstart.toNat = 8 * (4 + s.hdr.tlen.toNat)
  xend : s.flags.hdrv = true → s.hdr.xstart.toNat < s.hdr.xend.toNat ∧ s.hdr.xend.toNat ≤ 8 * s.caps.filCap

/-- The cursors of the two bit buffers stay in their ranges (`spec/10_state.md` R31, R32). -/
structure BufferInv (s : State) : Prop where
  tcur : s.tcur ≤ 1179647
  xcur : s.xcur ≤ 16 * s.caps.txtCap

/-- The invariants under which a step never stops. -/
structure SafeState (s : State) : Prop where
  memory : MemoryInv s
  tables : TableInv s
  arena : ArenaInv s
  header : HeaderInv s

/-! ## What the statements about words and the port speak of -/

/-- The rows of the command list, for a word `w` whose operand is read as R101 says: match, mask and the command
(`spec/30_encoding.md` R101, R102). -/
def commandRows (w : Word) : List (Word × Word × Instr) :=
  [(0x10000000, 0xFFFE0000, .plIns (w.toNat % 131072)), (0x11000000, 0xFFFFFFFF, .plRmin),
   (0x12000000, 0xFFFFFFFF, .plOne), (0x20000000, 0xFFFF0000, .tbLeaf (w.truncate 16)),
   (0x21000000, 0xFFFFFFFF, .tbCount), (0x22000000, 0xFFFFFFFF, .tbLeaves), (0x23000000, 0xFFFFFFFF, .tbMerge)]
  ++ [(0x24000000, 0xFFFFFFFF, .tbRoot), (0x25000000, 0xFFFFFFFF, .tbBuild), (0x30000000, 0xFFFFFFFF, .ctGen),
   (0x31000000, 0xFFFF0000, .ctLookup (w.truncate 16)), (0x40000000, 0xFFFFFFFF, .enTree),
   (0x41000000, 0xFFFFFFFF, .enText), (0x42000000, 0xFFFFFFFF, .enEmit)]
  ++ [(0x43000000, 0xFFFFFFFF, .encode), (0x50000000, 0xFFFFFFFF, .deHdr), (0x51000000, 0xFFFFFFFF, .deTree),
   (0x52000000, 0xFFFFFFFF, .deText), (0x53000000, 0xFFFFFFFF, .decode), (0x00000000, 0xFFFFFFFF, .nop),
   (0x01000000, 0xFFFFFFFF, .clr)]

/-- The opcodes of format Z (`spec/30_encoding.md` R102). -/
def opcodesZ : List Nat :=
  [0x11, 0x12, 0x21, 0x22, 0x23, 0x24, 0x25, 0x30] ++ [0x40, 0x41, 0x42, 0x43, 0x50, 0x51, 0x52, 0x53, 0x00, 0x01]

/-- An opcode that is not listed, or a must-be-zero bit of the opcode's format that is 1 (`spec/30_encoding.md`
R101). -/
abbrev illegalFields (op operand : Nat) : Prop :=
  (op ∉ opcodesZ ∧ op ≠ 0x10 ∧ op ≠ 0x20 ∧ op ≠ 0x31) ∨ (op ∈ opcodesZ ∧ operand ≠ 0) ∨
    (op = 0x10 ∧ operand / 2 ^ 17 ≠ 0) ∨ ((op = 0x20 ∨ op = 0x31) ∧ operand / 2 ^ 16 ≠ 0)

/-- The words that `spec/30_encoding.md` R101 calls illegal: bits 31:24 are the opcode, bits 23:0 the operand field. -/
abbrev illegalWord (w : Word) : Prop := illegalFields (w.toNat / 2 ^ 24) (w.toNat % 2 ^ 24)

/-- The reads that are refused: a number above 39, CMD, FIL_DATA without a cell, a NODE window beyond NODE_CNT
(`spec/20_memory.md` R76 (a), (c), (e), (f)). -/
abbrev readRefused (s : State) (r : Nat) : Prop :=
  39 < r ∨ r = 0 ∨ (r = 13 ∧ s.caps.filCap = 0) ∨ (33 ≤ r ∧ r ≤ 37 ∧ s.nodeCnt ≤ s.nodeAddr.toNat)

/-- The writes that are refused: a number above 39, a read-only register, a value out of the register's range, FIL_DATA
without a cell (`spec/20_memory.md` R76 (a), (b), (d), (e), `spec/10_state.md` R38). -/
abbrev writeRefused (s : State) (r : Nat) (v : Word) : Prop :=
  39 < r ∨ r ∈ [1, 2, 3, 4, 6, 7] ∨ (14 ≤ r ∧ r ≤ 31) ∨ (33 ≤ r ∧ r ≤ 37) ∨ r = 39 ∨
    (r = 8 ∧ s.caps.txtCap < v.toNat) ∨ (r = 9 ∧ s.caps.txtCap ≤ v.toNat) ∨ (r = 10 ∧ 0xFFFF < v.toNat) ∨
    (r = 11 ∧ s.caps.filCap < v.toNat) ∨ (r = 12 ∧ s.caps.filCap ≤ v.toNat) ∨
    (r = 13 ∧ (0xFF < v.toNat ∨ s.caps.filCap = 0)) ∨ (r = 32 ∧ 131071 ≤ v.toNat) ∨ (r = 38 ∧ 65535 < v.toNat)

/-- Commands one after another, as the host issues them, up to the first that ends with an error. -/
def runAll (is : List Instr) (s : State) : Host.Outcome State Fault Refusal :=
  match is with
  | [] => .next s
  | i :: rest =>
    match exec i s with
    | .next t => if t.error.kind = .ok then runAll rest t else .next t
    | .fault f => .fault f
    | .refused r => .refused r

/-- The characters of the text, each once, in ascending order (`spec/41_tree_builder.md` R164). -/
def distinctChars (text : List CharUnit) : List Nat :=
  (List.range Config.nchar).filter (fun c => decide (BitVec.ofNat 16 c ∈ text))

end Sys2Proof.Machine
end

