-- ==== Sys2Proof/Certificates/Slice0/Obligations.lean ====
section
/-!
DEFINITION. The statements for the provers. Each names the rule of `spec/` that it formalises; a statement about a
command gives the word of the command, when it completes, the whole next state, and so its frame: every field that the
state on the right does not name is as it was.
-/

section Statements

open Sys2Proof Sys2Proof.Machine

/-! ## Command words (`spec/30_encoding.md`) -/

/-- Decoding the encoding of any well-formed command gives it back, with every operand, also as the opcode table numbers
the bits (R100 to R102). -/
def Obligations.DecodeOfEncode : Prop :=
  ∀ i : Instr, i.wellFormed = true →
    decodeWord (encodeInstr i) = .ok i ∧ decodeTableWord 32 (encodeInstr i).toNat = some i

/-- Each word is the encoding of at most one command, and what it decodes to is well formed (R100 to R102). -/
def Obligations.EncodeOfDecode : Prop :=
  ∀ (w : Word) (i : Instr), decodeWord w = .ok i → i.wellFormed = true ∧ encodeInstr i = w

/-- R102: a word encodes a command of the list exactly when `w AND mask = match`. -/
def Obligations.WordsMatchTheCommandList : Prop :=
  ∀ w : Word, ∀ row ∈ commandRows w, (w &&& row.2.1 = row.1 ↔ decodeWord w = .ok row.2.2)

/-- R103, with the illegal words of R101: they decode to nothing, a CMD write of one ends with IllegalCommand(0, w), and
no other state changes. The all-zero word is NOP. -/
def Obligations.IllegalWordRule : Prop :=
  (∀ w : Word, illegalWord w ↔ ∀ i : Instr, decodeWord w ≠ .ok i) ∧
  (∀ (w : Word) (s : State), illegalWord w →
    execWord w s = .next { s with error := { kind := .illegalCommand, sub := 0, pos := w } }) ∧
  decodeWord 0 = .ok .nop

/-- Words written out from R100 and R102: one of each format and family. -/
def Obligations.SampleWordsDecode : Prop :=
  decodeWord 0b00010000000000001111000000001111#32 = .ok (.plIns 61455) ∧
  decodeWord 0b00010000000000011111111111111111#32 = .ok (.plIns 131071) ∧
  decodeWord 0b00010001000000000000000000000000#32 = .ok .plRmin ∧
  decodeWord 0b00100000000000000000000001100001#32 = .ok (.tbLeaf 0x0061) ∧
  decodeWord 0b00100101000000000000000000000000#32 = .ok .tbBuild ∧
  decodeWord 0b00110001000000001111111111111110#32 = .ok (.ctLookup 0xFFFE) ∧
  decodeWord 0b01000011000000000000000000000000#32 = .ok .encode ∧
  decodeWord 0b01010011000000000000000000000000#32 = .ok .decode ∧
  decodeWord 0b00000001000000000000000000000000#32 = .ok .clr

/-! ## The step and the host port (`spec/20_memory.md`, `spec/10_state.md`) -/

/-- When the oldest issued host operation is a CMD write of a word that decodes to i, the step takes it off the queue,
executes exactly i and answers OK; `withFetchWord` puts such a write ahead of everything else (R39, R71; the queue and
the transcript are the model's own, log entries 1 and 3). -/
def Obligations.StepRunsDecodedCommand : Prop :=
  (∀ (s : State) (w : Word) (rest : List HostOp) (i : Instr), s.pending = .write 0 w :: rest → decodeWord w = .ok i →
    step s = answerOk (exec i { s with pending := rest })) ∧
  (∀ (s : State) (nbits w : Nat) (i : Instr), decodeTableWord nbits w = some i →
    step (s.withFetchWord nbits w) = answerOk (exec i s))

/-- The core serves the host's operations one a step in the order of their issue, and with none issued nothing changes
(R71, R80, R331; the queue is the model's own, log entries 1 and 2). -/
def Obligations.StepServesTheOldestOperation : Prop :=
  (∀ (s : State) (op : HostOp) (rest : List HostOp), s.pending = op :: rest →
    step s = hostStep op { s with pending := rest }) ∧
  (∀ s : State, s.pending = [] → step s = .next s)

/-- R36: the nine significant bits of STATUS and the zeros above, as a read of register 1 shows them, with the outcome
codes of R290. -/
def Obligations.StatusWordRule : Prop :=
  (∀ s : State, hostRead 1 s = .ok (.value s.status) ∧
    s.status.toNat = (errCode s.error.kind).toNat + 16 * s.flags.one.toNat + 32 * s.flags.empty.toNat
      + 64 * s.flags.found.toNat + 128 * s.flags.hdrv.toNat + 256 * s.flags.fempty.toNat) ∧
  [ErrKind.ok, .invalidArgument, .storageError, .unsupportedVersion, .corruptFormat, .codeOverflow, .illegalCommand,
    .badState].map errCode = [0, 1, 2, 3, 4, 5, 6, 7]

/-- What a read of each register without a window shows, by its number (R38): narrower fields with zeros above, NULL as
0x1FFFF. -/
def Obligations.RegisterReads : Prop :=
  ∀ s : State,
    hostRead 2 s = .ok (.value s.error.sub) ∧ hostRead 3 s = .ok (.value s.error.pos) ∧
    hostRead 4 s = .ok (.value 0x48544300) ∧ hostRead 5 s = .ok (.value s.warg) ∧
    hostRead 6 s = .ok (.value s.res0) ∧ hostRead 7 s = .ok (.value s.res1) ∧
    hostRead 8 s = .ok (.value s.txtLen) ∧ hostRead 9 s = .ok (.value s.txtAddr) ∧
    hostRead 11 s = .ok (.value s.filLen) ∧ hostRead 12 s = .ok (.value s.filAddr) ∧
    hostRead 14 s = .ok (.value (BitVec.ofNat 32 s.nodes.length)) ∧
    hostRead 15 s = .ok (.value (BitVec.ofNat 32 (s.listHead.getD 0x1FFFF))) ∧
    hostRead 16 s = .ok (.value (BitVec.ofNat 32 (s.root.getD 0x1FFFF))) ∧
    hostRead 17 s = .ok (.value (s.ncodes.zeroExtend 32)) ∧
    hostRead 18 s = .ok (.value (BitVec.ofNat 32 s.tbuf.length)) ∧
    hostRead 19 s = .ok (.value (BitVec.ofNat 32 s.xbuf.length)) ∧ hostRead 20 s = .ok (.value s.rcur) ∧
    hostRead 21 s = .ok (.value s.stats.chars) ∧ hostRead 22 s = .ok (.value s.stats.metaB) ∧
    hostRead 23 s = .ok (.value s.stats.tree) ∧ hostRead 24 s = .ok (.value s.stats.text) ∧
    hostRead 25 s = .ok (.value (s.hdr.ver.zeroExtend 32)) ∧ hostRead 26 s = .ok (.value (s.hdr.tlen.zeroExtend 32)) ∧
    hostRead 27 s = .ok (.value (s.hdr.tbits.zeroExtend 32)) ∧
    hostRead 28 s = .ok (.value (s.hdr.xbits.zeroExtend 32)) ∧ hostRead 29 s = .ok (.value s.hdr.tend) ∧
    hostRead 30 s = .ok (.value s.hdr.xstart) ∧ hostRead 31 s = .ok (.value s.hdr.xend) ∧
    hostRead 32 s = .ok (.value (s.nodeAddr.zeroExtend 32)) ∧ hostRead 38 s = .ok (.value (s.frqAddr.zeroExtend 32))

/-- A host write of a RW register that is not refused has only the effect of storing the value (R74), answered OK. -/
def Obligations.RegisterWrites : Prop :=
  ∀ (s : State) (v : Word),
    hostStep (.write 5 v) s = .next { s with warg := v, answers := .ok :: s.answers } ∧
    (v.toNat ≤ s.caps.txtCap → hostStep (.write 8 v) s = .next { s with txtLen := v, answers := .ok :: s.answers }) ∧
    (v.toNat < s.caps.txtCap → hostStep (.write 9 v) s = .next { s with txtAddr := v, answers := .ok :: s.answers }) ∧
    (v.toNat ≤ s.caps.filCap → hostStep (.write 11 v) s = .next { s with filLen := v, answers := .ok :: s.answers }) ∧
    (v.toNat < s.caps.filCap → hostStep (.write 12 v) s = .next { s with filAddr := v, answers := .ok :: s.answers }) ∧
    (v.toNat < 131071 →
      hostStep (.write 32 v) s = .next { s with nodeAddr := v.truncate 17, answers := .ok :: s.answers }) ∧
    (v.toNat ≤ 65535 →
      hostStep (.write 38 v) s = .next { s with frqAddr := v.truncate 16, answers := .ok :: s.answers })

/-- R76: exactly the listed operations are refused with HERR, a refused one changes nothing, every other read answers a
value and every other write OK, a write of CMD whatever the command's outcome, also of a word that is no command. (The
transcript `answers` is the model's own, log entry 3.) -/
def Obligations.HerrRefusesExactlyThese : Prop :=
  ∀ (s : State) (r : Nat), MemoryInv s →
    (readRefused s r → hostStep (.read r) s = .next { s with answers := .herr :: s.answers }) ∧
    (¬ readRefused s r → ∃ v, hostStep (.read r) s = .next { s with answers := .value v :: s.answers }) ∧
    ∀ v : Word,
      (writeRefused s r v → hostStep (.write r v) s = .next { s with answers := .herr :: s.answers }) ∧
      (¬ writeRefused s r v → r ≠ 0 → ∃ t, hostStep (.write r v) s = .next t ∧ t.answers = .ok :: s.answers) ∧
      (∀ t, hostStep (.write 0 v) s = .next t → t.answers = .ok :: s.answers) ∧
      (illegalWord v → hostStep (.write 0 v) s = .next { s with
        error := { kind := .illegalCommand, sub := 0, pos := v }, answers := .ok :: s.answers })

/-- R77: the host's loads and stores of TXT and FIL through TXT_DATA and FIL_DATA. The index is the address register's
value, always in range; the access does not look at TXT_LEN or FIL_LEN; a cell that nothing has written since reset
reads as its unspecified value (a free value, log entry 5). -/
def Obligations.HostLoadsAndStores : Prop :=
  ∀ s : State, MemoryInv s →
    s.txtAddr.toNat < s.caps.txtCap ∧
    hostStep (.read 10) s =
      .next { s with answers := .value ((s.readTxt s.txtAddr.toNat).zeroExtend 32) :: s.answers } ∧
    (∀ v : Word, v.toNat ≤ 0xFFFF → ∃ t, hostStep (.write 10 v) s = .next t ∧
      t = { s with txt := t.txt, answers := .ok :: s.answers } ∧
      ∀ i, t.readTxt i = if i = s.txtAddr.toNat then v.truncate 16 else s.readTxt i) ∧
    (0 < s.caps.filCap → s.filAddr.toNat < s.caps.filCap ∧
      hostStep (.read 13) s =
        .next { s with answers := .value ((s.readFil s.filAddr.toNat).zeroExtend 32) :: s.answers } ∧
      ∀ v : Word, v.toNat ≤ 0xFF → ∃ t, hostStep (.write 13 v) s = .next t ∧
        t = { s with fil := t.fil, answers := .ok :: s.answers } ∧
        ∀ i, t.readFil i = if i = s.filAddr.toNat then v.truncate 8 else s.readFil i) ∧
    (∀ i, (∀ u, (i, u) ∉ s.txt) → s.readTxt i = Config.txtUnwritten s.resets i) ∧
    (∀ i, (∀ u, (i, u) ∉ s.fil) → s.readFil i = Config.filUnwritten s.resets i)

/-- R52: the two debug windows: which accesses are refused, what NODE_INFO, NODE_WT, NODE_LEFT, NODE_RIGHT, NODE_NEXT
and FRQ_DATA show, that reading changes no state of the core, and that CLR leaves NODE_ADDR and FRQ_ADDR alone. -/
def Obligations.DebugWindows : Prop :=
  ∀ s : State,
    (∀ v : Word,
      (131071 ≤ v.toNat → hostStep (.write 32 v) s = .next { s with answers := .herr :: s.answers }) ∧
      (v.toNat < 131071 → ∃ a : BitVec 17, a.toNat = v.toNat ∧
        hostStep (.write 32 v) s = .next { s with nodeAddr := a, answers := .ok :: s.answers }) ∧
      (65535 < v.toNat → hostStep (.write 38 v) s = .next { s with answers := .herr :: s.answers }) ∧
      (v.toNat ≤ 65535 → ∃ a : BitVec 16, a.toNat = v.toNat ∧
        hostStep (.write 38 v) s = .next { s with frqAddr := a, answers := .ok :: s.answers })) ∧
    (∀ r, 33 ≤ r → r ≤ 37 → s.nodes.length ≤ s.nodeAddr.toNat →
      hostStep (.read r) s = .next { s with answers := .herr :: s.answers }) ∧
    (∀ x : Node, s.nodes[s.nodeAddr.toNat]? = some x →
      (∃ v : Word, hostStep (.read 33) s = .next { s with answers := .value v :: s.answers } ∧
        v.toNat = x.ch.toNat + 65536 * x.leaf.toNat + 131072 * x.inl.toNat + 262144 * x.child.toNat) ∧
      hostStep (.read 34) s = .next { s with answers := .value x.wt :: s.answers } ∧
      hostStep (.read 35) s = .next { s with answers := .value (BitVec.ofNat 32 (x.left.getD 0x1FFFF)) :: s.answers } ∧
      hostStep (.read 36) s = .next { s with answers := .value (BitVec.ofNat 32 (x.right.getD 0x1FFFF)) :: s.answers } ∧
      hostStep (.read 37) s = .next { s with answers := .value (BitVec.ofNat 32 (x.next.getD 0x1FFFF)) :: s.answers }) ∧
    hostStep (.read 39) s = .next { s with answers := .value (s.freqOf s.frqAddr.toNat) :: s.answers } ∧
    (∀ t, exec .clr s = .next t → t.nodeAddr = s.nodeAddr ∧ t.frqAddr = s.frqAddr)

/-- R330: Reset puts every piece of state at its reset value, and every cell of TXT and FIL at a fresh unspecified one
(a free value; the count of Resets, the queue, the transcript and the capacities are the model's own, log entries 1, 3,
4, 5 and 13). -/
def Obligations.ResetOperation : Prop :=
  ∀ s : State, ∃ t, hostStep .reset s = .next t ∧
    t = { s with
      res0 := 0, res1 := 0
      flags := { one := false, empty := false, found := false, hdrv := false, fempty := false }
      freq := t.freq, nodes := [], listHead := none, root := none, ctab := t.ctab, ncodes := 0, tbuf := [], xbuf := []
      rcur := 0, stats := { chars := 0, metaB := 0, tree := 0, text := 0 }
      hdr := { ver := 0, tlen := 0, tbits := 0, xbits := 0, tend := 0, xstart := 0, xend := 0 }
      warg := 0, txtLen := 0, txtAddr := 0, filLen := 0, filAddr := 0, nodeAddr := 0, frqAddr := 0
      error := { kind := .ok, sub := 0, pos := 0 }
      txt := t.txt, fil := t.fil, resets := s.resets + 1 } ∧
    (∀ c, t.freqOf c = 0) ∧ (∀ c, entryOf t.ctab c = { code := 0, len := 0 }) ∧
    (∀ i, t.readTxt i = Config.txtUnwritten (s.resets + 1) i) ∧
    (∀ i, t.readFil i = Config.filUnwritten (s.resets + 1) i)

/-- R65: what the registers and the tables hold right after reset, as the port reads them; the NODE windows are refused,
both buffers are empty. The cells of TXT and FIL are unspecified, so nothing is said of them. -/
def Obligations.ResetValues : Prop :=
  (∀ r ∈ [1, 2, 3, 5, 6, 7, 8, 9, 11, 12, 14] ++ [17, 18, 19, 20, 21, 22, 23, 24, 25, 26, 27, 28, 29, 30, 31]
    ++ [32, 38, 39], hostRead r State.reset = .ok (.value 0)) ∧
  hostRead 4 State.reset = .ok (.value 0x48544300) ∧ hostRead 15 State.reset = .ok (.value 0x1FFFF) ∧
  hostRead 16 State.reset = .ok (.value 0x1FFFF) ∧
  (∀ r ∈ [33, 34, 35, 36, 37], hostRead r State.reset = .ok .herr) ∧
  (∀ c, State.reset.freqOf c = 0) ∧ (∀ c, entryOf State.reset.ctab c = { code := 0, len := 0 }) ∧
  State.reset.tbuf = [] ∧ State.reset.xbuf = []

/-! ## Control (`spec/45_control.md`) -/

/-- R281: NOP ends with `done` and changes nothing else. -/
def Obligations.NopRule : Prop :=
  decodeWord 0x00000000 = .ok .nop ∧
  ∀ s : State, exec .nop s = .next { s with error := { kind := .ok, sub := 0, pos := 0 } }

/-- R282, with `ClearWorking()` of R55: CLR puts the working state at its reset values and touches nothing else. -/
def Obligations.ClrRule : Prop :=
  decodeWord 0x01000000 = .ok .clr ∧
  ∀ s : State, ∃ t, exec .clr s = .next t ∧
    t = { s with
      res0 := 0, res1 := 0
      flags := { one := false, empty := false, found := false, hdrv := false, fempty := false }
      freq := t.freq, nodes := [], listHead := none, root := none, ctab := t.ctab, ncodes := 0, tbuf := [], xbuf := []
      rcur := 0, stats := { chars := 0, metaB := 0, tree := 0, text := 0 }
      hdr := { ver := 0, tlen := 0, tbits := 0, xbits := 0, tend := 0, xstart := 0, xend := 0 }
      error := { kind := .ok, sub := 0, pos := 0 } } ∧
    (∀ c, t.freqOf c = 0) ∧ (∀ c, entryOf t.ctab c = { code := 0, len := 0 })

/-! ## The priority list (`spec/40_priority_list.md`) -/

/-- R142: PL.INS n puts node n into the list after every node of weight at most its own (R141), or raises BadState and
changes nothing when n is not allocated, in the list, or a child. Only NEXT of list nodes and of n, and INL of n,
change. -/
def Obligations.PlInsRule : Prop :=
  ∀ (s : State) (n : Nat) (xs : List Nat), ListIs s xs → n ≤ 131071 →
    decodeWord (BitVec.ofNat 32 (0x10000000 + n)) = .ok (.plIns n) ∧
    ((∀ x, s.nodes[n]? = some x → x.inl = true ∨ x.child = true) →
      exec (.plIns n) s = .next { s with error := { kind := .badState, sub := 0, pos := 0 } }) ∧
    (∀ x, s.nodes[n]? = some x → x.inl = false → x.child = false →
      ∃ t, exec (.plIns n) s = .next t ∧
        t = { s with nodes := t.nodes, listHead := t.listHead, error := { kind := .ok, sub := 0, pos := 0 } } ∧
        ListIs t (stableInsert (wtAt s.nodes) n xs) ∧ t.nodes.length = s.nodes.length ∧
        ∀ (m : Nat) (y : Node), s.nodes[m]? = some y → ∃ z, t.nodes[m]? = some z ∧
          z = { y with next := z.next, inl := if m = n then true else y.inl } ∧ (m ≠ n → m ∉ xs → z = y))

/-- R144, with RemoveMin of R143: PL.RMIN takes the head off the list and reports its index and weight; on an empty list
it reports NULL and 0; EMPTY says which. -/
def Obligations.PlRminRule : Prop :=
  decodeWord 0x11000000 = .ok .plRmin ∧
  ∀ s : State,
    (s.listHead = none → exec .plRmin s = .next { s with
      flags := { s.flags with empty := true }, res0 := 0x1FFFF, res1 := 0
      error := { kind := .ok, sub := 0, pos := 0 } }) ∧
    (∀ (n : Nat) (xs : List Nat), ListIs s (n :: xs) → ∃ t x, s.nodes[n]? = some x ∧ exec .plRmin s = .next t ∧
      t = { s with
        nodes := t.nodes, listHead := t.listHead, flags := { s.flags with empty := false }
        res0 := BitVec.ofNat 32 n, res1 := x.wt, error := { kind := .ok, sub := 0, pos := 0 } } ∧
      ListIs t xs ∧ t.nodes.length = s.nodes.length ∧ t.nodes[n]? = some { x with next := none, inl := false } ∧
      ∀ m, m ≠ n → t.nodes[m]? = s.nodes[m]?)

/-- R145, with HasOne of R146: PL.ONE sets ONE to whether the list holds exactly one node. -/
def Obligations.PlOneRule : Prop :=
  decodeWord 0x12000000 = .ok .plOne ∧
  ∀ (s : State) (xs : List Nat), ListIs s xs → exec .plOne s = .next { s with
    flags := { s.flags with one := decide (xs.length = 1) }, error := { kind := .ok, sub := 0, pos := 0 } }

/-- The list stays non-decreasing in weight and the nodes already in it keep their order when PL.INS inserts one
(section 4 of the file, an inference of the spec). -/
def Obligations.PlInsKeepsTheListSorted : Prop :=
  ∀ (s t : State) (n : Nat) (xs : List Nat), ListIs s xs →
    xs.Pairwise (fun a b => wtAt s.nodes a ≤ wtAt s.nodes b) → exec (.plIns n) s = .next t →
    ∃ ys, ListIs t ys ∧ xs.Sublist ys ∧ ys.Pairwise (fun a b => wtAt t.nodes a ≤ wtAt t.nodes b)

/-! ## The tree builder (`spec/41_tree_builder.md`) -/

/-- R161: TB.LEAF ch appends a leaf with weight WARG, not in the list, and reports its index; a full arena gives
BadState. -/
def Obligations.TbLeafRule : Prop :=
  ∀ (s : State) (ch : CharUnit),
    decodeWord (0x20#8 ++ 0#8 ++ ch) = .ok (.tbLeaf ch) ∧
    (131071 ≤ s.nodes.length →
      exec (.tbLeaf ch) s = .next { s with error := { kind := .badState, sub := 0, pos := 0 } }) ∧
    (s.nodes.length < 131071 → exec (.tbLeaf ch) s = .next { s with
      nodes := s.nodes ++ [{ leaf := true, ch := ch, wt := s.warg, left := none, right := none, next := none
                             inl := false, child := false }]
      res0 := BitVec.ofNat 32 s.nodes.length, error := { kind := .ok, sub := 0, pos := 0 } })

/-- R162: TB.COUNT leaves in FREQ[c] the number of times c stands in the text, and changes nothing else. -/
def Obligations.TbCountRule : Prop :=
  decodeWord 0x21000000 = .ok .tbCount ∧
  ∀ s : State, s.txtLen.toNat ≤ s.caps.txtCap → ∃ t, exec .tbCount s = .next t ∧
    t = { s with freq := t.freq, error := { kind := .ok, sub := 0, pos := 0 } } ∧
    ∀ c : CharUnit, (t.freqOf c.toNat).toNat = s.text.count c

/-- R164: TB.LEAVES frees the nodes, makes a leaf for each character with a count, in ascending order, and leaves them
in a list sorted by count and, for equal counts, by character. -/
def Obligations.TbLeavesRule : Prop :=
  decodeWord 0x22000000 = .ok .tbLeaves ∧
  ∀ (s : State) (cs : List Nat), TableInv s → cs = (List.range 65536).filter (fun c => decide (s.freqOf c ≠ 0)) →
    ∃ t, exec .tbLeaves s = .next t ∧
      t = { s with
        nodes := t.nodes, listHead := t.listHead, root := none, error := { kind := .ok, sub := 0, pos := 0 } } ∧
      t.nodes.length = cs.length ∧
      (∀ (i c : Nat), cs[i]? = some c → ∃ x : Node, t.nodes[i]? = some x ∧
        x = { leaf := true, ch := BitVec.ofNat 16 c, wt := s.freqOf c, left := none, right := none, next := x.next
              inl := true, child := false }) ∧
      ∃ xs, ListIs t xs ∧ xs.Perm (List.range cs.length) ∧
        xs.Pairwise (fun a b => wtAt t.nodes a < wtAt t.nodes b ∨ (wtAt t.nodes a = wtAt t.nodes b ∧ a < b))

/-- R166: TB.MERGE takes the two lowest nodes a and b off the list, makes an internal node over them with the sum of
their weights, a left and b right, marks both as children and inserts the new node; three causes of BadState come
before any change, in this order. -/
def Obligations.TbMergeRule : Prop :=
  decodeWord 0x23000000 = .ok .tbMerge ∧
  ∀ (s : State) (xs : List Nat), ListIs s xs →
    (xs.length < 2 ∨ 131071 ≤ s.nodes.length ∨
      (∃ a b ys, xs = a :: b :: ys ∧ 0xFFFFFFFF < (wtAt s.nodes a).toNat + (wtAt s.nodes b).toNat) →
      exec .tbMerge s = .next { s with error := { kind := .badState, sub := 0, pos := 0 } }) ∧
    (∀ a b ys, xs = a :: b :: ys → s.nodes.length < 131071 →
      (wtAt s.nodes a).toNat + (wtAt s.nodes b).toNat ≤ 0xFFFFFFFF →
      ∃ t x, exec .tbMerge s = .next t ∧
        t = { s with
          nodes := t.nodes, listHead := t.listHead, res0 := BitVec.ofNat 32 s.nodes.length
          res1 := wtAt s.nodes a + wtAt s.nodes b, error := { kind := .ok, sub := 0, pos := 0 } } ∧
        t.nodes.length = s.nodes.length + 1 ∧ ListIs t (stableInsert (wtAt t.nodes) s.nodes.length ys) ∧
        t.nodes[s.nodes.length]? = some x ∧
        x = { leaf := false, ch := 0, wt := wtAt s.nodes a + wtAt s.nodes b, left := some a, right := some b
              next := x.next, inl := true, child := false } ∧
        ∀ (m : Nat) (y : Node), s.nodes[m]? = some y → ∃ z, t.nodes[m]? = some z ∧
          (m = a ∨ m = b → z = { y with next := none, inl := false, child := true }) ∧
          (m ≠ a → m ≠ b → z = { y with next := z.next }) ∧ (m ∉ xs → z = y))

/-- R168: TB.ROOT takes the one node of the list off it and makes it ROOT; any other list gives BadState. -/
def Obligations.TbRootRule : Prop :=
  decodeWord 0x24000000 = .ok .tbRoot ∧
  ∀ (s : State) (xs : List Nat), ListIs s xs →
    (xs.length ≠ 1 → exec .tbRoot s = .next { s with error := { kind := .badState, sub := 0, pos := 0 } }) ∧
    (∀ r, xs = [r] → ∃ t x, s.nodes[r]? = some x ∧ exec .tbRoot s = .next t ∧
      t = { s with
        nodes := t.nodes, listHead := none, root := some r, res0 := BitVec.ofNat 32 r, res1 := x.wt
        error := { kind := .ok, sub := 0, pos := 0 } } ∧
      t.nodes.length = s.nodes.length ∧ t.nodes[r]? = some { x with next := none, inl := false } ∧
      ∀ m, m ≠ r → t.nodes[m]? = s.nodes[m]?)

/-- R170: TB.BUILD on an empty text raises InvalidArgument and changes nothing; on another it always ends with `done`,
as TB.COUNT, TB.LEAVES, one TB.MERGE fewer than there are distinct characters, and TB.ROOT one after another do. RES0 is
ROOT and RES1 is TXT_LEN then. -/
def Obligations.TbBuildRule : Prop :=
  decodeWord 0x25000000 = .ok .tbBuild ∧
  ∀ s : State,
    (s.txtLen = 0 → exec .tbBuild s = .next { s with error := { kind := .invalidArgument, sub := 0, pos := 0 } }) ∧
    (s.txtLen ≠ 0 → s.txtLen.toNat ≤ s.caps.txtCap →
      exec .tbBuild s = runAll ([.tbCount, .tbLeaves] ++ List.replicate ((distinctChars s.text).length - 1) .tbMerge
        ++ [.tbRoot]) s ∧
      ∃ t r, exec .tbBuild s = .next t ∧ t.root = some r ∧
        t = { s with
          freq := t.freq, nodes := t.nodes, listHead := none, root := some r, res0 := BitVec.ofNat 32 r
          res1 := s.txtLen, error := { kind := .ok, sub := 0, pos := 0 } })

/-- The shape of a built tree (section 3 of the file, an inference of the spec): for k distinct characters, 2k − 1
nodes, the k leaves first in ascending order of character with their counts, the root last and of weight TXT_LEN, each
child below its parent, and one tree under the root whose leaves carry each character once. -/
def Obligations.TbBuildShape : Prop :=
  ∀ (s t : State) (k : Nat), s.txtLen ≠ 0 → s.txtLen.toNat ≤ s.caps.txtCap → k = (distinctChars s.text).length →
    exec .tbBuild s = .next t →
    1 ≤ k ∧ t.nodes.length = 2 * k - 1 ∧ t.root = some (2 * k - 2) ∧ (wtAt t.nodes (2 * k - 2)) = s.txtLen ∧
    (∀ (i c : Nat), (distinctChars s.text)[i]? = some c → ∃ x : Node, t.nodes[i]? = some x ∧ x.leaf = true ∧
      x.ch = BitVec.ofNat 16 c ∧ x.wt.toNat = s.text.count (BitVec.ofNat 16 c)) ∧
    (∀ (m : Nat) (y : Node), k ≤ m → t.nodes[m]? = some y →
      ∃ a b, y.leaf = false ∧ y.left = some a ∧ y.right = some b ∧ a < m ∧ b < m) ∧
    ∃ u, HoldsTree t.nodes (2 * k - 2) u ∧ u.chars.Perm ((distinctChars s.text).map (BitVec.ofNat 16))

/-! ## The code table (`spec/42_code_table.md`) -/

/-- R192, with Visit of R191: CT.GEN gives each character the path to its leaf (the last one in preorder, where leaves
share a character), every other character no code, and counts the characters that have one; a tree of one leaf gives
(0, length 1); with no tree it raises BadState and changes nothing. -/
def Obligations.CtGenRule : Prop :=
  decodeWord 0x30000000 = .ok .ctGen ∧
  ∀ s : State,
    (s.root = none → exec .ctGen s = .next { s with error := { kind := .badState, sub := 0, pos := 0 } }) ∧
    (∀ (r : Nat) (u : HTree), s.root = some r → HoldsTree s.nodes r u → (∀ p ∈ u.codes, p.2.length ≤ 16) →
      ∃ t, exec .ctGen s = .next t ∧
        t = { s with ctab := t.ctab, ncodes := t.ncodes, error := { kind := .ok, sub := 0, pos := 0 } } ∧
        (∀ c p, lastPath u.codes c = some p → (entryOf t.ctab c).len.toNat = p.length ∧
          entryBits (entryOf t.ctab c) = p ∧ (entryOf t.ctab c).code.toNat < 2 ^ p.length) ∧
        (∀ c, c ∉ u.chars → entryOf t.ctab c = { code := 0, len := 0 }) ∧
        t.ncodes.toNat = u.chars.dedup.length)

/-- R194: a leaf deeper than 16 ends CT.GEN with CodeOverflow(0, c) for the first such leaf in preorder, with an empty
code table, and nothing else changed; every code that CT.GEN ever stores has at most 16 bits and is the whole path. -/
def Obligations.CtGenOverflowRule : Prop :=
  ∀ (s : State) (r : Nat) (u : HTree), s.root = some r → HoldsTree s.nodes r u →
    (∀ c p, u.codes.find? (fun q => decide (16 < q.2.length)) = some (c, p) →
      ∃ t, exec .ctGen s = .next t ∧
        t = { s with
          ctab := t.ctab, ncodes := 0, error := { kind := .codeOverflow, sub := 0, pos := c.zeroExtend 32 } } ∧
        ∀ d, entryOf t.ctab d = { code := 0, len := 0 }) ∧
    (∀ t d, exec .ctGen s = .next t → (entryOf t.ctab d).len.toNat ≤ 16 ∧
      ((entryOf t.ctab d).len ≠ 0 → (d, entryBits (entryOf t.ctab d)) ∈ u.codes))

/-- The table that CT.GEN completes is prefix-free when the leaves carry distinct characters (section 4 of the file, an
inference of the spec). -/
def Obligations.CtGenPrefixFree : Prop :=
  ∀ (s t : State) (r : Nat) (u : HTree), s.root = some r → HoldsTree s.nodes r u → u.chars.Nodup → 2 ≤ u.leafCount →
    exec .ctGen s = .next t → t.error.kind = .ok →
    ∀ c d : CharUnit, c ≠ d → (entryOf t.ctab c).len ≠ 0 → (entryOf t.ctab d).len ≠ 0 →
      ¬ entryBits (entryOf t.ctab c) <+: entryBits (entryOf t.ctab d)

/-- R196: CT.LOOKUP ch reports the entry of ch, and in FOUND whether it has a code. -/
def Obligations.CtLookupRule : Prop :=
  ∀ (s : State) (ch : CharUnit),
    decodeWord (0x31#8 ++ 0#8 ++ ch) = .ok (.ctLookup ch) ∧
    exec (.ctLookup ch) s = .next { s with
      flags := { s.flags with found := decide ((entryOf s.ctab ch).len ≠ 0) }
      res0 := (entryOf s.ctab ch).code.zeroExtend 32, res1 := (entryOf s.ctab ch).len.zeroExtend 32
      error := { kind := .ok, sub := 0, pos := 0 } }

/-! ## The encoder (`spec/43_encoder.md`) -/

/-- R211, with Ser of R212: EN.TREE leaves the serialised tree in TBUF, 18k − 1 bits for k leaves; with no tree it
raises BadState and changes nothing. -/
def Obligations.EnTreeRule : Prop :=
  decodeWord 0x40000000 = .ok .enTree ∧
  ∀ s : State,
    (s.root = none → exec .enTree s = .next { s with error := { kind := .badState, sub := 0, pos := 0 } }) ∧
    (∀ (r : Nat) (u : HTree), s.root = some r → HoldsTree s.nodes r u →
      exec .enTree s = .next { s with tbuf := u.ser, error := { kind := .ok, sub := 0, pos := 0 } } ∧
      u.ser.length = 18 * u.leafCount - 1)

/-- R213: EN.TEXT leaves the codes of the text in XBUF, joined in text order; the first character without a code ends it
with BadState(0, i), i its index, and an empty XBUF. -/
def Obligations.EnTextRule : Prop :=
  decodeWord 0x41000000 = .ok .enText ∧
  ∀ s : State, s.txtLen.toNat ≤ s.caps.txtCap →
    ((∀ c ∈ s.text, (entryOf s.ctab c).len ≠ 0) → exec .enText s = .next { s with
      xbuf := (s.text.map (fun c => entryBits (entryOf s.ctab c))).flatten
      error := { kind := .ok, sub := 0, pos := 0 } }) ∧
    (∀ (i : Nat) (c : CharUnit), s.text[i]? = some c → (entryOf s.ctab c).len = 0 →
      (∀ (j : Nat) (d : CharUnit), j < i → s.text[j]? = some d → (entryOf s.ctab d).len ≠ 0) →
      exec .enText s = .next { s with
        xbuf := [], error := { kind := .badState, sub := 0, pos := BitVec.ofNat 32 i } })

/-- R216 to R218: EN.EMIT writes the header, the tree bytes and the text bytes to FIL, sets FIL_LEN and the statistics,
and leaves every cell at or above the new FIL_LEN alone; an empty buffer gives BadState, and a file longer than FIL_CAP
gives StorageError, both before any change. Byte i of a buffer has stream bit 8i + j in bit 7 − j, 0 above the cursor
(R210). -/
def Obligations.EnEmitRule : Prop :=
  decodeWord 0x42000000 = .ok .enEmit ∧
  ∀ (s : State) (tb xb : Nat), s.caps.Legal → tb = (s.tbuf.length + 7) / 8 → xb = (s.xbuf.length + 7) / 8 →
    (s.tbuf = [] ∨ s.xbuf = [] →
      exec .enEmit s = .next { s with error := { kind := .badState, sub := 0, pos := 0 } }) ∧
    (s.tbuf ≠ [] → s.xbuf ≠ [] → s.caps.filCap < 4 + tb + xb →
      exec .enEmit s = .next { s with error := { kind := .storageError, sub := 0, pos := 0 } }) ∧
    (s.tbuf ≠ [] → s.xbuf ≠ [] → 4 + tb + xb ≤ s.caps.filCap →
      ∃ t, exec .enEmit s = .next t ∧
        t = { s with
          fil := t.fil, filLen := BitVec.ofNat 32 (4 + tb + xb)
          stats := { chars := s.txtLen, metaB := 4, tree := BitVec.ofNat 32 tb, text := BitVec.ofNat 32 xb }
          error := { kind := .ok, sub := 0, pos := 0 } } ∧
        t.filLen.toNat = 4 + tb + xb ∧
        (t.readFil 0).toNat = tb / 65536 % 4 ∧ (t.readFil 1).toNat = tb / 256 % 256 ∧
        (t.readFil 2).toNat = tb % 256 ∧
        (t.readFil 3).toNat = ((s.tbuf.length - 1) % 8 + 1) * 16 + ((s.xbuf.length - 1) % 8 + 1) ∧
        (∀ i j, i < tb → j < 8 → (t.readFil (4 + i)).getLsbD (7 - j) = (s.tbuf[8 * i + j]?).getD false) ∧
        (∀ i j, i < xb → j < 8 → (t.readFil (4 + tb + i)).getLsbD (7 - j) = (s.xbuf[8 * i + j]?).getD false) ∧
        ∀ i, 4 + tb + xb ≤ i → t.readFil i = s.readFil i)

/-- R222: ENCODE of the empty text clears the working state, sets FIL_LEN to 0, writes no cell of FIL and ends with
`done`; the statistics are 0. -/
def Obligations.EncodeEmptyText : Prop :=
  ∀ s c : State, s.txtLen = 0 → exec .clr s = .next c →
    exec .encode s = .next { c with filLen := 0 } ∧ c.fil = s.fil ∧ c.nodes = [] ∧ c.root = none ∧
    c.stats = { chars := 0, metaB := 0, tree := 0, text := 0 } ∧ c.error = { kind := .ok, sub := 0, pos := 0 }

/-- R221: ENCODE of the empty text is the clearing and FIL_LEN ← 0; of another text it is the clearing, then the bodies of
TB.BUILD, CT.GEN, EN.TREE, EN.TEXT and EN.EMIT, up to the first that raises. It ends with `done`, CodeOverflow or
StorageError and no other error, FIL and FIL_LEN are unchanged by an error, all flags are 0, and after `done` RES0 is ROOT
and RES1 is TXT_LEN. -/
def Obligations.EncodeRule : Prop :=
  decodeWord 0x43000000 = .ok .encode ∧
  ∀ s : State, MemoryInv s →
    (s.txtLen = 0 → ∀ c, exec .clr s = .next c → exec .encode s = .next { c with filLen := 0 }) ∧
    (s.txtLen ≠ 0 → exec .encode s = runAll [.clr, .tbBuild, .ctGen, .enTree, .enText, .enEmit] s) ∧
    ∃ t, exec .encode s = .next t ∧ t.error.kind ∈ [ErrKind.ok, .codeOverflow, .storageError] ∧
      (t.error.kind ≠ .ok → t.filLen = s.filLen ∧ ∀ i, t.readFil i = s.readFil i) ∧
      (t.error.kind = .ok → s.txtLen ≠ 0 →
        ∃ r, t.root = some r ∧ t.res0 = BitVec.ofNat 32 r ∧ t.res1 = s.txtLen) ∧
      t.flags = { one := false, empty := false, found := false, hdrv := false, fempty := false }

/-- R223: after an error of ENCODE, FIL, FIL_LEN, TXT and TXT_LEN are unchanged and the statistics are 0; after
CodeOverflow the counts and the tree are there, the code table is empty and both cursors are 0; after StorageError the
counts, the tree, the table and both buffers are there, and their lengths are those that did not fit. -/
def Obligations.EncodeErrorKeepsTheFile : Prop :=
  ∀ s t : State, MemoryInv s → exec .encode s = .next t → t.error.kind ≠ .ok →
    (∀ i, t.readFil i = s.readFil i) ∧ t.filLen = s.filLen ∧ (∀ i, t.readTxt i = s.readTxt i) ∧ t.txtLen = s.txtLen ∧
    t.stats = { chars := 0, metaB := 0, tree := 0, text := 0 } ∧
    (∀ c : CharUnit, (t.freqOf c.toNat).toNat = s.text.count c) ∧
    (∃ r u, t.root = some r ∧ HoldsTree t.nodes r u ∧ u.chars.Perm ((distinctChars s.text).map (BitVec.ofNat 16)) ∧
      (t.error.kind = .storageError → t.tbuf = u.ser ∧
        t.xbuf = (s.text.map (fun c => entryBits (entryOf t.ctab c))).flatten)) ∧
    (t.error.kind = .codeOverflow → (∀ c, entryOf t.ctab c = { code := 0, len := 0 }) ∧ t.ncodes = 0 ∧ t.tbuf = [] ∧
      t.xbuf = []) ∧
    (t.error.kind = .storageError →
      t.ncodes.toNat = (distinctChars s.text).length ∧
      s.caps.filCap < 4 + (t.tbuf.length + 7) / 8 + (t.xbuf.length + 7) / 8)

/-- ENCODE completes: a text of at most 17 distinct characters never overflows the 16-bit code (section 3 of
`spec/70_reset_and_hazards.md`, an inference of the spec), so where the file fits it ends with `done`, and FIL holds the
file of the tree and of the codes of the text. TXT and the host's registers stay as they were. -/
def Obligations.EncodeCompletes : Prop :=
  ∀ s : State, MemoryInv s → s.txtLen ≠ 0 → (distinctChars s.text).length ≤ 17 →
    4 + 39 + 2 * s.txtLen.toNat ≤ s.caps.filCap →
    ∃ (t : State) (u : HTree) (r : Nat), exec .encode s = .next t ∧
      t = { s with
        res0 := BitVec.ofNat 32 r, res1 := s.txtLen
        flags := { one := false, empty := false, found := false, hdrv := false, fempty := false }
        freq := t.freq, nodes := t.nodes, listHead := none, root := some r, ctab := t.ctab, ncodes := t.ncodes
        tbuf := u.ser, xbuf := (s.text.map (fun c => entryBits (entryOf t.ctab c))).flatten, rcur := 0
        stats := t.stats, hdr := { ver := 0, tlen := 0, tbits := 0, xbits := 0, tend := 0, xstart := 0, xend := 0 }
        fil := t.fil, filLen := t.filLen, error := { kind := .ok, sub := 0, pos := 0 } } ∧
      HoldsTree t.nodes r u ∧ u.chars.Perm ((distinctChars s.text).map (BitVec.ofNat 16)) ∧
      (∀ c ∈ s.text, lastPath u.codes c = some (entryBits (entryOf t.ctab c))) ∧
      t.filLen.toNat = 4 + (t.tbuf.length + 7) / 8 + (t.xbuf.length + 7) / 8 ∧
      ∀ i b, (fileBytes t.tbuf t.xbuf)[i]? = some b → t.readFil i = b

/-! ## The decoder (`spec/44_decoder.md`) -/

/-- R241 to R244: DE.HDR zeroes HDRV, FEMPTY and the header registers, then the first of the checks, in the order of
R243, that applies decides; a header that passes them all is stored with its three offsets. Nothing else changes. -/
def Obligations.DeHdrRule : Prop :=
  decodeWord 0x50000000 = .ok .deHdr ∧
  ∀ (s z : State) (len ver tlen tbits xbits : Nat), s.filLen.toNat ≤ s.caps.filCap →
    len = s.filLen.toNat → ver = (s.readFil 0).toNat / 4 →
    tlen = (s.readFil 0).toNat % 4 * 65536 + (s.readFil 1).toNat * 256 + (s.readFil 2).toNat →
    tbits = (s.readFil 3).toNat / 16 → xbits = (s.readFil 3).toNat % 16 →
    z = { s with
      flags := { s.flags with hdrv := false, fempty := false }
      hdr := { ver := 0, tlen := 0, tbits := 0, xbits := 0, tend := 0, xstart := 0, xend := 0 } } →
    exec .deHdr s = .next (
      if len = 0 then
        { z with flags := { s.flags with hdrv := false, fempty := true }, error := { kind := .ok, sub := 0, pos := 0 } }
      else if len < 8 then { z with error := { kind := .corruptFormat, sub := 1, pos := 0 } }
      else if ver > 0 then { z with error := { kind := .unsupportedVersion, sub := 0, pos := 0 } }
      else if tlen < 3 ∨ tlen > 147456 then { z with error := { kind := .corruptFormat, sub := 2, pos := 0 } }
      else if tbits < 1 ∨ tbits > 8 then { z with error := { kind := .corruptFormat, sub := 3, pos := 0 } }
      else if xbits < 1 ∨ xbits > 8 then { z with error := { kind := .corruptFormat, sub := 4, pos := 0 } }
      else if len - 4 < tlen + 1 then { z with error := { kind := .corruptFormat, sub := 5, pos := 0 } }
      else { z with
        flags := { s.flags with hdrv := true, fempty := false }
        hdr := { ver := BitVec.ofNat 6 ver, tlen := BitVec.ofNat 18 tlen, tbits := BitVec.ofNat 4 tbits
                 xbits := BitVec.ofNat 4 xbits, tend := BitVec.ofNat 32 (24 + 8 * tlen + tbits)
                 xstart := BitVec.ofNat 32 (8 * (4 + tlen))
                 xend := BitVec.ofNat 32 (8 * (4 + tlen) + 8 * (len - 4 - tlen - 1) + xbits) }
        error := { kind := .ok, sub := 0, pos := 0 } })

/-- R249, with Parse of R250: DE.TREE with no header raises BadState and changes nothing; otherwise it frees the nodes
and scans the bits from offset 32 to HDR_TEND. A complete descent is the serialisation of a tree, whose nodes it leaves
in preorder (R251); a descent that is stopped ends it with CorruptFormat, at the offset where the next read or node was
refused, with no node left and RCUR at that offset. -/
def Obligations.DeTreeRule : Prop :=
  decodeWord 0x51000000 = .ok .deTree ∧
  ∀ (s : State) (bits : List Bool),
    (s.flags.hdrv = false → exec .deTree s = .next { s with error := { kind := .badState, sub := 0, pos := 0 } }) ∧
    (s.flags.hdrv = true → 32 < s.hdr.tend.toNat → s.hdr.tend.toNat ≤ 8 * s.caps.filCap →
      bits = s.fileBits 32 (s.hdr.tend.toNat - 32) →
      (∀ sub pos, descend bits.length bits 32 1 0 = .stopped sub pos →
        (sub = 6 ∨ sub = 7) ∧ exec .deTree s = .next { s with
          nodes := [], listHead := none, root := none, rcur := BitVec.ofNat 32 pos
          error := { kind := .corruptFormat, sub := BitVec.ofNat 32 sub, pos := BitVec.ofNat 32 pos } }) ∧
      (∀ pos, descend bits.length bits 32 1 0 = .complete pos →
        ∃ u : HTree, u.ser <+: bits ∧ pos = 32 + u.ser.length ∧ exec .deTree s = .next { s with
          nodes := u.preorder 0 false, listHead := none, root := some 0, rcur := BitVec.ofNat 32 pos
          error := { kind := .ok, sub := 0, pos := 0 } }))

/-- DE.TREE inverts the serialisation of every tree that the arena holds: where the tree bits of FIL begin with it, the
descent is complete, whatever bits follow (R252). -/
def Obligations.DeTreeReadsEveryTree : Prop :=
  ∀ (s : State) (u : HTree), s.flags.hdrv = true → s.hdr.tend.toNat ≤ 8 * s.caps.filCap → u.leafCount ≤ 65536 →
    32 + u.ser.length ≤ s.hdr.tend.toNat → u.ser <+: s.fileBits 32 (s.hdr.tend.toNat - 32) →
    exec .deTree s = .next { s with
      nodes := u.preorder 0 false, listHead := none, root := some 0, rcur := BitVec.ofNat 32 (32 + u.ser.length)
      error := { kind := .ok, sub := 0, pos := 0 } } ∧ HoldsTree (u.preorder 0 false) 0 u

/-- R254 to R257: DE.TEXT with no header or no tree raises BadState and changes nothing; otherwise the characters that the
text bits spell from the root go to TXT from cell 0 on. For a tree of two leaves or more a walk that is cut off gives
none, and the first character that has no cell ends it with StorageError at the offset of the bit that completed it. For
a tree of one leaf each 0 bit gives the character once, the first 1 bit ends it with CorruptFormat(9, p), before the
capacity is looked at, and a character that has no cell ends it with StorageError. After an error TXT_LEN is 0 and RCUR
is the offset. -/
def Obligations.DeTextRule : Prop :=
  decodeWord 0x52000000 = .ok .deText ∧
  ∀ s : State,
    (s.flags.hdrv = false ∨ s.root = none →
      exec .deText s = .next { s with error := { kind := .badState, sub := 0, pos := 0 } }) ∧
    (∀ (r : Nat) (l l' : HTree) (ems : List (CharUnit × Nat)), s.flags.hdrv = true → s.root = some r →
      HoldsTree s.nodes r (.node l l') → s.hdr.xend.toNat ≤ 8 * s.caps.filCap →
      ems = HTree.emits (.node l l') (.node l l') s.hdr.xstart.toNat
        (s.fileBits s.hdr.xstart.toNat (s.hdr.xend.toNat - s.hdr.xstart.toNat)) →
      ∃ t, exec .deText s = .next t ∧
        (ems.length ≤ s.caps.txtCap → t = { s with
          txt := t.txt, txtLen := BitVec.ofNat 32 ems.length, rcur := s.hdr.xend
          error := { kind := .ok, sub := 0, pos := 0 } }) ∧
        (∀ c p, ems[s.caps.txtCap]? = some (c, p) → t = { s with
          txt := t.txt, txtLen := 0, rcur := BitVec.ofNat 32 p
          error := { kind := .storageError, sub := 0, pos := BitVec.ofNat 32 p } }) ∧
        ∀ i, t.readTxt i = match (ems.take s.caps.txtCap)[i]? with
          | some e => e.1
          | none => s.readTxt i) ∧
    (∀ (r : Nat) (c : CharUnit) (start count : Nat), s.flags.hdrv = true → s.root = some r →
      HoldsTree s.nodes r (.leaf c) → s.hdr.xend.toNat ≤ 8 * s.caps.filCap → start = s.hdr.xstart.toNat →
      count = s.hdr.xend.toNat - start →
      ((∀ j, j < count → s.fileBit (start + j) = false) → count ≤ s.caps.txtCap → ∃ t, exec .deText s = .next t ∧
        t = { s with
          txt := t.txt, txtLen := BitVec.ofNat 32 count, rcur := s.hdr.xend
          error := { kind := .ok, sub := 0, pos := 0 } } ∧
        ∀ i, t.readTxt i = if i < count then c else s.readTxt i) ∧
      (∀ k, k < count → s.fileBit (start + k) = true → (∀ j, j < k → s.fileBit (start + j) = false) →
        k ≤ s.caps.txtCap → ∃ t, exec .deText s = .next t ∧
        t = { s with
          txt := t.txt, txtLen := 0, rcur := BitVec.ofNat 32 (start + k)
          error := { kind := .corruptFormat, sub := 9, pos := BitVec.ofNat 32 (start + k) } } ∧
        ∀ i, t.readTxt i = if i < k then c else s.readTxt i) ∧
      (s.caps.txtCap < count → (∀ j, j ≤ s.caps.txtCap → s.fileBit (start + j) = false) →
        ∃ t, exec .deText s = .next t ∧
        t = { s with
          txt := t.txt, txtLen := 0, rcur := BitVec.ofNat 32 (start + s.caps.txtCap)
          error := { kind := .storageError, sub := 0, pos := BitVec.ofNat 32 (start + s.caps.txtCap) } } ∧
        ∀ i, t.readTxt i = if i < s.caps.txtCap then c else s.readTxt i))

/-- R260: DECODE is the clearing, TXT_LEN ← 0, and the bodies of DE.HDR, DE.TREE and DE.TEXT up to the first that raises;
the empty file gives the empty text after DE.HDR alone. It raises UnsupportedVersion, StorageError and CorruptFormat with
sub-causes 1 to 7 and 9 and no other error, leaves RES0, RES1, ONE, EMPTY and FOUND at 0, and after every error TXT_LEN. -/
def Obligations.DecodeRule : Prop :=
  decodeWord 0x53000000 = .ok .decode ∧
  ∀ s c : State, MemoryInv s → exec .clr s = .next c →
    (s.filLen = 0 → exec .decode s = .next { c with txtLen := 0, flags := { c.flags with fempty := true } }) ∧
    (s.filLen ≠ 0 → exec .decode s = runAll [.deHdr, .deTree, .deText] { c with txtLen := 0 }) ∧
    ∃ t, exec .decode s = .next t ∧ t.res0 = 0 ∧ t.res1 = 0 ∧
      t.error.kind ∈ [ErrKind.ok, .unsupportedVersion, .corruptFormat, .storageError] ∧
      (t.error.kind = .corruptFormat → t.error.sub ∈ [1, 2, 3, 4, 5, 6, 7, 9]) ∧
      (t.error.kind ≠ .ok → t.txtLen = 0) ∧
      t.flags.one = false ∧ t.flags.empty = false ∧ t.flags.found = false

/-- R261: after an error of DECODE, FIL and FIL_LEN are unchanged, TXT_LEN is 0 and RCUR is ERRPOS; after an error of the
header, HDRV, the header registers and RCUR are 0 and there is no node; after one of the tree, the parsed header is there
and there is no node and no root; after one of the text, the parsed header and the tree are there. -/
def Obligations.DecodeErrorLeaves : Prop :=
  ∀ s t h : State, MemoryInv s → exec .decode s = .next t → t.error.kind ≠ .ok → exec .deHdr s = .next h →
    (∀ i, t.readFil i = s.readFil i) ∧ t.filLen = s.filLen ∧ t.txtLen = 0 ∧ t.rcur = t.error.pos ∧
    (t.error.kind = .unsupportedVersion ∨ (t.error.kind = .corruptFormat ∧ t.error.sub.toNat ≤ 5) →
      t.flags.hdrv = false ∧ t.hdr = { ver := 0, tlen := 0, tbits := 0, xbits := 0, tend := 0, xstart := 0, xend := 0 } ∧
      t.nodes = [] ∧ t.rcur = 0) ∧
    (t.error.kind = .corruptFormat → t.error.sub = 6 ∨ t.error.sub = 7 →
      t.flags.hdrv = true ∧ h.flags.hdrv = true ∧ t.hdr = h.hdr ∧ t.nodes = [] ∧ t.root = none) ∧
    (t.error.kind = .storageError ∨ (t.error.kind = .corruptFormat ∧ t.error.sub = 9) →
      t.flags.hdrv = true ∧ h.flags.hdrv = true ∧ t.hdr = h.hdr ∧ t.root = some 0 ∧ ∃ u, HoldsTree t.nodes 0 u)

/-- DECODE completes on every file that has the layout of section 2 of `spec/30_encoding.md`: a header, the bytes of a
serialised tree, and the bytes of a text that the tree spells and whose characters fit in TXT. TXT then holds those
characters, and only the working state, TXT and TXT_LEN change. -/
def Obligations.DecodeReadsTheFile : Prop :=
  ∀ (s : State) (u : HTree) (text : List Bool) (out : List CharUnit), MemoryInv s → u.leafCount ≤ 65536 → text ≠ [] →
    s.filLen.toNat = (fileBytes u.ser text).length →
    (∀ i b, (fileBytes u.ser text)[i]? = some b → s.readFil i = b) →
    u.spells text = some out → out.length ≤ s.caps.txtCap →
    ∃ t, exec .decode s = .next t ∧
      t = { s with
        res0 := 0, res1 := 0
        flags := { one := false, empty := false, found := false, hdrv := true, fempty := false }
        freq := t.freq, nodes := u.preorder 0 false, listHead := none, root := some 0, ctab := t.ctab
        ncodes := 0, tbuf := [], xbuf := [], rcur := t.hdr.xend
        stats := { chars := 0, metaB := 0, tree := 0, text := 0 }, hdr := t.hdr, txt := t.txt
        txtLen := BitVec.ofNat 32 out.length, error := { kind := .ok, sub := 0, pos := 0 } } ∧
      t.text = out

/-- The round trip (section 4 of `spec/43_encoder.md`, an inference of the spec): when ENCODE ends with `done`, DECODE
of the file it left ends with `done`, and TXT_LEN and TXT[0..TXT_LEN − 1] are what they were. -/
def Obligations.RoundTrip : Prop :=
  ∀ s t : State, MemoryInv s → exec .encode s = .next t → t.error.kind = .ok →
    ∃ u, exec .decode t = .next u ∧ u.error = { kind := .ok, sub := 0, pos := 0 } ∧ u.txtLen = s.txtLen ∧
      u.text = s.text

/-- The file is a function of the text and of FIL_CAP (section 4 of `spec/43_encoder.md`, an inference of the spec): two
runs of ENCODE on the same text give the same outcome and the same file, whatever the rest of the state. -/
def Obligations.EncodeDependsOnlyOnText : Prop :=
  ∀ s s' t t' : State, MemoryInv s → MemoryInv s' → s.txtLen = s'.txtLen → s.text = s'.text →
    s.caps.filCap = s'.caps.filCap → exec .encode s = .next t → exec .encode s' = .next t' →
    t.error = t'.error ∧ (t.error.kind = .ok → t.filLen = t'.filLen ∧ t.stats = t'.stats ∧
      ∀ i, i < t.filLen.toNat → t.readFil i = t'.readFil i)

/-- The decoded text is a function of the file and of TXT_CAP: DECODE begins by clearing the working state, so its
result depends on its input memory and length only (`spec/45_control.md`). -/
def Obligations.DecodeDependsOnlyOnFile : Prop :=
  ∀ s s' t t' : State, MemoryInv s → MemoryInv s' → s.filLen = s'.filLen →
    (∀ i, i < s.filLen.toNat → s.readFil i = s'.readFil i) → s.caps = s'.caps →
    exec .decode s = .next t → exec .decode s' = .next t' →
    t.error = t'.error ∧ t.txtLen = t'.txtLen ∧ t.text = t'.text ∧ t.nodes = t'.nodes ∧ t.hdr = t'.hdr

/-! ## Invariants and whole-machine rules -/

/-- Every step keeps the capacities legal, TXT and FIL canonical, and the lengths and addresses in range (R9, R42,
R52). -/
def Obligations.MemoryInvariantKept : Prop :=
  ∀ s t : State, MemoryInv s → step s = .next t → MemoryInv t

/-- Every step keeps FREQ and CTAB canonical, every stored code within 1 to 16 bits, and NCODES equal to the number of
characters that have a code (R43, R47, R190, R194). -/
def Obligations.TableInvariantKept : Prop :=
  ∀ s t : State, TableInv s → step s = .next t → TableInv t

/-- Every step keeps the node invariants (section 5 of `spec/10_state.md`, an inference of the spec). -/
def Obligations.ArenaInvariantKept : Prop :=
  ∀ s t : State, TableInv s → ArenaInv s → step s = .next t → ArenaInv t

/-- Every step keeps the header registers zero unless HDRV is 1, and then in the ranges of the checks, with the offsets
in order and inside FIL (R50). -/
def Obligations.HeaderInvariantKept : Prop :=
  ∀ s t : State, s.caps.Legal → HeaderInv s → step s = .next t → HeaderInv t

/-- Every step keeps TCUR in 0..1179647 and XCUR in 0..16 × TXT_CAP (R31, R32). -/
def Obligations.BufferBoundsKept : Prop :=
  ∀ s t : State, SafeState s → BufferInv s → step s = .next t → BufferInv t

/-- The invariants hold right after reset; the capacities at reset are the model's choice (log entry 4). -/
def Obligations.ResetMeetsInvariants : Prop :=
  SafeState State.reset ∧ BufferInv State.reset

/-- From every state that meets the invariants a step answers a next state: nothing hangs, no access is out of range and
no command needs a fault of its own (R342 and R78, inferences of the spec, and R297). -/
def Obligations.StepNeverStops : Prop :=
  ∀ s : State, SafeState s → ∃ t, step s = .next t

/-- No command touches the host's own registers WARG, TXT_ADDR, FIL_ADDR, NODE_ADDR and FRQ_ADDR, nor the model's queue,
transcript, capacities and count of Resets. -/
def Obligations.CommandsKeepHostRegisters : Prop :=
  ∀ (i : Instr) (s t : State), exec i s = .next t →
    t.warg = s.warg ∧ t.txtAddr = s.txtAddr ∧ t.filAddr = s.filAddr ∧ t.nodeAddr = s.nodeAddr ∧
    t.frqAddr = s.frqAddr ∧ t.pending = s.pending ∧ t.answers = s.answers ∧ t.caps = s.caps ∧ t.resets = s.resets

/-- Only EN.EMIT and ENCODE write FIL or FIL_LEN, only DE.TEXT and DECODE write TXT or TXT_LEN (the table of R70), and no
write reaches a cell at or above the capacity (R78, an inference of the spec). -/
def Obligations.MemoryWriters : Prop :=
  ∀ (i : Instr) (s t : State), exec i s = .next t →
    (i ≠ .enEmit → i ≠ .encode → t.fil = s.fil ∧ t.filLen = s.filLen) ∧
    (i ≠ .deText → i ≠ .decode → t.txt = s.txt ∧ t.txtLen = s.txtLen) ∧
    (∀ a, s.caps.filCap ≤ a → t.readFil a = s.readFil a) ∧ (∀ a, s.caps.txtCap ≤ a → t.readTxt a = s.readTxt a)

/-- Each flag is written only by its command and by the clearing of CLR, ENCODE and DECODE, and the code table only by
CT.GEN and that clearing (R35; the table's part is an inference of the spec). -/
def Obligations.FlagAndTableWriters : Prop :=
  ∀ (i : Instr) (s t : State), exec i s = .next t → i ≠ .clr → i ≠ .encode → i ≠ .decode →
    (i ≠ .plOne → t.flags.one = s.flags.one) ∧ (i ≠ .plRmin → t.flags.empty = s.flags.empty) ∧
    ((∀ ch, i ≠ .ctLookup ch) → t.flags.found = s.flags.found) ∧
    (i ≠ .deHdr → t.flags.hdrv = s.flags.hdrv ∧ t.flags.fempty = s.flags.fempty) ∧
    (i ≠ .ctGen → t.ctab = s.ctab ∧ t.ncodes = s.ncodes)

/-- Which command can end with which error, from every state that meets the invariants (section 1 of
`spec/60_exceptions.md`, an inference of the spec); the sub-cause is 0 but for CorruptFormat, where it is 1 to 9 and
never 8, and `done` leaves ERRSUB and ERRPOS at 0. -/
def Obligations.ErrorsOfEachCommand : Prop :=
  ∀ (i : Instr) (s t : State), SafeState s → exec i s = .next t →
    (t.error.kind = .ok → t.error.sub = 0 ∧ t.error.pos = 0) ∧
    (t.error.kind ≠ .corruptFormat → t.error.sub = 0) ∧
    (t.error.kind = .corruptFormat → 1 ≤ t.error.sub.toNat ∧ t.error.sub.toNat ≤ 9 ∧ t.error.sub.toNat ≠ 8) ∧
    t.error.kind ∈ (match i with
      | .plIns _ | .tbLeaf _ | .tbMerge | .tbRoot | .enTree | .enText => [ErrKind.ok, .badState]
      | .plRmin | .plOne | .tbCount | .tbLeaves | .ctLookup _ | .nop | .clr => [.ok]
      | .tbBuild => [.ok, .invalidArgument]
      | .ctGen => [.ok, .codeOverflow, .badState]
      | .enEmit => [.ok, .storageError, .badState]
      | .encode => [.ok, .storageError, .codeOverflow]
      | .deHdr => [.ok, .unsupportedVersion, .corruptFormat]
      | .deTree => [.ok, .corruptFormat, .badState]
      | .deText => [.ok, .storageError, .corruptFormat, .badState]
      | .decode => [.ok, .storageError, .unsupportedVersion, .corruptFormat])

end Statements
end

