-- ==== Sys2Proof/Laws/State.lean ====
section
/-!
SUPPORT. For each update of the state, one lemma per field: what the update leaves in it. All are true by rfl and are
simp lemmas, so that no proof unfolds a record update.
-/

namespace Sys2Proof.Machine

/-! ### State.done -/

@[simp] theorem done_pending (s : State) : (State.done s).pending = s.pending := rfl
@[simp] theorem done_answers (s : State) : (State.done s).answers = s.answers := rfl
@[simp] theorem done_caps (s : State) : (State.done s).caps = s.caps := rfl
@[simp] theorem done_resets (s : State) : (State.done s).resets = s.resets := rfl
@[simp] theorem done_warg (s : State) : (State.done s).warg = s.warg := rfl
@[simp] theorem done_res0 (s : State) : (State.done s).res0 = s.res0 := rfl
@[simp] theorem done_res1 (s : State) : (State.done s).res1 = s.res1 := rfl
@[simp] theorem done_error (s : State) : (State.done s).error = ErrorRecord.clear := rfl
@[simp] theorem done_flags (s : State) : (State.done s).flags = s.flags := rfl
@[simp] theorem done_txtLen (s : State) : (State.done s).txtLen = s.txtLen := rfl
@[simp] theorem done_txtAddr (s : State) : (State.done s).txtAddr = s.txtAddr := rfl
@[simp] theorem done_filLen (s : State) : (State.done s).filLen = s.filLen := rfl
@[simp] theorem done_filAddr (s : State) : (State.done s).filAddr = s.filAddr := rfl
@[simp] theorem done_txt (s : State) : (State.done s).txt = s.txt := rfl
@[simp] theorem done_fil (s : State) : (State.done s).fil = s.fil := rfl
@[simp] theorem done_freq (s : State) : (State.done s).freq = s.freq := rfl
@[simp] theorem done_nodes (s : State) : (State.done s).nodes = s.nodes := rfl
@[simp] theorem done_listHead (s : State) : (State.done s).listHead = s.listHead := rfl
@[simp] theorem done_root (s : State) : (State.done s).root = s.root := rfl
@[simp] theorem done_ctab (s : State) : (State.done s).ctab = s.ctab := rfl
@[simp] theorem done_ncodes (s : State) : (State.done s).ncodes = s.ncodes := rfl
@[simp] theorem done_tbuf (s : State) : (State.done s).tbuf = s.tbuf := rfl
@[simp] theorem done_xbuf (s : State) : (State.done s).xbuf = s.xbuf := rfl
@[simp] theorem done_rcur (s : State) : (State.done s).rcur = s.rcur := rfl
@[simp] theorem done_stats (s : State) : (State.done s).stats = s.stats := rfl
@[simp] theorem done_hdr (s : State) : (State.done s).hdr = s.hdr := rfl
@[simp] theorem done_nodeAddr (s : State) : (State.done s).nodeAddr = s.nodeAddr := rfl
@[simp] theorem done_frqAddr (s : State) : (State.done s).frqAddr = s.frqAddr := rfl

/-! ### State.raise -/

@[simp] theorem raise_pending (s : State) (e : ErrorRecord) : (State.raise s e).pending = s.pending := rfl
@[simp] theorem raise_answers (s : State) (e : ErrorRecord) : (State.raise s e).answers = s.answers := rfl
@[simp] theorem raise_caps (s : State) (e : ErrorRecord) : (State.raise s e).caps = s.caps := rfl
@[simp] theorem raise_resets (s : State) (e : ErrorRecord) : (State.raise s e).resets = s.resets := rfl
@[simp] theorem raise_warg (s : State) (e : ErrorRecord) : (State.raise s e).warg = s.warg := rfl
@[simp] theorem raise_res0 (s : State) (e : ErrorRecord) : (State.raise s e).res0 = s.res0 := rfl
@[simp] theorem raise_res1 (s : State) (e : ErrorRecord) : (State.raise s e).res1 = s.res1 := rfl
@[simp] theorem raise_error (s : State) (e : ErrorRecord) : (State.raise s e).error = e := rfl
@[simp] theorem raise_flags (s : State) (e : ErrorRecord) : (State.raise s e).flags = s.flags := rfl
@[simp] theorem raise_txtLen (s : State) (e : ErrorRecord) : (State.raise s e).txtLen = s.txtLen := rfl
@[simp] theorem raise_txtAddr (s : State) (e : ErrorRecord) : (State.raise s e).txtAddr = s.txtAddr := rfl
@[simp] theorem raise_filLen (s : State) (e : ErrorRecord) : (State.raise s e).filLen = s.filLen := rfl
@[simp] theorem raise_filAddr (s : State) (e : ErrorRecord) : (State.raise s e).filAddr = s.filAddr := rfl
@[simp] theorem raise_txt (s : State) (e : ErrorRecord) : (State.raise s e).txt = s.txt := rfl
@[simp] theorem raise_fil (s : State) (e : ErrorRecord) : (State.raise s e).fil = s.fil := rfl
@[simp] theorem raise_freq (s : State) (e : ErrorRecord) : (State.raise s e).freq = s.freq := rfl
@[simp] theorem raise_nodes (s : State) (e : ErrorRecord) : (State.raise s e).nodes = s.nodes := rfl
@[simp] theorem raise_listHead (s : State) (e : ErrorRecord) : (State.raise s e).listHead = s.listHead := rfl
@[simp] theorem raise_root (s : State) (e : ErrorRecord) : (State.raise s e).root = s.root := rfl
@[simp] theorem raise_ctab (s : State) (e : ErrorRecord) : (State.raise s e).ctab = s.ctab := rfl
@[simp] theorem raise_ncodes (s : State) (e : ErrorRecord) : (State.raise s e).ncodes = s.ncodes := rfl
@[simp] theorem raise_tbuf (s : State) (e : ErrorRecord) : (State.raise s e).tbuf = s.tbuf := rfl
@[simp] theorem raise_xbuf (s : State) (e : ErrorRecord) : (State.raise s e).xbuf = s.xbuf := rfl
@[simp] theorem raise_rcur (s : State) (e : ErrorRecord) : (State.raise s e).rcur = s.rcur := rfl
@[simp] theorem raise_stats (s : State) (e : ErrorRecord) : (State.raise s e).stats = s.stats := rfl
@[simp] theorem raise_hdr (s : State) (e : ErrorRecord) : (State.raise s e).hdr = s.hdr := rfl
@[simp] theorem raise_nodeAddr (s : State) (e : ErrorRecord) : (State.raise s e).nodeAddr = s.nodeAddr := rfl
@[simp] theorem raise_frqAddr (s : State) (e : ErrorRecord) : (State.raise s e).frqAddr = s.frqAddr := rfl

/-! ### State.answer -/

@[simp] theorem answer_pending (s : State) (a : Answer) : (State.answer s a).pending = s.pending := rfl
@[simp] theorem answer_answers (s : State) (a : Answer) : (State.answer s a).answers = a :: s.answers := rfl
@[simp] theorem answer_caps (s : State) (a : Answer) : (State.answer s a).caps = s.caps := rfl
@[simp] theorem answer_resets (s : State) (a : Answer) : (State.answer s a).resets = s.resets := rfl
@[simp] theorem answer_warg (s : State) (a : Answer) : (State.answer s a).warg = s.warg := rfl
@[simp] theorem answer_res0 (s : State) (a : Answer) : (State.answer s a).res0 = s.res0 := rfl
@[simp] theorem answer_res1 (s : State) (a : Answer) : (State.answer s a).res1 = s.res1 := rfl
@[simp] theorem answer_error (s : State) (a : Answer) : (State.answer s a).error = s.error := rfl
@[simp] theorem answer_flags (s : State) (a : Answer) : (State.answer s a).flags = s.flags := rfl
@[simp] theorem answer_txtLen (s : State) (a : Answer) : (State.answer s a).txtLen = s.txtLen := rfl
@[simp] theorem answer_txtAddr (s : State) (a : Answer) : (State.answer s a).txtAddr = s.txtAddr := rfl
@[simp] theorem answer_filLen (s : State) (a : Answer) : (State.answer s a).filLen = s.filLen := rfl
@[simp] theorem answer_filAddr (s : State) (a : Answer) : (State.answer s a).filAddr = s.filAddr := rfl
@[simp] theorem answer_txt (s : State) (a : Answer) : (State.answer s a).txt = s.txt := rfl
@[simp] theorem answer_fil (s : State) (a : Answer) : (State.answer s a).fil = s.fil := rfl
@[simp] theorem answer_freq (s : State) (a : Answer) : (State.answer s a).freq = s.freq := rfl
@[simp] theorem answer_nodes (s : State) (a : Answer) : (State.answer s a).nodes = s.nodes := rfl
@[simp] theorem answer_listHead (s : State) (a : Answer) : (State.answer s a).listHead = s.listHead := rfl
@[simp] theorem answer_root (s : State) (a : Answer) : (State.answer s a).root = s.root := rfl
@[simp] theorem answer_ctab (s : State) (a : Answer) : (State.answer s a).ctab = s.ctab := rfl
@[simp] theorem answer_ncodes (s : State) (a : Answer) : (State.answer s a).ncodes = s.ncodes := rfl
@[simp] theorem answer_tbuf (s : State) (a : Answer) : (State.answer s a).tbuf = s.tbuf := rfl
@[simp] theorem answer_xbuf (s : State) (a : Answer) : (State.answer s a).xbuf = s.xbuf := rfl
@[simp] theorem answer_rcur (s : State) (a : Answer) : (State.answer s a).rcur = s.rcur := rfl
@[simp] theorem answer_stats (s : State) (a : Answer) : (State.answer s a).stats = s.stats := rfl
@[simp] theorem answer_hdr (s : State) (a : Answer) : (State.answer s a).hdr = s.hdr := rfl
@[simp] theorem answer_nodeAddr (s : State) (a : Answer) : (State.answer s a).nodeAddr = s.nodeAddr := rfl
@[simp] theorem answer_frqAddr (s : State) (a : Answer) : (State.answer s a).frqAddr = s.frqAddr := rfl

/-! ### State.clearNodes -/

@[simp] theorem clearNodes_pending (s : State) : (State.clearNodes s).pending = s.pending := rfl
@[simp] theorem clearNodes_answers (s : State) : (State.clearNodes s).answers = s.answers := rfl
@[simp] theorem clearNodes_caps (s : State) : (State.clearNodes s).caps = s.caps := rfl
@[simp] theorem clearNodes_resets (s : State) : (State.clearNodes s).resets = s.resets := rfl
@[simp] theorem clearNodes_warg (s : State) : (State.clearNodes s).warg = s.warg := rfl
@[simp] theorem clearNodes_res0 (s : State) : (State.clearNodes s).res0 = s.res0 := rfl
@[simp] theorem clearNodes_res1 (s : State) : (State.clearNodes s).res1 = s.res1 := rfl
@[simp] theorem clearNodes_error (s : State) : (State.clearNodes s).error = s.error := rfl
@[simp] theorem clearNodes_flags (s : State) : (State.clearNodes s).flags = s.flags := rfl
@[simp] theorem clearNodes_txtLen (s : State) : (State.clearNodes s).txtLen = s.txtLen := rfl
@[simp] theorem clearNodes_txtAddr (s : State) : (State.clearNodes s).txtAddr = s.txtAddr := rfl
@[simp] theorem clearNodes_filLen (s : State) : (State.clearNodes s).filLen = s.filLen := rfl
@[simp] theorem clearNodes_filAddr (s : State) : (State.clearNodes s).filAddr = s.filAddr := rfl
@[simp] theorem clearNodes_txt (s : State) : (State.clearNodes s).txt = s.txt := rfl
@[simp] theorem clearNodes_fil (s : State) : (State.clearNodes s).fil = s.fil := rfl
@[simp] theorem clearNodes_freq (s : State) : (State.clearNodes s).freq = s.freq := rfl
@[simp] theorem clearNodes_nodes (s : State) : (State.clearNodes s).nodes = [] := rfl
@[simp] theorem clearNodes_listHead (s : State) : (State.clearNodes s).listHead = none := rfl
@[simp] theorem clearNodes_root (s : State) : (State.clearNodes s).root = none := rfl
@[simp] theorem clearNodes_ctab (s : State) : (State.clearNodes s).ctab = s.ctab := rfl
@[simp] theorem clearNodes_ncodes (s : State) : (State.clearNodes s).ncodes = s.ncodes := rfl
@[simp] theorem clearNodes_tbuf (s : State) : (State.clearNodes s).tbuf = s.tbuf := rfl
@[simp] theorem clearNodes_xbuf (s : State) : (State.clearNodes s).xbuf = s.xbuf := rfl
@[simp] theorem clearNodes_rcur (s : State) : (State.clearNodes s).rcur = s.rcur := rfl
@[simp] theorem clearNodes_stats (s : State) : (State.clearNodes s).stats = s.stats := rfl
@[simp] theorem clearNodes_hdr (s : State) : (State.clearNodes s).hdr = s.hdr := rfl
@[simp] theorem clearNodes_nodeAddr (s : State) : (State.clearNodes s).nodeAddr = s.nodeAddr := rfl
@[simp] theorem clearNodes_frqAddr (s : State) : (State.clearNodes s).frqAddr = s.frqAddr := rfl

/-! ### State.clearCodes -/

@[simp] theorem clearCodes_pending (s : State) : (State.clearCodes s).pending = s.pending := rfl
@[simp] theorem clearCodes_answers (s : State) : (State.clearCodes s).answers = s.answers := rfl
@[simp] theorem clearCodes_caps (s : State) : (State.clearCodes s).caps = s.caps := rfl
@[simp] theorem clearCodes_resets (s : State) : (State.clearCodes s).resets = s.resets := rfl
@[simp] theorem clearCodes_warg (s : State) : (State.clearCodes s).warg = s.warg := rfl
@[simp] theorem clearCodes_res0 (s : State) : (State.clearCodes s).res0 = s.res0 := rfl
@[simp] theorem clearCodes_res1 (s : State) : (State.clearCodes s).res1 = s.res1 := rfl
@[simp] theorem clearCodes_error (s : State) : (State.clearCodes s).error = s.error := rfl
@[simp] theorem clearCodes_flags (s : State) : (State.clearCodes s).flags = s.flags := rfl
@[simp] theorem clearCodes_txtLen (s : State) : (State.clearCodes s).txtLen = s.txtLen := rfl
@[simp] theorem clearCodes_txtAddr (s : State) : (State.clearCodes s).txtAddr = s.txtAddr := rfl
@[simp] theorem clearCodes_filLen (s : State) : (State.clearCodes s).filLen = s.filLen := rfl
@[simp] theorem clearCodes_filAddr (s : State) : (State.clearCodes s).filAddr = s.filAddr := rfl
@[simp] theorem clearCodes_txt (s : State) : (State.clearCodes s).txt = s.txt := rfl
@[simp] theorem clearCodes_fil (s : State) : (State.clearCodes s).fil = s.fil := rfl
@[simp] theorem clearCodes_freq (s : State) : (State.clearCodes s).freq = s.freq := rfl
@[simp] theorem clearCodes_nodes (s : State) : (State.clearCodes s).nodes = s.nodes := rfl
@[simp] theorem clearCodes_listHead (s : State) : (State.clearCodes s).listHead = s.listHead := rfl
@[simp] theorem clearCodes_root (s : State) : (State.clearCodes s).root = s.root := rfl
@[simp] theorem clearCodes_ctab (s : State) : (State.clearCodes s).ctab = [] := rfl
@[simp] theorem clearCodes_ncodes (s : State) : (State.clearCodes s).ncodes = 0 := rfl
@[simp] theorem clearCodes_tbuf (s : State) : (State.clearCodes s).tbuf = s.tbuf := rfl
@[simp] theorem clearCodes_xbuf (s : State) : (State.clearCodes s).xbuf = s.xbuf := rfl
@[simp] theorem clearCodes_rcur (s : State) : (State.clearCodes s).rcur = s.rcur := rfl
@[simp] theorem clearCodes_stats (s : State) : (State.clearCodes s).stats = s.stats := rfl
@[simp] theorem clearCodes_hdr (s : State) : (State.clearCodes s).hdr = s.hdr := rfl
@[simp] theorem clearCodes_nodeAddr (s : State) : (State.clearCodes s).nodeAddr = s.nodeAddr := rfl
@[simp] theorem clearCodes_frqAddr (s : State) : (State.clearCodes s).frqAddr = s.frqAddr := rfl

/-! ### State.clearWorking -/

@[simp] theorem clearWorking_pending (s : State) : (State.clearWorking s).pending = s.pending := rfl
@[simp] theorem clearWorking_answers (s : State) : (State.clearWorking s).answers = s.answers := rfl
@[simp] theorem clearWorking_caps (s : State) : (State.clearWorking s).caps = s.caps := rfl
@[simp] theorem clearWorking_resets (s : State) : (State.clearWorking s).resets = s.resets := rfl
@[simp] theorem clearWorking_warg (s : State) : (State.clearWorking s).warg = s.warg := rfl
@[simp] theorem clearWorking_res0 (s : State) : (State.clearWorking s).res0 = 0 := rfl
@[simp] theorem clearWorking_res1 (s : State) : (State.clearWorking s).res1 = 0 := rfl
@[simp] theorem clearWorking_error (s : State) : (State.clearWorking s).error = s.error := rfl
@[simp] theorem clearWorking_flags (s : State) : (State.clearWorking s).flags = Flags.zero := rfl
@[simp] theorem clearWorking_txtLen (s : State) : (State.clearWorking s).txtLen = s.txtLen := rfl
@[simp] theorem clearWorking_txtAddr (s : State) : (State.clearWorking s).txtAddr = s.txtAddr := rfl
@[simp] theorem clearWorking_filLen (s : State) : (State.clearWorking s).filLen = s.filLen := rfl
@[simp] theorem clearWorking_filAddr (s : State) : (State.clearWorking s).filAddr = s.filAddr := rfl
@[simp] theorem clearWorking_txt (s : State) : (State.clearWorking s).txt = s.txt := rfl
@[simp] theorem clearWorking_fil (s : State) : (State.clearWorking s).fil = s.fil := rfl
@[simp] theorem clearWorking_freq (s : State) : (State.clearWorking s).freq = [] := rfl
@[simp] theorem clearWorking_nodes (s : State) : (State.clearWorking s).nodes = [] := rfl
@[simp] theorem clearWorking_listHead (s : State) : (State.clearWorking s).listHead = none := rfl
@[simp] theorem clearWorking_root (s : State) : (State.clearWorking s).root = none := rfl
@[simp] theorem clearWorking_ctab (s : State) : (State.clearWorking s).ctab = [] := rfl
@[simp] theorem clearWorking_ncodes (s : State) : (State.clearWorking s).ncodes = 0 := rfl
@[simp] theorem clearWorking_tbuf (s : State) : (State.clearWorking s).tbuf = [] := rfl
@[simp] theorem clearWorking_xbuf (s : State) : (State.clearWorking s).xbuf = [] := rfl
@[simp] theorem clearWorking_rcur (s : State) : (State.clearWorking s).rcur = 0 := rfl
@[simp] theorem clearWorking_stats (s : State) : (State.clearWorking s).stats = Stats.zero := rfl
@[simp] theorem clearWorking_hdr (s : State) : (State.clearWorking s).hdr = Header.zero := rfl
@[simp] theorem clearWorking_nodeAddr (s : State) : (State.clearWorking s).nodeAddr = s.nodeAddr := rfl
@[simp] theorem clearWorking_frqAddr (s : State) : (State.clearWorking s).frqAddr = s.frqAddr := rfl

/-! ### State.withArena -/

@[simp] theorem withArena_pending (s : State) (a : Arena) : (State.withArena s a).pending = s.pending := rfl
@[simp] theorem withArena_answers (s : State) (a : Arena) : (State.withArena s a).answers = s.answers := rfl
@[simp] theorem withArena_caps (s : State) (a : Arena) : (State.withArena s a).caps = s.caps := rfl
@[simp] theorem withArena_resets (s : State) (a : Arena) : (State.withArena s a).resets = s.resets := rfl
@[simp] theorem withArena_warg (s : State) (a : Arena) : (State.withArena s a).warg = s.warg := rfl
@[simp] theorem withArena_res0 (s : State) (a : Arena) : (State.withArena s a).res0 = s.res0 := rfl
@[simp] theorem withArena_res1 (s : State) (a : Arena) : (State.withArena s a).res1 = s.res1 := rfl
@[simp] theorem withArena_error (s : State) (a : Arena) : (State.withArena s a).error = s.error := rfl
@[simp] theorem withArena_flags (s : State) (a : Arena) : (State.withArena s a).flags = s.flags := rfl
@[simp] theorem withArena_txtLen (s : State) (a : Arena) : (State.withArena s a).txtLen = s.txtLen := rfl
@[simp] theorem withArena_txtAddr (s : State) (a : Arena) : (State.withArena s a).txtAddr = s.txtAddr := rfl
@[simp] theorem withArena_filLen (s : State) (a : Arena) : (State.withArena s a).filLen = s.filLen := rfl
@[simp] theorem withArena_filAddr (s : State) (a : Arena) : (State.withArena s a).filAddr = s.filAddr := rfl
@[simp] theorem withArena_txt (s : State) (a : Arena) : (State.withArena s a).txt = s.txt := rfl
@[simp] theorem withArena_fil (s : State) (a : Arena) : (State.withArena s a).fil = s.fil := rfl
@[simp] theorem withArena_freq (s : State) (a : Arena) : (State.withArena s a).freq = s.freq := rfl
@[simp] theorem withArena_nodes (s : State) (a : Arena) : (State.withArena s a).nodes = a.nodes := rfl
@[simp] theorem withArena_listHead (s : State) (a : Arena) : (State.withArena s a).listHead = a.head := rfl
@[simp] theorem withArena_root (s : State) (a : Arena) : (State.withArena s a).root = s.root := rfl
@[simp] theorem withArena_ctab (s : State) (a : Arena) : (State.withArena s a).ctab = s.ctab := rfl
@[simp] theorem withArena_ncodes (s : State) (a : Arena) : (State.withArena s a).ncodes = s.ncodes := rfl
@[simp] theorem withArena_tbuf (s : State) (a : Arena) : (State.withArena s a).tbuf = s.tbuf := rfl
@[simp] theorem withArena_xbuf (s : State) (a : Arena) : (State.withArena s a).xbuf = s.xbuf := rfl
@[simp] theorem withArena_rcur (s : State) (a : Arena) : (State.withArena s a).rcur = s.rcur := rfl
@[simp] theorem withArena_stats (s : State) (a : Arena) : (State.withArena s a).stats = s.stats := rfl
@[simp] theorem withArena_hdr (s : State) (a : Arena) : (State.withArena s a).hdr = s.hdr := rfl
@[simp] theorem withArena_nodeAddr (s : State) (a : Arena) : (State.withArena s a).nodeAddr = s.nodeAddr := rfl
@[simp] theorem withArena_frqAddr (s : State) (a : Arena) : (State.withArena s a).frqAddr = s.frqAddr := rfl

/-! ### State.setOne -/

@[simp] theorem setOne_pending (s : State) (b : Bool) : (State.setOne s b).pending = s.pending := rfl
@[simp] theorem setOne_answers (s : State) (b : Bool) : (State.setOne s b).answers = s.answers := rfl
@[simp] theorem setOne_caps (s : State) (b : Bool) : (State.setOne s b).caps = s.caps := rfl
@[simp] theorem setOne_resets (s : State) (b : Bool) : (State.setOne s b).resets = s.resets := rfl
@[simp] theorem setOne_warg (s : State) (b : Bool) : (State.setOne s b).warg = s.warg := rfl
@[simp] theorem setOne_res0 (s : State) (b : Bool) : (State.setOne s b).res0 = s.res0 := rfl
@[simp] theorem setOne_res1 (s : State) (b : Bool) : (State.setOne s b).res1 = s.res1 := rfl
@[simp] theorem setOne_error (s : State) (b : Bool) : (State.setOne s b).error = s.error := rfl
@[simp] theorem setOne_flags (s : State) (b : Bool) : (State.setOne s b).flags = { s.flags with one := b } := rfl
@[simp] theorem setOne_txtLen (s : State) (b : Bool) : (State.setOne s b).txtLen = s.txtLen := rfl
@[simp] theorem setOne_txtAddr (s : State) (b : Bool) : (State.setOne s b).txtAddr = s.txtAddr := rfl
@[simp] theorem setOne_filLen (s : State) (b : Bool) : (State.setOne s b).filLen = s.filLen := rfl
@[simp] theorem setOne_filAddr (s : State) (b : Bool) : (State.setOne s b).filAddr = s.filAddr := rfl
@[simp] theorem setOne_txt (s : State) (b : Bool) : (State.setOne s b).txt = s.txt := rfl
@[simp] theorem setOne_fil (s : State) (b : Bool) : (State.setOne s b).fil = s.fil := rfl
@[simp] theorem setOne_freq (s : State) (b : Bool) : (State.setOne s b).freq = s.freq := rfl
@[simp] theorem setOne_nodes (s : State) (b : Bool) : (State.setOne s b).nodes = s.nodes := rfl
@[simp] theorem setOne_listHead (s : State) (b : Bool) : (State.setOne s b).listHead = s.listHead := rfl
@[simp] theorem setOne_root (s : State) (b : Bool) : (State.setOne s b).root = s.root := rfl
@[simp] theorem setOne_ctab (s : State) (b : Bool) : (State.setOne s b).ctab = s.ctab := rfl
@[simp] theorem setOne_ncodes (s : State) (b : Bool) : (State.setOne s b).ncodes = s.ncodes := rfl
@[simp] theorem setOne_tbuf (s : State) (b : Bool) : (State.setOne s b).tbuf = s.tbuf := rfl
@[simp] theorem setOne_xbuf (s : State) (b : Bool) : (State.setOne s b).xbuf = s.xbuf := rfl
@[simp] theorem setOne_rcur (s : State) (b : Bool) : (State.setOne s b).rcur = s.rcur := rfl
@[simp] theorem setOne_stats (s : State) (b : Bool) : (State.setOne s b).stats = s.stats := rfl
@[simp] theorem setOne_hdr (s : State) (b : Bool) : (State.setOne s b).hdr = s.hdr := rfl
@[simp] theorem setOne_nodeAddr (s : State) (b : Bool) : (State.setOne s b).nodeAddr = s.nodeAddr := rfl
@[simp] theorem setOne_frqAddr (s : State) (b : Bool) : (State.setOne s b).frqAddr = s.frqAddr := rfl

/-! ### State.setEmpty -/

@[simp] theorem setEmpty_pending (s : State) (b : Bool) : (State.setEmpty s b).pending = s.pending := rfl
@[simp] theorem setEmpty_answers (s : State) (b : Bool) : (State.setEmpty s b).answers = s.answers := rfl
@[simp] theorem setEmpty_caps (s : State) (b : Bool) : (State.setEmpty s b).caps = s.caps := rfl
@[simp] theorem setEmpty_resets (s : State) (b : Bool) : (State.setEmpty s b).resets = s.resets := rfl
@[simp] theorem setEmpty_warg (s : State) (b : Bool) : (State.setEmpty s b).warg = s.warg := rfl
@[simp] theorem setEmpty_res0 (s : State) (b : Bool) : (State.setEmpty s b).res0 = s.res0 := rfl
@[simp] theorem setEmpty_res1 (s : State) (b : Bool) : (State.setEmpty s b).res1 = s.res1 := rfl
@[simp] theorem setEmpty_error (s : State) (b : Bool) : (State.setEmpty s b).error = s.error := rfl
@[simp] theorem setEmpty_flags (s : State) (b : Bool) : (State.setEmpty s b).flags = { s.flags with empty := b } := rfl
@[simp] theorem setEmpty_txtLen (s : State) (b : Bool) : (State.setEmpty s b).txtLen = s.txtLen := rfl
@[simp] theorem setEmpty_txtAddr (s : State) (b : Bool) : (State.setEmpty s b).txtAddr = s.txtAddr := rfl
@[simp] theorem setEmpty_filLen (s : State) (b : Bool) : (State.setEmpty s b).filLen = s.filLen := rfl
@[simp] theorem setEmpty_filAddr (s : State) (b : Bool) : (State.setEmpty s b).filAddr = s.filAddr := rfl
@[simp] theorem setEmpty_txt (s : State) (b : Bool) : (State.setEmpty s b).txt = s.txt := rfl
@[simp] theorem setEmpty_fil (s : State) (b : Bool) : (State.setEmpty s b).fil = s.fil := rfl
@[simp] theorem setEmpty_freq (s : State) (b : Bool) : (State.setEmpty s b).freq = s.freq := rfl
@[simp] theorem setEmpty_nodes (s : State) (b : Bool) : (State.setEmpty s b).nodes = s.nodes := rfl
@[simp] theorem setEmpty_listHead (s : State) (b : Bool) : (State.setEmpty s b).listHead = s.listHead := rfl
@[simp] theorem setEmpty_root (s : State) (b : Bool) : (State.setEmpty s b).root = s.root := rfl
@[simp] theorem setEmpty_ctab (s : State) (b : Bool) : (State.setEmpty s b).ctab = s.ctab := rfl
@[simp] theorem setEmpty_ncodes (s : State) (b : Bool) : (State.setEmpty s b).ncodes = s.ncodes := rfl
@[simp] theorem setEmpty_tbuf (s : State) (b : Bool) : (State.setEmpty s b).tbuf = s.tbuf := rfl
@[simp] theorem setEmpty_xbuf (s : State) (b : Bool) : (State.setEmpty s b).xbuf = s.xbuf := rfl
@[simp] theorem setEmpty_rcur (s : State) (b : Bool) : (State.setEmpty s b).rcur = s.rcur := rfl
@[simp] theorem setEmpty_stats (s : State) (b : Bool) : (State.setEmpty s b).stats = s.stats := rfl
@[simp] theorem setEmpty_hdr (s : State) (b : Bool) : (State.setEmpty s b).hdr = s.hdr := rfl
@[simp] theorem setEmpty_nodeAddr (s : State) (b : Bool) : (State.setEmpty s b).nodeAddr = s.nodeAddr := rfl
@[simp] theorem setEmpty_frqAddr (s : State) (b : Bool) : (State.setEmpty s b).frqAddr = s.frqAddr := rfl

/-! ### State.setFound -/

@[simp] theorem setFound_pending (s : State) (b : Bool) : (State.setFound s b).pending = s.pending := rfl
@[simp] theorem setFound_answers (s : State) (b : Bool) : (State.setFound s b).answers = s.answers := rfl
@[simp] theorem setFound_caps (s : State) (b : Bool) : (State.setFound s b).caps = s.caps := rfl
@[simp] theorem setFound_resets (s : State) (b : Bool) : (State.setFound s b).resets = s.resets := rfl
@[simp] theorem setFound_warg (s : State) (b : Bool) : (State.setFound s b).warg = s.warg := rfl
@[simp] theorem setFound_res0 (s : State) (b : Bool) : (State.setFound s b).res0 = s.res0 := rfl
@[simp] theorem setFound_res1 (s : State) (b : Bool) : (State.setFound s b).res1 = s.res1 := rfl
@[simp] theorem setFound_error (s : State) (b : Bool) : (State.setFound s b).error = s.error := rfl
@[simp] theorem setFound_flags (s : State) (b : Bool) : (State.setFound s b).flags = { s.flags with found := b } := rfl
@[simp] theorem setFound_txtLen (s : State) (b : Bool) : (State.setFound s b).txtLen = s.txtLen := rfl
@[simp] theorem setFound_txtAddr (s : State) (b : Bool) : (State.setFound s b).txtAddr = s.txtAddr := rfl
@[simp] theorem setFound_filLen (s : State) (b : Bool) : (State.setFound s b).filLen = s.filLen := rfl
@[simp] theorem setFound_filAddr (s : State) (b : Bool) : (State.setFound s b).filAddr = s.filAddr := rfl
@[simp] theorem setFound_txt (s : State) (b : Bool) : (State.setFound s b).txt = s.txt := rfl
@[simp] theorem setFound_fil (s : State) (b : Bool) : (State.setFound s b).fil = s.fil := rfl
@[simp] theorem setFound_freq (s : State) (b : Bool) : (State.setFound s b).freq = s.freq := rfl
@[simp] theorem setFound_nodes (s : State) (b : Bool) : (State.setFound s b).nodes = s.nodes := rfl
@[simp] theorem setFound_listHead (s : State) (b : Bool) : (State.setFound s b).listHead = s.listHead := rfl
@[simp] theorem setFound_root (s : State) (b : Bool) : (State.setFound s b).root = s.root := rfl
@[simp] theorem setFound_ctab (s : State) (b : Bool) : (State.setFound s b).ctab = s.ctab := rfl
@[simp] theorem setFound_ncodes (s : State) (b : Bool) : (State.setFound s b).ncodes = s.ncodes := rfl
@[simp] theorem setFound_tbuf (s : State) (b : Bool) : (State.setFound s b).tbuf = s.tbuf := rfl
@[simp] theorem setFound_xbuf (s : State) (b : Bool) : (State.setFound s b).xbuf = s.xbuf := rfl
@[simp] theorem setFound_rcur (s : State) (b : Bool) : (State.setFound s b).rcur = s.rcur := rfl
@[simp] theorem setFound_stats (s : State) (b : Bool) : (State.setFound s b).stats = s.stats := rfl
@[simp] theorem setFound_hdr (s : State) (b : Bool) : (State.setFound s b).hdr = s.hdr := rfl
@[simp] theorem setFound_nodeAddr (s : State) (b : Bool) : (State.setFound s b).nodeAddr = s.nodeAddr := rfl
@[simp] theorem setFound_frqAddr (s : State) (b : Bool) : (State.setFound s b).frqAddr = s.frqAddr := rfl

/-! ### State.setHdrFlags -/

@[simp] theorem setHdrFlags_pending (s : State) (v e : Bool) : (State.setHdrFlags s v e).pending = s.pending := rfl
@[simp] theorem setHdrFlags_answers (s : State) (v e : Bool) : (State.setHdrFlags s v e).answers = s.answers := rfl
@[simp] theorem setHdrFlags_caps (s : State) (v e : Bool) : (State.setHdrFlags s v e).caps = s.caps := rfl
@[simp] theorem setHdrFlags_resets (s : State) (v e : Bool) : (State.setHdrFlags s v e).resets = s.resets := rfl
@[simp] theorem setHdrFlags_warg (s : State) (v e : Bool) : (State.setHdrFlags s v e).warg = s.warg := rfl
@[simp] theorem setHdrFlags_res0 (s : State) (v e : Bool) : (State.setHdrFlags s v e).res0 = s.res0 := rfl
@[simp] theorem setHdrFlags_res1 (s : State) (v e : Bool) : (State.setHdrFlags s v e).res1 = s.res1 := rfl
@[simp] theorem setHdrFlags_error (s : State) (v e : Bool) : (State.setHdrFlags s v e).error = s.error := rfl
@[simp] theorem setHdrFlags_flags (s : State) (v e : Bool) : (State.setHdrFlags s v e).flags = { s.flags with hdrv := v, fempty := e } := rfl
@[simp] theorem setHdrFlags_txtLen (s : State) (v e : Bool) : (State.setHdrFlags s v e).txtLen = s.txtLen := rfl
@[simp] theorem setHdrFlags_txtAddr (s : State) (v e : Bool) : (State.setHdrFlags s v e).txtAddr = s.txtAddr := rfl
@[simp] theorem setHdrFlags_filLen (s : State) (v e : Bool) : (State.setHdrFlags s v e).filLen = s.filLen := rfl
@[simp] theorem setHdrFlags_filAddr (s : State) (v e : Bool) : (State.setHdrFlags s v e).filAddr = s.filAddr := rfl
@[simp] theorem setHdrFlags_txt (s : State) (v e : Bool) : (State.setHdrFlags s v e).txt = s.txt := rfl
@[simp] theorem setHdrFlags_fil (s : State) (v e : Bool) : (State.setHdrFlags s v e).fil = s.fil := rfl
@[simp] theorem setHdrFlags_freq (s : State) (v e : Bool) : (State.setHdrFlags s v e).freq = s.freq := rfl
@[simp] theorem setHdrFlags_nodes (s : State) (v e : Bool) : (State.setHdrFlags s v e).nodes = s.nodes := rfl
@[simp] theorem setHdrFlags_listHead (s : State) (v e : Bool) : (State.setHdrFlags s v e).listHead = s.listHead := rfl
@[simp] theorem setHdrFlags_root (s : State) (v e : Bool) : (State.setHdrFlags s v e).root = s.root := rfl
@[simp] theorem setHdrFlags_ctab (s : State) (v e : Bool) : (State.setHdrFlags s v e).ctab = s.ctab := rfl
@[simp] theorem setHdrFlags_ncodes (s : State) (v e : Bool) : (State.setHdrFlags s v e).ncodes = s.ncodes := rfl
@[simp] theorem setHdrFlags_tbuf (s : State) (v e : Bool) : (State.setHdrFlags s v e).tbuf = s.tbuf := rfl
@[simp] theorem setHdrFlags_xbuf (s : State) (v e : Bool) : (State.setHdrFlags s v e).xbuf = s.xbuf := rfl
@[simp] theorem setHdrFlags_rcur (s : State) (v e : Bool) : (State.setHdrFlags s v e).rcur = s.rcur := rfl
@[simp] theorem setHdrFlags_stats (s : State) (v e : Bool) : (State.setHdrFlags s v e).stats = s.stats := rfl
@[simp] theorem setHdrFlags_hdr (s : State) (v e : Bool) : (State.setHdrFlags s v e).hdr = s.hdr := rfl
@[simp] theorem setHdrFlags_nodeAddr (s : State) (v e : Bool) : (State.setHdrFlags s v e).nodeAddr = s.nodeAddr := rfl
@[simp] theorem setHdrFlags_frqAddr (s : State) (v e : Bool) : (State.setHdrFlags s v e).frqAddr = s.frqAddr := rfl

/-! ### State.setHeader -/

@[simp] theorem setHeader_pending (s : State) (v e : Bool) (h : Header) : (State.setHeader s v e h).pending = s.pending := rfl
@[simp] theorem setHeader_answers (s : State) (v e : Bool) (h : Header) : (State.setHeader s v e h).answers = s.answers := rfl
@[simp] theorem setHeader_caps (s : State) (v e : Bool) (h : Header) : (State.setHeader s v e h).caps = s.caps := rfl
@[simp] theorem setHeader_resets (s : State) (v e : Bool) (h : Header) : (State.setHeader s v e h).resets = s.resets := rfl
@[simp] theorem setHeader_warg (s : State) (v e : Bool) (h : Header) : (State.setHeader s v e h).warg = s.warg := rfl
@[simp] theorem setHeader_res0 (s : State) (v e : Bool) (h : Header) : (State.setHeader s v e h).res0 = s.res0 := rfl
@[simp] theorem setHeader_res1 (s : State) (v e : Bool) (h : Header) : (State.setHeader s v e h).res1 = s.res1 := rfl
@[simp] theorem setHeader_error (s : State) (v e : Bool) (h : Header) : (State.setHeader s v e h).error = s.error := rfl
@[simp] theorem setHeader_flags (s : State) (v e : Bool) (h : Header) : (State.setHeader s v e h).flags = { s.flags with hdrv := v, fempty := e } := rfl
@[simp] theorem setHeader_txtLen (s : State) (v e : Bool) (h : Header) : (State.setHeader s v e h).txtLen = s.txtLen := rfl
@[simp] theorem setHeader_txtAddr (s : State) (v e : Bool) (h : Header) : (State.setHeader s v e h).txtAddr = s.txtAddr := rfl
@[simp] theorem setHeader_filLen (s : State) (v e : Bool) (h : Header) : (State.setHeader s v e h).filLen = s.filLen := rfl
@[simp] theorem setHeader_filAddr (s : State) (v e : Bool) (h : Header) : (State.setHeader s v e h).filAddr = s.filAddr := rfl
@[simp] theorem setHeader_txt (s : State) (v e : Bool) (h : Header) : (State.setHeader s v e h).txt = s.txt := rfl
@[simp] theorem setHeader_fil (s : State) (v e : Bool) (h : Header) : (State.setHeader s v e h).fil = s.fil := rfl
@[simp] theorem setHeader_freq (s : State) (v e : Bool) (h : Header) : (State.setHeader s v e h).freq = s.freq := rfl
@[simp] theorem setHeader_nodes (s : State) (v e : Bool) (h : Header) : (State.setHeader s v e h).nodes = s.nodes := rfl
@[simp] theorem setHeader_listHead (s : State) (v e : Bool) (h : Header) : (State.setHeader s v e h).listHead = s.listHead := rfl
@[simp] theorem setHeader_root (s : State) (v e : Bool) (h : Header) : (State.setHeader s v e h).root = s.root := rfl
@[simp] theorem setHeader_ctab (s : State) (v e : Bool) (h : Header) : (State.setHeader s v e h).ctab = s.ctab := rfl
@[simp] theorem setHeader_ncodes (s : State) (v e : Bool) (h : Header) : (State.setHeader s v e h).ncodes = s.ncodes := rfl
@[simp] theorem setHeader_tbuf (s : State) (v e : Bool) (h : Header) : (State.setHeader s v e h).tbuf = s.tbuf := rfl
@[simp] theorem setHeader_xbuf (s : State) (v e : Bool) (h : Header) : (State.setHeader s v e h).xbuf = s.xbuf := rfl
@[simp] theorem setHeader_rcur (s : State) (v e : Bool) (h : Header) : (State.setHeader s v e h).rcur = s.rcur := rfl
@[simp] theorem setHeader_stats (s : State) (v e : Bool) (h : Header) : (State.setHeader s v e h).stats = s.stats := rfl
@[simp] theorem setHeader_hdr (s : State) (v e : Bool) (h : Header) : (State.setHeader s v e h).hdr = h := rfl
@[simp] theorem setHeader_nodeAddr (s : State) (v e : Bool) (h : Header) : (State.setHeader s v e h).nodeAddr = s.nodeAddr := rfl
@[simp] theorem setHeader_frqAddr (s : State) (v e : Bool) (h : Header) : (State.setHeader s v e h).frqAddr = s.frqAddr := rfl

/-! ### State.writeTxt -/

@[simp] theorem writeTxt_pending (s : State) (i : Nat) (v : CharUnit) : (State.writeTxt s i v).pending = s.pending := rfl
@[simp] theorem writeTxt_answers (s : State) (i : Nat) (v : CharUnit) : (State.writeTxt s i v).answers = s.answers := rfl
@[simp] theorem writeTxt_caps (s : State) (i : Nat) (v : CharUnit) : (State.writeTxt s i v).caps = s.caps := rfl
@[simp] theorem writeTxt_resets (s : State) (i : Nat) (v : CharUnit) : (State.writeTxt s i v).resets = s.resets := rfl
@[simp] theorem writeTxt_warg (s : State) (i : Nat) (v : CharUnit) : (State.writeTxt s i v).warg = s.warg := rfl
@[simp] theorem writeTxt_res0 (s : State) (i : Nat) (v : CharUnit) : (State.writeTxt s i v).res0 = s.res0 := rfl
@[simp] theorem writeTxt_res1 (s : State) (i : Nat) (v : CharUnit) : (State.writeTxt s i v).res1 = s.res1 := rfl
@[simp] theorem writeTxt_error (s : State) (i : Nat) (v : CharUnit) : (State.writeTxt s i v).error = s.error := rfl
@[simp] theorem writeTxt_flags (s : State) (i : Nat) (v : CharUnit) : (State.writeTxt s i v).flags = s.flags := rfl
@[simp] theorem writeTxt_txtLen (s : State) (i : Nat) (v : CharUnit) : (State.writeTxt s i v).txtLen = s.txtLen := rfl
@[simp] theorem writeTxt_txtAddr (s : State) (i : Nat) (v : CharUnit) : (State.writeTxt s i v).txtAddr = s.txtAddr := rfl
@[simp] theorem writeTxt_filLen (s : State) (i : Nat) (v : CharUnit) : (State.writeTxt s i v).filLen = s.filLen := rfl
@[simp] theorem writeTxt_filAddr (s : State) (i : Nat) (v : CharUnit) : (State.writeTxt s i v).filAddr = s.filAddr := rfl
@[simp] theorem writeTxt_txt (s : State) (i : Nat) (v : CharUnit) : (State.writeTxt s i v).txt = cellsPut s.txt i v := rfl
@[simp] theorem writeTxt_fil (s : State) (i : Nat) (v : CharUnit) : (State.writeTxt s i v).fil = s.fil := rfl
@[simp] theorem writeTxt_freq (s : State) (i : Nat) (v : CharUnit) : (State.writeTxt s i v).freq = s.freq := rfl
@[simp] theorem writeTxt_nodes (s : State) (i : Nat) (v : CharUnit) : (State.writeTxt s i v).nodes = s.nodes := rfl
@[simp] theorem writeTxt_listHead (s : State) (i : Nat) (v : CharUnit) : (State.writeTxt s i v).listHead = s.listHead := rfl
@[simp] theorem writeTxt_root (s : State) (i : Nat) (v : CharUnit) : (State.writeTxt s i v).root = s.root := rfl
@[simp] theorem writeTxt_ctab (s : State) (i : Nat) (v : CharUnit) : (State.writeTxt s i v).ctab = s.ctab := rfl
@[simp] theorem writeTxt_ncodes (s : State) (i : Nat) (v : CharUnit) : (State.writeTxt s i v).ncodes = s.ncodes := rfl
@[simp] theorem writeTxt_tbuf (s : State) (i : Nat) (v : CharUnit) : (State.writeTxt s i v).tbuf = s.tbuf := rfl
@[simp] theorem writeTxt_xbuf (s : State) (i : Nat) (v : CharUnit) : (State.writeTxt s i v).xbuf = s.xbuf := rfl
@[simp] theorem writeTxt_rcur (s : State) (i : Nat) (v : CharUnit) : (State.writeTxt s i v).rcur = s.rcur := rfl
@[simp] theorem writeTxt_stats (s : State) (i : Nat) (v : CharUnit) : (State.writeTxt s i v).stats = s.stats := rfl
@[simp] theorem writeTxt_hdr (s : State) (i : Nat) (v : CharUnit) : (State.writeTxt s i v).hdr = s.hdr := rfl
@[simp] theorem writeTxt_nodeAddr (s : State) (i : Nat) (v : CharUnit) : (State.writeTxt s i v).nodeAddr = s.nodeAddr := rfl
@[simp] theorem writeTxt_frqAddr (s : State) (i : Nat) (v : CharUnit) : (State.writeTxt s i v).frqAddr = s.frqAddr := rfl

/-! ### State.writeFil -/

@[simp] theorem writeFil_pending (s : State) (i : Nat) (v : Byte) : (State.writeFil s i v).pending = s.pending := rfl
@[simp] theorem writeFil_answers (s : State) (i : Nat) (v : Byte) : (State.writeFil s i v).answers = s.answers := rfl
@[simp] theorem writeFil_caps (s : State) (i : Nat) (v : Byte) : (State.writeFil s i v).caps = s.caps := rfl
@[simp] theorem writeFil_resets (s : State) (i : Nat) (v : Byte) : (State.writeFil s i v).resets = s.resets := rfl
@[simp] theorem writeFil_warg (s : State) (i : Nat) (v : Byte) : (State.writeFil s i v).warg = s.warg := rfl
@[simp] theorem writeFil_res0 (s : State) (i : Nat) (v : Byte) : (State.writeFil s i v).res0 = s.res0 := rfl
@[simp] theorem writeFil_res1 (s : State) (i : Nat) (v : Byte) : (State.writeFil s i v).res1 = s.res1 := rfl
@[simp] theorem writeFil_error (s : State) (i : Nat) (v : Byte) : (State.writeFil s i v).error = s.error := rfl
@[simp] theorem writeFil_flags (s : State) (i : Nat) (v : Byte) : (State.writeFil s i v).flags = s.flags := rfl
@[simp] theorem writeFil_txtLen (s : State) (i : Nat) (v : Byte) : (State.writeFil s i v).txtLen = s.txtLen := rfl
@[simp] theorem writeFil_txtAddr (s : State) (i : Nat) (v : Byte) : (State.writeFil s i v).txtAddr = s.txtAddr := rfl
@[simp] theorem writeFil_filLen (s : State) (i : Nat) (v : Byte) : (State.writeFil s i v).filLen = s.filLen := rfl
@[simp] theorem writeFil_filAddr (s : State) (i : Nat) (v : Byte) : (State.writeFil s i v).filAddr = s.filAddr := rfl
@[simp] theorem writeFil_txt (s : State) (i : Nat) (v : Byte) : (State.writeFil s i v).txt = s.txt := rfl
@[simp] theorem writeFil_fil (s : State) (i : Nat) (v : Byte) : (State.writeFil s i v).fil = cellsPut s.fil i v := rfl
@[simp] theorem writeFil_freq (s : State) (i : Nat) (v : Byte) : (State.writeFil s i v).freq = s.freq := rfl
@[simp] theorem writeFil_nodes (s : State) (i : Nat) (v : Byte) : (State.writeFil s i v).nodes = s.nodes := rfl
@[simp] theorem writeFil_listHead (s : State) (i : Nat) (v : Byte) : (State.writeFil s i v).listHead = s.listHead := rfl
@[simp] theorem writeFil_root (s : State) (i : Nat) (v : Byte) : (State.writeFil s i v).root = s.root := rfl
@[simp] theorem writeFil_ctab (s : State) (i : Nat) (v : Byte) : (State.writeFil s i v).ctab = s.ctab := rfl
@[simp] theorem writeFil_ncodes (s : State) (i : Nat) (v : Byte) : (State.writeFil s i v).ncodes = s.ncodes := rfl
@[simp] theorem writeFil_tbuf (s : State) (i : Nat) (v : Byte) : (State.writeFil s i v).tbuf = s.tbuf := rfl
@[simp] theorem writeFil_xbuf (s : State) (i : Nat) (v : Byte) : (State.writeFil s i v).xbuf = s.xbuf := rfl
@[simp] theorem writeFil_rcur (s : State) (i : Nat) (v : Byte) : (State.writeFil s i v).rcur = s.rcur := rfl
@[simp] theorem writeFil_stats (s : State) (i : Nat) (v : Byte) : (State.writeFil s i v).stats = s.stats := rfl
@[simp] theorem writeFil_hdr (s : State) (i : Nat) (v : Byte) : (State.writeFil s i v).hdr = s.hdr := rfl
@[simp] theorem writeFil_nodeAddr (s : State) (i : Nat) (v : Byte) : (State.writeFil s i v).nodeAddr = s.nodeAddr := rfl
@[simp] theorem writeFil_frqAddr (s : State) (i : Nat) (v : Byte) : (State.writeFil s i v).frqAddr = s.frqAddr := rfl

/-! ### State.withFetchWord -/

@[simp] theorem withFetchWord_pending (s : State) (b w : Nat) : (State.withFetchWord s b w).pending = cmdWrite b w :: s.pending := rfl
@[simp] theorem withFetchWord_answers (s : State) (b w : Nat) : (State.withFetchWord s b w).answers = s.answers := rfl
@[simp] theorem withFetchWord_caps (s : State) (b w : Nat) : (State.withFetchWord s b w).caps = s.caps := rfl
@[simp] theorem withFetchWord_resets (s : State) (b w : Nat) : (State.withFetchWord s b w).resets = s.resets := rfl
@[simp] theorem withFetchWord_warg (s : State) (b w : Nat) : (State.withFetchWord s b w).warg = s.warg := rfl
@[simp] theorem withFetchWord_res0 (s : State) (b w : Nat) : (State.withFetchWord s b w).res0 = s.res0 := rfl
@[simp] theorem withFetchWord_res1 (s : State) (b w : Nat) : (State.withFetchWord s b w).res1 = s.res1 := rfl
@[simp] theorem withFetchWord_error (s : State) (b w : Nat) : (State.withFetchWord s b w).error = s.error := rfl
@[simp] theorem withFetchWord_flags (s : State) (b w : Nat) : (State.withFetchWord s b w).flags = s.flags := rfl
@[simp] theorem withFetchWord_txtLen (s : State) (b w : Nat) : (State.withFetchWord s b w).txtLen = s.txtLen := rfl
@[simp] theorem withFetchWord_txtAddr (s : State) (b w : Nat) : (State.withFetchWord s b w).txtAddr = s.txtAddr := rfl
@[simp] theorem withFetchWord_filLen (s : State) (b w : Nat) : (State.withFetchWord s b w).filLen = s.filLen := rfl
@[simp] theorem withFetchWord_filAddr (s : State) (b w : Nat) : (State.withFetchWord s b w).filAddr = s.filAddr := rfl
@[simp] theorem withFetchWord_txt (s : State) (b w : Nat) : (State.withFetchWord s b w).txt = s.txt := rfl
@[simp] theorem withFetchWord_fil (s : State) (b w : Nat) : (State.withFetchWord s b w).fil = s.fil := rfl
@[simp] theorem withFetchWord_freq (s : State) (b w : Nat) : (State.withFetchWord s b w).freq = s.freq := rfl
@[simp] theorem withFetchWord_nodes (s : State) (b w : Nat) : (State.withFetchWord s b w).nodes = s.nodes := rfl
@[simp] theorem withFetchWord_listHead (s : State) (b w : Nat) : (State.withFetchWord s b w).listHead = s.listHead := rfl
@[simp] theorem withFetchWord_root (s : State) (b w : Nat) : (State.withFetchWord s b w).root = s.root := rfl
@[simp] theorem withFetchWord_ctab (s : State) (b w : Nat) : (State.withFetchWord s b w).ctab = s.ctab := rfl
@[simp] theorem withFetchWord_ncodes (s : State) (b w : Nat) : (State.withFetchWord s b w).ncodes = s.ncodes := rfl
@[simp] theorem withFetchWord_tbuf (s : State) (b w : Nat) : (State.withFetchWord s b w).tbuf = s.tbuf := rfl
@[simp] theorem withFetchWord_xbuf (s : State) (b w : Nat) : (State.withFetchWord s b w).xbuf = s.xbuf := rfl
@[simp] theorem withFetchWord_rcur (s : State) (b w : Nat) : (State.withFetchWord s b w).rcur = s.rcur := rfl
@[simp] theorem withFetchWord_stats (s : State) (b w : Nat) : (State.withFetchWord s b w).stats = s.stats := rfl
@[simp] theorem withFetchWord_hdr (s : State) (b w : Nat) : (State.withFetchWord s b w).hdr = s.hdr := rfl
@[simp] theorem withFetchWord_nodeAddr (s : State) (b w : Nat) : (State.withFetchWord s b w).nodeAddr = s.nodeAddr := rfl
@[simp] theorem withFetchWord_frqAddr (s : State) (b w : Nat) : (State.withFetchWord s b w).frqAddr = s.frqAddr := rfl

/-! ### State.resetCore -/

@[simp] theorem resetCore_pending (s : State) : (State.resetCore s).pending = s.pending := rfl
@[simp] theorem resetCore_answers (s : State) : (State.resetCore s).answers = s.answers := rfl
@[simp] theorem resetCore_caps (s : State) : (State.resetCore s).caps = s.caps := rfl
@[simp] theorem resetCore_resets (s : State) : (State.resetCore s).resets = s.resets + 1 := rfl
@[simp] theorem resetCore_warg (s : State) : (State.resetCore s).warg = 0 := rfl
@[simp] theorem resetCore_res0 (s : State) : (State.resetCore s).res0 = 0 := rfl
@[simp] theorem resetCore_res1 (s : State) : (State.resetCore s).res1 = 0 := rfl
@[simp] theorem resetCore_error (s : State) : (State.resetCore s).error = ErrorRecord.clear := rfl
@[simp] theorem resetCore_flags (s : State) : (State.resetCore s).flags = Flags.zero := rfl
@[simp] theorem resetCore_txtLen (s : State) : (State.resetCore s).txtLen = 0 := rfl
@[simp] theorem resetCore_txtAddr (s : State) : (State.resetCore s).txtAddr = 0 := rfl
@[simp] theorem resetCore_filLen (s : State) : (State.resetCore s).filLen = 0 := rfl
@[simp] theorem resetCore_filAddr (s : State) : (State.resetCore s).filAddr = 0 := rfl
@[simp] theorem resetCore_txt (s : State) : (State.resetCore s).txt = [] := rfl
@[simp] theorem resetCore_fil (s : State) : (State.resetCore s).fil = [] := rfl
@[simp] theorem resetCore_freq (s : State) : (State.resetCore s).freq = [] := rfl
@[simp] theorem resetCore_nodes (s : State) : (State.resetCore s).nodes = [] := rfl
@[simp] theorem resetCore_listHead (s : State) : (State.resetCore s).listHead = none := rfl
@[simp] theorem resetCore_root (s : State) : (State.resetCore s).root = none := rfl
@[simp] theorem resetCore_ctab (s : State) : (State.resetCore s).ctab = [] := rfl
@[simp] theorem resetCore_ncodes (s : State) : (State.resetCore s).ncodes = 0 := rfl
@[simp] theorem resetCore_tbuf (s : State) : (State.resetCore s).tbuf = [] := rfl
@[simp] theorem resetCore_xbuf (s : State) : (State.resetCore s).xbuf = [] := rfl
@[simp] theorem resetCore_rcur (s : State) : (State.resetCore s).rcur = 0 := rfl
@[simp] theorem resetCore_stats (s : State) : (State.resetCore s).stats = Stats.zero := rfl
@[simp] theorem resetCore_hdr (s : State) : (State.resetCore s).hdr = Header.zero := rfl
@[simp] theorem resetCore_nodeAddr (s : State) : (State.resetCore s).nodeAddr = 0 := rfl
@[simp] theorem resetCore_frqAddr (s : State) : (State.resetCore s).frqAddr = 0 := rfl

/-! ### Views -/

@[simp] theorem arena_nodes (s : State) : s.arena.nodes = s.nodes := rfl
@[simp] theorem arena_head (s : State) : s.arena.head = s.listHead := rfl
@[simp] theorem withArena_arena (s : State) (a : Arena) : (s.withArena a).arena = a := rfl
@[simp] theorem clearNodes_arena (s : State) : s.clearNodes.arena = { nodes := [], head := none } := rfl

end Sys2Proof.Machine
end

