-- ==== Sys2Proof/Laws/Ops.lean ====
section
/-!
SUPPORT. How a command ends: what each way of ending a body makes of the outcome, and the inversions by which a proof
about a next state learns which way it was.
-/

namespace Sys2Proof.Machine

@[simp] theorem finish_ok (s : State) : finish (.ok s) = .next s.done := rfl

@[simp] theorem finish_raised (s : State) (e : ErrorRecord) : finish (.error (.raised s e)) = .next (s.raise e) := rfl

@[simp] theorem finish_fault (f : Fault) : finish (.error (.fault f)) = .fault f := rfl

@[simp] theorem finish_badState (s : State) :
    finish (badState s) = .next (s.raise { kind := .badState, sub := 0, pos := 0 }) := rfl

/-- A command that answers a next state ended with `done` or with a `raise`. -/
theorem finish_next {b : Body} {t : State} (h : finish b = .next t) :
    (∃ s, b = .ok s ∧ t = s.done) ∨ (∃ s e, b = .error (.raised s e) ∧ t = s.raise e) := by
  match b with
  | .ok s => exact .inl ⟨s, rfl, by simpa using h.symm⟩
  | .error (.raised s e) => exact .inr ⟨s, e, rfl, by simpa using h.symm⟩
  | .error (.fault f) => simp at h

/-- A command never refuses. -/
theorem finish_not_refused (b : Body) (r : Refusal) : finish b ≠ .refused r := by
  match b with
  | .ok s => simp
  | .error (.raised s e) => simp
  | .error (.fault f) => simp

@[simp] theorem withAnswer_none {α : Type} (k : α → Body) : withAnswer none k = brokenArena := rfl

@[simp] theorem withAnswer_some {α : Type} (a : α) (k : α → Body) : withAnswer (some a) k = k a := rfl

/-- A body that answered ran on an answer of the procedure. -/
theorem withAnswer_ok {α : Type} {o : Option α} {k : α → Body} {s : State} (h : withAnswer o k = .ok s) :
    ∃ a, o = some a ∧ k a = .ok s := by
  cases o with
  | none => simp [brokenArena] at h
  | some a => exact ⟨a, rfl, h⟩

/-- One body after another, when the first ends normally. -/
@[simp] theorem body_ok_bind (s : State) (k : State → Body) : (Except.ok s : Body) >>= k = k s := rfl

/-- One body after another, when the first does not. -/
@[simp] theorem body_error_bind (e : Stop) (k : State → Body) : (Except.error e : Body) >>= k = Except.error e := rfl

/-- Two bodies in a row end normally when both do. -/
theorem body_bind_ok {b : Body} {k : State → Body} {t : State} (h : b >>= k = .ok t) :
    ∃ s, b = .ok s ∧ k s = .ok t := by
  match b with
  | .ok s => exact ⟨s, rfl, h⟩
  | .error e => exact absurd h (by simp)

end Sys2Proof.Machine
end

