-- ==== Sys2Proof/Laws/Bodies.lean ====
section
/-!
SUPPORT. For the body of each command, what it can do: the state it leaves when it ends normally, with every condition
it checked, and the state and the record it leaves when it raises. Proofs about every command cite these and never
unfold a body.
-/

namespace Sys2Proof.Machine

/-- The record of `raise BadState` (`spec/00_scope.md` R16). -/
def badRecord : ErrorRecord := { kind := .badState, sub := 0, pos := 0 }

@[simp] theorem badState_ne_ok (s t : State) : badState s ≠ .ok t := by simp [badState, raiseAt]

@[simp] theorem badState_eq_raised (s t : State) (e : ErrorRecord) :
    badState s = .error (.raised t e) ↔ t = s ∧ e = badRecord := by
  simp only [badState, raiseAt, badRecord, Except.error.injEq, Stop.raised.injEq]
  exact ⟨fun h => ⟨h.1.symm, h.2.symm⟩, fun h => ⟨h.1.symm, h.2.symm⟩⟩

@[simp] theorem raiseAt_ne_ok (s t : State) (k : ErrKind) (a b : Nat) : raiseAt s k a b ≠ .ok t := by simp [raiseAt]

@[simp] theorem raiseAt_eq_raised (s t : State) (k : ErrKind) (a b : Nat) (e : ErrorRecord) :
    raiseAt s k a b = .error (.raised t e) ↔ t = s ∧ e = { kind := k, sub := Word.ofNat a, pos := Word.ofNat b } := by
  simp only [raiseAt, Except.error.injEq, Stop.raised.injEq]
  exact ⟨fun h => ⟨h.1.symm, h.2.symm⟩, fun h => ⟨h.1.symm, h.2.symm⟩⟩

@[simp] theorem brokenArena_ne_ok (t : State) : brokenArena ≠ .ok t := by simp [brokenArena]

@[simp] theorem brokenArena_ne_raised (t : State) (e : ErrorRecord) : brokenArena ≠ .error (.raised t e) := by
  simp [brokenArena]

@[simp] theorem outsideMemory_ne_ok (t : State) : outsideMemory ≠ .ok t := by simp [outsideMemory]

@[simp] theorem outsideMemory_ne_raised (t : State) (e : ErrorRecord) : outsideMemory ≠ .error (.raised t e) := by
  simp [outsideMemory]

/-- A body on an answer raised: there was an answer. -/
theorem withAnswer_raised {α : Type} {o : Option α} {k : α → Body} {t : State} {e : ErrorRecord}
    (h : withAnswer o k = .error (.raised t e)) : ∃ a, o = some a ∧ k a = .error (.raised t e) := by
  cases o with
  | none => simp at h
  | some a => exact ⟨a, rfl, h⟩

/-- Two bodies in a row raise when the first does, or the second after it. -/
theorem body_bind_raised {b : Body} {k : State → Body} {t : State} {e : ErrorRecord}
    (h : b >>= k = .error (.raised t e)) :
    b = .error (.raised t e) ∨ ∃ s, b = .ok s ∧ k s = .error (.raised t e) := by
  match b with
  | .ok s => exact .inr ⟨s, rfl, h⟩
  | .error x => exact .inl h

/-! ## The priority list -/

theorem plInsBody_ok {n : Nat} {s t : State} (h : plInsBody n s = .ok t) :
    ∃ x a, s.nodes[n]? = some x ∧ x.inl = false ∧ x.child = false ∧ insertNode s.arena n = some a ∧
      t = s.withArena a := by
  simp only [plInsBody] at h
  split at h
  · simp at h
  · rename_i x hx
    split at h
    · simp at h
    · rename_i hc
      obtain ⟨a, ha, ht⟩ := withAnswer_ok h
      simp only [Bool.or_eq_true, not_or, Bool.not_eq_true] at hc
      exact ⟨x, a, hx, hc.1, hc.2, ha, by simpa using ht.symm⟩

theorem plInsBody_raised {n : Nat} {s t : State} {e : ErrorRecord} (h : plInsBody n s = .error (.raised t e)) :
    t = s ∧ e = badRecord := by
  simp only [plInsBody] at h
  split at h
  · simpa using h
  · split at h
    · simpa using h
    · obtain ⟨a, -, ht⟩ := withAnswer_raised h; simp at ht

theorem plRminBody_ok {s t : State} (h : plRminBody s = .ok t) :
    (removeMin s.arena = some none ∧ t = { s.setEmpty true with res0 := refWord none, res1 := 0 }) ∨
    ∃ r, removeMin s.arena = some (some r) ∧
      t = { (s.setEmpty false).withArena r.arena with res0 := Word.ofNat r.index, res1 := r.wt } := by
  obtain ⟨r, hr, ht⟩ := withAnswer_ok h
  cases r with
  | none => exact .inl ⟨hr, by simpa using ht.symm⟩
  | some r => exact .inr ⟨r, hr, by simpa using ht.symm⟩

theorem plRminBody_raised {s t : State} {e : ErrorRecord} (h : plRminBody s = .error (.raised t e)) : False := by
  obtain ⟨r, -, ht⟩ := withAnswer_raised h
  cases r <;> simp at ht

theorem plOneBody_ok {s t : State} (h : plOneBody s = .ok t) : ∃ b, hasOne s.arena = some b ∧ t = s.setOne b := by
  obtain ⟨b, hb, ht⟩ := withAnswer_ok h
  exact ⟨b, hb, by simpa using ht.symm⟩

theorem plOneBody_raised {s t : State} {e : ErrorRecord} (h : plOneBody s = .error (.raised t e)) : False := by
  obtain ⟨b, -, ht⟩ := withAnswer_raised h
  simp at ht

/-! ## The tree builder -/

theorem tbLeafBody_ok {c : CharUnit} {s t : State} (h : tbLeafBody c s = .ok t) :
    s.nodes.length < Config.nodeMax ∧
      t = { s with nodes := s.nodes ++ [newLeaf c s.warg], res0 := Word.ofNat s.nodeCnt } := by
  simp only [tbLeafBody] at h
  split at h
  · simp at h
  · rename_i hf
    exact ⟨by simpa [arenaFull] using hf, by simpa using h.symm⟩

theorem tbLeafBody_raised {c : CharUnit} {s t : State} {e : ErrorRecord} (h : tbLeafBody c s = .error (.raised t e)) :
    t = s ∧ e = badRecord := by
  simp only [tbLeafBody] at h
  split at h
  · simpa using h
  · simp at h

theorem tbCountBody_ok {s t : State} (h : tbCountBody s = .ok t) :
    s.txtLen.toNat ≤ s.caps.txtCap ∧ t = { s with freq := s.text.foldl countUnit [] } := by
  simp only [tbCountBody] at h
  split at h
  · rename_i hi
    exact ⟨by simpa [State.textInMemory] using hi, by simpa using h.symm⟩
  · simp at h

theorem tbCountBody_raised {s t : State} {e : ErrorRecord} (h : tbCountBody s = .error (.raised t e)) : False := by
  simp only [tbCountBody] at h
  split at h <;> simp at h

theorem tbLeavesBody_ok {s t : State} (h : tbLeavesBody s = .ok t) :
    ∃ a, addLeaves { nodes := [], head := none } s.freq = some a ∧ t = s.clearNodes.withArena a := by
  obtain ⟨a, ha, ht⟩ := withAnswer_ok h
  exact ⟨a, ha, by simpa using ht.symm⟩

theorem tbLeavesBody_raised {s t : State} {e : ErrorRecord} (h : tbLeavesBody s = .error (.raised t e)) : False := by
  obtain ⟨a, -, ht⟩ := withAnswer_raised h
  simp at ht

theorem tbMergeBody_ok_cases {s t : State} (h : tbMergeBody s = .ok t) :
    ∃ n r, hasTwo s.arena = some true ∧ s.nodes.length < Config.nodeMax ∧ headSum s.arena = some n ∧
      n ≤ 0xFFFFFFFF ∧ mergeArena s.arena = some r ∧
      t = { s.withArena r.2.2 with res0 := Word.ofNat r.1, res1 := r.2.1 } := by
  obtain ⟨two, h2, h⟩ := withAnswer_ok h
  cases two with
  | false => simp at h
  | true =>
    simp only [Bool.not_true, Bool.false_eq_true, if_false] at h
    split at h
    · simp at h
    · rename_i hf
      obtain ⟨n, hn, h⟩ := withAnswer_ok h
      split at h
      · simp at h
      · rename_i hs
        obtain ⟨r, hr, ht⟩ := withAnswer_ok h
        exact ⟨n, r, h2, by simpa [arenaFull] using hf, hn, by omega, hr, by simpa using ht.symm⟩

theorem tbMergeBody_raised {s t : State} {e : ErrorRecord} (h : tbMergeBody s = .error (.raised t e)) :
    t = s ∧ e = badRecord := by
  obtain ⟨two, h2, h⟩ := withAnswer_raised h
  cases two with
  | false => simpa using h
  | true =>
    simp only [Bool.not_true, Bool.false_eq_true, if_false] at h
    split at h
    · simpa using h
    · obtain ⟨n, hn, h⟩ := withAnswer_raised h
      split at h
      · simpa using h
      · obtain ⟨r, hr, ht⟩ := withAnswer_raised h
        simp at ht

theorem tbRootBody_ok {s t : State} (h : tbRootBody s = .ok t) :
    ∃ r, hasOne s.arena = some true ∧ removeMin s.arena = some (some r) ∧
      t = { s.withArena r.arena with root := some r.index, res0 := Word.ofNat r.index, res1 := r.wt } := by
  obtain ⟨one, h1, h⟩ := withAnswer_ok h
  cases one with
  | false => simp at h
  | true =>
    simp only [Bool.not_true, Bool.false_eq_true, if_false] at h
    obtain ⟨r, hr, h⟩ := withAnswer_ok h
    cases r with
    | none => simp at h
    | some r => exact ⟨r, h1, hr, by simpa using h.symm⟩

theorem tbRootBody_raised {s t : State} {e : ErrorRecord} (h : tbRootBody s = .error (.raised t e)) :
    t = s ∧ e = badRecord := by
  obtain ⟨one, h1, h⟩ := withAnswer_raised h
  cases one with
  | false => simpa using h
  | true =>
    simp only [Bool.not_true, Bool.false_eq_true, if_false] at h
    obtain ⟨r, hr, h⟩ := withAnswer_raised h
    cases r with
    | none => simpa using h
    | some r => simp at h

/-- What every merge keeps, the loop of merges keeps; it ends on a list of one. -/
theorem mergeLoop_ok {P : State → Prop} (hP : ∀ s t, P s → tbMergeBody s = .ok t → P t) {fuel : Nat} {s t : State}
    (hs : P s) (h : mergeLoop fuel s = .ok t) : P t ∧ hasOne t.arena = some true := by
  induction fuel generalizing s with
  | zero => simp [mergeLoop] at h
  | succ k ih =>
    obtain ⟨one, h1, h⟩ := withAnswer_ok h
    cases one with
    | true => simp only [if_true, Except.ok.injEq] at h; subst h; exact ⟨hs, h1⟩
    | false =>
      simp only [Bool.false_eq_true, if_false] at h
      cases hb : tbMergeBody s with
      | ok s' => rw [hb] at h; exact ih (hP s s' hs hb) h
      | error e => rw [hb] at h; simp at h

/-- The loop of merges raises only what a merge raises, BadState, at a state that the merges so far have left. -/
theorem mergeLoop_raised {P : State → Prop} (hP : ∀ s t, P s → tbMergeBody s = .ok t → P t) {fuel : Nat} {s t : State}
    {e : ErrorRecord} (hs : P s) (h : mergeLoop fuel s = .error (.raised t e)) : P t ∧ e = badRecord := by
  induction fuel generalizing s with
  | zero => simp [mergeLoop] at h
  | succ k ih =>
    obtain ⟨one, h1, h⟩ := withAnswer_raised h
    cases one with
    | true => simp at h
    | false =>
      simp only [Bool.false_eq_true, if_false] at h
      cases hb : tbMergeBody s with
      | ok s' => rw [hb] at h; exact ih (hP s s' hs hb) h
      | error x =>
        rw [hb] at h
        have hx : tbMergeBody s = .error (.raised t e) := hb.trans h
        obtain ⟨rfl, rfl⟩ := tbMergeBody_raised hx
        exact ⟨hs, rfl⟩

theorem tbBuildBody_ok {s t : State} (h : tbBuildBody s = .ok t) :
    s.txtLen ≠ 0 ∧ ∃ s1 s2 s3, tbCountBody s = .ok s1 ∧ tbLeavesBody s1 = .ok s2 ∧ mergeLoop s2.nodeCnt s2 = .ok s3 ∧
      tbRootBody s3 = .ok t := by
  simp only [tbBuildBody] at h
  split at h
  · simp at h
  · obtain ⟨s1, h1, h⟩ := body_bind_ok h
    obtain ⟨s2, h2, h⟩ := body_bind_ok h
    obtain ⟨s3, h3, h⟩ := body_bind_ok h
    exact ⟨‹_›, s1, s2, s3, h1, h2, h3, h⟩

theorem tbBuildBody_raised {s t : State} {e : ErrorRecord} (h : tbBuildBody s = .error (.raised t e)) :
    (s.txtLen = 0 ∧ t = s ∧ e = { kind := .invalidArgument, sub := 0, pos := 0 }) ∨
    (s.txtLen ≠ 0 ∧ ∃ s1 s2, tbCountBody s = .ok s1 ∧ tbLeavesBody s1 = .ok s2 ∧
      (mergeLoop s2.nodeCnt s2 = .error (.raised t e) ∨
        ∃ s3, mergeLoop s2.nodeCnt s2 = .ok s3 ∧ tbRootBody s3 = .error (.raised t e))) := by
  simp only [tbBuildBody] at h
  split at h
  · exact .inl ⟨‹_›, by simpa using h⟩
  · refine .inr ⟨‹_›, ?_⟩
    rcases body_bind_raised h with h1 | ⟨s1, h1, h⟩
    · exact (tbCountBody_raised h1).elim
    · rcases body_bind_raised h with h2 | ⟨s2, h2, h⟩
      · exact (tbLeavesBody_raised h2).elim
      · refine ⟨s1, s2, h1, h2, ?_⟩
        rcases body_bind_raised h with h3 | ⟨s3, h3, h⟩
        · exact .inl h3
        · exact .inr ⟨s3, h3, h⟩

/-! ## The code table -/

/-- The walk that CT.GEN makes for the node of ROOT. -/
def genWalk (s : State) (r : Nat) (x : Node) : Except VisitStop Codes :=
  if x.leaf then .ok (assignCode { ctab := [], ncodes := 0 } x.ch 0 1)
  else visit s.nodes s.nodeCnt r 0 0 { ctab := [], ncodes := 0 }

theorem ctGenBody_ok {s t : State} (h : ctGenBody s = .ok t) :
    ∃ r x c, s.root = some r ∧ s.nodes[r]? = some x ∧ genWalk s r x = .ok c ∧
      t = { s with ctab := c.ctab, ncodes := c.ncodes } := by
  simp only [ctGenBody] at h
  split at h
  · simp at h
  · rename_i r hr
    obtain ⟨x, hx, h⟩ := withAnswer_ok h
    split at h
    · rename_i c hc; exact ⟨r, x, c, hr, hx, hc, by simpa using h.symm⟩
    · simp at h
    · simp at h

theorem ctGenBody_raised {s t : State} {e : ErrorRecord} (h : ctGenBody s = .error (.raised t e)) :
    (s.root = none ∧ t = s ∧ e = badRecord) ∨
    ∃ r x c, s.root = some r ∧ s.nodes[r]? = some x ∧ genWalk s r x = .error (.overflow c) ∧ t = s.clearCodes ∧
      e = { kind := .codeOverflow, sub := 0, pos := Word.ofNat c.toNat } := by
  simp only [ctGenBody] at h
  split at h
  · exact .inl ⟨‹_›, by simpa using h⟩
  · rename_i r hr
    obtain ⟨x, hx, h⟩ := withAnswer_raised h
    split at h
    · simp at h
    · rename_i c hc; exact .inr ⟨r, x, c, hr, hx, hc, by simpa using h⟩
    · simp at h

theorem ctLookupBody_ok {c : CharUnit} {s t : State} (h : ctLookupBody c s = .ok t) :
    t = { s.setFound (decide ((entryOf s.ctab c).len ≠ 0)) with
      res0 := (entryOf s.ctab c).code.zeroExtend 32, res1 := (entryOf s.ctab c).len.zeroExtend 32 } := by
  simpa [ctLookupBody] using h.symm

theorem ctLookupBody_raised {c : CharUnit} {s t : State} {e : ErrorRecord}
    (h : ctLookupBody c s = .error (.raised t e)) : False := by
  simp [ctLookupBody] at h

/-! ## The encoder -/

theorem enTreeBody_ok {s t : State} (h : enTreeBody s = .ok t) :
    ∃ r bits, s.root = some r ∧ serialise s.nodes s.nodeCnt r = some bits ∧ t = { s with tbuf := bits } := by
  simp only [enTreeBody] at h
  split at h
  · simp at h
  · rename_i r hr
    obtain ⟨bits, hb, h⟩ := withAnswer_ok h
    exact ⟨r, bits, hr, hb, by simpa using h.symm⟩

theorem enTreeBody_raised {s t : State} {e : ErrorRecord} (h : enTreeBody s = .error (.raised t e)) :
    s.root = none ∧ t = s ∧ e = badRecord := by
  simp only [enTreeBody] at h
  split at h
  · exact ⟨‹_›, by simpa using h⟩
  · obtain ⟨bits, hb, h⟩ := withAnswer_raised h
    simp at h

theorem enTextBody_ok {s t : State} (h : enTextBody s = .ok t) :
    s.txtLen.toNat ≤ s.caps.txtCap ∧ ∃ bits, textBits s.ctab 0 s.text = .ok bits ∧ t = { s with xbuf := bits } := by
  simp only [enTextBody] at h
  split at h
  · rename_i hi
    refine ⟨by simpa [State.textInMemory] using hi, ?_⟩
    split at h
    · rename_i bits hb; exact ⟨bits, hb, by simpa using h.symm⟩
    · simp at h
  · simp at h

theorem enTextBody_raised {s t : State} {e : ErrorRecord} (h : enTextBody s = .error (.raised t e)) :
    ∃ i, textBits s.ctab 0 s.text = .error i ∧ t = { s with xbuf := [] } ∧
      e = { kind := .badState, sub := 0, pos := Word.ofNat i } := by
  simp only [enTextBody] at h
  split at h
  · split at h
    · simp at h
    · rename_i i hi; exact ⟨i, hi, by simpa using h⟩
  · simp at h

theorem enEmitBody_ok {s t : State} (h : enEmitBody s = .ok t) :
    s.tcur ≠ 0 ∧ s.xcur ≠ 0 ∧ 4 + ceil8 s.tcur + ceil8 s.xcur ≤ s.caps.filCap ∧
      t = { s with
        fil := cellsPutAll s.fil 0 (fileBytes s.tbuf s.xbuf)
        filLen := Word.ofNat (4 + ceil8 s.tcur + ceil8 s.xcur)
        stats := { chars := s.txtLen, metaB := Word.ofNat Config.metaBytes, tree := Word.ofNat (ceil8 s.tcur)
                   text := Word.ofNat (ceil8 s.xcur) } } := by
  simp only [enEmitBody] at h
  split at h
  · simp at h
  · rename_i hc
    rw [not_or] at hc
    split at h
    · simp at h
    · exact ⟨hc.1, hc.2, by omega, by simpa using h.symm⟩

theorem enEmitBody_raised {s t : State} {e : ErrorRecord} (h : enEmitBody s = .error (.raised t e)) :
    t = s ∧ ((e = badRecord ∧ (s.tcur = 0 ∨ s.xcur = 0)) ∨
      (e = { kind := .storageError, sub := 0, pos := 0 } ∧ s.caps.filCap < 4 + ceil8 s.tcur + ceil8 s.xcur)) := by
  simp only [enEmitBody] at h
  split at h
  · rename_i hc
    simp only [badState_eq_raised] at h
    exact ⟨h.1, .inl ⟨h.2, hc⟩⟩
  · split at h
    · rename_i hc
      simp only [raiseAt_eq_raised] at h
      exact ⟨h.1, .inr ⟨h.2, hc⟩⟩
    · simp at h

theorem encodeBody_ok {s t : State} (h : encodeBody s = .ok t) :
    (s.txtLen = 0 ∧ t = { s.clearWorking with filLen := 0 }) ∨
    (s.txtLen ≠ 0 ∧ ∃ s1 s2 s3 s4, tbBuildBody s.clearWorking = .ok s1 ∧ ctGenBody s1 = .ok s2 ∧
      enTreeBody s2 = .ok s3 ∧ enTextBody s3 = .ok s4 ∧ enEmitBody s4 = .ok t) := by
  simp only [encodeBody] at h
  split at h
  · exact .inl ⟨‹_›, by simpa using h.symm⟩
  · obtain ⟨s1, h1, h⟩ := body_bind_ok h
    obtain ⟨s2, h2, h⟩ := body_bind_ok h
    obtain ⟨s3, h3, h⟩ := body_bind_ok h
    obtain ⟨s4, h4, h⟩ := body_bind_ok h
    exact .inr ⟨‹_›, s1, s2, s3, s4, h1, h2, h3, h4, h⟩

theorem encodeBody_raised {s t : State} {e : ErrorRecord} (h : encodeBody s = .error (.raised t e)) :
    s.txtLen ≠ 0 ∧ (tbBuildBody s.clearWorking = .error (.raised t e) ∨
      ∃ s1, tbBuildBody s.clearWorking = .ok s1 ∧ (ctGenBody s1 = .error (.raised t e) ∨
        ∃ s2, ctGenBody s1 = .ok s2 ∧ (enTreeBody s2 = .error (.raised t e) ∨
          ∃ s3, enTreeBody s2 = .ok s3 ∧ (enTextBody s3 = .error (.raised t e) ∨
            ∃ s4, enTextBody s3 = .ok s4 ∧ enEmitBody s4 = .error (.raised t e))))) := by
  simp only [encodeBody] at h
  split at h
  · simp at h
  · refine ⟨‹_›, ?_⟩
    rcases body_bind_raised h with h1 | ⟨s1, h1, h⟩
    · exact .inl h1
    · refine .inr ⟨s1, h1, ?_⟩
      rcases body_bind_raised h with h2 | ⟨s2, h2, h⟩
      · exact .inl h2
      · refine .inr ⟨s2, h2, ?_⟩
        rcases body_bind_raised h with h3 | ⟨s3, h3, h⟩
        · exact .inl h3
        · refine .inr ⟨s3, h3, ?_⟩
          rcases body_bind_raised h with h4 | ⟨s4, h4, h⟩
          · exact .inl h4
          · exact .inr ⟨s4, h4, h⟩

/-! ## The decoder -/

theorem checkHeader_ok {s : State} {h : Header} (hc : checkHeader s = .ok h) :
    8 ≤ s.filLen.toNat ∧ s.fileVersion = 0 ∧ 3 ≤ s.fileTreeLength ∧ s.fileTreeLength ≤ 147456 ∧ 1 ≤ s.fileTreeBits ∧
      s.fileTreeBits ≤ 8 ∧ 1 ≤ s.fileTextBits ∧ s.fileTextBits ≤ 8 ∧ s.fileTreeLength + 5 ≤ s.filLen.toNat ∧
      h = headerOf s.fileVersion s.fileTreeLength s.fileTreeBits s.fileTextBits s.filLen.toNat := by
  simp only [checkHeader, Config.fileMin, Config.versionMax, Config.treeBytesMin, Config.treeBytesMax] at hc
  repeat' split at hc
  all_goals first
    | simp at hc; done
    | exact ⟨by omega, by omega, by omega, by omega, by omega, by omega, by omega, by omega, by omega,
        by simpa using hc.symm⟩

theorem checkHeader_error {s : State} {e : ErrorRecord} (hc : checkHeader s = .error e) :
    e.pos = 0 ∧ ((e.kind = .unsupportedVersion ∧ e.sub = 0) ∨ (e.kind = .corruptFormat ∧ e.sub ∈ [1, 2, 3, 4, 5])) := by
  simp only [checkHeader] at hc
  repeat' split at hc
  all_goals first
    | (simp only [Except.error.injEq] at hc; subst hc; exact ⟨rfl, by simp [corrupt]⟩)
    | simp at hc

theorem deHdrBody_ok {s t : State} (h : deHdrBody s = .ok t) :
    (s.filLen = 0 ∧ t = s.setHeader false true Header.zero) ∨
    (s.filLen ≠ 0 ∧ s.filLen.toNat ≤ s.caps.filCap ∧
      ∃ hd, checkHeader s = .ok hd ∧ t = s.setHeader true false hd) := by
  simp only [deHdrBody] at h
  split at h
  · exact .inl ⟨‹_›, by simpa using h.symm⟩
  · split at h
    · simp at h
    · split at h
      · rename_i hd hc; exact .inr ⟨‹_›, by omega, hd, hc, by simpa using h.symm⟩
      · simp at h

theorem deHdrBody_raised {s t : State} {e : ErrorRecord} (h : deHdrBody s = .error (.raised t e)) :
    s.filLen ≠ 0 ∧ checkHeader s = .error e ∧ t = s.setHeader false false Header.zero := by
  simp only [deHdrBody] at h
  split at h
  · simp at h
  · split at h
    · simp at h
    · split at h
      · simp at h
      · rename_i e' hc
        simp only [Except.error.injEq, Stop.raised.injEq] at h
        obtain ⟨rfl, rfl⟩ := h
        exact ⟨‹_›, hc, rfl⟩

theorem deTreeBody_ok {s t : State} (h : deTreeBody s = .ok t) :
    s.flags.hdrv = true ∧ s.hdr.tend.toNat ≤ 8 * s.caps.filCap ∧
      ∃ p, parse s s.hdr.tend.toNat (s.hdr.tend.toNat - treeStart) [] treeStart = .ok p ∧
        t = { s.clearNodes with nodes := p.nodes, root := some p.index, rcur := Word.ofNat p.rcur } := by
  simp only [deTreeBody] at h
  split at h
  · simp at h
  · rename_i hv
    split at h
    · simp at h
    · rename_i hi
      refine ⟨by simpa using hv, by simpa [State.fileInMemory] using hi, ?_⟩
      split at h
      · rename_i p hp; exact ⟨p, hp, by simpa using h.symm⟩
      · simp at h

theorem deTreeBody_raised {s t : State} {e : ErrorRecord} (h : deTreeBody s = .error (.raised t e)) :
    (s.flags.hdrv = false ∧ t = s ∧ e = badRecord) ∨
    (s.flags.hdrv = true ∧ parse s s.hdr.tend.toNat (s.hdr.tend.toNat - treeStart) [] treeStart = .error e ∧
      t = { s.clearNodes with rcur := e.pos }) := by
  simp only [deTreeBody] at h
  split at h
  · exact .inl ⟨‹_›, by simpa using h⟩
  · rename_i hv
    split at h
    · simp at h
    · split at h
      · simp at h
      · rename_i e' he
        simp only [Except.error.injEq, Stop.raised.injEq] at h
        obtain ⟨rfl, rfl⟩ := h
        exact .inr ⟨by simpa using hv, he, rfl⟩

/-- The loop that DE.TEXT runs for the node of ROOT. -/
def textWalk (s : State) (r : Nat) (x : Node) : Except TextStop (Nat × Cells CharUnit) :=
  if x.leaf then oneLeafText s x.ch (s.hdr.xend.toNat - s.hdr.xstart.toNat) s.hdr.xstart.toNat 0 s.txt
  else walkText s r (s.hdr.xend.toNat - s.hdr.xstart.toNat) s.hdr.xstart.toNat r 0 s.txt

theorem deTextBody_ok {s t : State} (h : deTextBody s = .ok t) :
    ∃ r x n txt, s.root = some r ∧ s.flags.hdrv = true ∧ s.hdr.xend.toNat ≤ 8 * s.caps.filCap ∧
      s.nodes[r]? = some x ∧ textWalk s r x = .ok (n, txt) ∧
      t = { s with txt := txt, txtLen := Word.ofNat n, rcur := s.hdr.xend } := by
  simp only [deTextBody] at h
  split at h
  · simp at h
  · rename_i r hr
    split at h
    · simp at h
    · rename_i hv
      split at h
      · simp at h
      · rename_i hi
        obtain ⟨x, hx, h⟩ := withAnswer_ok h
        split at h
        · rename_i n txt hw
          exact ⟨r, x, n, txt, hr, by simpa using hv, by simpa [State.fileInMemory] using hi, hx, hw,
            by simpa using h.symm⟩
        · simp at h
        · simp at h

theorem deTextBody_raised {s t : State} {e : ErrorRecord} (h : deTextBody s = .error (.raised t e)) :
    ((s.root = none ∨ s.flags.hdrv = false) ∧ t = s ∧ e = badRecord) ∨
    ∃ r x txt, s.root = some r ∧ s.flags.hdrv = true ∧ s.nodes[r]? = some x ∧
      textWalk s r x = .error (.fail txt e) ∧ t = { s with txt := txt, txtLen := 0, rcur := e.pos } := by
  simp only [deTextBody] at h
  split at h
  · exact .inl ⟨.inl ‹_›, by simpa using h⟩
  · rename_i r hr
    split at h
    · exact .inl ⟨.inr ‹_›, by simpa using h⟩
    · rename_i hv
      split at h
      · simp at h
      · obtain ⟨x, hx, h⟩ := withAnswer_raised h
        split at h
        · simp at h
        · rename_i txt e' hw
          simp only [Except.error.injEq, Stop.raised.injEq] at h
          obtain ⟨rfl, rfl⟩ := h
          exact .inr ⟨r, x, txt, hr, by simpa using hv, hx, hw, rfl⟩
        · simp at h

theorem decodeBody_ok {s t : State} (h : decodeBody s = .ok t) :
    ∃ s1, deHdrBody { s.clearWorking with txtLen := 0 } = .ok s1 ∧
      ((s1.flags.fempty = true ∧ t = s1) ∨
        (s1.flags.fempty = false ∧ ∃ s2, deTreeBody s1 = .ok s2 ∧ deTextBody s2 = .ok t)) := by
  simp only [decodeBody] at h
  obtain ⟨s1, h1, h⟩ := body_bind_ok h
  refine ⟨s1, h1, ?_⟩
  split at h
  · exact .inl ⟨‹_›, by simpa using h.symm⟩
  · rename_i hf
    obtain ⟨s2, h2, h⟩ := body_bind_ok h
    exact .inr ⟨by simpa using hf, s2, h2, h⟩

theorem decodeBody_raised {s t : State} {e : ErrorRecord} (h : decodeBody s = .error (.raised t e)) :
    deHdrBody { s.clearWorking with txtLen := 0 } = .error (.raised t e) ∨
    ∃ s1, deHdrBody { s.clearWorking with txtLen := 0 } = .ok s1 ∧ s1.flags.fempty = false ∧
      (deTreeBody s1 = .error (.raised t e) ∨ ∃ s2, deTreeBody s1 = .ok s2 ∧ deTextBody s2 = .error (.raised t e)) := by
  simp only [decodeBody] at h
  rcases body_bind_raised h with h1 | ⟨s1, h1, h⟩
  · exact .inl h1
  · refine .inr ⟨s1, h1, ?_⟩
    split at h
    · simp at h
    · rename_i hf
      refine ⟨by simpa using hf, ?_⟩
      rcases body_bind_raised h with h2 | ⟨s2, h2, h⟩
      · exact .inl h2
      · exact .inr ⟨s2, h2, h⟩

end Sys2Proof.Machine
end

