-- ==== Sys2Proof/Laws/Memory.lean ====
section
/-!
SUPPORT. The laws of memories and tables: a read after a write, and that every operation keeps the canonical form
(log entry 11).
-/

namespace Sys2Proof.Machine

variable {α : Type}

/-! ## Read after write -/

@[simp] theorem cellsGet?_nil (a : Nat) : cellsGet? ([] : Cells α) a = none := rfl

@[simp] theorem cellsGet?_put_self (m : Cells α) (a : Nat) (v : α) : cellsGet? (cellsPut m a v) a = some v := by
  induction m with
  | nil => simp [cellsPut, cellsGet?]
  | cons c rest ih =>
    obtain ⟨k, u⟩ := c
    simp only [cellsPut]
    split
    · simp [cellsGet?]
    · split
      · simp [cellsGet?]
      · rw [cellsGet?, if_neg (by omega), ih]

theorem cellsGet?_put_ne (m : Cells α) (a b : Nat) (v : α) (h : b ≠ a) :
    cellsGet? (cellsPut m a v) b = cellsGet? m b := by
  induction m with
  | nil => simp [cellsPut, cellsGet?, Ne.symm h]
  | cons c rest ih =>
    obtain ⟨k, u⟩ := c
    simp only [cellsPut]
    split
    · simp [cellsGet?, Ne.symm h]
    · split
      · subst k; simp [cellsGet?, Ne.symm h]
      · simp only [cellsGet?, ih]

theorem cellsGet?_put (m : Cells α) (a b : Nat) (v : α) :
    cellsGet? (cellsPut m a v) b = if b = a then some v else cellsGet? m b := by
  by_cases h : b = a
  · subst h; simp
  · simp [h, cellsGet?_put_ne]

theorem cellsGet?_erase (m : Cells α) (a b : Nat) :
    cellsGet? (cellsErase m a) b = if b = a then none else cellsGet? m b := by
  unfold cellsErase
  induction m with
  | nil => simp
  | cons c rest ih =>
    obtain ⟨k, u⟩ := c
    by_cases hk : k = a
    · subst hk
      by_cases hb : b = k
      · subst hb; simpa using ih
      · simp [cellsGet?, Ne.symm hb, hb, ih]
    · by_cases hb : b = a
      · subst hb; simp [cellsGet?, hk, ih]
      · simp [cellsGet?, hk, hb, ih]

theorem cellsGet?_putAll (m : Cells α) (a b : Nat) (vs : List α) :
    cellsGet? (cellsPutAll m a vs) b = if a ≤ b ∧ b < a + vs.length then vs[b - a]? else cellsGet? m b := by
  induction vs generalizing m a with
  | nil => simp [cellsPutAll]
  | cons v rest ih =>
    rw [cellsPutAll, ih, cellsGet?_put, List.length_cons]
    by_cases hb : b = a
    · subst hb; simp
    · by_cases h : a ≤ b ∧ b < a + (rest.length + 1)
      · rw [if_pos h, if_pos ⟨by omega, by omega⟩]
        obtain ⟨j, rfl⟩ : ∃ j, b = a + 1 + j := ⟨b - (a + 1), by omega⟩
        rw [show a + 1 + j - a = j + 1 by omega, show a + 1 + j - (a + 1) = j by omega]; simp
      · rw [if_neg h, if_neg (by omega), if_neg hb]

theorem tableGet_set [DecidableEq α] (d : α) (t : Cells α) (a b : Nat) (v : α) :
    tableGet d (tableSet d t a v) b = if b = a then v else tableGet d t b := by
  unfold tableGet tableSet
  by_cases hv : v = d
  · subst hv
    rw [if_pos rfl, cellsGet?_erase]; split <;> simp
  · rw [if_neg hv, cellsGet?_put]; split <;> simp

@[simp] theorem tableGet_nil (d : α) (a : Nat) : tableGet d ([] : Cells α) a = d := rfl

/-! ## The canonical form -/

theorem cellsPut_mem {m : Cells α} {a : Nat} {v : α} {c : Nat × α} (h : c ∈ cellsPut m a v) : c = (a, v) ∨ c ∈ m := by
  induction m with
  | nil => simpa [cellsPut] using h
  | cons x rest ih =>
    obtain ⟨k, u⟩ := x
    simp only [cellsPut] at h
    split at h
    · simpa using h
    · split at h
      · rcases List.mem_cons.1 h with h | h
        · exact .inl h
        · exact .inr (List.mem_cons_of_mem _ h)
      · rcases List.mem_cons.1 h with h | h
        · exact .inr (by simp [h])
        · exact (ih h).imp id (List.mem_cons_of_mem _)

theorem cellsPut_rising {m : Cells α} (a : Nat) (v : α) (h : m.Pairwise (fun x y => x.1 < y.1)) :
    (cellsPut m a v).Pairwise (fun x y => x.1 < y.1) := by
  induction m with
  | nil => simp [cellsPut]
  | cons x rest ih =>
    obtain ⟨k, u⟩ := x
    obtain ⟨hk, hr⟩ := List.pairwise_cons.1 h
    simp only [cellsPut]
    split
    · refine List.pairwise_cons.2 ⟨?_, h⟩
      intro c hc
      rcases List.mem_cons.1 hc with rfl | hc
      · assumption
      · exact Nat.lt_trans ‹_› (hk c hc)
    · split
      · subst k; exact List.pairwise_cons.2 ⟨hk, hr⟩
      · refine List.pairwise_cons.2 ⟨?_, ih hr⟩
        intro c hc
        rcases cellsPut_mem hc with rfl | hc
        · simp; omega
        · exact hk c hc

/-- Writing a cell keeps the canonical form. -/
theorem cellsPut_wf {cap : Nat} {m : Cells α} {a : Nat} (v : α) (h : Memory.wf cap m) (ha : a < cap) :
    Memory.wf cap (cellsPut m a v) := by
  refine ⟨cellsPut_rising a v h.1, fun c hc => ?_⟩
  rcases cellsPut_mem hc with rfl | hc
  · exact ha
  · exact h.2 c hc

/-- Taking a cell off the list keeps the canonical form. -/
theorem cellsErase_wf {cap : Nat} {m : Cells α} (a : Nat) (h : Memory.wf cap m) : Memory.wf cap (cellsErase m a) :=
  ⟨h.1.filter _, fun c hc => h.2 c (List.mem_filter.1 hc).1⟩

/-- Writing a run of cells keeps the canonical form. -/
theorem cellsPutAll_wf {cap : Nat} (vs : List α) {m : Cells α} {a : Nat} (h : Memory.wf cap m)
    (ha : a + vs.length ≤ cap) : Memory.wf cap (cellsPutAll m a vs) := by
  induction vs generalizing m a with
  | nil => exact h
  | cons v rest ih =>
    simp only [List.length_cons] at ha
    exact ih (cellsPut_wf v h (by omega)) (by omega)

/-- Writing a cell of a table keeps the canonical form: a default is never listed. -/
theorem tableSet_wf [DecidableEq α] {d : α} {size : Nat} {t : Cells α} {a : Nat} (v : α) (h : Table.wf d size t)
    (ha : a < size) : Table.wf d size (tableSet d t a v) := by
  unfold tableSet
  split
  · exact ⟨cellsErase_wf a h.1, fun c hc => h.2 c (List.mem_filter.1 hc).1⟩
  · refine ⟨cellsPut_wf v h.1 ha, fun c hc => ?_⟩
    rcases cellsPut_mem hc with rfl | hc
    · assumption
    · exact h.2 c hc

@[simp] theorem memory_wf_nil (cap : Nat) : Memory.wf cap ([] : Cells α) := by simp [Memory.wf]

@[simp] theorem table_wf_nil (d : α) (size : Nat) : Table.wf d size ([] : Cells α) := by simp [Table.wf, Memory.wf]

/-- The memories of the reset state are canonical. -/
theorem reset_memories_wf : Memory.wf State.reset.caps.txtCap State.reset.txt ∧
    Memory.wf State.reset.caps.filCap State.reset.fil := by
  constructor <;> exact memory_wf_nil _

/-- A host write of a cell keeps the canonical form of TXT. -/
theorem writeTxt_wf {s : State} {i : Nat} (v : CharUnit) (h : Memory.wf s.caps.txtCap s.txt) (hi : i < s.caps.txtCap) :
    Memory.wf (s.writeTxt i v).caps.txtCap (s.writeTxt i v).txt := cellsPut_wf v h hi

/-- A host write of a cell keeps the canonical form of FIL. -/
theorem writeFil_wf {s : State} {i : Nat} (v : Byte) (h : Memory.wf s.caps.filCap s.fil) (hi : i < s.caps.filCap) :
    Memory.wf (s.writeFil i v).caps.filCap (s.writeFil i v).fil := cellsPut_wf v h hi

theorem cellsGet?_mem {m : Cells α} {a : Nat} {v : α} (h : cellsGet? m a = some v) : (a, v) ∈ m := by
  induction m with
  | nil => simp at h
  | cons c rest ih =>
    obtain ⟨k, u⟩ := c
    simp only [cellsGet?] at h
    split at h
    · simp_all
    · exact List.mem_cons_of_mem _ (ih h)

/-- In canonical form a listed cell is found. -/
theorem cellsGet?_of_mem {m : Cells α} {a : Nat} {v : α} (hm : m.Pairwise (fun x y => x.1 < y.1)) (h : (a, v) ∈ m) :
    cellsGet? m a = some v := by
  induction m with
  | nil => simp at h
  | cons c rest ih =>
    obtain ⟨k, u⟩ := c
    obtain ⟨hk, hr⟩ := List.pairwise_cons.1 hm
    rcases List.mem_cons.1 h with h | h
    · cases h; simp [cellsGet?]
    · have := hk _ h
      rw [cellsGet?, if_neg (by simp at this; omega), ih hr h]

/-- A memory in canonical form lists at most `cap` cells. -/
theorem memory_wf_length {cap : Nat} {m : Cells α} (h : Memory.wf cap m) : m.length ≤ cap := by
  have hn : (m.map Prod.fst).Nodup := (List.pairwise_map.2 (h.1.imp (fun h => Nat.ne_of_lt h)))
  have hs : (m.map Prod.fst) ⊆ List.range cap := by
    intro k hk
    obtain ⟨c, hc, rfl⟩ := List.mem_map.1 hk
    exact List.mem_range.2 (h.2 c hc)
  simpa using (hn.subperm hs).length_le

/-! ## The two host memories -/

theorem readTxt_writeTxt (s : State) (i j : Nat) (v : CharUnit) :
    (s.writeTxt i v).readTxt j = if j = i then v else s.readTxt j := by
  simp only [State.readTxt, writeTxt_txt, writeTxt_resets, cellsGet?_put]; split <;> simp

theorem readFil_writeFil (s : State) (i j : Nat) (v : Byte) :
    (s.writeFil i v).readFil j = if j = i then v else s.readFil j := by
  simp only [State.readFil, writeFil_fil, writeFil_resets, cellsGet?_put]; split <;> simp

/-- What a read of FIL sees after a run of bytes was written from cell 0 on. -/
theorem readFil_putAll (s : State) (vs : List Byte) (j : Nat) :
    ({ s with fil := cellsPutAll s.fil 0 vs } : State).readFil j = (vs[j]?).getD (s.readFil j) := by
  simp only [State.readFil, cellsGet?_putAll]
  by_cases h : j < vs.length
  · simp [h]
  · simp [h]

end Sys2Proof.Machine
end

