-- ==== Sys2Proof/Laws/Tree.lean ====
section
/-!
SUPPORT. Code trees and the arenas that hold them: a node holds one tree only, its depth is below the number of nodes,
so the bounds that the walks carry are never reached (log entry 12), and what the walks Ser and Visit answer.
-/

namespace Sys2Proof.Machine

@[simp] theorem bitsOf_length {w : Nat} (v : BitVec w) (n : Nat) : (bitsOf v n).length = n := by
  induction n with
  | zero => rfl
  | succ k ih => simp [bitsOf, ih]

/-! ## Shape -/

theorem HTree.leafCount_pos (t : HTree) : 0 < t.leafCount := by
  induction t with
  | leaf c => simp [HTree.leafCount]
  | node l r ihl ihr => simp [HTree.leafCount]; omega

/-- "A tree with k leaves serialises to 18 × k − 1 bits" (`spec/30_encoding.md` R110). -/
theorem HTree.ser_length (t : HTree) : t.ser.length + 1 = 18 * t.leafCount := by
  induction t with
  | leaf c => simp [HTree.ser, HTree.leafCount]
  | node l r ihl ihr => simp [HTree.ser, HTree.leafCount]; omega

@[simp] theorem HTree.chars_length (t : HTree) : t.chars.length = t.leafCount := by
  induction t with
  | leaf c => rfl
  | node l r ihl ihr => simp [HTree.chars, HTree.leafCount, ihl, ihr]

theorem HTree.paths_chars (t : HTree) : t.paths.map Prod.fst = t.chars := by
  induction t with
  | leaf c => rfl
  | node l r ihl ihr =>
    rw [HTree.paths, HTree.chars, ← ihl, ← ihr]; simp [Function.comp_def]

/-- No path is longer than the depth. -/
theorem HTree.paths_le (t : HTree) : ∀ p ∈ t.paths, p.2.length ≤ t.depth := by
  induction t with
  | leaf c => simp [HTree.paths, HTree.depth]
  | node l r ihl ihr =>
    intro p hp
    simp only [HTree.paths, List.mem_append, List.mem_map] at hp
    rcases hp with ⟨q, hq, rfl⟩ | ⟨q, hq, rfl⟩
    · have := ihl q hq; simp only [List.length_cons, HTree.depth]; omega
    · have := ihr q hq; simp only [List.length_cons, HTree.depth]; omega

/-- Two leaves are never on the path to each other (`spec/42_code_table.md` R197). -/
theorem HTree.paths_prefixFree (t : HTree) :
    t.paths.Pairwise (fun p q => ¬ p.2 <+: q.2 ∧ ¬ q.2 <+: p.2) := by
  induction t with
  | leaf c => simp [HTree.paths]
  | node l r ihl ihr =>
    rw [HTree.paths, List.pairwise_append, List.pairwise_map, List.pairwise_map]
    refine ⟨ihl.imp ?_, ihr.imp ?_, ?_⟩
    · intro p q h; simpa using h
    · intro p q h; simpa using h
    · intro p hp q hq
      simp only [List.mem_map] at hp hq
      obtain ⟨p', -, rfl⟩ := hp
      obtain ⟨q', -, rfl⟩ := hq
      simp

/-! ## Arenas -/

/-- A node holds one tree only. -/
theorem HoldsTree.unique {nodes : List Node} {n : Nat} {t u : HTree} (h : HoldsTree nodes n t)
    (h' : HoldsTree nodes n u) : t = u := by
  induction t generalizing n u with
  | leaf c =>
    obtain ⟨x, hx, hl, rfl⟩ := h
    cases u with
    | leaf d => obtain ⟨y, hy, -, rfl⟩ := h'; rw [hx] at hy; cases hy; rfl
    | node l r => obtain ⟨y, a, b, hy, hf, -⟩ := h'; rw [hx] at hy; cases hy; simp [hl] at hf
  | node l r ihl ihr =>
    obtain ⟨x, a, b, hx, hf, ha, hb, hl, hr⟩ := h
    cases u with
    | leaf d => obtain ⟨y, hy, hl, -⟩ := h'; rw [hx] at hy; cases hy; simp [hf] at hl
    | node l' r' =>
      obtain ⟨y, a', b', hy, -, ha', hb', hl', hr'⟩ := h'
      rw [hx] at hy; cases hy
      rw [ha] at ha'; cases ha'
      rw [hb] at hb'; cases hb'
      rw [ihl hl hl', ihr hr hr']

theorem HoldsTree.lt {nodes : List Node} {n : Nat} {t : HTree} (h : HoldsTree nodes n t) : n < nodes.length := by
  cases t with
  | leaf c => obtain ⟨x, hx, -⟩ := h; exact (List.getElem?_eq_some_iff.1 hx).1
  | node l r => obtain ⟨x, a, b, hx, -⟩ := h; exact (List.getElem?_eq_some_iff.1 hx).1

/-- A tree depends on LEAF, CH, LEFT and RIGHT only. -/
theorem HoldsTree.congr {nodes nodes' : List Node} {n : Nat} {t : HTree} (h : HoldsTree nodes n t)
    (hn : ∀ (m : Nat) (x : Node), nodes[m]? = some x → ∃ y, nodes'[m]? = some y ∧ y.leaf = x.leaf ∧ y.ch = x.ch ∧
      y.left = x.left ∧ y.right = x.right) : HoldsTree nodes' n t := by
  induction t generalizing n with
  | leaf c =>
    obtain ⟨x, hx, hl, hc⟩ := h
    obtain ⟨y, hy, h1, h2, -⟩ := hn n x hx
    exact ⟨y, hy, h1.trans hl, h2.trans hc⟩
  | node l r ihl ihr =>
    obtain ⟨x, a, b, hx, hf, ha, hb, hl, hr⟩ := h
    obtain ⟨y, hy, h1, -, h3, h4⟩ := hn n x hx
    exact ⟨y, a, b, hy, h1.trans hf, h3.trans ha, h4.trans hb, ihl hl, ihr hr⟩

/-- The nodes on the way to the deepest leaf are distinct. -/
theorem HoldsTree.spine {nodes : List Node} {n : Nat} {t : HTree} (h : HoldsTree nodes n t) :
    ∃ ms : List Nat, ms.Nodup ∧ ms.length = t.depth + 1 ∧
      ∀ m ∈ ms, ∃ u, HoldsTree nodes m u ∧ u.depth ≤ t.depth := by
  induction t generalizing n with
  | leaf c => exact ⟨[n], by simp, rfl, fun m hm => ⟨.leaf c, by simp at hm; exact hm ▸ h, Nat.le_refl _⟩⟩
  | node l r ihl ihr =>
    have h0 := h
    obtain ⟨x, a, b, -, -, -, -, hl, hr⟩ := h
    have step : ∀ (k : HTree) (ms : List Nat), ms.Nodup → ms.length = k.depth + 1 →
        (∀ m ∈ ms, ∃ u, HoldsTree nodes m u ∧ u.depth ≤ k.depth) → (HTree.node l r).depth = k.depth + 1 →
        ∃ ms' : List Nat, ms'.Nodup ∧ ms'.length = (HTree.node l r).depth + 1 ∧
          ∀ m ∈ ms', ∃ u, HoldsTree nodes m u ∧ u.depth ≤ (HTree.node l r).depth := by
      intro k ms hd hlen hm hk
      refine ⟨n :: ms, List.nodup_cons.2 ⟨?_, hd⟩, by simp [hlen, hk], ?_⟩
      · intro hn
        obtain ⟨u, hu, hle⟩ := hm n hn
        rw [← h0.unique hu] at hle; omega
      · intro m hm'
        rcases List.mem_cons.1 hm' with rfl | hm'
        · exact ⟨_, h0, Nat.le_refl _⟩
        · obtain ⟨u, hu, hle⟩ := hm m hm'; exact ⟨u, hu, by omega⟩
    by_cases hlr : r.depth ≤ l.depth
    · obtain ⟨ms, h1, h2, h3⟩ := ihl hl
      exact step l ms h1 h2 h3 (by simp only [HTree.depth]; omega)
    · obtain ⟨ms, h1, h2, h3⟩ := ihr hr
      exact step r ms h1 h2 h3 (by simp only [HTree.depth]; omega)

/-- The depth of a tree is below the number of nodes. -/
theorem HoldsTree.depth_lt {nodes : List Node} {n : Nat} {t : HTree} (h : HoldsTree nodes n t) :
    t.depth < nodes.length := by
  obtain ⟨ms, hd, hlen, hm⟩ := h.spine
  have hs : ms ⊆ List.range nodes.length := fun m hm' => by
    obtain ⟨u, hu, -⟩ := hm m hm'; exact List.mem_range.2 hu.lt
  have := (hd.subperm hs).length_le
  simp at this; omega

/-! ## Ser -/

/-- What `Ser(n)` appends (`spec/43_encoder.md` R212). -/
theorem serialise_holds {nodes : List Node} {n : Nat} {t : HTree} (h : HoldsTree nodes n t) {fuel : Nat}
    (hf : t.depth < fuel) : serialise nodes fuel n = some t.ser := by
  induction t generalizing n fuel with
  | leaf c =>
    obtain ⟨x, hx, hl, rfl⟩ := h
    obtain ⟨k, rfl⟩ : ∃ k, fuel = k + 1 := ⟨fuel - 1, by omega⟩
    simp [serialise, hx, hl, HTree.ser]
  | node l r ihl ihr =>
    obtain ⟨x, a, b, hx, hl, ha, hb, hla, hrb⟩ := h
    obtain ⟨k, rfl⟩ : ∃ k, fuel = k + 1 := ⟨fuel - 1, by omega⟩
    simp only [HTree.depth] at hf
    simp [serialise, hx, hl, ha, hb, ihl hla (fuel := k) (by omega), ihr hrb (fuel := k) (by omega), HTree.ser]

/-! ## Visit -/

/-- The running code after a path has been walked from it: each bit shifts it by one (`spec/00_scope.md` R18). -/
def pathCode (code : BitVec 16) (path : List Bool) : BitVec 16 :=
  path.foldl (fun c b => if b then c <<< 1 ||| 1 else c <<< 1) code

/-- The assignments of a list of paths, in their order, each path walked from the running pair (code, len). -/
def assignPaths (code : BitVec 16) (len : Nat) (paths : List (CharUnit × List Bool)) (t : Codes) :
    Except VisitStop Codes :=
  match paths with
  | [] => .ok t
  | (c, p) :: rest =>
    if Config.codeWidth < len + p.length then .error (.overflow c)
    else assignPaths code len rest (assignCode t c (pathCode code p) (len + p.length))

theorem assignPaths_append (code : BitVec 16) (len : Nat) (ps qs : List (CharUnit × List Bool)) (t : Codes) :
    assignPaths code len (ps ++ qs) t =
      match assignPaths code len ps t with
      | .error e => .error e
      | .ok t' => assignPaths code len qs t' := by
  induction ps generalizing t with
  | nil => rfl
  | cons p ps ih =>
    obtain ⟨c, p⟩ := p
    simp only [List.cons_append, assignPaths]
    split
    · rfl
    · exact ih _

theorem assignPaths_cons_bit (b : Bool) (code : BitVec 16) (len : Nat) (ps : List (CharUnit × List Bool)) (t : Codes) :
    assignPaths code len (ps.map (fun p => (p.1, b :: p.2))) t =
      assignPaths (if b then code <<< 1 ||| 1 else code <<< 1) (len + 1) ps t := by
  induction ps generalizing t with
  | nil => rfl
  | cons p ps ih =>
    obtain ⟨c, p⟩ := p
    simp only [List.map_cons, assignPaths, List.length_cons, Nat.add_assoc, Nat.add_comm 1, pathCode, List.foldl_cons]
    split
    · rfl
    · exact ih _

/-- What `Visit` does on a tree: the assignments of its paths in preorder, up to the first that is too long
(`spec/42_code_table.md` R191, R194). -/
theorem visit_holds {nodes : List Node} {n : Nat} {u : HTree} (h : HoldsTree nodes n u) {fuel : Nat}
    (hf : u.depth < fuel) (code : BitVec 16) (len : Nat) (t : Codes) :
    visit nodes fuel n code len t = assignPaths code len u.paths t := by
  induction u generalizing n fuel code len t with
  | leaf c =>
    obtain ⟨x, hx, hl, rfl⟩ := h
    obtain ⟨k, rfl⟩ : ∃ k, fuel = k + 1 := ⟨fuel - 1, by omega⟩
    simp [visit, hx, hl, HTree.paths, assignPaths, pathCode]
  | node l r ihl ihr =>
    obtain ⟨x, a, b, hx, hl, ha, hb, hla, hrb⟩ := h
    obtain ⟨k, rfl⟩ : ∃ k, fuel = k + 1 := ⟨fuel - 1, by omega⟩
    simp only [HTree.depth] at hf
    simp only [visit, hx, hl, ha, hb, HTree.paths, assignPaths_append]
    rw [ihl hla (by omega), assignPaths_cons_bit false]
    simp only [Bool.false_eq_true, if_false]
    cases assignPaths (code <<< 1) (len + 1) l.paths t with
    | error e => rfl
    | ok t' => simp only; rw [ihr hrb (by omega), assignPaths_cons_bit true]; simp

end Sys2Proof.Machine
end

