-- ==== Sys2Proof/Laws/Stream.lean ====
section
/-!
SUPPORT. Bit streams and bytes: the number a bit string spells, the bits of a number, and the bytes of a stream
(`spec/00_scope.md` R13, R15, `spec/43_encoder.md` R210).
-/

namespace Sys2Proof.Machine

/-! ## Numbers and bits -/

@[simp] theorem bitsToNat_nil : bitsToNat [] = 0 := rfl

theorem bitsToNat_foldl (a : Nat) (bits : List Bool) :
    bits.foldl (fun acc b => 2 * acc + b.toNat) a = a * 2 ^ bits.length + bitsToNat bits := by
  unfold bitsToNat
  induction bits generalizing a with
  | nil => simp
  | cons b bs ih =>
    simp only [List.foldl_cons, List.length_cons]
    rw [ih (2 * a + b.toNat), ih (2 * 0 + b.toNat)]
    ring

theorem bitsToNat_cons (b : Bool) (bs : List Bool) : bitsToNat (b :: bs) = b.toNat * 2 ^ bs.length + bitsToNat bs := by
  rw [bitsToNat, List.foldl_cons, bitsToNat_foldl]; simp

theorem bitsToNat_append (as bs : List Bool) : bitsToNat (as ++ bs) = bitsToNat as * 2 ^ bs.length + bitsToNat bs := by
  rw [bitsToNat, List.foldl_append, bitsToNat_foldl]; rfl

theorem bitsToNat_lt (bs : List Bool) : bitsToNat bs < 2 ^ bs.length := by
  induction bs with
  | nil => simp
  | cons b bs ih =>
    rw [bitsToNat_cons, List.length_cons, Nat.pow_succ]
    have : b.toNat ≤ 1 := Bool.toNat_le b
    nlinarith

/-- The bits of a number spell it. -/
theorem bitsToNat_bitsOf {w : Nat} (v : BitVec w) (n : Nat) : bitsToNat (bitsOf v n) = v.toNat % 2 ^ n := by
  induction n with
  | zero => simp [bitsOf, Nat.mod_one]
  | succ k ih =>
    have h : (v.getLsbD k).toNat = v.toNat / 2 ^ k % 2 := by
      rw [BitVec.getLsbD, Nat.testBit_eq_decide_div_mod_eq]
      rcases Nat.mod_two_eq_zero_or_one (v.toNat / 2 ^ k) with h | h <;> simp [h]
    rw [bitsOf, bitsToNat_cons, ih, bitsOf_length, h, Nat.pow_succ, Nat.mod_mul]
    ring

/-- The number that a bit string spells has these bits: bit `length − 1 − j` of the number is bit j of the string. -/
theorem testBit_bitsToNat (bs : List Bool) (j : Nat) (h : j < bs.length) :
    (bitsToNat bs).testBit (bs.length - 1 - j) = bs[j] := by
  induction bs generalizing j with
  | nil => simp at h
  | cons b bs ih =>
    rw [bitsToNat_cons]
    cases j with
    | zero =>
      simp only [List.length_cons, Nat.add_sub_cancel, Nat.sub_zero, List.getElem_cons_zero]
      rw [Nat.mul_comm, Nat.testBit_two_pow_mul_add _ (bitsToNat_lt bs)]
      cases b <;> simp
    | succ i =>
      simp only [List.length_cons] at h
      simp only [List.length_cons, List.getElem_cons_succ]
      rw [← ih i (by omega), Nat.mul_comm, Nat.testBit_two_pow_mul_add _ (bitsToNat_lt bs), if_pos (by omega)]
      congr 1
      omega

/-- A bit string of at most w bits is read back from the register it was packed into. -/
theorem bitsOf_ofNat_bitsToNat {w : Nat} (bs : List Bool) (h : bs.length ≤ w) :
    bitsOf (BitVec.ofNat w (bitsToNat bs)) bs.length = bs := by
  apply List.ext_getElem (by simp)
  intro i h1 h2
  have key : ∀ (v : BitVec w) (n i : Nat) (hi : i < (bitsOf v n).length), (bitsOf v n)[i] = v.getLsbD (n - 1 - i) := by
    intro v n
    induction n with
    | zero => intro i hi; simp at hi
    | succ k ih =>
      intro i hi
      cases i with
      | zero => simp [bitsOf]
      | succ j => simp only [bitsOf, List.getElem_cons_succ, ih]; congr 1; omega
  rw [key, BitVec.getLsbD_ofNat, testBit_bitsToNat bs i h2]
  simp; omega

/-! ## The running code of a path -/

/-- The code that a path of at most 16 bits leaves in the register is the path: no bit is lost
(`spec/42_code_table.md` R194). -/
theorem pathCode_toNat (path : List Bool) : (pathCode 0 path).toNat = bitsToNat path % 65536 := by
  have key : ∀ (path : List Bool) (c : BitVec 16),
      (pathCode c path).toNat = (c.toNat * 2 ^ path.length + bitsToNat path) % 65536 := by
    intro path
    induction path with
    | nil => intro c; have := c.isLt; simp [pathCode]; omega
    | cons b bs ih =>
      intro c
      have hstep : pathCode c (b :: bs) = pathCode (if b then c <<< 1 ||| 1 else c <<< 1) bs := rfl
      have hnum : (if b then c <<< 1 ||| 1 else c <<< 1 : BitVec 16).toNat = (c.toNat * 2 + b.toNat) % 65536 := by
        cases b
        · simp [BitVec.toNat_shiftLeft, Nat.shiftLeft_eq]
        · have h1 : (c.toNat <<< 1 % 65536) ||| 1 = c.toNat <<< 1 % 65536 + 1 := by
            have h2 := Nat.two_pow_add_eq_or_of_lt (i := 1) (b := 1) (by decide) (c.toNat % 32768)
            have h3 : c.toNat <<< 1 % 65536 = 2 ^ 1 * (c.toNat % 32768) := by rw [Nat.shiftLeft_eq]; omega
            rw [h3, h2]
          have h4 : c.toNat <<< 1 % 65536 = c.toNat * 2 % 65536 := by rw [Nat.shiftLeft_eq]
          simp [BitVec.toNat_shiftLeft]
          rw [h1, h4]; omega
      rw [hstep, ih, hnum, bitsToNat_cons, List.length_cons, Nat.pow_succ, Nat.add_mod, Nat.mod_mul_mod, ← Nat.add_mod]
      congr 1; ring
  simpa using key path 0

/-! ## Bytes of a stream -/

/-- Bit 7 − j of the byte is bit j of the stream, 0 above the cursor (`spec/43_encoder.md` R210). -/
theorem byteOfBits_bit (bits : List Bool) (j : Nat) (hj : j < 8) :
    (byteOfBits bits).getLsbD (7 - j) = (bits[j]?).getD false := by
  have hl : ((bits ++ List.replicate 8 false).take 8).length = 8 := by simp
  have h := testBit_bitsToNat _ j (Nat.lt_of_lt_of_eq hj hl.symm)
  have he : ((bits ++ List.replicate 8 false).take 8).length - 1 - j = 7 - j := by rw [hl]
  rw [he] at h
  rw [byteOfBits, BitVec.getLsbD_ofNat, h]
  simp only [List.getElem_take]
  by_cases hb : j < bits.length
  · simp [List.getElem_append_left hb, hb]; omega
  · rw [List.getElem_append_right (Nat.le_of_not_lt hb), List.getElem_replicate]; simp [hb]

@[simp] theorem packBytes_length (k : Nat) (bits : List Bool) : (packBytes k bits).length = k := by
  induction k generalizing bits with
  | zero => rfl
  | succ j ih => simp [packBytes, ih]

theorem packBytes_get (k : Nat) (bits : List Bool) (i : Nat) (hi : i < k) :
    (packBytes k bits)[i]? = some (byteOfBits (bits.drop (8 * i))) := by
  induction k generalizing bits i with
  | zero => omega
  | succ j ih =>
    cases i with
    | zero => simp [packBytes]
    | succ m =>
      simp only [packBytes, List.getElem?_cons_succ]
      rw [ih _ m (by omega), List.drop_drop]
      congr 3; ring

/-- `Byte(B, CUR, i)` bit by bit (`spec/43_encoder.md` R210). -/
theorem packBytes_bit (k : Nat) (bits : List Bool) (i j : Nat) (hi : i < k) (hj : j < 8) :
    ((packBytes k bits)[i]?).map (fun b => b.getLsbD (7 - j)) = some ((bits[8 * i + j]?).getD false) := by
  rw [packBytes_get k bits i hi, Option.map_some, byteOfBits_bit _ j hj, List.getElem?_drop]

@[simp] theorem headerBytes_length (tb tl xl : Nat) : (headerBytes tb tl xl).length = 4 := rfl

@[simp] theorem fileBytes_length (tree text : List Bool) :
    (fileBytes tree text).length = 4 + ceil8 tree.length + ceil8 text.length := by
  simp [fileBytes]; omega

/-! ## Bits of the file -/

@[simp] theorem fileBits_length (s : State) (p n : Nat) : (s.fileBits p n).length = n := by
  induction n generalizing p with
  | zero => rfl
  | succ k ih => simp [State.fileBits, ih]

theorem fileBits_append (s : State) (p m n : Nat) : s.fileBits p (m + n) = s.fileBits p m ++ s.fileBits (p + m) n := by
  induction m generalizing p with
  | zero => simp [State.fileBits]
  | succ k ih =>
    rw [show k + 1 + n = (k + n) + 1 by omega, State.fileBits, ih, State.fileBits, List.cons_append]
    congr 3; omega

theorem fileBits_get (s : State) (p n i : Nat) (hi : i < n) : (s.fileBits p n)[i]? = some (s.fileBit (p + i)) := by
  induction n generalizing p i with
  | zero => omega
  | succ k ih =>
    cases i with
    | zero => simp [State.fileBits]
    | succ j => simp only [State.fileBits, List.getElem?_cons_succ]; rw [ih _ j (by omega)]; congr 2; omega

/-- The bits of FIL depend on the cells only. -/
theorem fileBits_congr (s t : State) (h : ∀ i, s.readFil i = t.readFil i) (p n : Nat) :
    s.fileBits p n = t.fileBits p n := by
  induction n generalizing p with
  | zero => rfl
  | succ k ih => simp only [State.fileBits, State.fileBit, h, ih]

/-- Where the bytes of a stream stand in FIL from cell a on, the bits of FIL from offset 8a on are the stream's. -/
theorem fileBits_packed (s : State) (a k : Nat) (bits : List Bool)
    (h : ∀ i, i < k → s.readFil (a + i) = byteOfBits (bits.drop (8 * i))) (hk : bits.length ≤ 8 * k) :
    s.fileBits (8 * a) bits.length = bits := by
  apply List.ext_getElem? 
  intro i
  by_cases hi : i < bits.length
  · rw [fileBits_get s _ _ i hi, State.fileBit]
    have h1 : (8 * a + i) / 8 = a + i / 8 := by omega
    have h2 : (8 * a + i) % 8 = i % 8 := by omega
    rw [h1, h2, h (i / 8) (by omega), byteOfBits_bit _ _ (by omega), List.getElem?_drop,
      show 8 * (i / 8) + i % 8 = i by omega]
    simp [hi]
  · simp [hi]

end Sys2Proof.Machine
end

