-- ==== Sys2Proof/Laws/CodeTable.lean ====
section
/-!
SUPPORT. The code table that the walk of CT.GEN leaves (`spec/42_code_table.md` R191, R192, R194).
-/

namespace Sys2Proof.Machine

theorem entryOf_assign (t : Codes) (c d : CharUnit) (code : BitVec 16) (len : Nat) :
    entryOf (assignCode t c code len).ctab d =
      if d = c then { code := code, len := BitVec.ofNat 5 len } else entryOf t.ctab d := by
  simp only [entryOf, assignCode, tableGet_set, BitVec.toNat_inj]

theorem lastPath_cons (c d : CharUnit) (p : List Bool) (ps : List (CharUnit × List Bool)) :
    lastPath ((c, p) :: ps) d = (lastPath ps d).or (if c = d then some p else none) := by
  simp only [lastPath, List.reverse_cons, List.find?_append, Option.map_or]
  congr 1
  by_cases h : c = d <;> simp [h]

/-- The walk fills the table when no path is too long. -/
theorem assignPaths_ok (code : BitVec 16) (len : Nat) (ps : List (CharUnit × List Bool)) (t : Codes)
    (h : ∀ p ∈ ps, len + p.2.length ≤ 16) :
    ∃ t', assignPaths code len ps t = .ok t' ∧ ∀ d, entryOf t'.ctab d =
      ((lastPath ps d).map (fun p => { code := pathCode code p, len := BitVec.ofNat 5 (len + p.length) })).getD
        (entryOf t.ctab d) := by
  induction ps generalizing t with
  | nil => exact ⟨t, rfl, fun d => by simp [lastPath]⟩
  | cons q qs ih =>
    obtain ⟨c, p⟩ := q
    obtain ⟨t', ht, he⟩ := ih (assignCode t c (pathCode code p) (len + p.length)) (fun p hp => h p (by simp [hp]))
    have hp := h (c, p) (by simp)
    refine ⟨t', by simp only [assignPaths]; rw [if_neg (by simpa using hp), ht], fun d => ?_⟩
    rw [he, lastPath_cons, entryOf_assign]
    cases lastPath qs d with
    | some r => simp
    | none => by_cases hd : d = c
              · simp [hd]
              · simp [hd, Ne.symm hd]

/-- The walk stops at the first path that is too long (`spec/42_code_table.md` R194). -/
theorem assignPaths_overflow (code : BitVec 16) (len : Nat) (ps : List (CharUnit × List Bool)) (t : Codes)
    {c : CharUnit} {p : List Bool} (h : ps.find? (fun q => decide (16 < len + q.2.length)) = some (c, p)) :
    assignPaths code len ps t = .error (.overflow c) := by
  induction ps generalizing t with
  | nil => simp at h
  | cons q qs ih =>
    obtain ⟨d, r⟩ := q
    simp only [List.find?_cons] at h
    simp only [assignPaths]
    by_cases hr : 16 < len + r.length
    · simp only [hr, decide_true] at h; simp at h; rw [if_pos hr, h.1]
    · simp only [hr, decide_false] at h; rw [if_neg hr]; exact ih _ h

/-- The bits of an entry that holds a path are the path. -/
theorem entryBits_path (p : List Bool) (h : p.length ≤ 16) :
    entryBits { code := pathCode 0 p, len := BitVec.ofNat 5 p.length } = p := by
  have hc : pathCode 0 p = BitVec.ofNat 16 (bitsToNat p) := by
    apply BitVec.eq_of_toNat_eq; rw [pathCode_toNat, BitVec.toNat_ofNat]
  have hl : (BitVec.ofNat 5 p.length).toNat = p.length := by rw [BitVec.toNat_ofNat]; omega
  rw [entryBits, hl, hc, bitsOf_ofNat_bitsToNat p h]

/-! ## The table stays canonical -/

/-- What TableInv says of the two fields that the walk hands on. -/
structure Codes.Inv (t : Codes) : Prop where
  ctab : Table.wf CodeEntry.absent Config.nchar t.ctab
  codes : ∀ c ∈ t.ctab, 1 ≤ c.2.len.toNat ∧ c.2.len.toNat ≤ 16 ∧ c.2.code.toNat < 2 ^ c.2.len.toNat
  count : t.ncodes.toNat = t.ctab.length

theorem Codes.inv_empty : Codes.Inv { ctab := [], ncodes := 0 } := ⟨table_wf_nil _ _, by simp, rfl⟩

theorem cellsPut_length {α : Type} {m : Cells α} (a : Nat) (v : α) (h : m.Pairwise (fun x y => x.1 < y.1)) :
    (cellsPut m a v).length = (cellsGet? m a).elim (m.length + 1) (fun _ => m.length) := by
  induction m with
  | nil => simp [cellsPut]
  | cons c rest ih =>
    obtain ⟨k, u⟩ := c
    obtain ⟨hk, hr⟩ := List.pairwise_cons.1 h
    simp only [cellsPut, cellsGet?]
    by_cases h1 : a < k
    · have : cellsGet? rest a = none := by
        cases hg : cellsGet? rest a with
        | none => rfl
        | some w => have := hk _ (cellsGet?_mem hg); simp at this; omega
      rw [if_pos h1, if_neg (by omega), this]; simp
    · rw [if_neg h1]
      by_cases h2 : a = k
      · subst h2; simp
      · rw [if_neg h2, if_neg (Ne.symm h2), List.length_cons, ih hr]
        cases cellsGet? rest a <;> simp

/-- A leaf's assignment keeps the table canonical. -/
theorem assignCode_inv {t : Codes} (h : t.Inv) (c : CharUnit) (code : BitVec 16) (len : Nat) (h1 : 1 ≤ len)
    (h2 : len ≤ 16) (h3 : code.toNat < 2 ^ len) : (assignCode t c code len).Inv := by
  have hlen : (BitVec.ofNat 5 len).toNat = len := by rw [BitVec.toNat_ofNat]; omega
  have hne : ({ code := code, len := BitVec.ofNat 5 len } : CodeEntry) ≠ CodeEntry.absent := by
    intro he
    have h0 : BitVec.ofNat 5 len = 0 := congrArg CodeEntry.len he
    rw [h0] at hlen; simp at hlen; omega
  refine ⟨tableSet_wf _ h.ctab c.isLt, ?_, ?_⟩
  · intro x hx
    simp only [assignCode, tableSet, if_neg hne] at hx
    rcases cellsPut_mem hx with rfl | hx
    · simp only [hlen]; exact ⟨h1, h2, h3⟩
    · exact h.codes x hx
  · have hw := memory_wf_length h.ctab.1
    have hput := cellsPut_length c.toNat ({ code := code, len := BitVec.ofNat 5 len } : CodeEntry) h.ctab.1.1
    have hiff : (entryOf t.ctab c).len = 0 ↔ cellsGet? t.ctab c.toNat = none := by
      unfold entryOf tableGet
      cases hg : cellsGet? t.ctab c.toNat with
      | none => simp [CodeEntry.absent]
      | some e =>
        have := (h.codes _ (cellsGet?_mem hg)).1
        simp only [Option.getD_some, reduceCtorEq, iff_false]
        intro h0; simp [h0] at this
    simp only [assignCode, tableSet, if_neg hne]
    rw [hput]
    cases hg : cellsGet? t.ctab c.toNat with
    | none =>
      rw [if_pos (hiff.2 hg), BitVec.toNat_add, h.count]
      simp only [Config.nchar] at hw
      simp; omega
    | some e => rw [if_neg (fun h0 => by simp [hiff.1 h0] at hg)]; simpa using h.count

/-- The walk keeps the table canonical, from a running length of 1 on or along paths that are not empty. -/
theorem assignPaths_inv (ps : List (CharUnit × List Bool)) {t t' : Codes} (h : t.Inv) (hp : ∀ p ∈ ps, p.2 ≠ [])
    (ht : assignPaths 0 0 ps t = .ok t') : t'.Inv := by
  induction ps generalizing t with
  | nil => simp only [assignPaths, Except.ok.injEq] at ht; exact ht ▸ h
  | cons q qs ih =>
    obtain ⟨c, p⟩ := q
    simp only [assignPaths] at ht
    split at ht
    · simp at ht
    · refine ih ?_ (fun p hp' => hp p (by simp [hp'])) ht
      have hne : p ≠ [] := hp (c, p) (by simp)
      have h16 : p.length ≤ 16 := by
        have h0 : ¬ 16 < 0 + p.length := by assumption
        omega
      refine assignCode_inv h c _ _ (by have := List.length_pos_iff.2 hne; omega) (by omega) ?_
      rw [pathCode_toNat]
      have := bitsToNat_lt p
      simp only [Nat.zero_add]
      exact Nat.lt_of_le_of_lt (Nat.mod_le _ _) this

end Sys2Proof.Machine
end

