-- ==== Sys2Proof/Laws/PriorityList.lean ====
section
/-!
SUPPORT. What the procedures Insert, RemoveMin, HasOne and HasTwo do to the sequence of nodes that the list holds
(`spec/40_priority_list.md` R141, R143, R146).
-/

namespace Sys2Proof.Machine

/-! ## The link writes -/

@[simp] theorem setNext_length (nodes : List Node) (n : Nat) (r : Option Nat) :
    (setNext nodes n r).length = nodes.length := by simp [setNext]

@[simp] theorem setInl_length (nodes : List Node) (n : Nat) (b : Bool) :
    (setInl nodes n b).length = nodes.length := by simp [setInl]

@[simp] theorem setChild_length (nodes : List Node) (n : Nat) : (setChild nodes n).length = nodes.length := by
  simp [setChild]

theorem setNext_get (nodes : List Node) (n m : Nat) (r : Option Nat) :
    (setNext nodes n r)[m]? = (nodes[m]?).map (fun x => if n = m then { x with next := r } else x) := by
  simp only [setNext, List.getElem?_modify]; split <;> simp

theorem setInl_get (nodes : List Node) (n m : Nat) (b : Bool) :
    (setInl nodes n b)[m]? = (nodes[m]?).map (fun x => if n = m then { x with inl := b } else x) := by
  simp only [setInl, List.getElem?_modify]; split <;> simp

theorem setChild_get (nodes : List Node) (n m : Nat) :
    (setChild nodes n)[m]? = (nodes[m]?).map (fun x => if n = m then { x with child := true } else x) := by
  simp only [setChild, List.getElem?_modify]; split <;> simp

/-! ## Chains -/

@[simp] theorem chain_nil (nodes : List Node) (r : Option Nat) : Chain nodes r [] ↔ r = none := Iff.rfl

@[simp] theorem chain_cons (nodes : List Node) (r : Option Nat) (n : Nat) (xs : List Nat) :
    Chain nodes r (n :: xs) ↔ r = some n ∧ ∃ x, nodes[n]? = some x ∧ Chain nodes x.next xs := Iff.rfl

/-- A list is one sequence only. -/
theorem Chain.unique {nodes : List Node} {r : Option Nat} {xs ys : List Nat} (h : Chain nodes r xs)
    (h' : Chain nodes r ys) : xs = ys := by
  induction xs generalizing r ys with
  | nil => subst h; cases ys with
    | nil => rfl
    | cons y ys => simp at h'
  | cons n ns ih =>
    obtain ⟨rfl, x, hx, hc⟩ := h
    cases ys with
    | nil => simp at h'
    | cons y ys =>
      obtain ⟨hy, x', hx', hc'⟩ := h'
      cases hy
      rw [hx] at hx'; cases hx'
      rw [ih hc hc']

/-- Every node of a list is allocated. -/
theorem Chain.lt {nodes : List Node} {r : Option Nat} {xs : List Nat} (h : Chain nodes r xs) {n : Nat} (hn : n ∈ xs) :
    n < nodes.length := by
  induction xs generalizing r with
  | nil => simp at hn
  | cons m ms ih =>
    obtain ⟨-, x, hx, hc⟩ := h
    rcases List.mem_cons.1 hn with rfl | hn
    · exact (List.getElem?_eq_some_iff.1 hx).1
    · exact ih hc hn

/-- A list depends on the NEXT of its own nodes only. -/
theorem Chain.congr {nodes nodes' : List Node} {r : Option Nat} {xs : List Nat} (h : Chain nodes r xs)
    (hn : ∀ n ∈ xs, ∀ x, nodes[n]? = some x → ∃ y, nodes'[n]? = some y ∧ y.next = x.next) : Chain nodes' r xs := by
  induction xs generalizing r with
  | nil => exact h
  | cons m ms ih =>
    obtain ⟨rfl, x, hx, hc⟩ := h
    obtain ⟨y, hy, hyx⟩ := hn m (by simp) x hx
    exact ⟨rfl, y, hy, hyx ▸ ih hc (fun n hn' => hn n (List.mem_cons_of_mem _ hn'))⟩

/-- A list of distinct allocated nodes is no longer than the arena. -/
theorem Chain.length_le {nodes : List Node} {r : Option Nat} {xs : List Nat} (h : Chain nodes r xs) (hd : xs.Nodup) :
    xs.length ≤ nodes.length := by
  have hs : xs ⊆ List.range nodes.length := fun n hn => List.mem_range.2 (h.lt hn)
  simpa using (hd.subperm hs).length_le

theorem wtAt_of {nodes : List Node} {n : Nat} {x : Node} (h : nodes[n]? = some x) : wtAt nodes n = x.wt := by
  simp [wtAt, h]

/-! ## Insert -/

/-- The place of a new node after the head, when the head stays in front of it. -/
theorem insertAfter_chain {nodes : List Node} {n : Nat} {x : Node} (hx : nodes[n]? = some x) :
    ∀ (fuel p : Nat) (r : Option Nat) (xs : List Nat), Chain nodes r (p :: xs) → (p :: xs).Nodup → n ∉ p :: xs →
      xs.length < fuel →
      ∃ nodes', insertAfter nodes n x.wt fuel p = some nodes' ∧ nodes'.length = nodes.length ∧
        Chain nodes' (some p) (p :: stableInsert (wtAt nodes) n xs) ∧
        (∀ (m : Nat) (y : Node), nodes[m]? = some y → ∃ z, nodes'[m]? = some z ∧ z = { y with next := z.next }) ∧
        (∀ (m : Nat) (y : Node), nodes[m]? = some y → m ∉ p :: n :: xs → nodes'[m]? = some y) := by
  intro fuel
  induction fuel with
  | zero => intro p r xs _ _ _ h; simp at h
  | succ k ih =>
    intro p r xs hc hd hn hk
    obtain ⟨-, y, hy, hc⟩ := hc
    have hnp : n ≠ p := fun h => hn (by simp [h])
    have hw : wtAt nodes n = x.wt := wtAt_of hx
    simp only [insertAfter, hy]
    -- the answer that links n between p and r'
    have link : ∀ (r' : Option Nat) (ys : List Nat), Chain nodes r' ys → n ∉ ys → p ∉ ys →
        Chain (setNext (setNext nodes n r') p (some n)) (some p) (p :: n :: ys) := by
      intro r' ys hr hny hpy
      refine ⟨rfl, { y with next := some n }, by simp [setNext_get, hy, hnp], rfl, { x with next := r' },
        by simp [setNext_get, hx, Ne.symm hnp], hr.congr ?_⟩
      intro m hm z hz
      have h1 : n ≠ m := fun h => hny (h ▸ hm)
      have h2 : p ≠ m := fun h => hpy (h ▸ hm)
      exact ⟨z, by simp [setNext_get, hz, h1, h2], rfl⟩
    have fields : ∀ (r' : Option Nat) (m : Nat) (z : Node), nodes[m]? = some z →
        ∃ z', (setNext (setNext nodes n r') p (some n))[m]? = some z' ∧ z' = { z with next := z'.next } := by
      intro r' m z hz
      simp only [setNext_get, hz, Option.map_some]
      refine ⟨_, rfl, ?_⟩
      split <;> split <;> rfl
    have others : ∀ (r' : Option Nat) (m : Nat) (z : Node), nodes[m]? = some z → m ∉ p :: n :: xs →
        (setNext (setNext nodes n r') p (some n))[m]? = some z := by
      intro r' m z hz hm
      simp only [List.mem_cons, not_or] at hm
      simp [setNext_get, hz, Ne.symm hm.1, Ne.symm hm.2.1]
    cases xs with
    | nil =>
      rw [chain_nil] at hc
      rw [hc]
      exact ⟨_, rfl, by simp, by simpa [stableInsert] using link none [] rfl (by simp) (by simp), fields none, others none⟩
    | cons q qs =>
      obtain ⟨hq, z, hz, hcq⟩ := hc
      simp only [hq, hz]
      by_cases hle : z.wt ≤ x.wt
      · rw [if_pos hle]
        have hd' := List.nodup_cons.1 hd
        obtain ⟨nodes', he, hl, hch, hf, ho⟩ := ih q (some q) qs ⟨rfl, z, hz, hcq⟩ hd'.2
          (fun h => hn (List.mem_cons_of_mem _ h)) (by simp at hk; omega)
        refine ⟨nodes', he, hl, ?_, hf, ?_⟩
        · have hs : stableInsert (wtAt nodes) n (q :: qs) = q :: stableInsert (wtAt nodes) n qs := by
            simp [stableInsert, wtAt_of hz, hw, hle]
          rw [hs]
          have hpm : p ∉ q :: n :: qs := by
            have := hd'.1; simp only [List.mem_cons, not_or] at this ⊢; exact ⟨this.1, Ne.symm hnp, this.2⟩
          exact ⟨rfl, y, ho p y hy hpm, hq ▸ hch⟩
        · intro m y' hy' hm
          exact ho m y' hy' (fun h => hm (by
            simp only [List.mem_cons] at h ⊢; tauto))
      · rw [if_neg hle]
        have hs : stableInsert (wtAt nodes) n (q :: qs) = n :: q :: qs := by
          simp [stableInsert, wtAt_of hz, hw, hle]
        rw [hs]
        refine ⟨_, rfl, by simp, link (some q) (q :: qs) ⟨rfl, z, hz, hcq⟩ ?_ (List.nodup_cons.1 hd).1, fields _, others _⟩
        exact fun h => hn (List.mem_cons_of_mem _ h)

/-- What `Insert(n)` does: the list is the old one with n after every node of weight at most its own; only NEXT of list
nodes and of n, and INL of n, change. -/
theorem insertNode_spec {nodes : List Node} {head : Option Nat} {xs : List Nat} {n : Nat} {x : Node}
    (hc : Chain nodes head xs) (hd : xs.Nodup) (hx : nodes[n]? = some x) (hn : n ∉ xs) :
    ∃ a', insertNode { nodes := nodes, head := head } n = some a' ∧ a'.nodes.length = nodes.length ∧
      Chain a'.nodes a'.head (stableInsert (wtAt nodes) n xs) ∧
      (∀ (m : Nat) (y : Node), nodes[m]? = some y →
        ∃ z, a'.nodes[m]? = some z ∧ z = { y with next := z.next, inl := if m = n then true else y.inl }) ∧
      (∀ (m : Nat) (y : Node), nodes[m]? = some y → m ∉ n :: xs → a'.nodes[m]? = some y) := by
  have hw : wtAt nodes n = x.wt := wtAt_of hx
  simp only [insertNode, hx]
  have fields : ∀ (r : Option Nat) (m : Nat) (y : Node), nodes[m]? = some y → ∃ z,
      (setInl (setNext nodes n r) n true)[m]? = some z ∧
        z = { y with next := z.next, inl := if m = n then true else y.inl } := by
    intro r m y hy
    simp only [setInl_get, setNext_get, hy, Option.map_some]
    refine ⟨_, rfl, ?_⟩
    by_cases h : n = m
    · simp [h]
    · simp [h, Ne.symm h]
  have others : ∀ (r : Option Nat) (m : Nat) (y : Node), nodes[m]? = some y → m ∉ n :: xs →
      (setInl (setNext nodes n r) n true)[m]? = some y := by
    intro r m y hy hm
    simp only [List.mem_cons, not_or] at hm
    simp [setInl_get, setNext_get, hy, Ne.symm hm.1]
  have front : ∀ r, Chain nodes r xs → Chain (setInl (setNext nodes n r) n true) (some n) (n :: xs) := by
    intro r hr
    refine ⟨rfl, { x with next := r, inl := true }, by simp [setInl_get, setNext_get, hx], hr.congr ?_⟩
    intro m hm y hy
    have h1 : n ≠ m := fun h => hn (h ▸ hm)
    exact ⟨y, by simp [setInl_get, setNext_get, hy, h1], rfl⟩
  cases xs with
  | nil =>
    rw [chain_nil] at hc
    subst hc
    exact ⟨_, rfl, by simp, by simpa [stableInsert] using front none rfl, fields none, others none⟩
  | cons h hs =>
    obtain ⟨rfl, y, hy, hch⟩ := hc
    simp only [hy]
    by_cases hlt : x.wt < y.wt
    · rw [if_pos hlt]
      refine ⟨_, rfl, by simp, ?_, fields _, others _⟩
      have : ¬ y.wt ≤ x.wt := BitVec.not_le.2 hlt
      simpa [stableInsert, wtAt_of hy, hw, this] using front (some h) ⟨rfl, y, hy, hch⟩
    · rw [if_neg hlt]
      have hle : y.wt ≤ x.wt := BitVec.not_lt.1 hlt
      have hlen : hs.length < nodes.length := by
        have := Chain.length_le (nodes := nodes) (r := some h) (xs := h :: hs) ⟨rfl, y, hy, hch⟩ hd
        simp at this; omega
      obtain ⟨nodes', he, hl, hcn, hf, ho⟩ :=
        insertAfter_chain hx nodes.length h (some h) hs ⟨rfl, y, hy, hch⟩ hd hn hlen
      refine ⟨_, by rw [he]; rfl, by simpa using hl, ?_, ?_, ?_⟩
      · have hst : stableInsert (wtAt nodes) n (h :: hs) = h :: stableInsert (wtAt nodes) n hs := by
          simp [stableInsert, wtAt_of hy, hw, hle]
        rw [hst]
        refine hcn.congr ?_
        intro m hm z hz
        exact ⟨_, by rw [setInl_get, hz]; rfl, by split <;> rfl⟩
      · intro m z hz
        obtain ⟨z', hz', he'⟩ := hf m z hz
        refine ⟨if n = m then { z' with inl := true } else z', by rw [setInl_get, hz']; rfl, ?_⟩
        by_cases hm : n = m
        · rw [he']; simp [hm]
        · simp only [if_neg hm, if_neg (Ne.symm hm)]; exact he'
      · intro m z hz hm
        have hm' : m ∉ h :: n :: hs := fun h' => hm (by simp only [List.mem_cons] at h' ⊢; tauto)
        have hne : n ≠ m := fun h' => hm (by simp [h'])
        simp [setInl_get, ho m z hz hm', hne]

/-! ## RemoveMin, HasOne, HasTwo -/

@[simp] theorem removeMin_nil (nodes : List Node) : removeMin { nodes := nodes, head := none } = some none := rfl

/-- What `RemoveMin()` does on a list that is not empty: the head leaves it, with NEXT = NULL and INL = 0, and nothing
else changes. -/
theorem removeMin_cons {nodes : List Node} {head : Option Nat} {n : Nat} {xs : List Nat}
    (hc : Chain nodes head (n :: xs)) (hd : (n :: xs).Nodup) :
    ∃ x nodes', nodes[n]? = some x ∧
      removeMin { nodes := nodes, head := head } =
        some (some { index := n, wt := x.wt, arena := { nodes := nodes', head := x.next } }) ∧
      nodes' = setInl (setNext nodes n none) n false ∧ nodes'.length = nodes.length ∧
      Chain nodes' x.next xs ∧ nodes'[n]? = some { x with next := none, inl := false } ∧
      (∀ m, m ≠ n → nodes'[m]? = nodes[m]?) := by
  obtain ⟨rfl, x, hx, hch⟩ := hc
  have hn := (List.nodup_cons.1 hd).1
  refine ⟨x, _, hx, by simp [removeMin, hx], rfl, by simp, hch.congr ?_, ?_, ?_⟩
  · intro m hm y hy
    have h1 : n ≠ m := fun h => hn (h ▸ hm)
    exact ⟨y, by simp [setInl_get, setNext_get, hy, h1], rfl⟩
  · simp [setInl_get, setNext_get, hx]
  · intro m hm
    simp [setInl_get, setNext_get, Ne.symm hm]

/-- `HasOne()` on a list. -/
theorem hasOne_chain {nodes : List Node} {head : Option Nat} {xs : List Nat} (hc : Chain nodes head xs) :
    hasOne { nodes := nodes, head := head } = some (decide (xs.length = 1)) := by
  cases xs with
  | nil => rw [chain_nil] at hc; subst hc; rfl
  | cons n ns =>
    obtain ⟨rfl, x, hx, hch⟩ := hc
    cases ns with
    | nil => rw [chain_nil] at hch; simp [hasOne, hx, hch]
    | cons m ms => obtain ⟨hm, -⟩ := hch; simp [hasOne, hx, hm]

/-- `HasTwo()` on a list. -/
theorem hasTwo_chain {nodes : List Node} {head : Option Nat} {xs : List Nat} (hc : Chain nodes head xs) :
    hasTwo { nodes := nodes, head := head } = some (decide (2 ≤ xs.length)) := by
  cases xs with
  | nil => rw [chain_nil] at hc; subst hc; rfl
  | cons n ns =>
    obtain ⟨rfl, x, hx, hch⟩ := hc
    cases ns with
    | nil => rw [chain_nil] at hch; simp [hasTwo, hx, hch]
    | cons m ms => obtain ⟨hm, -⟩ := hch; simp [hasTwo, hx, hm]

/-! ## The place of a new element -/

theorem stableInsert_perm (wt : Nat → Word) (n : Nat) (xs : List Nat) : (stableInsert wt n xs).Perm (n :: xs) := by
  unfold stableInsert
  refine List.perm_middle.trans ?_
  rw [List.takeWhile_append_dropWhile]

@[simp] theorem stableInsert_length (wt : Nat → Word) (n : Nat) (xs : List Nat) :
    (stableInsert wt n xs).length = xs.length + 1 := by
  simpa using (stableInsert_perm wt n xs).length_eq

/-- Insertion keeps the weights of the list in order (`spec/40_priority_list.md` R147). -/
theorem stableInsert_sorted (wt : Nat → Word) (n : Nat) {xs : List Nat} (h : xs.Pairwise (fun a b => wt a ≤ wt b)) :
    (stableInsert wt n xs).Pairwise (fun a b => wt a ≤ wt b) := by
  induction xs with
  | nil => simp [stableInsert]
  | cons x xs ih =>
    obtain ⟨hx, hxs⟩ := List.pairwise_cons.1 h
    by_cases hle : wt x ≤ wt n
    · have : stableInsert wt n (x :: xs) = x :: stableInsert wt n xs := by simp [stableInsert, hle]
      rw [this]
      refine List.pairwise_cons.2 ⟨?_, ih hxs⟩
      intro m hm
      rcases List.mem_cons.1 ((stableInsert_perm wt n xs).mem_iff.1 hm) with rfl | hm
      · exact hle
      · exact hx m hm
    · have : stableInsert wt n (x :: xs) = n :: x :: xs := by simp [stableInsert, hle]
      rw [this]
      have hlt : wt n ≤ wt x := BitVec.le_of_lt (BitVec.not_le.1 hle)
      refine List.pairwise_cons.2 ⟨?_, h⟩
      intro m hm
      rcases List.mem_cons.1 hm with rfl | hm
      · exact hlt
      · exact BitVec.le_trans hlt (hx m hm)

end Sys2Proof.Machine
end

