-- ==== Sys2Proof/Laws/Decoder.lean ====
section
/-!
SUPPORT. What `Parse` makes of a serialised tree, what the two loops of DE.TEXT make of a bit string, and that the nodes
they leave hold the tree (`spec/44_decoder.md` R250, R254).
-/

namespace Sys2Proof.Machine

/-! ## The nodes of a decoded tree -/

theorem HTree.size_eq (t : HTree) : t.size + 1 = 2 * t.leafCount := by
  induction t with
  | leaf c => rfl
  | node l r ihl ihr => simp [HTree.size, HTree.leafCount]; omega

@[simp] theorem HTree.preorder_length (t : HTree) (base : Nat) (child : Bool) :
    (t.preorder base child).length = t.size := by
  induction t generalizing base child with
  | leaf c => rfl
  | node l r ihl ihr => simp [HTree.preorder, HTree.size, ihl, ihr]; omega

/-- A write to the first node after a prefix. -/
theorem modify_append_length (A : List Node) (x : Node) (B : List Node) (f : Node → Node) :
    (A ++ x :: B).modify A.length f = A ++ f x :: B := by
  induction A with
  | nil => rfl
  | cons a A ih => simpa using ih

/-- `CHILD[n] <- 1` on the first node of a decoded subtree. -/
theorem setChild_preorder (A : List Node) (t : HTree) (B : List Node) (base : Nat) (child : Bool) :
    setChild (A ++ (t.preorder base child ++ B)) A.length = A ++ (t.preorder base true ++ B) := by
  unfold setChild
  cases t <;> simp [HTree.preorder, modify_append_length]

/-- The nodes of a decoded tree hold it. -/
theorem preorder_holds (t : HTree) (A B : List Node) (child : Bool) :
    HoldsTree (A ++ (t.preorder A.length child ++ B)) A.length t := by
  induction t generalizing A B child with
  | leaf c => exact ⟨_, by simp [HTree.preorder]; rfl, rfl, rfl⟩
  | node l r ihl ihr =>
    refine ⟨_, A.length + 1, A.length + 1 + l.size, by simp [HTree.preorder]; rfl, rfl, rfl, rfl, ?_, ?_⟩
    · have h := ihl (A ++ [{ leaf := false, ch := 0, wt := 0, left := some (A.length + 1)
                             right := some (A.length + 1 + l.size), next := none, inl := false, child := child }])
        (r.preorder (A.length + 1 + l.size) true ++ B) true
      simpa [HTree.preorder, List.append_assoc] using h
    · have h := ihr (A ++ [{ leaf := false, ch := 0, wt := 0, left := some (A.length + 1)
                             right := some (A.length + 1 + l.size), next := none, inl := false, child := child }]
          ++ l.preorder (A.length + 1) true) B true
      have hl : (A ++ [({ leaf := false, ch := 0, wt := 0, left := some (A.length + 1)
                          right := some (A.length + 1 + l.size), next := none, inl := false, child := child } : Node)]
          ++ l.preorder (A.length + 1) true).length = A.length + 1 + l.size := by simp; omega
      rw [hl] at h
      simpa [HTree.preorder, List.append_assoc] using h

/-! ## Parse -/

/-- The bits of one character are read as the character. -/
theorem ofNat_bitsOf (c : CharUnit) : BitVec.ofNat 16 (bitsToNat (bitsOf c 16)) = c := by
  apply BitVec.eq_of_toNat_eq
  have := c.isLt
  rw [bitsToNat_bitsOf, BitVec.toNat_ofNat]; omega

/-- What `Parse` does where the file holds a serialised tree: it consumes exactly its bits and appends its nodes in
preorder (`spec/44_decoder.md` R250, R251). -/
theorem parse_ser (s : State) (tend : Nat) (u : HTree) :
    ∀ (fuel : Nat) (nodes : List Node) (rcur : Nat), s.fileBits rcur u.ser.length = u.ser →
      rcur + u.ser.length ≤ tend → u.ser.length ≤ fuel → nodes.length + u.size ≤ Config.nodeMax →
      parse s tend fuel nodes rcur =
        .ok { index := nodes.length, nodes := nodes ++ u.preorder nodes.length false, rcur := rcur + u.ser.length } := by
  induction u with
  | leaf c =>
    intro fuel nodes rcur hb ht hf hn
    have hlen : (HTree.leaf c).ser.length = 17 := by simp [HTree.ser]
    rw [hlen] at ht hf
    obtain ⟨k, rfl⟩ : ∃ k, fuel = k + 1 := ⟨fuel - 1, by omega⟩
    rw [hlen, show 17 = 16 + 1 by rfl, State.fileBits, HTree.ser, List.cons.injEq] at hb
    have h1 : ¬ tend ≤ rcur := by omega
    have h2 : arenaFull nodes = false := by simp [arenaFull, HTree.size] at *; omega
    have h3 : ¬ tend < rcur + 1 + 16 := by omega
    simp [parse, h1, h2, hb.1, h3, hb.2, ofNat_bitsOf, hlen, HTree.preorder, newLeaf]
  | node l r ihl ihr =>
    intro fuel nodes rcur hb ht hf hn
    have hlen : (HTree.node l r).ser.length = 1 + (l.ser.length + r.ser.length) := by simp [HTree.ser]; omega
    rw [hlen] at ht hf
    obtain ⟨k, rfl⟩ : ∃ k, fuel = k + 1 := ⟨fuel - 1, by omega⟩
    rw [hlen, Nat.add_comm 1, State.fileBits, HTree.ser, List.cons.injEq, fileBits_append] at hb
    obtain ⟨hb0, hb1⟩ := hb
    obtain ⟨hbl, hbr⟩ := List.append_inj hb1 (by simp)
    have h1 : ¬ tend ≤ rcur := by omega
    simp only [HTree.size] at hn
    have h2 : arenaFull nodes = false := by simp [arenaFull]; omega
    have hl := ihl k (nodes ++ [newInternal none none 0]) (rcur + 1) hbl (by omega) (by omega) (by simp; omega)
    simp only [List.length_append, List.length_singleton] at hl
    have hset : setLeft (nodes ++ [newInternal none none 0] ++ l.preorder (nodes.length + 1) false) nodes.length
        (nodes.length + 1) = nodes ++ [newInternal (some (nodes.length + 1)) none 0] ++
          l.preorder (nodes.length + 1) true := by
      unfold setLeft
      rw [List.append_assoc, List.singleton_append, modify_append_length]
      have := setChild_preorder (nodes ++ [newInternal (some (nodes.length + 1)) none 0]) l [] (nodes.length + 1) false
      simpa [newInternal] using this
    have hr := ihr k (nodes ++ [newInternal (some (nodes.length + 1)) none 0] ++ l.preorder (nodes.length + 1) true)
      (rcur + 1 + l.ser.length) hbr (by omega) (by omega) (by simp; omega)
    simp only [List.length_append, List.length_singleton, HTree.preorder_length] at hr
    have hset2 : setRight (nodes ++ [newInternal (some (nodes.length + 1)) none 0] ++ l.preorder (nodes.length + 1) true
        ++ r.preorder (nodes.length + 1 + l.size) false) nodes.length (nodes.length + 1 + l.size) =
        nodes ++ (HTree.node l r).preorder nodes.length false := by
      unfold setRight
      rw [List.append_assoc, List.append_assoc, List.singleton_append, modify_append_length]
      have h := setChild_preorder (nodes ++ [newInternal (some (nodes.length + 1)) (some (nodes.length + 1 + l.size)) 0]
        ++ l.preorder (nodes.length + 1) true) r [] (nodes.length + 1 + l.size) false
      simp only [List.length_append, List.length_singleton, HTree.preorder_length] at h
      simpa [newInternal, HTree.preorder] using h
    simp only [parse, if_neg h1, h2, hb0, hl, hset, hr, hset2]
    simp [hlen]; omega

/-! ## Parse and the scan of the descent -/

theorem fileBits_cons (s : State) (p n : Nat) (h : 0 < n) : s.fileBits p n = s.fileBit p :: s.fileBits (p + 1) (n - 1) := by
  obtain ⟨k, rfl⟩ : ∃ k, n = k + 1 := ⟨n - 1, by omega⟩
  simp [State.fileBits]

theorem fileBits_drop (s : State) (p n k : Nat) : (s.fileBits p n).drop k = s.fileBits (p + k) (n - k) := by
  induction k generalizing p n with
  | zero => simp
  | succ j ih =>
    cases n with
    | zero => simp [State.fileBits]
    | succ m => rw [State.fileBits, List.drop_succ_cons, ih]; congr 1 <;> omega

/-- What `Parse` answers: with a node, it consumed exactly the serialisation of a tree, and the scan of the descent goes
on behind it with one subtree fewer to come; with an error, the scan stops there too (`spec/44_decoder.md` R250). -/
theorem parse_descend (s : State) (tend : Nat) :
    ∀ (fuel : Nat) (nodes : List Node) (rcur : Nat), rcur ≤ tend → tend - rcur ≤ fuel →
      match parse s tend fuel nodes rcur with
      | .ok p => rcur < p.rcur ∧ p.rcur ≤ tend ∧ nodes.length < p.nodes.length ∧ p.nodes.length ≤ Config.nodeMax ∧
          (∃ u : HTree, s.fileBits rcur (p.rcur - rcur) = u.ser ∧ p.nodes.length = nodes.length + u.size) ∧
          ∀ n need, tend - rcur ≤ n → ∃ n', tend - p.rcur ≤ n' ∧
            descend n (s.fileBits rcur (tend - rcur)) rcur (need + 1) nodes.length =
              descend n' (s.fileBits p.rcur (tend - p.rcur)) p.rcur need p.nodes.length
      | .error e => ∃ sub pos, e = corrupt sub pos ∧ (sub = 6 ∨ sub = 7) ∧ rcur ≤ pos ∧ pos ≤ tend ∧
          ∀ n need, tend - rcur ≤ n →
            descend n (s.fileBits rcur (tend - rcur)) rcur (need + 1) nodes.length = .stopped sub pos := by
  intro fuel
  induction fuel with
  | zero =>
    intro nodes rcur h hf
    have h0 : tend - rcur = 0 := by omega
    simp only [parse]
    exact ⟨6, rcur, rfl, .inl rfl, Nat.le_refl _, h, fun n need _ => by rw [h0]; simp [State.fileBits, descend]⟩
  | succ k ih =>
    intro nodes rcur h hf
    by_cases h1 : tend ≤ rcur
    · have h0 : tend - rcur = 0 := by omega
      simp only [parse, if_pos h1]
      exact ⟨6, rcur, rfl, .inl rfl, Nat.le_refl _, h, fun n need _ => by rw [h0]; simp [State.fileBits, descend]⟩
    · have hpos : 0 < tend - rcur := by omega
      -- one turn of the scan
      have turn : ∀ n need, tend - rcur ≤ n → ∃ m, n = m + 1 ∧
          descend n (s.fileBits rcur (tend - rcur)) rcur (need + 1) nodes.length =
            if Config.nodeMax ≤ nodes.length then .stopped 7 rcur
            else if s.fileBit rcur then
              if tend - rcur - 1 < 16 then .stopped 6 (rcur + 1)
              else descend m (s.fileBits (rcur + 17) (tend - (rcur + 17))) (rcur + 17) need (nodes.length + 1)
            else descend m (s.fileBits (rcur + 1) (tend - (rcur + 1))) (rcur + 1) (need + 2) (nodes.length + 1) := by
        intro n need hn
        obtain ⟨m, rfl⟩ : ∃ m, n = m + 1 := ⟨n - 1, by omega⟩
        refine ⟨m, rfl, ?_⟩
        rw [fileBits_cons s rcur _ hpos]
        simp only [descend, fileBits_length, fileBits_drop]
        have e1 : tend - (rcur + 1) - 16 = tend - (rcur + 17) := by omega
        have e2 : tend - rcur - 1 = tend - (rcur + 1) := by omega
        simp only [e2, Nat.add_assoc, Nat.reduceAdd, e1]
      by_cases h2 : Config.nodeMax ≤ nodes.length
      · have hfull : arenaFull nodes = true := by simpa [arenaFull] using h2
        simp only [parse, if_neg h1, hfull, if_true]
        refine ⟨7, rcur, rfl, .inr rfl, Nat.le_refl _, h, fun n need hn => ?_⟩
        obtain ⟨m, -, ht⟩ := turn n need hn
        rw [ht, if_pos h2]
      · have hfull : arenaFull nodes = false := by simpa [arenaFull] using h2
        cases hb : s.fileBit rcur with
        | true =>
          by_cases h3 : tend < rcur + 1 + 16
          · simp only [parse, if_neg h1, hfull, hb, if_pos h3, Bool.false_eq_true, if_false, if_true]
            refine ⟨6, rcur + 1, rfl, .inl rfl, by omega, by omega, fun n need hn => ?_⟩
            obtain ⟨m, -, ht⟩ := turn n need hn
            rw [ht, if_neg h2, hb, if_pos rfl, if_pos (by omega)]
          · simp only [parse, if_neg h1, hfull, hb, if_neg h3, Bool.false_eq_true, if_false, if_true]
            refine ⟨by omega, by omega, by simp, by simp; omega,
              ⟨.leaf (BitVec.ofNat 16 (bitsToNat (s.fileBits (rcur + 1) 16))), ?_, by simp [HTree.size]⟩,
              fun n need hn => ?_⟩
            · have e : rcur + 1 + 16 - rcur = 16 + 1 := by omega
              have hbits := bitsOf_ofNat_bitsToNat (w := 16) (s.fileBits (rcur + 1) 16) (by simp)
              rw [fileBits_length] at hbits
              rw [e, State.fileBits, hb, HTree.ser, hbits]
            · obtain ⟨m, hm, ht⟩ := turn n need hn
              refine ⟨m, by omega, ?_⟩
              rw [ht, if_neg h2, hb, if_pos rfl, if_neg (by omega)]
              simp
        | false =>
          simp only [parse, if_neg h1, hfull, hb, Bool.false_eq_true, if_false]
          have hl := ih (nodes ++ [newInternal none none 0]) (rcur + 1) (by omega) (by omega)
          cases hpl : parse s tend k (nodes ++ [newInternal none none 0]) (rcur + 1) with
          | error e =>
            simp only [hpl] at hl ⊢
            obtain ⟨sub, pos, rfl, hs, hp1, hp2, hd⟩ := hl
            refine ⟨sub, pos, rfl, hs, by omega, hp2, fun n need hn => ?_⟩
            obtain ⟨m, hm, ht⟩ := turn n need hn
            rw [ht, if_neg h2, hb, if_neg (by simp)]
            have := hd m (need + 1) (by omega)
            simpa using this
          | ok l =>
            simp only [hpl] at hl ⊢
            obtain ⟨hl1, hl2, hl3, hl4, ⟨ul, hul, hlu⟩, hld⟩ := hl
            have hlen : (setLeft l.nodes nodes.length l.index).length = l.nodes.length := by simp [setLeft]
            have hr := ih (setLeft l.nodes nodes.length l.index) l.rcur hl2 (by omega)
            cases hpr : parse s tend k (setLeft l.nodes nodes.length l.index) l.rcur with
            | error e =>
              simp only [hpr] at hr ⊢
              obtain ⟨sub, pos, rfl, hs, hp1, hp2, hd⟩ := hr
              refine ⟨sub, pos, rfl, hs, by omega, hp2, fun n need hn => ?_⟩
              obtain ⟨m, hm, ht⟩ := turn n need hn
              rw [ht, if_neg h2, hb, if_neg (by simp)]
              obtain ⟨m', hm', he⟩ := hld m (need + 1) (by omega)
              have := hd m' need hm'
              rw [hlen] at this
              rw [show need + 2 = need + 1 + 1 by rfl]
              simp only [List.length_append, List.length_singleton] at he
              rw [he, this]
            | ok r =>
              simp only [hpr] at hr ⊢
              obtain ⟨hr1, hr2, hr3, hr4, ⟨ur, hur, hru⟩, hrd⟩ := hr
              have hrl : (setRight r.nodes nodes.length r.index).length = r.nodes.length := by simp [setRight]
              simp only [List.length_append, List.length_singleton] at hl3 hlu hld
              refine ⟨by omega, hr2, by omega, by omega, ⟨.node ul ur, ?_, ?_⟩, fun n need hn => ?_⟩
              · have e : r.rcur - rcur = 1 + ((l.rcur - (rcur + 1)) + (r.rcur - l.rcur)) := by omega
                rw [e, Nat.add_comm 1, State.fileBits, hb, fileBits_append, hul,
                  show rcur + 1 + (l.rcur - (rcur + 1)) = l.rcur by omega, hur]
                rfl
              · simp only [HTree.size]; omega
              · obtain ⟨m, hm, ht⟩ := turn n need hn
                rw [ht, if_neg h2, hb, if_neg (by simp)]
                obtain ⟨m', hm', he⟩ := hld m (need + 1) (by omega)
                obtain ⟨m'', hm'', he'⟩ := hrd m' need hm'
                refine ⟨m'', hm'', ?_⟩
                rw [hlen] at he'
                rw [show need + 2 = need + 1 + 1 by rfl, he, he', hrl]

/-! ## The text -/

/-- What a read of TXT sees after a run of characters was written from cell 0 on. -/
theorem readTxt_putAll {s t : State} {vs : List CharUnit} (h : t.txt = cellsPutAll s.txt 0 vs)
    (hr : t.resets = s.resets) (i : Nat) : t.readTxt i = (vs[i]?).getD (s.readTxt i) := by
  simp only [State.readTxt, h, hr, cellsGet?_putAll]
  by_cases hi : i < vs.length <;> simp [hi]

/-- The loop of DE.TEXT on a tree of one leaf: all bits 0 and enough cells; a 1 bit before the cells end; the cells end
before any 1 bit (`spec/44_decoder.md` R255, `spec/60_exceptions.md` R299). -/
theorem oneLeafText_spec (s : State) (c : CharUnit) : ∀ (k p n : Nat) (txt : Cells CharUnit),
    ((∀ j, j < k → s.fileBit (p + j) = false) → n + k ≤ s.caps.txtCap →
      oneLeafText s c k p n txt = .ok (n + k, cellsPutAll txt n (List.replicate k c))) ∧
    (∀ j, j < k → s.fileBit (p + j) = true → (∀ i, i < j → s.fileBit (p + i) = false) → n + j ≤ s.caps.txtCap →
      oneLeafText s c k p n txt =
        .error (.fail (cellsPutAll txt n (List.replicate j c)) (corrupt 9 (p + j)))) ∧
    (∀ m, n + m = s.caps.txtCap → m < k → (∀ j, j ≤ m → s.fileBit (p + j) = false) →
      oneLeafText s c k p n txt = .error (.fail (cellsPutAll txt n (List.replicate m c))
        { kind := .storageError, sub := 0, pos := Word.ofNat (p + m) })) := by
  intro k
  induction k with
  | zero => intro p n txt; exact ⟨fun _ _ => rfl, fun j h => by omega, fun m _ h => by omega⟩
  | succ k ih =>
    intro p n txt
    obtain ⟨i1, i2, i3⟩ := ih (p + 1) (n + 1) (cellsPut txt n c)
    have turn : s.fileBit p = false → n < s.caps.txtCap →
        oneLeafText s c (k + 1) p n txt = oneLeafText s c k (p + 1) (n + 1) (cellsPut txt n c) := by
      intro h0 hn
      simp only [oneLeafText, h0, emit, if_neg (Nat.not_le.2 hn), Bool.false_eq_true, if_false]
    have shift : ∀ (m : Nat), p + 1 + m = p + (m + 1) := fun m => by omega
    refine ⟨fun h hc => ?_, fun j hj hb hz hc => ?_, fun m hm hk hz => ?_⟩
    · rw [turn (h 0 (by omega)) (by omega), i1 (fun j hj => by rw [shift]; exact h (j + 1) (by omega)) (by omega)]
      simp [List.replicate_succ, cellsPutAll]; omega
    · cases j with
      | zero => simp only [oneLeafText, Nat.add_zero] at hb ⊢; rw [hb]; simp [cellsPutAll]
      | succ j =>
        rw [turn (hz 0 (by omega)) (by omega), i2 j (by omega) (by rw [shift]; exact hb)
          (fun i hi => by rw [shift]; exact hz (i + 1) (by omega)) (by omega)]
        simp [List.replicate_succ, cellsPutAll, shift]
    · cases m with
      | zero =>
        have h0 := hz 0 (by omega)
        simp only [oneLeafText, Nat.add_zero] at h0 ⊢
        rw [h0]; simp only [emit, if_pos (show s.caps.txtCap ≤ n by omega)]; simp [cellsPutAll]
      | succ m =>
        rw [turn (hz 0 (by omega)) (by omega), i3 m (by omega) (by omega)
          (fun i hi => by rw [shift]; exact hz (i + 1) (by omega))]
        simp [List.replicate_succ, cellsPutAll, shift]

/-- The loop of DE.TEXT on a tree of two leaves or more: the characters that the bits spell, as far as there
are cells for them (`spec/44_decoder.md` R254, R257). -/
theorem walkText_emits (s : State) (root : Nat) (u : HTree) (hroot : HoldsTree s.nodes root u)
    (hu : ∀ c, u ≠ .leaf c) :
    ∀ (k p cur n : Nat) (txt : Cells CharUnit) (v : HTree), HoldsTree s.nodes cur v → (∀ c, v ≠ .leaf c) →
      walkText s root k p cur n txt =
        match (HTree.emits u v p (s.fileBits p k)).drop (s.caps.txtCap - n) with
        | [] => .ok (n + (HTree.emits u v p (s.fileBits p k)).length,
            cellsPutAll txt n ((HTree.emits u v p (s.fileBits p k)).map Prod.fst))
        | (_, q) :: _ => .error (.fail
            (cellsPutAll txt n (((HTree.emits u v p (s.fileBits p k)).take (s.caps.txtCap - n)).map Prod.fst))
            { kind := .storageError, sub := 0, pos := Word.ofNat q }) := by
  intro k
  induction k with
  | zero => intro p cur n txt v _ _; simp [walkText, State.fileBits, HTree.emits, cellsPutAll]
  | succ j ih =>
    intro p cur n txt v hv hvl
    cases v with
    | leaf c => exact absurd rfl (hvl c)
    | node l r =>
      obtain ⟨x, a, b, hx, hf, ha, hb, hl, hr⟩ := hv
      have hstep : ∃ (c : Nat) (w : HTree), (if s.fileBit p then x.right else x.left) = some c ∧
          (if s.fileBit p then r else l) = w ∧ HoldsTree s.nodes c w := by
        cases s.fileBit p
        · exact ⟨a, l, by simp [ha], by simp, hl⟩
        · exact ⟨b, r, by simp [hb], by simp, hr⟩
      obtain ⟨c, w, hc, hw, hcw⟩ := hstep
      simp only [walkText, State.node?, hx, hc, State.fileBits, HTree.emits, hw]
      cases w with
      | leaf d =>
        obtain ⟨y, hy, hyl, rfl⟩ := hcw
        simp only [hy, hyl, if_true, emit]
        by_cases hcap : s.caps.txtCap ≤ n
        · rw [if_pos hcap]
          have : s.caps.txtCap - n = 0 := by omega
          simp [this, cellsPutAll]
        · rw [if_neg hcap]
          simp only []
          rw [ih _ root (n + 1) _ u hroot hu]
          obtain ⟨m, hm⟩ : ∃ m, s.caps.txtCap - n = m + 1 := ⟨s.caps.txtCap - n - 1, by omega⟩
          have hm' : s.caps.txtCap - (n + 1) = m := by omega
          rw [hm, hm', List.drop_succ_cons, List.take_succ_cons]
          simp only [List.map_cons, cellsPutAll, List.length_cons]
          cases List.drop m (HTree.emits u u (p + 1) (s.fileBits (p + 1) j)) with
          | nil => simp; omega
          | cons e es => rfl
      | node l' r' =>
        have hcw' := hcw
        obtain ⟨y, a', b', hy, hyl, -⟩ := hcw
        simp only [hy, hyl]
        exact ih _ c n txt _ hcw' (by simp)

end Sys2Proof.Machine
end

