-- ==== Sys2Proof/Laws/PerInstr.lean ====
section
/-!
SUPPORT. What holds of each instruction as syntax, one lemma per constructor.
-/

namespace Sys2Proof.Laws

/-- Bits 31:24 of the word of a command are its opcode in the table (`spec/30_encoding.md` R100, R102). -/
def OpcodeByte.Statement (i : Instr) : Prop := opcodeOf (encodeInstr i) = opcodeByte i

/-- The opcode stands above every operand field. -/
theorem opcodeOf_encodeInstr (i : Instr) : opcodeOf (encodeInstr i) = opcodeByte i := by
  unfold opcodeOf encodeInstr
  apply BitVec.eq_of_getLsbD_eq
  intro k hk
  rw [BitVec.getLsbD_extractLsb', BitVec.getLsbD_append]
  simp [hk]

theorem OpcodeByte.plIns (n : Nat) : OpcodeByte.Statement (.plIns n) := opcodeOf_encodeInstr _
theorem OpcodeByte.plRmin : OpcodeByte.Statement .plRmin := opcodeOf_encodeInstr _
theorem OpcodeByte.plOne : OpcodeByte.Statement .plOne := opcodeOf_encodeInstr _
theorem OpcodeByte.tbLeaf (ch : CharUnit) : OpcodeByte.Statement (.tbLeaf ch) := opcodeOf_encodeInstr _
theorem OpcodeByte.tbCount : OpcodeByte.Statement .tbCount := opcodeOf_encodeInstr _
theorem OpcodeByte.tbLeaves : OpcodeByte.Statement .tbLeaves := opcodeOf_encodeInstr _
theorem OpcodeByte.tbMerge : OpcodeByte.Statement .tbMerge := opcodeOf_encodeInstr _
theorem OpcodeByte.tbRoot : OpcodeByte.Statement .tbRoot := opcodeOf_encodeInstr _
theorem OpcodeByte.tbBuild : OpcodeByte.Statement .tbBuild := opcodeOf_encodeInstr _
theorem OpcodeByte.ctGen : OpcodeByte.Statement .ctGen := opcodeOf_encodeInstr _
theorem OpcodeByte.ctLookup (ch : CharUnit) : OpcodeByte.Statement (.ctLookup ch) := opcodeOf_encodeInstr _
theorem OpcodeByte.enTree : OpcodeByte.Statement .enTree := opcodeOf_encodeInstr _
theorem OpcodeByte.enText : OpcodeByte.Statement .enText := opcodeOf_encodeInstr _
theorem OpcodeByte.enEmit : OpcodeByte.Statement .enEmit := opcodeOf_encodeInstr _
theorem OpcodeByte.encode : OpcodeByte.Statement .encode := opcodeOf_encodeInstr _
theorem OpcodeByte.deHdr : OpcodeByte.Statement .deHdr := opcodeOf_encodeInstr _
theorem OpcodeByte.deTree : OpcodeByte.Statement .deTree := opcodeOf_encodeInstr _
theorem OpcodeByte.deText : OpcodeByte.Statement .deText := opcodeOf_encodeInstr _
theorem OpcodeByte.decode : OpcodeByte.Statement .decode := opcodeOf_encodeInstr _
theorem OpcodeByte.nop : OpcodeByte.Statement .nop := opcodeOf_encodeInstr _
theorem OpcodeByte.clr : OpcodeByte.Statement .clr := opcodeOf_encodeInstr _

end Sys2Proof.Laws
end

