-- ==== Sys2Proof/Laws/Port.lean ====
section
/-!
SUPPORT. What one host operation and one step can do, and what EN.TEXT's walk over a text answers.
-/

namespace Sys2Proof.Machine

/-- The two cases of a step. -/
theorem step_next {s t : State} (h : step s = .next t) :
    (s.pending = [] ∧ t = s) ∨
    ∃ op rest, s.pending = op :: rest ∧ hostStep op { s with pending := rest } = .next t := by
  unfold step at h
  split at h
  · cases h; exact .inl ⟨‹_›, rfl⟩
  · exact .inr ⟨_, _, ‹_›, h⟩

/-- OK is answered behind a next state only. -/
theorem answerOk_next {o : Host.Outcome State Fault Refusal} {t : State} (h : answerOk o = .next t) :
    ∃ u, o = .next u ∧ t = u.answer .ok := by
  cases o <;> simp [answerOk] at h
  exact ⟨_, rfl, h.symm⟩

/-- A command word runs the command it encodes, or ends with IllegalCommand. -/
theorem execWord_next {w : Word} {s t : State} (h : execWord w s = .next t) :
    (∃ i, decodeWord w = .ok i ∧ exec i s = .next t) ∨ t = { s with error := illegalCommand w } := by
  unfold execWord at h
  split at h
  · exact .inl ⟨_, ‹_›, h⟩
  · cases h; exact .inr rfl

/-- A host read changes the transcript only. -/
theorem portRead_next {r : Nat} {s t : State} (h : portRead r s = .next t) : ∃ a, hostRead r s = .ok a ∧ t = s.answer a := by
  unfold portRead at h
  split at h
  · cases h; exact ⟨_, ‹_›, rfl⟩
  · cases h

/-- What a write that is not refused stores, register by register (`spec/10_state.md` R38, `spec/20_memory.md` R76). -/
theorem writeReg_some {r : Reg} {v : Word} {s t : State} (h : writeReg r v s = .ok (some t)) :
    (r = .warg ∧ t = { s with warg := v }) ∨
    (r = .txtLen ∧ v.toNat ≤ s.caps.txtCap ∧ t = { s with txtLen := v }) ∨
    (r = .txtAddr ∧ v.toNat < s.caps.txtCap ∧ t = { s with txtAddr := v }) ∨
    (r = .txtData ∧ v.toNat ≤ 0xFFFF ∧ s.txtAddr.toNat < s.caps.txtCap ∧
      t = s.writeTxt s.txtAddr.toNat (v.truncate 16)) ∨
    (r = .filLen ∧ v.toNat ≤ s.caps.filCap ∧ t = { s with filLen := v }) ∨
    (r = .filAddr ∧ v.toNat < s.caps.filCap ∧ t = { s with filAddr := v }) ∨
    (r = .filData ∧ v.toNat ≤ 0xFF ∧ s.filAddr.toNat < s.caps.filCap ∧
      t = s.writeFil s.filAddr.toNat (v.truncate 8)) ∨
    (r = .nodeAddr ∧ v.toNat < Config.nodeMax ∧ t = { s with nodeAddr := v.truncate 17 }) ∨
    (r = .frqAddr ∧ v.toNat ≤ 65535 ∧ t = { s with frqAddr := v.truncate 16 }) := by
  cases r <;> simp only [writeReg] at h <;> (try split at h) <;> (try split at h) <;> cases h <;> simp_all <;> omega

/-- What a write of a register other than CMD can do. -/
theorem portWrite_next {r : Nat} {v : Word} {s t : State} (h : portWrite r v s = .next t) :
    t = s.answer .herr ∨ ∃ reg u, regOf r = some reg ∧ writeReg reg v s = .ok (some u) ∧ t = u.answer .ok := by
  unfold portWrite at h
  split at h
  · cases h; exact .inl rfl
  · split at h
    · cases h; exact .inr ⟨_, _, ‹_›, ‹_›, rfl⟩
    · cases h; exact .inl rfl
    · cases h

/-- What one host operation can do. -/
theorem hostStep_next {op : HostOp} {s t : State} (h : hostStep op s = .next t) :
    (∃ r a, op = .read r ∧ hostRead r s = .ok a ∧ t = s.answer a) ∨
    (∃ w u, op = .write 0 w ∧ execWord w s = .next u ∧ t = u.answer .ok) ∨
    (∃ r v, op = .write r v ∧ r ≠ 0 ∧ (t = s.answer .herr ∨
      ∃ reg u, regOf r = some reg ∧ writeReg reg v s = .ok (some u) ∧ t = u.answer .ok)) ∨
    (op = .reset ∧ t = s.resetCore) := by
  cases op with
  | read r => obtain ⟨a, ha, rfl⟩ := portRead_next h; exact .inl ⟨r, a, rfl, ha, rfl⟩
  | write r v =>
    by_cases hr : r = 0
    · subst hr
      obtain ⟨u, hu, rfl⟩ := answerOk_next h
      exact .inr (.inl ⟨v, u, rfl, hu, rfl⟩)
    · rw [hostStep, if_neg hr] at h
      exact .inr (.inr (.inl ⟨r, v, rfl, hr, portWrite_next h⟩))
  | reset => cases h; exact .inr (.inr (.inr ⟨rfl, rfl⟩))

/-- EN.TEXT's walk joins the codes when every character has one. -/
theorem textBits_ok (t : Cells CodeEntry) (text : List CharUnit) (i : Nat) (h : ∀ c ∈ text, (entryOf t c).len ≠ 0) :
    textBits t i text = .ok (text.map (fun c => entryBits (entryOf t c))).flatten := by
  induction text generalizing i with
  | nil => rfl
  | cons c rest ih =>
    rw [textBits, if_neg (h c (by simp)), ih (i + 1) (fun d hd => h d (by simp [hd]))]
    simp

/-- EN.TEXT's walk stops at the first character without a code. -/
theorem textBits_error (t : Cells CodeEntry) (text : List CharUnit) (i k : Nat) (c : CharUnit)
    (hk : text[k]? = some c) (hc : (entryOf t c).len = 0)
    (hb : ∀ (j : Nat) (d : CharUnit), j < k → text[j]? = some d → (entryOf t d).len ≠ 0) :
    textBits t i text = .error (i + k) := by
  induction text generalizing i k with
  | nil => simp at hk
  | cons a rest ih =>
    cases k with
    | zero => simp at hk; subst hk; simp [textBits, hc]
    | succ m =>
      rw [textBits, if_neg (hb 0 a (by omega) rfl), ih (i + 1) m (by simpa using hk)
        (fun j d hj hd => hb (j + 1) d (by omega) (by simpa using hd))]
      simp; omega

end Sys2Proof.Machine
end

