-- ==== Sys2Proof/Laws/TreeBuilder.lean ====
section
/-!
SUPPORT. What counting leaves in FREQ, what the loop of TB.LEAVES leaves in the arena, and what one merge and the loop of
merges do (`spec/41_tree_builder.md` R162, R164, R166, R170).
-/

namespace Sys2Proof.Machine

/-! ## TB.COUNT -/

theorem countUnit_get (f : Cells Word) (c d : CharUnit) :
    tableGet 0 (countUnit f c) d.toNat = tableGet 0 f d.toNat + if d = c then 1 else 0 := by
  rw [countUnit, tableGet_set]
  by_cases h : d = c
  · simp [h]
  · simp [h, BitVec.toNat_inj]

/-- Counting adds to each cell the number of times its character stands in the text. -/
theorem foldl_countUnit_get (text : List CharUnit) (f : Cells Word) (d : CharUnit) :
    tableGet 0 (text.foldl countUnit f) d.toNat = tableGet 0 f d.toNat + BitVec.ofNat 32 (text.count d) := by
  induction text generalizing f with
  | nil => simp
  | cons c cs ih =>
    rw [List.foldl_cons, ih, countUnit_get, List.count_cons]
    by_cases h : d = c
    · subst h
      simp only [if_true, BEq.rfl, BitVec.ofNat_add]
      rw [BitVec.add_assoc]
      congr 1
      exact BitVec.add_comm _ _
    · simp [h, Ne.symm h]

/-- Counting keeps the table canonical. -/
theorem foldl_countUnit_wf (text : List CharUnit) {f : Cells Word} (h : Table.wf 0 Config.nchar f) :
    Table.wf 0 Config.nchar (text.foldl countUnit f) := by
  induction text generalizing f with
  | nil => exact h
  | cons c cs ih => exact ih (tableSet_wf _ h c.isLt)

@[simp] theorem textFrom_length (s : State) (i k : Nat) : (s.textFrom i k).length = k := by
  induction k generalizing i with
  | zero => rfl
  | succ j ih => simp [State.textFrom, ih]

@[simp] theorem text_length (s : State) : s.text.length = s.txtLen.toNat := by simp [State.text]

theorem textFrom_get (s : State) (i k j : Nat) (h : j < k) : (s.textFrom i k)[j]? = some (s.readTxt (i + j)) := by
  induction k generalizing i j with
  | zero => omega
  | succ m ih =>
    cases j with
    | zero => simp [State.textFrom]
    | succ n => simp only [State.textFrom, List.getElem?_cons_succ]; rw [ih _ n (by omega)]; congr 2; omega

/-! ## TB.LEAVES -/

/-- What the arena holds when leaves have been made for the listed counts: one node each, in their order, all in the
list, sorted by count and then by index (`spec/41_tree_builder.md` R164). -/
structure LeavesOf (cs : List (Nat × Word)) (a : Arena) : Prop where
  length : a.nodes.length = cs.length
  leaf : ∀ (i : Nat) (c : Nat × Word), cs[i]? = some c → ∃ x, a.nodes[i]? = some x ∧
    x = { newLeaf (BitVec.ofNat 16 c.1) c.2 with next := x.next, inl := true }
  list : ∃ xs, Chain a.nodes a.head xs ∧ xs.Perm (List.range cs.length) ∧
    xs.Pairwise (fun m n => wtAt a.nodes m < wtAt a.nodes n ∨ (wtAt a.nodes m = wtAt a.nodes n ∧ m < n))

theorem leavesOf_nil : LeavesOf [] { nodes := [], head := none } :=
  ⟨rfl, by simp, [], rfl, by simp, by simp⟩

/-- A stable insertion keeps a list sorted by weight and then by index, when the new index is the greatest. -/
theorem stableInsert_lexSorted (wt : Nat → Word) (n : Nat) {xs : List Nat} (hn : ∀ m ∈ xs, m < n)
    (h : xs.Pairwise (fun a b => wt a < wt b ∨ (wt a = wt b ∧ a < b))) :
    (stableInsert wt n xs).Pairwise (fun a b => wt a < wt b ∨ (wt a = wt b ∧ a < b)) := by
  induction xs with
  | nil => simp [stableInsert]
  | cons x xs ih =>
    obtain ⟨hx, hxs⟩ := List.pairwise_cons.1 h
    by_cases hle : wt x ≤ wt n
    · have : stableInsert wt n (x :: xs) = x :: stableInsert wt n xs := by simp [stableInsert, hle]
      rw [this]
      refine List.pairwise_cons.2 ⟨?_, ih (fun m hm => hn m (by simp [hm])) hxs⟩
      intro m hm
      rcases List.mem_cons.1 ((stableInsert_perm wt n xs).mem_iff.1 hm) with rfl | hm
      · by_cases he : wt x = wt m
        · exact .inr ⟨he, hn x (by simp)⟩
        · have : (wt x).toNat ≠ (wt m).toNat := fun h => he (BitVec.eq_of_toNat_eq h)
          exact .inl (BitVec.lt_def.2 (by have := BitVec.le_def.1 hle; omega))
      · exact hx m hm
    · have : stableInsert wt n (x :: xs) = n :: x :: xs := by simp [stableInsert, hle]
      rw [this]
      have hlt : wt n < wt x := BitVec.not_le.1 hle
      refine List.pairwise_cons.2 ⟨?_, h⟩
      intro m hm
      rcases List.mem_cons.1 hm with rfl | hm
      · exact .inl hlt
      · rcases hx m hm with h | h
        · exact .inl (BitVec.lt_trans hlt h)
        · exact .inl (h.1 ▸ hlt)

theorem chain_append {nodes : List Node} {r : Option Nat} {xs : List Nat} (h : Chain nodes r xs) (B : List Node) :
    Chain (nodes ++ B) r xs := by
  refine h.congr fun n hn x hx => ⟨x, ?_, rfl⟩
  rw [List.getElem?_append_left (h.lt hn)]; exact hx

/-- One turn of TB.LEAVES. -/
theorem addLeaf_leavesOf {cs : List (Nat × Word)} {a : Arena} (h : LeavesOf cs a) (c : Nat) (w : Word) :
    ∃ a', addLeaf a c w = some a' ∧ LeavesOf (cs ++ [(c, w)]) a' := by
  obtain ⟨hl, hf, xs, hc, hp, hs⟩ := h
  have hmem : ∀ m ∈ xs, m < cs.length := fun m hm => by simpa using hp.mem_iff.1 hm
  have hd : xs.Nodup := hp.nodup_iff.2 List.nodup_range
  have hx : (a.nodes ++ [newLeaf (BitVec.ofNat 16 c) w])[a.nodes.length]? = some (newLeaf (BitVec.ofNat 16 c) w) := by
    simp
  have hnx : a.nodes.length ∉ xs := fun hm => by have := hmem _ hm; omega
  obtain ⟨a', ha, hl', hch, hfd, -⟩ := insertNode_spec (chain_append hc _) hd hx hnx
  have hget : ∀ (i : Nat) (x : Node), (a.nodes ++ [newLeaf (BitVec.ofNat 16 c) w])[i]? = some x →
      wtAt a'.nodes i = x.wt := by
    intro i x hi
    obtain ⟨z, hz, he⟩ := hfd i x hi
    rw [wtAt_of hz, he]
  have hwt : ∀ m, m ∈ a.nodes.length :: xs →
      wtAt a'.nodes m = wtAt (a.nodes ++ [newLeaf (BitVec.ofNat 16 c) w]) m := by
    intro m hm
    have : m < (a.nodes ++ [newLeaf (BitVec.ofNat 16 c) w]).length := by
      rcases List.mem_cons.1 hm with rfl | hm
      · simp
      · have := hmem m hm; simp; omega
    rw [hget m _ (List.getElem?_eq_getElem this), wtAt_of (List.getElem?_eq_getElem this)]
  refine ⟨a', ha, by rw [hl']; simp [hl], ?_, _, hch, ?_, ?_⟩
  · intro i d hd'
    by_cases hi : i < cs.length
    · rw [List.getElem?_append_left hi] at hd'
      obtain ⟨x, hx', hxe⟩ := hf i d hd'
      obtain ⟨z, hz, hze⟩ := hfd i x (by rw [List.getElem?_append_left (by omega)]; exact hx')
      exact ⟨z, hz, by rw [hze, hxe]; simp⟩
    · obtain rfl : i = cs.length := by
        have := (List.getElem?_eq_some_iff.1 hd').1; simp at this; omega
      simp only [List.getElem?_concat_length, Option.some.injEq] at hd'
      subst hd'
      obtain ⟨z, hz, hze⟩ := hfd cs.length _ (by rw [← hl]; exact hx)
      refine ⟨z, hz, ?_⟩
      rw [hze]; simp [hl]
  · refine (stableInsert_perm _ _ _).trans ?_
    rw [hl, List.length_append, List.length_singleton, List.range_succ]
    exact (hp.cons _).trans (List.perm_append_singleton _ _).symm
  · have hs' : xs.Pairwise (fun m n => wtAt (a.nodes ++ [newLeaf (BitVec.ofNat 16 c) w]) m <
          wtAt (a.nodes ++ [newLeaf (BitVec.ofNat 16 c) w]) n ∨
        (wtAt (a.nodes ++ [newLeaf (BitVec.ofNat 16 c) w]) m = wtAt (a.nodes ++ [newLeaf (BitVec.ofNat 16 c) w]) n ∧
          m < n)) := by
      refine hs.imp_of_mem fun {m n} hm hn h => ?_
      have e : ∀ k ∈ xs, wtAt (a.nodes ++ [newLeaf (BitVec.ofNat 16 c) w]) k = wtAt a.nodes k := by
        intro k hk
        have := hmem k hk
        simp only [wtAt]; rw [List.getElem?_append_left (by omega)]
      rw [e m hm, e n hn]; exact h
    refine (stableInsert_lexSorted _ _ (fun m hm => by have := hmem m hm; omega) hs').imp_of_mem ?_
    intro m n hm hn h
    rw [hwt m ((stableInsert_perm _ _ _).mem_iff.1 hm), hwt n ((stableInsert_perm _ _ _).mem_iff.1 hn)]
    exact h

/-- The loop of TB.LEAVES. -/
theorem addLeaves_leavesOf (freq : List (Nat × Word)) {cs : List (Nat × Word)} {a : Arena} (h : LeavesOf cs a) :
    ∃ a', addLeaves a freq = some a' ∧ LeavesOf (cs ++ freq) a' := by
  induction freq generalizing cs a with
  | nil => exact ⟨a, rfl, by simpa using h⟩
  | cons f rest ih =>
    obtain ⟨c, w⟩ := f
    obtain ⟨a1, h1, hl⟩ := addLeaf_leavesOf h c w
    obtain ⟨a2, h2, hl2⟩ := ih hl
    exact ⟨a2, by simp [addLeaves, h1, h2], by simpa using hl2⟩

/-! ## TB.MERGE -/

/-- The checks of TB.MERGE see the two lowest weights. -/
theorem headSum_chain {nodes : List Node} {head : Option Nat} {a b : Nat} {ys : List Nat}
    (hc : Chain nodes head (a :: b :: ys)) :
    headSum { nodes := nodes, head := head } = some ((wtAt nodes a).toNat + (wtAt nodes b).toNat) := by
  obtain ⟨rfl, x, hx, hn, y, hy, -⟩ := hc
  simp [headSum, hx, hn, hy, wtAt_of hx, wtAt_of hy]

/-- What the changes of TB.MERGE do (`spec/41_tree_builder.md` R166). -/
theorem mergeArena_spec {nodes : List Node} {head : Option Nat} {a b : Nat} {ys : List Nat}
    (hc : Chain nodes head (a :: b :: ys)) (hd : (a :: b :: ys).Nodup) :
    ∃ a' x, mergeArena { nodes := nodes, head := head } =
        some (nodes.length, wtAt nodes a + wtAt nodes b, a') ∧
      a'.nodes.length = nodes.length + 1 ∧ Chain a'.nodes a'.head (stableInsert (wtAt a'.nodes) nodes.length ys) ∧
      a'.nodes[nodes.length]? = some x ∧
      x = { newInternal (some a) (some b) (wtAt nodes a + wtAt nodes b) with next := x.next, inl := true } ∧
      ∀ (m : Nat) (y : Node), nodes[m]? = some y → ∃ z, a'.nodes[m]? = some z ∧
        (m = a ∨ m = b → z = { y with next := none, inl := false, child := true }) ∧
        (m ≠ a → m ≠ b → z = { y with next := z.next }) ∧ (m ∉ a :: b :: ys → z = y) := by
  obtain ⟨xa, n1, hxa, hr1, -, hl1, hc1, ha1, ho1⟩ := removeMin_cons hc hd
  have hd1 := (List.nodup_cons.1 hd).2
  have hab : a ≠ b := fun h => (List.nodup_cons.1 hd).1 (by simp [h])
  obtain ⟨xb, n2, hxb, hr2, -, hl2, hc2, hb2, ho2⟩ := removeMin_cons hc1 hd1
  have hxb0 : nodes[b]? = some xb := (ho1 b (Ne.symm hab)).symm.trans hxb
  have hay : a ∉ ys := fun h => (List.nodup_cons.1 hd).1 (by simp [h])
  have hby : b ∉ ys := (List.nodup_cons.1 hd1).1
  have hmem : ∀ m ∈ ys, m < nodes.length := fun m hm => hc.lt (by simp [hm])
  -- the arena before the insertion
  let w := wtAt nodes a + wtAt nodes b
  let n3 := setChild (setChild (n2 ++ [newInternal (some a) (some b) w]) a) b
  have hlt_a : a < nodes.length := hc.lt (by simp)
  have hlt_b : b < nodes.length := hc.lt (by simp)
  have hlen2 : n2.length = nodes.length := hl2.trans hl1
  have h3new : n3[nodes.length]? = some (newInternal (some a) (some b) w) := by
    have h1 : a ≠ nodes.length := by omega
    have h2 : b ≠ nodes.length := by omega
    simp only [n3, setChild_get]
    rw [← hlen2, List.getElem?_concat_length]
    simp [hlen2, h1, h2]
  have h3old : ∀ (m : Nat), m < nodes.length → n3[m]? = (n2[m]?).map (fun x =>
      if m = a ∨ m = b then { x with child := true } else x) := by
    intro m hm
    simp only [n3, setChild_get]
    rw [List.getElem?_append_left (by omega)]
    cases n2[m]? with
    | none => rfl
    | some y =>
      simp only [Option.map_some]
      by_cases h1 : a = m
      · by_cases h2 : b = m
        · simp [h1, h2]
        · simp [h1]
      · by_cases h2 : b = m
        · subst h2; simp [h1]
        · simp [h1, h2, Ne.symm h1, Ne.symm h2]
  have hc3 : Chain n3 xb.next ys := by
    refine hc2.congr fun m hm x hx => ?_
    refine ⟨_, by rw [h3old m (hmem m hm), hx]; rfl, ?_⟩
    split <;> rfl
  have hnew : nodes.length ∉ ys := fun h => by have := hmem _ h; omega
  obtain ⟨a', ha', hlen', hch', hf', hof'⟩ := insertNode_spec hc3 (List.nodup_cons.1 hd1).2 h3new hnew
  have hn3len : n3.length = nodes.length + 1 := by simp [n3, hlen2]
  have hw : xa.wt + xb.wt = w := by simp only [w, wtAt_of hxa, wtAt_of hxb0]
  have hwt : ∀ m, m < n3.length → wtAt a'.nodes m = wtAt n3 m := by
    intro m hm
    obtain ⟨z, hz, he⟩ := hf' m _ (List.getElem?_eq_getElem hm)
    rw [wtAt_of hz, he, wtAt_of (List.getElem?_eq_getElem hm)]
  obtain ⟨x, hx, hxe⟩ := hf' nodes.length _ h3new
  refine ⟨a', x, ?_, by omega, ?_, hx, by rw [hxe]; simp [w], ?_⟩
  · simp only [mergeArena, hr1, hr2, hw, hlen2]
    have : insertNode { nodes := n3, head := xb.next } nodes.length = some a' := ha'
    simp only [n3] at this
    rw [this]; rfl
  · have : stableInsert (wtAt a'.nodes) nodes.length ys = stableInsert (wtAt n3) nodes.length ys := by
      have h : ∀ (zs : List Nat), (∀ m ∈ zs, m < nodes.length) →
          stableInsert (wtAt a'.nodes) nodes.length zs = stableInsert (wtAt n3) nodes.length zs := by
        intro zs hz
        induction zs with
        | nil => rfl
        | cons z zs ih =>
          have h1 := hwt z (by have := hz z (by simp); omega)
          have h2 := hwt nodes.length (by omega)
          by_cases hle : wtAt n3 z ≤ wtAt n3 nodes.length
          · have e1 : stableInsert (wtAt a'.nodes) nodes.length (z :: zs) =
                z :: stableInsert (wtAt a'.nodes) nodes.length zs := by simp [stableInsert, h1, h2, hle]
            have e2 : stableInsert (wtAt n3) nodes.length (z :: zs) =
                z :: stableInsert (wtAt n3) nodes.length zs := by simp [stableInsert, hle]
            rw [e1, e2, ih (fun m hm => hz m (by simp [hm]))]
          · simp [stableInsert, h1, h2, hle]
      exact h ys hmem
    rw [this]; exact hch'
  · intro m y hy
    have hm : m < nodes.length := (List.getElem?_eq_some_iff.1 hy).1
    by_cases hma : m = a
    · subst hma
      rw [hxa] at hy; cases hy
      have h2 : n2[m]? = some { xa with next := none, inl := false } := (ho2 m hab).trans ha1
      have h3 : n3[m]? = some { xa with next := none, inl := false, child := true } := by
        rw [h3old m hm, h2]; simp
      have h4 := hof' m _ h3 (by simp only [List.mem_cons, not_or]; exact ⟨by omega, hay⟩)
      exact ⟨_, h4, fun _ => rfl, fun h => absurd rfl h, fun h => absurd (by simp) h⟩
    · by_cases hmb : m = b
      · subst hmb
        rw [hxb0] at hy; cases hy
        have h3 : n3[m]? = some { xb with next := none, inl := false, child := true } := by
          rw [h3old m hm, hb2]; simp
        have h4 := hof' m _ h3 (by simp only [List.mem_cons, not_or]; exact ⟨by omega, hby⟩)
        exact ⟨_, h4, fun _ => rfl, fun _ h => absurd rfl h, fun h => absurd (by simp) h⟩
      · have h2 : n2[m]? = some y := (ho2 m hmb).trans ((ho1 m hma).trans hy)
        have h3 : n3[m]? = some y := by rw [h3old m hm, h2]; simp [hma, hmb]
        obtain ⟨z, hz, he⟩ := hf' m y h3
        refine ⟨z, hz, fun h => by rcases h with h | h <;> contradiction, fun _ _ => ?_, fun h => ?_⟩
        · rw [he]; simp; intro h; omega
        · have := hof' m y h3 (by
            simp only [List.mem_cons, not_or] at h ⊢; exact ⟨by omega, h.2.2⟩)
          rw [hz] at this; cases this; rfl

/-- What the body of TB.MERGE answers on a list of two nodes or more, when there is room and the sum fits. -/
theorem tbMergeBody_ok {s : State} {a b : Nat} {ys : List Nat} (hc : Chain s.nodes s.listHead (a :: b :: ys))
    (hn : s.nodes.length < Config.nodeMax) (hs : (wtAt s.nodes a).toNat + (wtAt s.nodes b).toNat ≤ 0xFFFFFFFF)
    {a' : Arena} (hm : mergeArena s.arena = some (s.nodes.length, wtAt s.nodes a + wtAt s.nodes b, a')) :
    tbMergeBody s = .ok { s.withArena a' with
      res0 := Word.ofNat s.nodes.length, res1 := wtAt s.nodes a + wtAt s.nodes b } := by
  have h2 : hasTwo s.arena = some true := by rw [State.arena, hasTwo_chain hc]; simp
  have hsum : headSum s.arena = some ((wtAt s.nodes a).toNat + (wtAt s.nodes b).toNat) := headSum_chain hc
  have hfull : arenaFull s.nodes = false := by simpa [arenaFull] using hn
  simp only [tbMergeBody, h2, withAnswer_some, hfull, hsum, hm]
  simp only [Bool.not_true, Bool.false_eq_true, if_false]
  rw [if_neg (by omega)]

/-- The loop of merges of TB.BUILD: from a list of trees whose weights have a sum of 32 bits, with room for all the new
nodes, it ends with one tree over all their leaves, whose weight is the sum (`spec/41_tree_builder.md` R170). Old nodes
keep LEAF, CH, WT, LEFT and RIGHT; each new one is internal, with children below it; the last one is the root. -/
theorem mergeLoop_spec (fuel : Nat) :
    ∀ (s : State) (xs : List Nat) (f : Nat → HTree), Chain s.nodes s.listHead xs → xs.Nodup →
      (∀ m ∈ xs, HoldsTree s.nodes m (f m)) → xs ≠ [] → xs.length ≤ fuel →
      s.nodes.length + xs.length ≤ Config.nodeMax + 1 →
      (xs.map (fun m => (wtAt s.nodes m).toNat)).sum ≤ 0xFFFFFFFF →
      ∃ (s' : State) (r : Nat) (u : HTree), mergeLoop fuel s = .ok s' ∧
        s' = { s with nodes := s'.nodes, listHead := some r, res0 := s'.res0, res1 := s'.res1 } ∧
        Chain s'.nodes (some r) [r] ∧ HoldsTree s'.nodes r u ∧
        u.chars.Perm (xs.flatMap (fun m => (f m).chars)) ∧
        (wtAt s'.nodes r).toNat = (xs.map (fun m => (wtAt s.nodes m).toNat)).sum ∧
        s'.nodes.length + 1 = s.nodes.length + xs.length ∧ (xs = [r] ∨ r + 1 = s'.nodes.length) ∧
        (∀ (m : Nat) (y : Node), s.nodes[m]? = some y →
          ∃ z, s'.nodes[m]? = some z ∧ z = { y with next := z.next, inl := z.inl, child := z.child }) ∧
        (∀ (m : Nat) (y : Node), s.nodes.length ≤ m → s'.nodes[m]? = some y →
          ∃ a b, y.leaf = false ∧ y.left = some a ∧ y.right = some b ∧ a < m ∧ b < m) := by
  induction fuel with
  | zero => intro s xs f _ _ _ hne hf; simp at hf; contradiction
  | succ k ih =>
    intro s xs f hc hd ht hne hf hroom hsum
    have hone : hasOne s.arena = some (decide (xs.length = 1)) := hasOne_chain hc
    simp only [mergeLoop, hone, withAnswer_some]
    cases xs with
    | nil => contradiction
    | cons a xs =>
      cases xs with
      | nil =>
        have ha := ht a (by simp)
        have hh : s.listHead = some a := hc.1
        refine ⟨s, a, f a, by simp, by rw [← hh], hh ▸ hc, ha, by simp, by simp, by simp, .inl rfl, ?_, ?_⟩
        · intro m y hy; exact ⟨y, hy, rfl⟩
        · intro m y hm hy
          have := (List.getElem?_eq_some_iff.1 hy).1
          omega
      | cons b ys =>
        simp only [List.map_cons, List.sum_cons, List.length_cons] at hsum hf hroom
        obtain ⟨a', x, hm, hlen, hch, hx, hxe, hold⟩ := mergeArena_spec hc hd
        have hbody := tbMergeBody_ok hc (by omega) (by omega) hm
        rw [if_neg (by simp), hbody]
        have hmem : ∀ m ∈ a :: b :: ys, m < s.nodes.length := fun m h => hc.lt h
        have hlt_a := hmem a (by simp)
        have hlt_b := hmem b (by simp)
        have hwtold : ∀ (m : Nat), m < s.nodes.length → wtAt a'.nodes m = wtAt s.nodes m := by
          intro m hm
          have hg := List.getElem?_eq_getElem hm
          obtain ⟨z, hz, h1, h2, -⟩ := hold m _ hg
          rw [wtAt_of hz, wtAt_of hg]
          by_cases h : m = a ∨ m = b
          · rw [h1 h]
          · simp only [not_or] at h; rw [h2 h.1 h.2]
        have hwtnew : wtAt a'.nodes s.nodes.length = wtAt s.nodes a + wtAt s.nodes b := by
          rw [wtAt_of hx, hxe]; rfl
        have hkeep : ∀ (m : Nat) (y : Node), s.nodes[m]? = some y →
            ∃ z, a'.nodes[m]? = some z ∧ z = { y with next := z.next, inl := z.inl, child := z.child } := by
          intro m y hy
          obtain ⟨z, hz, h1, h2, -⟩ := hold m y hy
          refine ⟨z, hz, ?_⟩
          by_cases h : m = a ∨ m = b
          · rw [h1 h]
          · simp only [not_or] at h; rw [h2 h.1 h.2]
        have hholds : ∀ (m : Nat) (v : HTree), HoldsTree s.nodes m v → HoldsTree a'.nodes m v := by
          intro m v hv
          refine hv.congr fun n y hy => ?_
          obtain ⟨z, hz, he⟩ := hkeep n y hy
          exact ⟨z, hz, by rw [he], by rw [he], by rw [he], by rw [he]⟩
        have hperm := stableInsert_perm (wtAt a'.nodes) s.nodes.length ys
        have hnew : s.nodes.length ∉ ys := fun h => by have := hmem s.nodes.length (by simp [h]); omega
        have hdy : ys.Nodup := (List.nodup_cons.1 (List.nodup_cons.1 hd).2).2
        have hsum' : ((s.nodes.length :: ys).map (fun m => (wtAt a'.nodes m).toNat)).sum =
            (wtAt s.nodes a).toNat + ((wtAt s.nodes b).toNat + (ys.map (fun m => (wtAt s.nodes m).toNat)).sum) := by
          have h1 : ys.map (fun m => (wtAt a'.nodes m).toNat) = ys.map (fun m => (wtAt s.nodes m).toNat) :=
            List.map_congr_left fun m hm => by rw [hwtold m (hmem m (by simp [hm]))]
          rw [List.map_cons, List.sum_cons, h1, hwtnew, BitVec.toNat_add, Nat.mod_eq_of_lt (by omega)]
          omega
        let g : Nat → HTree := fun m => if m = s.nodes.length then .node (f a) (f b) else f m
        have hgy : ∀ m ∈ ys, g m = f m := fun m hm => by
          have : m ≠ s.nodes.length := fun h => hnew (h ▸ hm)
          simp [g, this]
        obtain ⟨s', r, u, h1, h2, h3, h4, h5, h6, h7, h8, h9, h10⟩ := ih
          { s.withArena a' with res0 := Word.ofNat s.nodes.length, res1 := wtAt s.nodes a + wtAt s.nodes b }
          (stableInsert (wtAt a'.nodes) s.nodes.length ys) g hch
          (hperm.nodup_iff.2 (List.nodup_cons.2 ⟨hnew, hdy⟩))
          (by
            intro m hm
            rcases List.mem_cons.1 (hperm.mem_iff.1 hm) with rfl | hm
            · have : g s.nodes.length = .node (f a) (f b) := by simp [g]
              rw [this]
              exact ⟨x, a, b, hx, by rw [hxe]; rfl, by rw [hxe]; rfl, by rw [hxe]; rfl, hholds _ _ (ht a (by simp)),
                hholds _ _ (ht b (by simp))⟩
            · rw [hgy m hm]; exact hholds _ _ (ht m (by simp [hm])))
          (by intro h; have := congrArg List.length h; simp at this)
          (by simp; omega)
          (by simp only [State.withArena, stableInsert_length, hlen]; omega)
          (by
            rw [(hperm.map _).sum_eq]
            simp only [State.withArena]
            rw [hsum']; exact hsum)
        simp only [State.withArena] at h6 h7 h9 h10
        refine ⟨s', r, u, h1, by rw [h2]; rfl, h3, h4, ?_, ?_, ?_, ?_, ?_, ?_⟩
        · refine h5.trans ((hperm.flatMap_right _).trans ?_)
          have : (ys.flatMap fun m => (g m).chars) = ys.flatMap fun m => (f m).chars :=
            List.flatMap_congr fun m hm => by rw [hgy m hm]
          simp only [List.flatMap_cons, this, g, if_true, HTree.chars, List.append_assoc]
          exact List.Perm.refl _
        · rw [h6, (hperm.map _).sum_eq, hsum']; simp
        · rw [h7]; simp [hlen]; omega
        · rcases h8 with h8 | h8
          · right
            have hl : ys.length = 0 := by have := congrArg List.length h8; simpa using this
            have hy : ys = [] := List.length_eq_zero_iff.1 hl
            subst hy
            have hr : r = s.nodes.length := by simpa [stableInsert] using h8.symm
            simp [stableInsert, hlen] at h7
            omega
          · exact .inr h8
        · intro m y hy
          obtain ⟨z, hz, he⟩ := hkeep m y hy
          obtain ⟨z', hz', he'⟩ := h9 m z hz
          exact ⟨z', hz', by rw [he', he]⟩
        · intro m y hm hy
          by_cases hm' : m = s.nodes.length
          · subst hm'
            obtain ⟨z, hz, he⟩ := h9 _ x hx
            rw [hy] at hz; cases hz
            refine ⟨a, b, ?_, ?_, ?_, hlt_a, hlt_b⟩ <;> rw [he, hxe] <;> rfl
          · exact h10 m y (by omega) hy

end Sys2Proof.Machine
end

