-- ==== Sys2Proof/Machine/Listing.lean ====
section
/-!
DEFINITION. The lines of a listing and the host operations they stand for (`spec/30_encoding.md` R117). The machine does
not read this file: it is how the spec writes what a host does.
-/

namespace Sys2Proof.Machine

/-- The number of a register (`spec/10_state.md` R38). -/
def Reg.number (r : Reg) : Nat := regTable.idxOf r

/-- A line of a listing that stands for a fixed sequence of operations (`spec/30_encoding.md` R117). -/
inductive Line where
  /-- A mnemonic with its operand. -/
  | command (i : Instr)
  /-- `WR name, value`. -/
  | wr (r : Reg) (v : Word)
  /-- `RD name`. -/
  | rd (r : Reg)
  /-- `LDTXT u0, …, u(k−1)`. -/
  | ldtxt (units : List CharUnit)
  /-- `LDFIL b0, …, b(k−1)`. -/
  | ldfil (bytes : List Byte)
  /-- `RDTXT`, when the read of TXT_LEN gives `k`. -/
  | rdtxt (k : Nat)
  /-- `RDFIL`, when the read of FIL_LEN gives `k`. -/
  | rdfil (k : Nat)
  deriving DecidableEq, Repr

/-- `WR name, value`. -/
def wrOp (r : Reg) (v : Nat) : HostOp := .write r.number (Word.ofNat v)

/-- For i = `i`, `i + 1`, …: `WR addr, i` then `WR data, v`. -/
def loadOps (addr data : Reg) (i : Nat) (values : List Nat) : List HostOp :=
  match values with
  | [] => []
  | v :: rest => wrOp addr i :: wrOp data v :: loadOps addr data (i + 1) rest

/-- For i = `i`, `i + 1`, …, k times: `WR addr, i` then `RD data`. -/
def dumpOps (addr data : Reg) (i k : Nat) : List HostOp :=
  match k with
  | 0 => []
  | j + 1 => wrOp addr i :: .read data.number :: dumpOps addr data (i + 1) j

/-- The host operations of a line (`spec/30_encoding.md` R117). -/
def Line.ops (l : Line) : List HostOp :=
  match l with
  | .command i => [.write 0 (encodeInstr i)]
  | .wr r v => [.write r.number v]
  | .rd r => [.read r.number]
  | .ldtxt units => loadOps .txtAddr .txtData 0 (units.map BitVec.toNat) ++ [wrOp .txtLen units.length]
  | .ldfil bytes => loadOps .filAddr .filData 0 (bytes.map BitVec.toNat) ++ [wrOp .filLen bytes.length]
  | .rdtxt k => .read Reg.txtLen.number :: dumpOps .txtAddr .txtData 0 k
  | .rdfil k => .read Reg.filLen.number :: dumpOps .filAddr .filData 0 k

/-- The host operations of a listing, in order: what stands in `State.pending` when the host issues it. -/
def listingOps (lines : List Line) : List HostOp := (lines.map Line.ops).flatten

/-- Host operations one after another (`spec/20_memory.md` R71). -/
def runOps (ops : List HostOp) (s : State) : Host.Outcome State Fault Refusal :=
  match ops with
  | [] => .next s
  | op :: rest =>
    match hostStep op s with
    | .next t => runOps rest t
    | .fault f => .fault f
    | .refused r => .refused r

/-- `REPEAT … UNTIL flag`, at most `k` turns: the host runs the lines, reads STATUS, and runs them again unless the named
flag is 1; `none` when `k` turns were not enough (`spec/30_encoding.md` R117). -/
def repeatUntil (k : Nat) (lines : List Line) (flag : Flags → Bool) (s : State) :
    Option (Host.Outcome State Fault Refusal) :=
  match k with
  | 0 => none
  | j + 1 =>
    match runOps (listingOps (lines ++ [.rd .status])) s with
    | .next t => if flag t.flags then some (.next t) else repeatUntil j lines flag t
    | .fault f => some (.fault f)
    | .refused r => some (.refused r)

end Sys2Proof.Machine
end

