-- ==== Sys2Proof/Tests/Slice0.lean ====
section
/-!
SUPPORT. The model's own tests: the words of the commands, one step of each command against an example of the spec, and
for each statement of `Certificates/Slice0/Obligations.lean` a concrete case that meets its hypotheses. Expected results
are taken from the spec's encodings (`spec/30_encoding.md`), from the examples of the rules and from the vectors of
`spec/95_test_vectors.md`.
-/

namespace Sys2Proof.Tests

open Sys2Proof Sys2Proof.Machine

/-! ## Helpers -/

/-- The command a word decodes to. -/
def decoded (w : Word) : Option Instr := (decodeWord w).toOption

/-- The next state, if there is one. -/
def nextOf (o : Host.Outcome State Fault Refusal) : Option State :=
  match o with
  | .next t => some t
  | .fault _ => none
  | .refused _ => none

/-- A view of the state after a command. -/
def after {α : Type} (i : Instr) (s : State) (view : State → α) : Option α := (nextOf (exec i s)).map view

/-- Kind, sub-cause and position of the last error. -/
def errOf (s : State) : ErrKind × Nat × Nat := (s.error.kind, s.error.sub.toNat, s.error.pos.toNat)

/-- The reset state with small capacities. -/
def blank (txtCap filCap : Nat) : State := { State.reset with caps := { txtCap := txtCap, filCap := filCap } }

/-- The text written to TXT from cell 0 on, with its length. -/
def withText (s : State) (text : List CharUnit) : State :=
  { s with txt := cellsPutAll [] 0 text, txtLen := Word.ofNat text.length }

/-- The bytes written to FIL from cell 0 on, with their number. -/
def withFile (s : State) (bytes : List Byte) : State :=
  { s with fil := cellsPutAll [] 0 bytes, filLen := Word.ofNat bytes.length }

/-- The bytes of the declared file. -/
def fileOf (s : State) : List Byte := (List.range s.filLen.toNat).map s.readFil

/-- File A, the encoding of "aaaa" (`spec/95_test_vectors.md` V2). -/
def fileA : List Byte := [0x00, 0x00, 0x03, 0x14, 0x80, 0x30, 0x80, 0x00]

/-- "abracadabra". -/
def abracadabra : List CharUnit := [0x61, 0x62, 0x72, 0x61, 0x63, 0x61, 0x64, 0x61, 0x62, 0x72, 0x61]

/-- A leaf that is no child. -/
def leafNode (c : CharUnit) (w : Word) (next : Option Nat) (inl : Bool) : Node :=
  { newLeaf c w with next := next, inl := inl }

/-- The list (1, 0) of weights (3, 5), and node 2 of weight 5 outside it (example of `spec/40_priority_list.md` R142). -/
def listed : State :=
  { blank 8 64 with
    nodes := [leafNode 0x41 5 none true, leafNode 0x42 3 (some 0) true, leafNode 0x43 5 none false], listHead := some 1 }

/-- The leaves and the list of "abracadabra" (example of `spec/41_tree_builder.md` R164). -/
def leaves : State :=
  { blank 16 64 with
    nodes := [leafNode 0x61 5 none true, leafNode 0x62 2 (some 4) true, leafNode 0x63 1 (some 3) true,
              leafNode 0x64 1 (some 1) true, leafNode 0x72 2 (some 0) true]
    listHead := some 2 }

/-- The tree of "ab" (`spec/95_test_vectors.md` V4). -/
def treeAB : State :=
  { blank 8 64 with
    nodes := [{ newLeaf 0x61 1 with child := true }, { newLeaf 0x62 1 with child := true },
              newInternal (some 0) (some 1) 2]
    root := some 2 }

/-- The tree of one leaf "a". -/
def treeA : State := { blank 8 64 with nodes := [newLeaf 0x61 4], root := some 0 }

/-- The header registers of file A (example of `spec/44_decoder.md` R241). -/
def headerA : Header := { ver := 0, tlen := 3, tbits := 1, xbits := 4, tend := 49, xstart := 56, xend := 60 }

/-- File A with its header parsed. -/
def parsedA (bytes : List Byte) : State :=
  { withFile (blank 8 64) bytes with flags := { Flags.zero with hdrv := true }, hdr := headerA }

/-! ## Well-formed terms (`spec/30_encoding.md` R101) -/

theorem test_wellFormed_refuses_plIns_above_field : (Instr.plIns 131072).wellFormed = false := by decide

theorem test_wellFormed_accepts_plIns_null : (Instr.plIns 131071).wellFormed = true := by decide

/-! ## Words, bit by bit from the encodings of `spec/30_encoding.md` R100, R102 -/

theorem test_decode_plIns : decoded 0b00010000000000001111000000001111#32 = some (.plIns 0xF00F) := by decide

theorem test_decode_plRmin : decoded 0b00010001000000000000000000000000#32 = some .plRmin := by decide

theorem test_decode_plOne : decoded 0b00010010000000000000000000000000#32 = some .plOne := by decide

theorem test_decode_tbLeaf : decoded 0b00100000000000000000000001000001#32 = some (.tbLeaf 0x0041) := by decide

theorem test_decode_tbCount : decoded 0b00100001000000000000000000000000#32 = some .tbCount := by decide

theorem test_decode_tbLeaves : decoded 0b00100010000000000000000000000000#32 = some .tbLeaves := by decide

theorem test_decode_tbMerge : decoded 0b00100011000000000000000000000000#32 = some .tbMerge := by decide

theorem test_decode_tbRoot : decoded 0b00100100000000000000000000000000#32 = some .tbRoot := by decide

theorem test_decode_tbBuild : decoded 0b00100101000000000000000000000000#32 = some .tbBuild := by decide

theorem test_decode_ctGen : decoded 0b00110000000000000000000000000000#32 = some .ctGen := by decide

theorem test_decode_ctLookup : decoded 0b00110001000000001111111111111111#32 = some (.ctLookup 0xFFFF) := by decide

theorem test_decode_enTree : decoded 0b01000000000000000000000000000000#32 = some .enTree := by decide

theorem test_decode_enText : decoded 0b01000001000000000000000000000000#32 = some .enText := by decide

theorem test_decode_enEmit : decoded 0b01000010000000000000000000000000#32 = some .enEmit := by decide

theorem test_decode_encode : decoded 0b01000011000000000000000000000000#32 = some .encode := by decide

theorem test_decode_deHdr : decoded 0b01010000000000000000000000000000#32 = some .deHdr := by decide

theorem test_decode_deTree : decoded 0b01010001000000000000000000000000#32 = some .deTree := by decide

theorem test_decode_deText : decoded 0b01010010000000000000000000000000#32 = some .deText := by decide

theorem test_decode_decode : decoded 0b01010011000000000000000000000000#32 = some .decode := by decide

theorem test_decode_nop : decoded 0b00000000000000000000000000000000#32 = some .nop := by decide

theorem test_decode_clr : decoded 0b00000001000000000000000000000000#32 = some .clr := by decide

/-- The illegal words of `spec/95_test_vectors.md` V25. -/
theorem test_decode_refuses_illegal_words :
    ([0x00000001, 0x02000000, 0x11000001, 0x10020000] ++ [0x20010041, 0x43800000, 0x54000000, 0xFFFFFFFF]).map decoded
      = List.replicate 8 none := by decide

/-! ## One step of each command -/

/-- Example of `spec/40_priority_list.md` R142: the list becomes (1, 0, 2). -/
theorem test_plIns_after_equal_weight :
    after (.plIns 2) listed (fun t => (t.listHead, t.nodes.map Node.next, t.nodes.map Node.inl)) =
      some (some 1, [some 2, some 0, none], [true, true, true]) := by decide

/-- `spec/95_test_vectors.md` V10: the NULL index is a legal word and BadState. -/
theorem test_plIns_null_is_badState :
    after (.plIns 131071) listed (fun t => (errOf t, t.nodes, t.listHead)) =
      some ((.badState, 0, 0), listed.nodes, listed.listHead) := by decide

/-- `spec/40_priority_list.md` R144. -/
theorem test_plRmin_takes_the_head :
    after .plRmin listed (fun t => (t.res0, t.res1, t.flags.empty, t.listHead, t.nodes[1]?)) =
      some (1, 3, false, some 0, some (leafNode 0x42 3 none false)) := by decide

/-- `spec/95_test_vectors.md` V13: an empty list gives NULL and EMPTY. -/
theorem test_plRmin_empty :
    after .plRmin (blank 8 8) (fun t => (t.res0, t.res1, t.flags.empty)) = some (0x1FFFF, 0, true) := by decide

/-- `spec/40_priority_list.md` R145: a list of two gives 0. -/
theorem test_plOne_two : after .plOne listed (fun t => t.flags.one) = some false := by decide

/-- Example of `spec/40_priority_list.md` R145. -/
theorem test_plOne_one :
    after .plOne { blank 8 8 with nodes := [leafNode 0x41 5 none true], listHead := some 0 } (fun t => t.flags.one) =
      some true := by decide

/-- Example of `spec/41_tree_builder.md` R161. -/
theorem test_tbLeaf_uses_warg :
    after (.tbLeaf 0x0041) { blank 8 8 with warg := 5 } (fun t => (t.res0, t.nodes)) =
      some (0, [leafNode 0x41 5 none false]) := by decide

/-- Example of `spec/41_tree_builder.md` R162. -/
theorem test_tbCount_abracadabra :
    after .tbCount (withText (blank 16 8) abracadabra) (fun t => t.freq) =
      some [(0x61, 5), (0x62, 2), (0x63, 1), (0x64, 1), (0x72, 2)] := by decide

/-- Example of `spec/41_tree_builder.md` R164: the list 2, 3, 1, 4, 0. -/
theorem test_tbLeaves_abracadabra :
    after .tbLeaves { blank 16 64 with freq := [(0x61, 5), (0x62, 2), (0x63, 1), (0x64, 1), (0x72, 2)] }
      (fun t => (t.nodes, t.listHead)) = some (leaves.nodes, leaves.listHead) := by decide

/-- Example of `spec/41_tree_builder.md` R166: node 5 = (2, 3), the list 1, 4, 5, 0. -/
theorem test_tbMerge_abracadabra :
    after .tbMerge leaves (fun t => (t.res0, t.res1, t.listHead, t.nodes.map Node.next)) =
      some (5, 2, some 1, [none, some 4, none, none, some 5, some 0]) := by decide

/-- `spec/95_test_vectors.md` V11 (a): a sum over 32 bits changes nothing. -/
theorem test_tbMerge_overflow :
    let s := { blank 8 8 with
      nodes := [leafNode 1 0xFFFFFFFF none true, leafNode 2 1 (some 0) true], listHead := some 1, res0 := 1 }
    after .tbMerge s (fun t => (errOf t, t.nodes, t.listHead, t.res0)) =
      some ((.badState, 0, 0), s.nodes, s.listHead, 1) := by decide

/-- `spec/41_tree_builder.md` R168, the end of `spec/95_test_vectors.md` V10. -/
theorem test_tbRoot_one :
    after .tbRoot { blank 8 8 with nodes := [leafNode 0x41 5 none true], listHead := some 0 }
      (fun t => (t.root, t.listHead, t.res0, t.res1, t.nodes)) =
      some (some 0, none, 0, 5, [leafNode 0x41 5 none false]) := by decide

/-- `spec/95_test_vectors.md` V4. -/
theorem test_tbBuild_ab :
    after .tbBuild (withText (blank 8 64) [0x61, 0x62]) (fun t => (t.root, t.nodes, t.listHead)) =
      some (some 2, treeAB.nodes, none) := by decide

/-- `spec/95_test_vectors.md` V9 (c). -/
theorem test_tbBuild_empty :
    after .tbBuild (blank 8 64) errOf = some (.invalidArgument, 0, 0) := by decide

/-- `spec/95_test_vectors.md` V4: a = (0, 1), b = (1, 1). -/
theorem test_ctGen_ab :
    after .ctGen treeAB (fun t => (t.ctab, t.ncodes)) =
      some ([(0x61, { code := 0, len := 1 }), (0x62, { code := 1, len := 1 })], 2) := by decide

/-- `spec/95_test_vectors.md` V11 (c): the leaf visited later overwrites, counted once. -/
theorem test_ctGen_same_character :
    after .ctGen { treeAB with
      nodes := [newLeaf 0x41 0, newLeaf 0x41 0, newInternal (some 1) (some 0) 0] }
      (fun t => (t.ctab, t.ncodes)) = some ([(0x41, { code := 1, len := 1 })], 1) := by decide

/-- `spec/95_test_vectors.md` V12. -/
theorem test_ctLookup_found :
    after (.ctLookup 0x62) { blank 8 8 with ctab := [(0x62, { code := 6, len := 3 })] }
      (fun t => (t.flags.found, t.res0, t.res1)) = some (true, 6, 3) := by decide

/-- `spec/95_test_vectors.md` V12: no code. -/
theorem test_ctLookup_missing :
    after (.ctLookup 0x7A) { blank 8 8 with ctab := [(0x62, { code := 6, len := 3 })] }
      (fun t => (t.flags.found, t.res0, t.res1)) = some (false, 0, 0) := by decide

/-- Example of `spec/43_encoder.md` R211: TBUF is 1 0000000001100001. -/
theorem test_enTree_one_leaf :
    after .enTree treeA (fun t => t.tbuf) = some ([true] ++ List.replicate 9 false ++ [true, true, false, false]
      ++ [false, false, true]) := by decide

/-- Example of `spec/43_encoder.md` R213, its first two characters: XBUF begins 0 110. -/
theorem test_enText_joins_codes :
    after .enText { withText (blank 8 8) [0x61, 0x62] with
      ctab := [(0x61, { code := 0, len := 1 }), (0x62, { code := 6, len := 3 })] } (fun t => t.xbuf) =
      some [false, true, true, false] := by decide

/-- `spec/95_test_vectors.md` V14: the index of the character without a code. -/
theorem test_enText_missing_code :
    after .enText { withText (blank 8 8) [0x61, 0x7A] with
      ctab := [(0x61, { code := 0, len := 1 })], xbuf := [true] } (fun t => (errOf t, t.xbuf)) =
      some ((.badState, 0, 1), []) := by decide

/-- Example of `spec/43_encoder.md` R216: file A. -/
theorem test_enEmit_fileA :
    after .enEmit { blank 8 8 with
      tbuf := (HTree.leaf 0x61).ser, xbuf := List.replicate 4 false, txtLen := 4 }
      (fun t => (fileOf t, t.stats)) = some (fileA, { chars := 4, metaB := 4, tree := 3, text := 1 }) := by decide

/-- `spec/43_encoder.md` R217: one byte too few. -/
theorem test_enEmit_storageError :
    after .enEmit { blank 8 7 with
      tbuf := (HTree.leaf 0x61).ser, xbuf := List.replicate 4 false, filLen := 3 }
      (fun t => (errOf t, t.fil, t.filLen)) = some ((.storageError, 0, 0), [], 3) := by decide

/-- `spec/95_test_vectors.md` V4. -/
theorem test_encode_ab :
    after .encode (withText (blank 8 64) [0x61, 0x62]) fileOf =
      some [0x00, 0x00, 0x05, 0x32, 0x40, 0x18, 0x60, 0x0C, 0x40, 0x40] := by decide

/-- `spec/95_test_vectors.md` V9 (a): the empty text writes no cell. -/
theorem test_encode_empty :
    after .encode { withFile (blank 8 64) [0x09, 0x09, 0x09] with txtLen := 0 }
      (fun t => (errOf t, t.filLen, t.readFil 0, t.root)) = some ((.ok, 0, 0), 0, 0x09, none) := by decide

/-- Example of `spec/44_decoder.md` R241. -/
theorem test_deHdr_fileA :
    after .deHdr (withFile (blank 8 64) fileA) (fun t => (t.hdr, t.flags.hdrv, t.flags.fempty)) =
      some (headerA, true, false) := by decide

/-- `spec/95_test_vectors.md` V16, row H5: the version is tested before the tree length. -/
theorem test_deHdr_version_first :
    after .deHdr (withFile (blank 8 64) [0x04, 0x00, 0x00, 0x14, 0x80, 0x30, 0x80, 0x00])
      (fun t => (errOf t, t.hdr, t.flags.hdrv)) = some ((.unsupportedVersion, 0, 0), Header.zero, false) := by decide

/-- Example of `spec/44_decoder.md` R249. -/
theorem test_deTree_fileA :
    after .deTree (parsedA fileA) (fun t => (t.nodes, t.root, t.rcur)) = some ([newLeaf 0x61 0], some 0, 49) := by decide

/-- `spec/95_test_vectors.md` V17, row T2: the character is cut off at offset 34. -/
theorem test_deTree_overrun :
    after .deTree (parsedA [0x00, 0x00, 0x03, 0x14, 0x40, 0x18, 0x40, 0x00])
      (fun t => (errOf t, t.nodes, t.root, t.rcur)) = some ((.corruptFormat, 6, 34), [], none, 34) := by decide

/-- Example of `spec/44_decoder.md` R254. -/
theorem test_deText_fileA :
    after .deText { parsedA fileA with nodes := [newLeaf 0x61 0], root := some 0 } (fun t => (t.text, t.rcur)) =
      some ([0x61, 0x61, 0x61, 0x61], 60) := by decide

/-- `spec/95_test_vectors.md` V18, row X1: the last valid bit is 1; three cells were written. -/
theorem test_deText_one_bit :
    after .deText { parsedA [0x00, 0x00, 0x03, 0x14, 0x80, 0x30, 0x80, 0x10] with
      nodes := [newLeaf 0x61 0], root := some 0 } (fun t => (errOf t, t.txtLen, t.rcur, t.txt)) =
      some ((.corruptFormat, 9, 59), 0, 59, [(0, 0x61), (1, 0x61), (2, 0x61)]) := by decide

/-- `spec/95_test_vectors.md` V17, row T12: both leaves carry 0x0061. -/
theorem test_decode_command_T12 :
    after .decode (withFile (blank 8 64) [0x00, 0x00, 0x05, 0x32, 0x40, 0x18, 0x60, 0x0C, 0x20, 0x40])
      (fun t => (errOf t, t.text, t.nodes.length, t.rcur)) = some ((.ok, 0, 0), [0x61, 0x61], 3, 74) := by decide

/-- `spec/95_test_vectors.md` V18, row X8: the fourth character does not fit. -/
theorem test_decode_command_X8 :
    after .decode (withFile (blank 3 64) fileA) (fun t => (errOf t, t.txtLen, t.status)) =
      some ((.storageError, 0, 59), 0, 0x082) := by decide

/-- Example of `spec/45_control.md` R281. -/
theorem test_nop_clears_the_record :
    after .nop { treeA with error := { kind := .corruptFormat, sub := 9, pos := 59 } } id = some treeA := by decide

/-- `spec/95_test_vectors.md` V27: CLR keeps the host's registers and the memories. -/
theorem test_clr :
    after .clr { withText treeAB [0x61, 0x62] with warg := 9, frqAddr := 0x61, rcur := 7, freq := [(0x61, 5)] } id =
      some { withText (blank 8 64) [0x61, 0x62] with warg := 9, frqAddr := 0x61 } := by decide

/-- `spec/95_test_vectors.md` P2, step 11: a write of STATUS is refused. -/
theorem test_write_status_refused :
    (nextOf (hostStep (.write 1 0) treeA)).map (fun t => (t.answers, t.error)) =
      some ([.herr], treeA.error) := by decide

/-- `spec/95_test_vectors.md` V10: NODE_INFO of a listed leaf. -/
theorem test_read_node_info :
    (nextOf (hostStep (.read 33) { listed with nodeAddr := 0 })).map State.answers = some [.value 0x30041] := by decide

/-- `spec/30_encoding.md` R117: the operations of `LDTXT "a"` and of `RDFIL` for two bytes. -/
theorem test_listing_expansions :
    listingOps [.ldtxt [0x61], .rdfil 2, .command (.tbLeaf 0x41)] =
      [.write 9 0, .write 10 0x61, .write 8 1, .read 11] ++ [.write 12 0, .read 13, .write 12 1, .read 13]
        ++ [.write 0 0x20000041] := by decide

/-- `spec/95_test_vectors.md` P3: the merge loop of "ab", `REPEAT TB.MERGE, PL.ONE UNTIL ONE`. -/
theorem test_listing_repeat :
    ((repeatUntil 2 [.command .tbMerge, .command .plOne] Flags.one
      { listed with nodes := listed.nodes.take 2 }).bind nextOf).map (fun t => (t.nodes.length, t.flags.one, t.listHead)) =
      some (3, true, some 2) := by decide

/-- The first step of the machine after `withFetchWord` runs the word: TB.LEAF 0x0041. -/
theorem test_withFetchWord_runs_first :
    (nextOf (step (State.reset.withFetchWord 32 0x20000041))).map (fun t => (t.nodes.length, t.answers)) =
      some (1, [.ok]) := by decide

/-! ## Checkers for the hypotheses -/

/-- The nodes met from `r` along NEXT, in at most `k` steps. -/
def walk (nodes : List Node) (k : Nat) (r : Option Nat) : Option (List Nat) :=
  match k, r with
  | _, none => some []
  | 0, some _ => none
  | k + 1, some n =>
    match nodes[n]? with
    | none => none
    | some x => (walk nodes k x.next).map (n :: ·)

theorem chain_of_walk {nodes : List Node} : ∀ {k : Nat} {r : Option Nat} {xs : List Nat},
    walk nodes k r = some xs → Chain nodes r xs := by
  intro k
  induction k with
  | zero => intro r xs h; cases r <;> simp [walk] at h; subst h; rfl
  | succ k ih =>
    intro r xs h
    cases r with
    | none => simp [walk] at h; subst h; rfl
    | some n =>
      simp only [walk] at h
      split at h
      · simp at h
      · rename_i x hx
        obtain ⟨ys, hy, rfl⟩ := Option.map_eq_some_iff.1 h
        exact ⟨rfl, x, hx, ih hy⟩

theorem listIs_of_walk {s : State} {xs : List Nat} (h : walk s.nodes s.nodes.length s.listHead = some xs)
    (hd : xs.Nodup) (hm : ∀ n ∈ xs, (s.nodes[n]?).any Node.inl = true) : ListIs s xs := by
  refine ⟨chain_of_walk h, hd, fun n hn => ?_⟩
  have := hm n hn
  cases hx : s.nodes[n]? with
  | none => simp [hx] at this
  | some x => exact ⟨x, rfl, by simpa [hx] using this⟩

/-- The tree under node `n`, at most `k` deep. -/
def treeAt (nodes : List Node) (k n : Nat) : Option HTree :=
  match k with
  | 0 => none
  | k + 1 =>
    match nodes[n]? with
    | none => none
    | some x =>
      if x.leaf then some (.leaf x.ch)
      else
        match x.left, x.right with
        | some a, some b =>
          match treeAt nodes k a, treeAt nodes k b with
          | some l, some r => some (.node l r)
          | _, _ => none
        | _, _ => none

theorem holds_of_treeAt {nodes : List Node} : ∀ {k n : Nat} {u : HTree}, treeAt nodes k n = some u → HoldsTree nodes n u := by
  intro k
  induction k with
  | zero => intro n u h; simp [treeAt] at h
  | succ k ih =>
    intro n u h
    simp only [treeAt] at h
    split at h
    · simp at h
    rename_i x hx
    split at h
    · rename_i hl; simp at h; subst h; exact ⟨x, hx, hl, rfl⟩
    · rename_i hl
      split at h
      · rename_i a b ha hb
        split at h
        · rename_i l r hl' hr'
          simp at h; subst h
          exact ⟨x, a, b, hx, by simpa using hl, ha, hb, ih hl', ih hr'⟩
        · simp at h
      · simp at h

theorem memoryInv_of_check {s : State} (h : s.caps.Legal ∧ Memory.wf s.caps.txtCap s.txt ∧ Memory.wf s.caps.filCap s.fil ∧
    s.txtLen.toNat ≤ s.caps.txtCap ∧ s.filLen.toNat ≤ s.caps.filCap ∧ s.txtAddr.toNat < s.caps.txtCap ∧
    (s.filAddr.toNat < s.caps.filCap ∨ (s.caps.filCap = 0 ∧ s.filAddr = 0)) ∧ s.nodeAddr.toNat < Config.nodeMax) :
    MemoryInv s := by
  obtain ⟨a, b, c, d, e, f, g, i⟩ := h
  exact ⟨a, b, c, d, e, f, g, i⟩

theorem tableInv_of_check {s : State} (h : Table.wf 0 Config.nchar s.freq ∧ Table.wf CodeEntry.absent Config.nchar s.ctab ∧
    (∀ c ∈ s.ctab, 1 ≤ c.2.len.toNat ∧ c.2.len.toNat ≤ 16 ∧ c.2.code.toNat < 2 ^ c.2.len.toNat) ∧
    s.ncodes.toNat = s.ctab.length) : TableInv s := by
  obtain ⟨a, b, c, d⟩ := h
  exact ⟨a, b, c, d⟩

theorem next_of_nextOf {o : Host.Outcome State Fault Refusal} (P : State → Bool)
    (h : (nextOf o).any P = true) : ∃ t, o = .next t ∧ P t = true := by
  cases o with
  | next t => exact ⟨t, rfl, by simpa [nextOf] using h⟩
  | fault f => simp [nextOf] at h
  | refused r => simp [nextOf] at h

/-- A state with a tree of two leaves under ROOT, one listed leaf, a code table, counts, file A with its header parsed,
the text "ab", and the CMD write of ENCODE issued. -/
def busy : State :=
  { withText (parsedA fileA) [0x61, 0x62] with
    pending := [.write 0 0x43000000]
    nodes := [{ newLeaf 0x61 1 with child := true }, { newLeaf 0x62 1 with child := true },
              newInternal (some 0) (some 1) 2, leafNode 0x63 4 none true]
    listHead := some 3
    root := some 2
    freq := [(0x61, 1), (0x62, 1)]
    ctab := [(0x61, { code := 0, len := 1 }), (0x62, { code := 1, len := 1 })]
    ncodes := 2 }

theorem busy_memory : MemoryInv busy := memoryInv_of_check (by decide)

theorem busy_tables : TableInv busy := tableInv_of_check (by decide)

theorem busy_arena : ArenaInv busy where
  fits := by decide
  fields := by
    intro n x h hl
    rcases n with _ | _ | _ | _ | n <;> simp [busy] at h <;> subst h <;> simp_all [newLeaf, newInternal, leafNode]
  twoOrNone := by
    intro n x h
    rcases n with _ | _ | _ | _ | n <;> simp [busy] at h <;> subst h <;>
      simp_all [newLeaf, newInternal, leafNode, busy]
  oneParent := by
    intro n m m' y y' h h' hn hn'
    rcases m with _ | _ | _ | _ | m <;> simp [busy] at h <;> subst h <;> simp [newLeaf, newInternal, leafNode] at hn
    rcases m' with _ | _ | _ | _ | m' <;> simp [busy] at h' <;> subst h' <;> simp [newLeaf, newInternal, leafNode] at hn'
    rfl
  childIff := by
    intro n x h
    constructor
    · intro hc
      refine ⟨2, newInternal (some 0) (some 1) 2, rfl, ?_⟩
      rcases n with _ | _ | _ | _ | n <;> simp [busy] at h <;> subst h <;>
        simp_all [newLeaf, newInternal, leafNode]
    · rintro ⟨m, y, hy, hn⟩
      rcases m with _ | _ | _ | _ | m <;> simp [busy] at hy <;> subst hy <;>
        simp [newLeaf, newInternal, leafNode] at hn
      rcases hn with rfl | rfl <;> simp [busy] at h <;> subst h <;> rfl
  forest := by
    intro n hn
    have h4 : n < 4 := hn
    rcases n with _ | _ | _ | _ | n
    · exact ⟨_, holds_of_treeAt (k := 4) rfl⟩
    · exact ⟨_, holds_of_treeAt (k := 4) rfl⟩
    · exact ⟨_, holds_of_treeAt (k := 4) rfl⟩
    · exact ⟨_, holds_of_treeAt (k := 4) rfl⟩
    · omega
  list := by
    refine ⟨[3], listIs_of_walk rfl (by decide) (by decide), ?_, by simp⟩
    intro n x h hi
    rcases n with _ | _ | _ | _ | n <;> simp [busy] at h <;> subst h <;> simp_all [newLeaf, newInternal, leafNode]
  childUnlisted := by
    intro n x h hc
    rcases n with _ | _ | _ | _ | n <;> simp [busy] at h <;> subst h <;> simp_all [newLeaf, newInternal, leafNode]
  unlinked := by
    intro n x h hi
    rcases n with _ | _ | _ | _ | n <;> simp [busy] at h <;> subst h <;> simp_all [newLeaf, newInternal, leafNode]
  rootIn := by
    intro r h
    simp [busy] at h; subst h; decide

theorem busy_header : HeaderInv busy where
  zero := by intro h; exact absurd h (by decide)
  emptyFile := by intro h; exact absurd h (by decide)
  version := rfl
  tlen := fun _ => by decide
  tbits := fun _ => by decide
  xbits := fun _ => by decide
  tend := fun _ => by decide
  xstart := fun _ => by decide
  xend := fun _ => by decide

theorem busy_safe : SafeState busy :=
  ⟨busy_memory, busy_tables, busy_arena, busy_header⟩

/-! ## A case that meets the hypotheses of each statement -/

theorem witness_DecodeOfEncode : (Instr.plIns 131071).wellFormed = true ∧ (Instr.ctLookup 0xFFFF).wellFormed = true := by
  decide

theorem witness_EncodeOfDecode : decodeWord 0x1001FFFF = .ok (.plIns 131071) := rfl

theorem witness_WordsMatchTheCommandList :
    ((0x10000000, 0xFFFE0000, .plIns 131071) : Word × Word × Instr) ∈ commandRows 0x1001FFFF := by decide

/-- An opcode that is not listed, and a must-be-zero bit of each format (`spec/95_test_vectors.md` V25). -/
theorem witness_IllegalWordRule : illegalWord 0x02000000 ∧ illegalWord 0x43800000 ∧ illegalWord 0x10020000 ∧
    illegalWord 0x20010041 := ⟨by decide, by decide, by decide, by decide⟩

theorem witness_StepRunsDecodedCommand : busy.pending = [.write 0 0x43000000] ∧ decodeWord 0x43000000 = .ok .encode ∧
    decodeTableWord 32 0x43000000 = some .encode := ⟨rfl, rfl, rfl⟩

theorem witness_StepServesTheOldestOperation : busy.pending = [.write 0 0x43000000] ∧ (blank 8 64).pending = [] :=
  ⟨rfl, rfl⟩

/-- The greatest accepted values of `spec/95_test_vectors.md` V26. -/
theorem witness_RegisterWrites : (8 : Word).toNat ≤ busy.caps.txtCap ∧ (7 : Word).toNat < busy.caps.txtCap ∧
    (64 : Word).toNat ≤ busy.caps.filCap ∧ (63 : Word).toNat < busy.caps.filCap ∧ (131070 : Word).toNat < 131071 ∧
    (65535 : Word).toNat ≤ 65535 := by decide

theorem blank_memory (txtCap filCap : Nat) (h : 1 ≤ txtCap) (h' : txtCap ≤ 2 ^ 28 - 1) (h'' : filCap ≤ 2 ^ 29 - 1) :
    MemoryInv (blank txtCap filCap) where
  caps := ⟨h, h', h''⟩
  txt := ⟨.nil, by simp [blank, State.reset]⟩
  fil := ⟨.nil, by simp [blank, State.reset]⟩
  txtLen := by simp [blank, State.reset]
  filLen := by simp [blank, State.reset]
  txtAddr := by simp [blank, State.reset]; omega
  filAddr := by
    by_cases h0 : filCap = 0
    · exact .inr ⟨by simp [blank, h0], rfl⟩
    · left; simp [blank, State.reset]; omega
  nodeAddr := by simp [blank, State.reset]

/-- Refused reads: a number above 39, CMD, FIL_DATA without a cell, a NODE window beyond NODE_CNT; and reads that are
not refused. -/
theorem witness_HerrRefusesExactlyThese_reads : MemoryInv busy ∧ MemoryInv (blank 8 0) ∧ readRefused busy 40 ∧
    readRefused busy 0 ∧ readRefused (blank 8 0) 13 ∧ readRefused (blank 8 0) 33 ∧ readRefused (blank 8 0) 37 ∧
    ¬ readRefused busy 39 ∧ ¬ readRefused busy 33 ∧ ¬ readRefused busy 13 :=
  ⟨busy_memory, blank_memory 8 0 (by decide) (by decide) (by decide), by decide, by decide, by decide,
    by decide, by decide, by decide, by decide, by decide⟩

/-- Refused writes: the least refused value of each register; and the greatest value that is not refused. -/
theorem witness_HerrRefusesExactlyThese_writes :
    (∀ p ∈ ([(40, 0), (1, 0), (7, 0), (14, 0), (31, 0), (33, 0), (37, 0), (39, 0), (8, 9), (9, 8), (10, 0x10000), (11, 65),
        (12, 64), (13, 0x100), (32, 131071), (38, 65536)] : List (Nat × Word)), writeRefused busy p.1 p.2) ∧
    writeRefused (blank 8 0) 13 0 ∧ writeRefused (blank 8 0) 12 0 ∧
    (∀ p ∈ ([(5, 0xFFFFFFFF), (8, 8), (9, 7), (10, 0xFFFF), (11, 64), (12, 63), (13, 0xFF), (32, 131070), (38, 65535)]
      : List (Nat × Word)), ¬ writeRefused busy p.1 p.2 ∧ p.1 ≠ 0) :=
  ⟨by decide, by decide, by decide, by decide⟩

theorem witness_HerrRefusesExactlyThese_cmd :
    (∃ t, hostStep (.write 0 0x43000000) busy = .next t) ∧ illegalWord 0x43800000 :=
  ⟨(next_of_nextOf (fun _ => true) (by decide)).imp fun _ h => h.1, by decide⟩

/-- The greatest values, and the first cell of each memory that nothing has written. -/
theorem witness_HostLoadsAndStores : MemoryInv busy ∧ (0xFFFF : Word).toNat ≤ 0xFFFF ∧ 0 < busy.caps.filCap ∧
    (0xFF : Word).toNat ≤ 0xFF ∧ (∀ u, (2, u) ∉ busy.txt) ∧ (∀ u, (8, u) ∉ busy.fil) := by
  refine ⟨busy_memory, by decide, by decide, by decide, fun u h => ?_, fun u h => ?_⟩
  · exact absurd rfl ((by decide : ∀ c ∈ busy.txt, c.1 ≠ 2) _ h)
  · exact absurd rfl ((by decide : ∀ c ∈ busy.fil, c.1 ≠ 8) _ h)

theorem witness_DebugWindows : 131071 ≤ (131071 : Word).toNat ∧ (131070 : Word).toNat < 131071 ∧
    65535 < (65536 : Word).toNat ∧ (65535 : Word).toNat ≤ 65535 ∧
    (blank 8 64).nodes.length ≤ (blank 8 64).nodeAddr.toNat ∧ (∃ x, busy.nodes[busy.nodeAddr.toNat]? = some x) ∧
    (∃ t, exec .clr busy = .next t) :=
  ⟨by decide, by decide, by decide, by decide, by decide, ⟨_, rfl⟩, ⟨_, rfl⟩⟩

/-! ### The priority list -/

theorem listed_list : ListIs listed [1, 0] := listIs_of_walk rfl (by decide) (by decide)

theorem leaves_list : ListIs leaves [2, 3, 1, 4, 0] := listIs_of_walk rfl (by decide) (by decide)

/-- A node that is not allocated (NULL), one in the list, a child, and one that can be inserted. -/
theorem witness_PlInsRule : ListIs listed [1, 0] ∧ listed.nodes[131071]? = none ∧
    (∃ x, listed.nodes[0]? = some x ∧ x.inl = true) ∧
    ListIs busy [3] ∧ (∃ x, busy.nodes[0]? = some x ∧ x.child = true) ∧
    (∃ x, listed.nodes[2]? = some x ∧ x.inl = false ∧ x.child = false) :=
  ⟨listed_list, rfl, ⟨_, rfl, rfl⟩, listIs_of_walk rfl (by decide) (by decide), ⟨_, rfl, rfl⟩, ⟨_, rfl, rfl, rfl⟩⟩

theorem witness_PlRminRule : (blank 8 64).listHead = none ∧ ListIs listed [1, 0] := ⟨rfl, listed_list⟩

/-- Lists of no node, one node and two nodes. -/
theorem witness_PlOneRule : ListIs (blank 8 64) [] ∧ ListIs busy [3] ∧ ListIs listed [1, 0] :=
  ⟨listIs_of_walk rfl (by decide) (by decide), listIs_of_walk rfl (by decide) (by decide), listed_list⟩

theorem witness_PlInsKeepsTheListSorted : ListIs listed [1, 0] ∧
    [1, 0].Pairwise (fun a b => wtAt listed.nodes a ≤ wtAt listed.nodes b) ∧ ∃ t, exec (.plIns 2) listed = .next t :=
  ⟨listed_list, by decide, (next_of_nextOf (fun _ => true) (by decide)).imp fun _ h => h.1⟩

/-! ### The tree builder -/

/-- The arena one node before it is full, and full. -/
theorem witness_TbLeafRule :
    ({ blank 8 64 with nodes := List.replicate 131070 (newLeaf 0 0) } : State).nodes.length < 131071 ∧
    131071 ≤ ({ blank 8 64 with nodes := List.replicate 131071 (newLeaf 0 0) } : State).nodes.length := by
  constructor <;> rw [List.length_replicate]; decide

theorem witness_TbCountRule : busy.txtLen.toNat ≤ busy.caps.txtCap := by decide

theorem witness_TbLeavesRule : TableInv busy := busy_tables

/-- Fewer than two nodes, a sum over 32 bits, a full arena, and a list that can be merged. -/
theorem witness_TbMergeRule : ListIs busy [3] ∧
    ListIs { listed with nodes := [leafNode 1 0xFFFFFFFF none true, leafNode 2 1 (some 0) true] } [1, 0] ∧
    0xFFFFFFFF < (wtAt [leafNode 1 0xFFFFFFFF none true, leafNode 2 1 (some 0) true] 1).toNat
      + (wtAt [leafNode 1 0xFFFFFFFF none true, leafNode 2 1 (some 0) true] 0).toNat ∧
    131071 ≤ (leaves.nodes ++ List.replicate 131066 (newLeaf 0 0)).length ∧
    ListIs leaves [2, 3, 1, 4, 0] ∧ leaves.nodes.length < 131071 ∧
    (wtAt leaves.nodes 2).toNat + (wtAt leaves.nodes 3).toNat ≤ 0xFFFFFFFF :=
  ⟨listIs_of_walk rfl (by decide) (by decide), listIs_of_walk rfl (by decide) (by decide), by decide,
    by rw [List.length_append, List.length_replicate]; decide, leaves_list, by decide, by decide⟩

theorem witness_TbRootRule : ListIs (blank 8 64) [] ∧ ListIs listed [1, 0] ∧ ListIs busy [3] :=
  ⟨listIs_of_walk rfl (by decide) (by decide), listed_list, listIs_of_walk rfl (by decide) (by decide)⟩

theorem witness_TbBuildRule : (blank 8 64).txtLen = 0 ∧ busy.txtLen ≠ 0 ∧ busy.txtLen.toNat ≤ busy.caps.txtCap := by decide

theorem witness_TbBuildShape : busy.txtLen ≠ 0 ∧ busy.txtLen.toNat ≤ busy.caps.txtCap ∧
    ∃ t, exec .tbBuild busy = .next t :=
  ⟨by decide, by decide, (next_of_nextOf (fun _ => true) (by decide)).imp fun _ h => h.1⟩

/-! ### The code table -/

/-- A tree whose deepest leaves lie at depth `k`, one leaf at each depth above. -/
def comb (k : Nat) : HTree :=
  match k with
  | 0 => .leaf 0
  | j + 1 => .node (.leaf (BitVec.ofNat 16 (j + 1))) (comb j)

/-- The arena of a decoded tree, with its root. -/
def holding (u : HTree) : State := { blank 8 64 with nodes := u.preorder 0 false, root := some 0 }

theorem holding_holds (u : HTree) : HoldsTree (holding u).nodes 0 u := by
  have h := preorder_holds u [] [] false
  simpa [holding] using h

theorem busy_tree : HoldsTree busy.nodes 2 (.node (.leaf 0x61) (.leaf 0x62)) := holds_of_treeAt (k := 4) rfl

/-- No tree, a tree of one leaf, and the deepest accepted tree, depth 16. -/
theorem witness_CtGenRule : (blank 8 64).root = none ∧
    (HoldsTree treeA.nodes 0 (.leaf 0x61) ∧ ∀ p ∈ (HTree.leaf 0x61).codes, p.2.length ≤ 16) ∧
    (HoldsTree (holding (comb 16)).nodes 0 (comb 16) ∧ ∀ p ∈ (comb 16).codes, p.2.length ≤ 16) ∧
    lastPath (comb 16).codes 0 = some (List.replicate 16 true) ∧ (17 : CharUnit) ∉ (comb 16).chars :=
  ⟨rfl, ⟨holds_of_treeAt (k := 1) rfl, by decide⟩, ⟨holding_holds _, by decide⟩, by decide, by decide⟩

/-- The least refused depth, 17: its first leaf in preorder is character 1. -/
theorem witness_CtGenOverflowRule : HoldsTree (holding (comb 17)).nodes 0 (comb 17) ∧
    (comb 17).codes.find? (fun q => decide (16 < q.2.length)) = some (1, List.replicate 16 true ++ [false]) ∧
    ∃ t, exec .ctGen busy = .next t :=
  ⟨holding_holds _, by decide, (next_of_nextOf (fun _ => true) (by decide)).imp fun _ h => h.1⟩

theorem witness_CtGenPrefixFree : busy.root = some 2 ∧ HoldsTree busy.nodes 2 (.node (.leaf 0x61) (.leaf 0x62)) ∧
    (HTree.node (.leaf 0x61) (.leaf 0x62)).chars.Nodup ∧ 2 ≤ (HTree.node (.leaf 0x61) (.leaf 0x62)).leafCount ∧
    (∃ t, exec .ctGen busy = .next t ∧ decide (t.error.kind = .ok ∧ (entryOf t.ctab 0x61).len ≠ 0 ∧
      (entryOf t.ctab 0x62).len ≠ 0) = true) :=
  ⟨rfl, busy_tree, by decide, by decide, next_of_nextOf _ (by decide)⟩

/-! ### The encoder -/

theorem witness_EnTreeRule : (blank 8 64).root = none ∧ busy.root = some 2 ∧
    HoldsTree busy.nodes 2 (.node (.leaf 0x61) (.leaf 0x62)) := ⟨rfl, rfl, busy_tree⟩

theorem text_withText (s : State) (text : List CharUnit) (h : text.length < 2 ^ 32) : (withText s text).text = text := by
  have hn : (withText s text).txtLen.toNat = text.length := by
    simp only [withText, Word.ofNat, BitVec.toNat_ofNat, Nat.mod_eq_of_lt h]
  apply List.ext_getElem?
  intro i
  by_cases hi : i < text.length
  · rw [State.text, textFrom_get _ _ _ _ (by omega)]
    simp [State.readTxt, withText, cellsGet?_putAll, hi]
  · rw [List.getElem?_eq_none (by simpa using by omega), List.getElem?_eq_none (by omega)]

theorem busy_text : busy.text = [0x61, 0x62] := by decide +kernel

/-- A text in which each character has a code, and one whose second character is the first without one. -/
theorem witness_EnTextRule : busy.txtLen.toNat ≤ busy.caps.txtCap ∧
    (∀ c ∈ busy.text, (entryOf busy.ctab c).len ≠ 0) ∧
    (withText busy [0x61, 0x7A]).txtLen.toNat ≤ busy.caps.txtCap ∧
    (withText busy [0x61, 0x7A]).text[1]? = some 0x7A ∧ (entryOf busy.ctab 0x7A).len = 0 ∧
    ∀ (j : Nat) (d : CharUnit), j < 1 → (withText busy [0x61, 0x7A]).text[j]? = some d → (entryOf busy.ctab d).len ≠ 0 := by
  have ht : (withText busy [0x61, 0x7A]).text = [0x61, 0x7A] := text_withText _ _ (by decide)
  have h1 : (entryOf busy.ctab 0x61).len ≠ 0 := by decide
  have h2 : (entryOf busy.ctab 0x62).len ≠ 0 := by decide
  have h3 : (entryOf busy.ctab 0x7A).len = 0 := by decide
  have h4 : ∀ c ∈ busy.text, (entryOf busy.ctab c).len ≠ 0 := by
    intro c hc
    rw [busy_text] at hc
    rcases List.mem_cons.1 hc with rfl | hc
    · exact h1
    · rcases List.mem_cons.1 hc with rfl | hc
      · exact h2
      · simp at hc
  refine ⟨by decide, h4, by decide, by rw [ht]; rfl, h3, fun j d hj hd => ?_⟩
  obtain rfl : j = 0 := by omega
  rw [ht] at hd
  cases hd
  exact h1

/-- The smallest file, 8 bytes: an empty buffer, a capacity of 7 and a capacity of 8. -/
theorem witness_EnEmitRule : (blank 8 7).caps.Legal ∧ (blank 8 8).caps.Legal ∧ (blank 8 8).tbuf = [] ∧
    (HTree.leaf 0x61).ser ≠ [] ∧ (blank 8 7).caps.filCap < 4 + ((HTree.leaf 0x61).ser.length + 7) / 8 + (1 + 7) / 8 ∧
    4 + ((HTree.leaf 0x61).ser.length + 7) / 8 + (1 + 7) / 8 ≤ (blank 8 8).caps.filCap := by decide

theorem witness_EncodeEmptyText : (blank 8 64).txtLen = 0 ∧ ∃ c, exec .clr (blank 8 64) = .next c := ⟨rfl, ⟨_, rfl⟩⟩

theorem witness_EncodeRule : MemoryInv (blank 8 64) ∧ (blank 8 64).txtLen = 0 ∧
    (∃ c, exec .clr (blank 8 64) = .next c) ∧ MemoryInv busy ∧ busy.txtLen ≠ 0 ∧
    (∃ t, exec .encode busy = .next t ∧ decide (t.error.kind = .ok) = true) :=
  ⟨blank_memory 8 64 (by decide) (by decide) (by decide), rfl, ⟨_, rfl⟩, busy_memory, by decide,
    next_of_nextOf _ (by decide)⟩

/-- The text "a" with a FIL of 7 cells. -/
def noRoom : State := withText (blank 8 7) [0x61]

theorem noRoom_memory : MemoryInv noRoom := memoryInv_of_check (by decide)

theorem witness_EncodeErrorKeepsTheFile_storage : MemoryInv noRoom ∧
    ∃ t, exec .encode noRoom = .next t ∧ decide (t.error.kind = .storageError) = true :=
  ⟨noRoom_memory, next_of_nextOf _ (by decide)⟩

theorem cellsPut_cellsPut {α : Type} (m : Cells α) (a : Nat) (v w : α) :
    cellsPut (cellsPut m a v) a w = cellsPut m a w := by
  induction m with
  | nil => simp [cellsPut]
  | cons c m ih =>
    obtain ⟨k, u⟩ := c
    unfold cellsPut
    by_cases h : a < k
    · simp [h, cellsPut]
    · by_cases h' : a = k
      · simp [h', cellsPut]
      · simp [h, h', cellsPut, ih]

/-- Counting a character `n + 1` times that has no count yet. -/
theorem foldl_countUnit_replicate (c : CharUnit) (n : Nat) (f : Cells Word) (h : tableGet 0 f c.toNat = 0)
    (hn : n + 1 < 2 ^ 32) : (List.replicate (n + 1) c).foldl countUnit f = cellsPut f c.toNat (BitVec.ofNat 32 (n + 1)) := by
  induction n with
  | zero => simp only [List.replicate, List.foldl_cons, List.foldl_nil, countUnit, h, tableSet]; rfl
  | succ n ih =>
    rw [List.replicate_succ', List.foldl_append, ih (by omega)]
    have hg : tableGet 0 (cellsPut f c.toNat (BitVec.ofNat 32 (n + 1))) c.toNat = BitVec.ofNat 32 (n + 1) := by
      simp [tableGet]
    have hne : BitVec.ofNat 32 (n + 1) + 1 ≠ 0 := by
      intro h0
      have := congrArg BitVec.toNat h0
      simp at this; omega
    simp only [List.foldl_cons, List.foldl_nil, countUnit, hg, tableSet, if_neg hne]
    rw [cellsPut_cellsPut, BitVec.ofNat_add (n + 1) 1]
    rfl

/-- A text of runs: for each pair one more than the first number of copies of the character. -/
def runText (runs : List (Nat × CharUnit)) : List CharUnit :=
  match runs with
  | [] => []
  | (n, c) :: rest => List.replicate (n + 1) c ++ runText rest

/-- The counts of such a text, added to `f`, where no character is counted yet. -/
def runCounts (f : Cells Word) (runs : List (Nat × CharUnit)) : Cells Word :=
  match runs with
  | [] => f
  | (n, c) :: rest => runCounts (cellsPut f c.toNat (BitVec.ofNat 32 (n + 1))) rest

/-- Each character of the runs is new when it comes, and each run is short. -/
def runsOk (f : Cells Word) (runs : List (Nat × CharUnit)) : Bool :=
  match runs with
  | [] => true
  | (n, c) :: rest => decide (tableGet 0 f c.toNat = 0 ∧ n + 1 < 2 ^ 32)
      && runsOk (cellsPut f c.toNat (BitVec.ofNat 32 (n + 1))) rest

theorem foldl_countUnit_runs (runs : List (Nat × CharUnit)) (f : Cells Word) (h : runsOk f runs = true) :
    (runText runs).foldl countUnit f = runCounts f runs := by
  induction runs generalizing f with
  | nil => rfl
  | cons r rest ih =>
    obtain ⟨n, c⟩ := r
    simp only [runsOk, Bool.and_eq_true, decide_eq_true_eq] at h
    rw [runText, List.foldl_append, foldl_countUnit_replicate c n f h.1.1 h.1.2, ih _ h.2, runCounts]

/-- Eighteen characters with the counts F(1) to F(18) (`spec/95_test_vectors.md` V23 (a)). -/
def fibonacciRuns : List (Nat × CharUnit) :=
  [(0, 0x41), (0, 0x42), (1, 0x43), (2, 0x44), (4, 0x45), (7, 0x46), (12, 0x47), (20, 0x48), (33, 0x49)]
    ++ [(54, 0x4A), (88, 0x4B), (143, 0x4C), (232, 0x4D), (376, 0x4E), (609, 0x4F), (986, 0x50), (1596, 0x51), (2583, 0x52)]

/-- The text of V23 (a). -/
def deep : State := withText (blank 6764 64) (runText fibonacciRuns)

theorem runText_length (runs : List (Nat × CharUnit)) :
    (runText runs).length = (runs.map (fun r => r.1 + 1)).sum := by
  induction runs with
  | nil => rfl
  | cons r rest ih => obtain ⟨n, c⟩ := r; simp [runText, ih]

theorem deep_length : (runText fibonacciRuns).length = 6764 := by rw [runText_length]; rfl

theorem withText_memory {s : State} {text : List CharUnit} (h : MemoryInv s) (hn : text.length ≤ s.caps.txtCap) :
    MemoryInv (withText s text) where
  caps := h.caps
  txt := cellsPutAll_wf _ ⟨.nil, by simp⟩ (by rw [Nat.zero_add]; exact hn)
  fil := h.fil
  txtLen := by
    have h1 : s.caps.txtCap ≤ 2 ^ 28 - 1 := h.caps.2.1
    show (Word.ofNat text.length).toNat ≤ s.caps.txtCap
    rw [BitVec.toNat_ofNat, Nat.mod_eq_of_lt (by omega)]
    exact hn
  filLen := h.filLen
  txtAddr := h.txtAddr
  filAddr := h.filAddr
  nodeAddr := h.nodeAddr

theorem deep_memory : MemoryInv deep :=
  withText_memory (blank_memory 6764 64 (by decide) (by decide) (by decide)) (by rw [deep_length]; exact Nat.le_refl _)

/-- ENCODE after the counting. -/
def afterCount (s : State) : Body := do
  let s ← tbLeavesBody s
  let s ← mergeLoop s.nodeCnt s
  let s ← tbRootBody s
  let s ← ctGenBody s
  let s ← enTreeBody s
  let s ← enTextBody s
  enEmitBody s

/-- The record of a raise. -/
def raisedOf (b : Body) : Option ErrorRecord :=
  match b with
  | .ok _ => none
  | .error (.raised _ e) => some e
  | .error (.fault _) => none

theorem deep_overflow : raisedOf (afterCount { deep with freq := runCounts [] fibonacciRuns }) =
    some { kind := .codeOverflow, sub := 0, pos := 0x41 } := by decide +kernel

theorem deep_text : deep.text = runText fibonacciRuns := text_withText _ _ (by rw [deep_length]; decide)

/-- A body that raises, behind a body that ends. -/
theorem raised_bind {b : Body} {k : State → Body} {s : State} {e : ErrorRecord} (h : b = .ok s)
    (hk : raisedOf (k s) = some e) : raisedOf (b >>= k) = some e := by rw [h]; exact hk

theorem clearWorking_withText (a b : Nat) (text : List CharUnit) :
    (withText (blank a b) text).clearWorking = withText (blank a b) text := rfl

theorem deep_encode : raisedOf (encodeBody deep) = some { kind := .codeOverflow, sub := 0, pos := 0x41 } := by
  have hn : deep.txtLen ≠ 0 := by
    show Word.ofNat (runText fibonacciRuns).length ≠ 0
    rw [deep_length]; decide
  have hc : tbCountBody deep = .ok { deep with freq := runCounts [] fibonacciRuns } := by
    rw [← foldl_countUnit_runs fibonacciRuns [] (by decide), ← deep_text, tbCountBody, if_pos]
    exact decide_eq_true deep_memory.txtLen
  have hb : encodeBody deep = (tbCountBody deep >>= afterCount) := by
    have h1 : deep.clearWorking = deep := clearWorking_withText _ _ _
    unfold encodeBody
    simp only [h1, if_neg hn, tbBuildBody, bind_assoc]
    rfl
  rw [hb]
  exact raised_bind hc deep_overflow

theorem witness_EncodeErrorKeepsTheFile_overflow : MemoryInv deep ∧
    ∃ t, exec .encode deep = .next t ∧ t.error.kind = .codeOverflow := by
  refine ⟨deep_memory, ?_⟩
  have h := deep_encode
  show ∃ t, finish (encodeBody deep) = .next t ∧ _
  revert h
  cases encodeBody deep with
  | ok s => intro h; simp [raisedOf] at h
  | error e =>
    cases e with
    | raised s e => intro h; simp [raisedOf] at h; exact ⟨_, rfl, by rw [h]; rfl⟩
    | fault f => intro h; simp [raisedOf] at h

/-- Two distinct characters, and a FIL that just holds the bound of the statement. -/
theorem witness_EncodeCompletes : MemoryInv (withText (blank 8 47) [0x61, 0x62]) ∧
    (withText (blank 8 47) [0x61, 0x62]).txtLen ≠ 0 ∧
    (distinctChars (withText (blank 8 47) [0x61, 0x62]).text).length ≤ 17 ∧
    4 + 39 + 2 * (withText (blank 8 47) [0x61, 0x62]).txtLen.toNat ≤ (withText (blank 8 47) [0x61, 0x62]).caps.filCap := by
  have ht : (withText (blank 8 47) [0x61, 0x62]).text = [0x61, 0x62] := text_withText _ _ (by decide)
  refine ⟨memoryInv_of_check (by decide), by decide, ?_, by decide⟩
  rw [ht]
  have hsub : distinctChars [0x61, 0x62] ⊆ [0x61, 0x62] := by
    intro c hc
    obtain ⟨hr, hm⟩ := List.mem_filter.1 hc
    have hlt : c < 65536 := List.mem_range.1 hr
    have hm' : (BitVec.ofNat 16 c) = 0x61 ∨ (BitVec.ofNat 16 c) = 0x62 := by simpa using hm
    rcases hm' with h | h <;> have := congrArg BitVec.toNat h <;> simp at this <;> simp <;> omega
  have hnd : (distinctChars [0x61, 0x62]).Nodup := List.nodup_range.filter _
  exact ((List.subperm_of_subset hnd hsub).length_le).trans (by decide)

/-! ### The decoder -/

/-- A declared length of the whole capacity, and an empty file. -/
theorem witness_DeHdrRule : (withFile (blank 8 8) fileA).filLen.toNat ≤ (withFile (blank 8 8) fileA).caps.filCap ∧
    (blank 8 0).filLen.toNat ≤ (blank 8 0).caps.filCap := by decide

/-- No header; a descent that is cut off (V17, row T2); a complete descent (file A). -/
theorem witness_DeTreeRule : (blank 8 64).flags.hdrv = false ∧
    ((parsedA fileA).flags.hdrv = true ∧ 32 < (parsedA fileA).hdr.tend.toNat ∧
      (parsedA fileA).hdr.tend.toNat ≤ 8 * (parsedA fileA).caps.filCap) ∧
    descend 17 ((parsedA [0x00, 0x00, 0x03, 0x14, 0x40, 0x18, 0x40, 0x00]).fileBits 32 17) 32 1 0 = .stopped 6 34 ∧
    descend 17 ((parsedA fileA).fileBits 32 17) 32 1 0 = .complete 49 := by decide

/-- A full arena: bits that are all 0 stop the descent at node 131071 (V17, row T4). -/
theorem descend_zeros : ∀ (k fuel n pos need count : Nat), count + k = 131071 → k < n → k < fuel →
    descend fuel (List.replicate n false) pos (need + 1) count = .stopped 7 (pos + k) := by
  intro k
  induction k with
  | zero =>
    intro fuel n pos need count hc hn hf
    obtain ⟨f, rfl⟩ : ∃ f, fuel = f + 1 := ⟨fuel - 1, by omega⟩
    obtain ⟨m, rfl⟩ : ∃ m, n = m + 1 := ⟨n - 1, by omega⟩
    rw [List.replicate_succ, descend, if_pos (show (131071 : Nat) ≤ count by omega)]
    rfl
  | succ k ih =>
    intro fuel n pos need count hc hn hf
    obtain ⟨f, rfl⟩ : ∃ f, fuel = f + 1 := ⟨fuel - 1, by omega⟩
    obtain ⟨m, rfl⟩ : ∃ m, n = m + 1 := ⟨n - 1, by omega⟩
    rw [List.replicate_succ, descend, if_neg (show ¬ (131071 : Nat) ≤ count by omega)]
    rw [if_neg (by decide), ih f m (pos + 1) (need + 1) (count + 1) (by omega) (by omega) (by omega)]
    congr 1; omega

/-- The file of V17, row T4: a legal header and a tree region of zeros that is one node too long. -/
def zeroFile : List Byte := [0x00, 0x40, 0x00, 0x88] ++ List.replicate 16385 0

/-- That file with its header parsed. -/
def zeros : State :=
  { withFile (blank 8 16389) zeroFile with
    flags := { Flags.zero with hdrv := true }
    hdr := { ver := 0, tlen := 16384, tbits := 8, xbits := 8, tend := 131104, xstart := 131104, xend := 131112 } }

theorem zeroFile_get (i : Nat) (h : 4 ≤ i) (h' : i < 16389) : zeroFile[i]? = some 0 := by
  rw [zeroFile, List.getElem?_append_right h, List.getElem?_replicate, if_pos]
  show i - 4 < 16385
  omega

theorem zeros_fil : zeros.fil = cellsPutAll [] 0 zeroFile := by simp only [zeros, withFile]

theorem zeros_readFil (i : Nat) (h : 4 ≤ i) (h' : i < 16389) : zeros.readFil i = 0 := by
  have hl : i < zeroFile.length := (List.getElem?_eq_some_iff.1 (zeroFile_get i h h')).1
  have hg : cellsGet? zeros.fil i = some 0 := by
    rw [zeros_fil, cellsGet?_putAll, if_pos ⟨Nat.zero_le _, by omega⟩, Nat.sub_zero, zeroFile_get i h h']
  rw [State.readFil, hg]; rfl

theorem zeros_fileBits (n p : Nat) (h : 32 ≤ p) (h' : p + n ≤ 131112) : zeros.fileBits p n = List.replicate n false := by
  induction n generalizing p with
  | zero => rfl
  | succ n ih =>
    rw [State.fileBits, ih (p + 1) (by omega) (by omega), State.fileBit, zeros_readFil (p / 8) (by omega) (by omega)]
    simp [List.replicate_succ]

theorem witness_DeTreeRule_full : zeros.flags.hdrv = true ∧ 32 < zeros.hdr.tend.toNat ∧
    zeros.hdr.tend.toNat ≤ 8 * zeros.caps.filCap ∧
    descend 131072 (zeros.fileBits 32 131072) 32 1 0 = .stopped 7 131103 := by
  refine ⟨rfl, by decide, by decide, ?_⟩
  rw [zeros_fileBits 131072 32 (by omega) (by omega), descend_zeros 131071 131072 131072 32 0 0 rfl (by omega) (by omega)]

/-- File A: 17 bits of a one-leaf tree, which fill the region to HDR_TEND. -/
theorem witness_DeTreeReadsEveryTree : (parsedA fileA).flags.hdrv = true ∧
    (parsedA fileA).hdr.tend.toNat ≤ 8 * (parsedA fileA).caps.filCap ∧ (HTree.leaf 0x61).leafCount ≤ 65536 ∧
    32 + (HTree.leaf 0x61).ser.length ≤ (parsedA fileA).hdr.tend.toNat ∧
    (HTree.leaf 0x61).ser <+: (parsedA fileA).fileBits 32 ((parsedA fileA).hdr.tend.toNat - 32) := by
  refine ⟨rfl, by decide, by decide, by decide, ?_⟩
  rw [show (parsedA fileA).fileBits 32 ((parsedA fileA).hdr.tend.toNat - 32) = (HTree.leaf 0x61).ser by decide]

/-- No header, no tree, and a tree of two leaves whose four text bits give four characters. -/
theorem witness_DeTextRule_walk : (blank 8 64).flags.hdrv = false ∧ (parsedA fileA).root = none ∧
    busy.flags.hdrv = true ∧ busy.root = some 2 ∧ HoldsTree busy.nodes 2 (.node (.leaf 0x61) (.leaf 0x62)) ∧
    busy.hdr.xend.toNat ≤ 8 * busy.caps.filCap ∧
    HTree.emits (.node (.leaf 0x61) (.leaf 0x62)) (.node (.leaf 0x61) (.leaf 0x62)) 56 (busy.fileBits 56 4) =
      [(0x61, 56), (0x61, 57), (0x61, 58), (0x61, 59)] ∧ 4 ≤ busy.caps.txtCap :=
  ⟨rfl, rfl, rfl, rfl, busy_tree, by decide, by decide, by decide⟩

/-- With three cells the fourth character has none (V18, row X8, with a tree of two leaves). -/
theorem witness_DeTextRule_full :
    (HTree.emits (.node (.leaf 0x61) (.leaf 0x62)) (.node (.leaf 0x61) (.leaf 0x62)) 56 (busy.fileBits 56 4))[3]? =
      some (0x61, 59) := by decide

/-- One leaf: file A (row X9, a capacity of 4), a 1 bit in the last place (row X1), and a capacity of 3 (row X8). -/
theorem witness_DeTextRule_oneLeaf :
    (∀ j, j < 4 → (withFile (blank 4 8) fileA).fileBit (56 + j) = false) ∧ 4 ≤ (blank 4 8).caps.txtCap ∧
    ((parsedA [0x00, 0x00, 0x03, 0x14, 0x80, 0x30, 0x80, 0x10]).fileBit (56 + 3) = true ∧
      ∀ j, j < 3 → (parsedA [0x00, 0x00, 0x03, 0x14, 0x80, 0x30, 0x80, 0x10]).fileBit (56 + j) = false) ∧
    (blank 3 8).caps.txtCap < 4 ∧ (∀ j, j ≤ 3 → (withFile (blank 3 8) fileA).fileBit (56 + j) = false) ∧
    HoldsTree treeA.nodes 0 (.leaf 0x61) := by
  refine ⟨by decide, by decide, by decide, by decide, ?_, holds_of_treeAt (k := 1) rfl⟩
  intro j hj
  exact (by decide : ∀ j, j < 4 → (withFile (blank 3 8) fileA).fileBit (56 + j) = false) j (by omega)

theorem fileA_memory : MemoryInv (withFile (blank 8 64) fileA) := memoryInv_of_check (by decide)

theorem witness_DecodeRule : MemoryInv (blank 8 64) ∧ (∃ c, exec .clr (blank 8 64) = .next c) ∧ (blank 8 64).filLen = 0 ∧
    MemoryInv (withFile (blank 8 64) fileA) ∧ (∃ c, exec .clr (withFile (blank 8 64) fileA) = .next c) ∧
    (withFile (blank 8 64) fileA).filLen ≠ 0 ∧
    (∃ t, exec .decode noRoom = .next t ∧ decide (t.error.kind = .ok) = true) ∧
    (∃ t, exec .decode (withFile (blank 3 64) fileA) = .next t ∧ decide (t.error.kind ≠ .ok) = true) :=
  ⟨blank_memory 8 64 (by decide) (by decide) (by decide), ⟨_, rfl⟩, rfl, fileA_memory, ⟨_, rfl⟩, by decide,
    next_of_nextOf _ (by decide), next_of_nextOf _ (by decide)⟩

/-- An error of the header (rows H1 and H3), of the tree (row T2), and of the text (rows X1 and X8). -/
theorem witness_DecodeErrorLeaves :
    (∀ p ∈ ([([0x00], .corruptFormat, 1), ([0x04, 0x00, 0x03, 0x14, 0x80, 0x30, 0x80, 0x00], .unsupportedVersion, 0),
        ([0x00, 0x00, 0x03, 0x14, 0x40, 0x18, 0x40, 0x00], .corruptFormat, 6),
        ([0x00, 0x00, 0x03, 0x14, 0x80, 0x30, 0x80, 0x10], .corruptFormat, 9), (fileA, .storageError, 0)]
        : List (List Byte × ErrKind × Word)),
      MemoryInv (withFile (blank 3 8) p.1) ∧ (∃ h, exec .deHdr (withFile (blank 3 8) p.1) = .next h) ∧
      ∃ t, exec .decode (withFile (blank 3 8) p.1) = .next t ∧
        decide (t.error.kind = p.2.1 ∧ t.error.sub = p.2.2) = true) := by
  intro p hp
  simp only [List.mem_cons, List.not_mem_nil, or_false] at hp
  rcases hp with rfl | rfl | rfl | rfl | rfl <;>
    exact ⟨memoryInv_of_check (by decide), (next_of_nextOf (fun _ => true) (by decide)).imp fun _ h => h.1,
      next_of_nextOf _ (by decide)⟩

/-- File A as the layout says it: the tree of one leaf, four text bits, four characters, a capacity of four. -/
theorem witness_DecodeReadsTheFile : MemoryInv (withFile (blank 4 8) fileA) ∧ (HTree.leaf 0x61).leafCount ≤ 65536 ∧
    List.replicate 4 false ≠ [] ∧
    (withFile (blank 4 8) fileA).filLen.toNat = (fileBytes (HTree.leaf 0x61).ser (List.replicate 4 false)).length ∧
    (∀ i b, (fileBytes (HTree.leaf 0x61).ser (List.replicate 4 false))[i]? = some b →
      (withFile (blank 4 8) fileA).readFil i = b) ∧
    (HTree.leaf 0x61).spells (List.replicate 4 false) = some (List.replicate 4 0x61) ∧
    (List.replicate 4 (0x61 : CharUnit)).length ≤ (blank 4 8).caps.txtCap := by
  have hf : fileBytes (HTree.leaf 0x61).ser (List.replicate 4 false) = fileA := by decide
  rw [hf]
  refine ⟨memoryInv_of_check (by decide), by decide, by decide, rfl, fun i b h => ?_, by decide, by decide⟩
  have hi : i < 8 := (List.getElem?_eq_some_iff.1 h).1
  simp only [State.readFil, withFile]
  rw [cellsGet?_putAll, if_pos ⟨Nat.zero_le _, by rw [Nat.zero_add]; exact hi⟩, Nat.sub_zero, h]
  rfl

/-- A tree of two leaves spells a text, with a cut-off walk or none. -/
theorem witness_DecodeReadsTheFile_walk :
    (HTree.node (.leaf 0x61) (.node (.leaf 0x62) (.leaf 0x63))).spells [false, true, false, true] = some [0x61, 0x62] := by
  decide

theorem witness_RoundTrip : MemoryInv busy ∧ ∃ t, exec .encode busy = .next t ∧ decide (t.error.kind = .ok) = true :=
  ⟨busy_memory, next_of_nextOf _ (by decide)⟩

/-- Two states with the same text and the same FIL_CAP that differ elsewhere. -/
theorem witness_EncodeDependsOnlyOnText : MemoryInv busy ∧ MemoryInv (withText (blank 8 64) [0x61, 0x62]) ∧
    busy.txtLen = (withText (blank 8 64) [0x61, 0x62]).txtLen ∧ busy.text = (withText (blank 8 64) [0x61, 0x62]).text ∧
    busy.caps.filCap = (blank 8 64).caps.filCap ∧ (∃ t, exec .encode busy = .next t ∧ decide (t.error.kind = .ok) = true) ∧
    (∃ t, exec .encode (withText (blank 8 64) [0x61, 0x62]) = .next t ∧ decide (t.error.kind = .ok) = true) := by
  have ht : (withText (blank 8 64) [0x61, 0x62]).text = [0x61, 0x62] := text_withText _ _ (by decide)
  exact ⟨busy_memory, memoryInv_of_check (by decide), rfl, by rw [busy_text, ht], rfl, next_of_nextOf _ (by decide),
    next_of_nextOf _ (by decide)⟩

/-- Two states with the same file and the same capacities that differ elsewhere. -/
theorem witness_DecodeDependsOnlyOnFile : MemoryInv busy ∧ MemoryInv (withFile (blank 8 64) fileA) ∧
    busy.filLen = (withFile (blank 8 64) fileA).filLen ∧
    (∀ i, i < busy.filLen.toNat → busy.readFil i = (withFile (blank 8 64) fileA).readFil i) ∧
    busy.caps = (withFile (blank 8 64) fileA).caps ∧
    (∃ t, exec .decode busy = .next t ∧ decide (t.error.kind = .ok) = true) ∧
    (∃ t, exec .decode (withFile (blank 8 64) fileA) = .next t ∧ decide (t.error.kind = .ok) = true) :=
  ⟨busy_memory, fileA_memory, rfl, fun _ _ => rfl, rfl, next_of_nextOf _ (by decide), next_of_nextOf _ (by decide)⟩

/-! ### Invariants and whole-machine rules -/

theorem busy_step : ∃ t, step busy = .next t := (next_of_nextOf (fun _ => true) (by decide)).imp fun _ h => h.1

theorem witness_MemoryInvariantKept : MemoryInv busy ∧ ∃ t, step busy = .next t := ⟨busy_memory, busy_step⟩

theorem witness_TableInvariantKept : TableInv busy ∧ ∃ t, step busy = .next t := ⟨busy_tables, busy_step⟩

theorem witness_ArenaInvariantKept : TableInv busy ∧ ArenaInv busy ∧ ∃ t, step busy = .next t :=
  ⟨busy_tables, busy_arena, busy_step⟩

theorem witness_HeaderInvariantKept : busy.caps.Legal ∧ HeaderInv busy ∧ ∃ t, step busy = .next t :=
  ⟨busy_memory.caps, busy_header, busy_step⟩

theorem witness_BufferBoundsKept : SafeState busy ∧ BufferInv busy ∧ ∃ t, step busy = .next t :=
  ⟨busy_safe, ⟨by decide, by decide⟩, busy_step⟩

theorem witness_StepNeverStops : SafeState busy := busy_safe

theorem witness_CommandsKeepHostRegisters : ∃ t, exec .encode busy = .next t :=
  (next_of_nextOf (fun _ => true) (by decide)).imp fun _ h => h.1

/-- A command that writes FIL and one that writes neither memory; the first cells without a place. -/
theorem witness_MemoryWriters : (∃ t, exec .encode busy = .next t) ∧ (∃ t, exec .ctGen busy = .next t) ∧
    busy.caps.filCap ≤ 64 ∧ busy.caps.txtCap ≤ 8 :=
  ⟨(next_of_nextOf (fun _ => true) (by decide)).imp fun _ h => h.1,
    (next_of_nextOf (fun _ => true) (by decide)).imp fun _ h => h.1, by decide, by decide⟩

theorem witness_FlagAndTableWriters : (∃ t, exec (.plIns 2) busy = .next t) ∧ Instr.plIns 2 ≠ .clr ∧
    Instr.plIns 2 ≠ .encode ∧ Instr.plIns 2 ≠ .decode ∧ Instr.plIns 2 ≠ .plOne ∧ Instr.plIns 2 ≠ .plRmin ∧
    Instr.plIns 2 ≠ .deHdr ∧ Instr.plIns 2 ≠ .ctGen :=
  ⟨(next_of_nextOf (fun _ => true) (by decide)).imp fun _ h => h.1, by decide⟩

/-- `done`, CorruptFormat, and an error without a sub-cause. -/
theorem witness_ErrorsOfEachCommand : SafeState busy ∧
    (∃ t, exec .decode busy = .next t ∧ decide (t.error.kind = .ok) = true) ∧
    (∃ t, exec .plRmin busy = .next t ∧ decide (t.error.kind ≠ .corruptFormat) = true) ∧
    (∃ t, exec (.plIns 0) busy = .next t ∧ decide (t.error.kind = .badState) = true) ∧
    (∃ t, exec .deHdr { busy with filLen := 7 } = .next t ∧ decide (t.error.kind = .corruptFormat) = true) :=
  ⟨busy_safe, next_of_nextOf _ (by decide), next_of_nextOf _ (by decide), next_of_nextOf _ (by decide),
    next_of_nextOf _ (by decide)⟩

end Sys2Proof.Tests
end

section
/-!
The host port's two windows into the core (`spec/10_state.md` R52) and the register values after reset (R65): first what
one host operation does with a given register, then the two statements.
-/

namespace Sys2Proof.Machine

/-! ### One host operation on a register -/

/-- A host read answers what the register shows and changes the transcript only. -/
theorem hostStep_read {r : Nat} {s : State} {a : Answer} (h : hostRead r s = .ok a) :
    hostStep (.read r) s = .next (s.answer a) := by
  simp [hostStep, portRead, h]

/-- A host write that the register accepts stores the value and answers OK. -/
theorem hostStep_write_stored {r : Nat} {reg : Reg} {v : Word} {s t : State} (hcmd : r ≠ 0) (hr : regOf r = some reg)
    (hw : writeReg reg v s = .ok (some t)) : hostStep (.write r v) s = .next (t.answer .ok) := by
  simp [hostStep, hcmd, portWrite, hr, hw]

/-- A host write that the register refuses answers HERR and changes nothing else. -/
theorem hostStep_write_refused {r : Nat} {reg : Reg} {v : Word} {s : State} (hcmd : r ≠ 0) (hr : regOf r = some reg)
    (hw : writeReg reg v s = .ok none) : hostStep (.write r v) s = .next (s.answer .herr) := by
  simp [hostStep, hcmd, portWrite, hr, hw]

/-! ### The address registers of the windows -/

theorem writeReg_nodeAddr_refused {v : Word} (h : Config.nodeMax ≤ v.toNat) (s : State) :
    writeReg .nodeAddr v s = .ok none := by
  simp [writeReg, h]

theorem writeReg_nodeAddr_stored {v : Word} (h : v.toNat < Config.nodeMax) (s : State) :
    writeReg .nodeAddr v s = .ok (some { s with nodeAddr := v.truncate 17 }) := by
  simp [writeReg, Nat.not_le.mpr h]

theorem writeReg_frqAddr_refused {v : Word} (h : 65535 < v.toNat) (s : State) : writeReg .frqAddr v s = .ok none := by
  simp [writeReg, h]

theorem writeReg_frqAddr_stored {v : Word} (h : v.toNat ≤ 65535) (s : State) :
    writeReg .frqAddr v s = .ok (some { s with frqAddr := v.truncate 16 }) := by
  simp [writeReg, Nat.not_lt.mpr h]

/-- A word loses nothing when it is cut to `k` bits that hold it. -/
theorem truncate_toNat_of_lt {v : Word} {k : Nat} (h : v.toNat < 2 ^ k) : (v.truncate k).toNat = v.toNat := by
  rw [BitVec.truncate_eq_setWidth, BitVec.toNat_setWidth, Nat.mod_eq_of_lt h]

/-! ### The NODE window -/

theorem nodeWindow_unallocated {s : State} (h : s.nodes.length ≤ s.nodeAddr.toNat) (view : Node → Word) :
    nodeWindow s view = .ok .herr := by
  simp [nodeWindow, State.node?, h]

theorem nodeWindow_allocated {s : State} {x : Node} (h : s.nodes[s.nodeAddr.toNat]? = some x) (view : Node → Word) :
    nodeWindow s view = .ok (.value (view x)) := by
  simp [nodeWindow, State.node?, h]

/-- Registers 33 to 37 are the NODE window, each with its own view of the node (`spec/10_state.md` R38). -/
theorem hostRead_nodeWindow {r : Nat} (h : 33 ≤ r) (h' : r ≤ 37) :
    ∃ view : Node → Word, ∀ s, hostRead r s = nodeWindow s view := by
  obtain rfl | rfl | rfl | rfl | rfl : r = 33 ∨ r = 34 ∨ r = 35 ∨ r = 36 ∨ r = 37 := by omega
  · exact ⟨nodeInfo, fun _ => rfl⟩
  · exact ⟨fun x => x.wt, fun _ => rfl⟩
  · exact ⟨fun x => refWord x.left, fun _ => rfl⟩
  · exact ⟨fun x => refWord x.right, fun _ => rfl⟩
  · exact ⟨fun x => refWord x.next, fun _ => rfl⟩

/-- Every register of the NODE window is refused when NODE_ADDR names no allocated node. -/
theorem hostRead_nodeWindow_unallocated {r : Nat} (h : 33 ≤ r) (h' : r ≤ 37) {s : State}
    (hs : s.nodes.length ≤ s.nodeAddr.toNat) : hostRead r s = .ok .herr := by
  obtain ⟨view, hview⟩ := hostRead_nodeWindow h h'
  rw [hview, nodeWindow_unallocated hs]

/-- A joined bit vector as a number: the high part counts in units of the low part's width. -/
theorem toNat_append_add {m n : Nat} (x : BitVec m) (y : BitVec n) : (x ++ y).toNat = x.toNat * 2 ^ n + y.toNat := by
  rw [BitVec.toNat_append, ← Nat.shiftLeft_add_eq_or_of_lt y.isLt, Nat.shiftLeft_eq]

/-- NODE_INFO bit by bit (`spec/10_state.md` R52). -/
theorem nodeInfo_toNat (x : Node) :
    (nodeInfo x).toNat = x.ch.toNat + 65536 * x.leaf.toNat + 131072 * x.inl.toNat + 262144 * x.child.toNat := by
  simp only [nodeInfo, toNat_append_add, BitVec.toNat_ofBool, BitVec.toNat_ofNat]
  omega

/-! ### CLR and the values after reset -/

/-- CLR ends with `done` on the cleared working state (`spec/45_control.md` R282). -/
theorem exec_clr (s : State) : exec .clr s = .next s.clearWorking.done := rfl

theorem freqOf_reset (c : Nat) : State.reset.freqOf c = 0 := tableGet_nil 0 c

theorem entryOf_reset (c : CharUnit) : entryOf State.reset.ctab c = { code := 0, len := 0 } :=
  tableGet_nil CodeEntry.absent c.toNat

/-! ### The two statements -/

/-- Settles O13: the writes of the address registers by `writeReg`, the reads by `nodeWindow`, CLR by its frame. -/
theorem debugWindows : Obligations.DebugWindows := by
  intro s
  refine ⟨fun v => ⟨fun h => ?_, fun h => ?_, fun h => ?_, fun h => ?_⟩, fun r h h' hs => ?_, fun x hx => ?_, ?_, ?_⟩
  · exact hostStep_write_refused (by decide) rfl (writeReg_nodeAddr_refused h s)
  · exact ⟨v.truncate 17, truncate_toNat_of_lt (by omega),
      hostStep_write_stored (by decide) rfl (writeReg_nodeAddr_stored h s)⟩
  · exact hostStep_write_refused (by decide) rfl (writeReg_frqAddr_refused h s)
  · exact ⟨v.truncate 16, truncate_toNat_of_lt (by omega),
      hostStep_write_stored (by decide) rfl (writeReg_frqAddr_stored h s)⟩
  · exact hostStep_read (hostRead_nodeWindow_unallocated h h' hs)
  · have window := nodeWindow_allocated hx
    exact ⟨⟨nodeInfo x, hostStep_read (window nodeInfo), nodeInfo_toNat x⟩, hostStep_read (window _),
      hostStep_read (window fun x => refWord x.left), hostStep_read (window fun x => refWord x.right),
      hostStep_read (window fun x => refWord x.next)⟩
  · exact hostStep_read rfl
  · intro t h
    rw [exec_clr, Host.Outcome.next.injEq] at h
    simp [← h]

/-- Settles O15: the reset state is fixed, so each register is read off it; the tables are empty lists of cells. -/
theorem resetValues : Obligations.ResetValues := by
  refine ⟨by decide, rfl, rfl, rfl, fun r hr => ?_, freqOf_reset, entryOf_reset, rfl, rfl⟩
  obtain ⟨h, h'⟩ : 33 ≤ r ∧ r ≤ 37 := (by decide : ∀ k ∈ [33, 34, 35, 36, 37], 33 ≤ k ∧ k ≤ 37) r hr
  exact hostRead_nodeWindow_unallocated h h' (Nat.zero_le _)

end Sys2Proof.Machine
end

section
/-!
The refusals of the host port (`spec/20_memory.md` R76) and the host's loads and stores of TXT and FIL (R77). In order:
what no command touches, which words are no command, what a read of each register answers, what a write of each register
stores or refuses, and the two statements.
-/

namespace Sys2Proof.Machine

/-! ### What no command touches -/

/-- The host's own registers, with the model's queue, transcript, capacities and count of Resets: what the port writes
and no command does (`spec/10_state.md` R21, R42, R52; log entries 1, 3, 4, 5). -/
structure HostSide where
  warg : Word
  txtAddr : Word
  filAddr : Word
  nodeAddr : BitVec 17
  frqAddr : BitVec 16
  pending : List HostOp
  answers : List Answer
  caps : Config.Capacities
  resets : Nat

/-- The host's side of a state. -/
def State.hostSide (s : State) : HostSide where
  warg := s.warg
  txtAddr := s.txtAddr
  filAddr := s.filAddr
  nodeAddr := s.nodeAddr
  frqAddr := s.frqAddr
  pending := s.pending
  answers := s.answers
  caps := s.caps
  resets := s.resets

@[simp] theorem done_hostSide (s : State) : s.done.hostSide = s.hostSide := rfl
@[simp] theorem raise_hostSide (s : State) (e : ErrorRecord) : (s.raise e).hostSide = s.hostSide := rfl

/-- The body leaves the host's side as it is in `s`, both when it ends normally and when it raises. -/
structure KeepsHostSide (s : State) (b : Body) : Prop where
  ok : ∀ {t}, b = .ok t → t.hostSide = s.hostSide
  raised : ∀ {t e}, b = .error (.raised t e) → t.hostSide = s.hostSide

theorem finish_hostSide {s t : State} {b : Body} (hb : KeepsHostSide s b) (h : finish b = .next t) :
    t.hostSide = s.hostSide := by
  obtain ⟨u, hu, rfl⟩ | ⟨u, e, hu, rfl⟩ := finish_next h
  · exact (done_hostSide u).trans (hb.ok hu)
  · exact (raise_hostSide u e).trans (hb.raised hu)

theorem ok_keepsHostSide {s t : State} (h : t.hostSide = s.hostSide) : KeepsHostSide s (.ok t) where
  ok ht := by cases ht; exact h
  raised ht := by cases ht

theorem raiseAt_keepsHostSide (s : State) (k : ErrKind) (sub pos : Nat) : KeepsHostSide s (raiseAt s k sub pos) where
  ok h := (raiseAt_ne_ok _ _ _ _ _ h).elim
  raised h := by obtain ⟨rfl, -⟩ := (raiseAt_eq_raised ..).mp h; rfl

/-- A body may start from any state with the same host's side. -/
theorem KeepsHostSide.of_hostSide_eq {s u : State} {b : Body} (hb : KeepsHostSide u b) (hu : u.hostSide = s.hostSide) :
    KeepsHostSide s b where
  ok h := (hb.ok h).trans hu
  raised h := (hb.raised h).trans hu

/-- Bodies in a row keep what each of them keeps. -/
theorem bind_keepsHostSide {s : State} {b : Body} {k : State → Body} (hb : KeepsHostSide s b)
    (hk : ∀ u, KeepsHostSide u (k u)) : KeepsHostSide s (b >>= k) where
  ok h := by
    obtain ⟨u, hu, h⟩ := body_bind_ok h
    exact ((hk u).ok h).trans (hb.ok hu)
  raised h := by
    obtain h | ⟨u, hu, h⟩ := body_bind_raised h
    · exact hb.raised h
    · exact ((hk u).raised h).trans (hb.ok hu)

theorem plInsBody_keepsHostSide (n : Nat) (s : State) : KeepsHostSide s (plInsBody n s) where
  ok h := by obtain ⟨x, a, -, -, -, -, rfl⟩ := plInsBody_ok h; rfl
  raised h := by obtain ⟨rfl, -⟩ := plInsBody_raised h; rfl

theorem plRminBody_keepsHostSide (s : State) : KeepsHostSide s (plRminBody s) where
  ok h := by obtain ⟨-, rfl⟩ | ⟨r, -, rfl⟩ := plRminBody_ok h <;> rfl
  raised h := (plRminBody_raised h).elim

theorem plOneBody_keepsHostSide (s : State) : KeepsHostSide s (plOneBody s) where
  ok h := by obtain ⟨b, -, rfl⟩ := plOneBody_ok h; rfl
  raised h := (plOneBody_raised h).elim

theorem tbLeafBody_keepsHostSide (c : CharUnit) (s : State) : KeepsHostSide s (tbLeafBody c s) where
  ok h := by obtain ⟨-, rfl⟩ := tbLeafBody_ok h; rfl
  raised h := by obtain ⟨rfl, -⟩ := tbLeafBody_raised h; rfl

theorem tbCountBody_keepsHostSide (s : State) : KeepsHostSide s (tbCountBody s) where
  ok h := by obtain ⟨-, rfl⟩ := tbCountBody_ok h; rfl
  raised h := (tbCountBody_raised h).elim

theorem tbLeavesBody_keepsHostSide (s : State) : KeepsHostSide s (tbLeavesBody s) where
  ok h := by obtain ⟨a, -, rfl⟩ := tbLeavesBody_ok h; rfl
  raised h := (tbLeavesBody_raised h).elim

theorem tbMergeBody_keepsHostSide (s : State) : KeepsHostSide s (tbMergeBody s) where
  ok h := by obtain ⟨n, r, -, -, -, -, -, rfl⟩ := tbMergeBody_ok_cases h; rfl
  raised h := by obtain ⟨rfl, -⟩ := tbMergeBody_raised h; rfl

theorem tbRootBody_keepsHostSide (s : State) : KeepsHostSide s (tbRootBody s) where
  ok h := by obtain ⟨r, -, -, rfl⟩ := tbRootBody_ok h; rfl
  raised h := by obtain ⟨rfl, -⟩ := tbRootBody_raised h; rfl

/-- The loop of merges keeps what one merge keeps. -/
theorem mergeLoop_keepsHostSide (fuel : Nat) (s : State) : KeepsHostSide s (mergeLoop fuel s) := by
  have merge : ∀ u v, u.hostSide = s.hostSide → tbMergeBody u = .ok v → v.hostSide = s.hostSide :=
    fun u v hu hv => ((tbMergeBody_keepsHostSide u).ok hv).trans hu
  exact ⟨fun h => (mergeLoop_ok merge rfl h).1, fun h => (mergeLoop_raised merge rfl h).1⟩

theorem tbBuildBody_keepsHostSide (s : State) : KeepsHostSide s (tbBuildBody s) := by
  unfold tbBuildBody
  split
  · exact raiseAt_keepsHostSide ..
  · exact bind_keepsHostSide (tbCountBody_keepsHostSide s) fun u =>
      bind_keepsHostSide (tbLeavesBody_keepsHostSide u) fun u =>
        bind_keepsHostSide (mergeLoop_keepsHostSide u.nodeCnt u) tbRootBody_keepsHostSide

theorem ctGenBody_keepsHostSide (s : State) : KeepsHostSide s (ctGenBody s) where
  ok h := by obtain ⟨r, x, c, -, -, -, rfl⟩ := ctGenBody_ok h; rfl
  raised h := by obtain ⟨-, rfl, -⟩ | ⟨r, x, c, -, -, -, rfl, -⟩ := ctGenBody_raised h <;> rfl

theorem ctLookupBody_keepsHostSide (c : CharUnit) (s : State) : KeepsHostSide s (ctLookupBody c s) where
  ok h := by rw [ctLookupBody_ok h]; rfl
  raised h := (ctLookupBody_raised h).elim

theorem enTreeBody_keepsHostSide (s : State) : KeepsHostSide s (enTreeBody s) where
  ok h := by obtain ⟨r, bits, -, -, rfl⟩ := enTreeBody_ok h; rfl
  raised h := by obtain ⟨-, rfl, -⟩ := enTreeBody_raised h; rfl

theorem enTextBody_keepsHostSide (s : State) : KeepsHostSide s (enTextBody s) where
  ok h := by obtain ⟨-, bits, -, rfl⟩ := enTextBody_ok h; rfl
  raised h := by obtain ⟨i, -, rfl, -⟩ := enTextBody_raised h; rfl

theorem enEmitBody_keepsHostSide (s : State) : KeepsHostSide s (enEmitBody s) where
  ok h := by obtain ⟨-, -, -, rfl⟩ := enEmitBody_ok h; rfl
  raised h := by obtain ⟨rfl, -⟩ := enEmitBody_raised h; rfl

theorem encodeBody_keepsHostSide (s : State) : KeepsHostSide s (encodeBody s) := by
  simp only [encodeBody]
  split
  · exact ok_keepsHostSide rfl
  · refine KeepsHostSide.of_hostSide_eq (u := s.clearWorking) ?_ rfl
    exact bind_keepsHostSide (tbBuildBody_keepsHostSide _) fun u =>
      bind_keepsHostSide (ctGenBody_keepsHostSide u) fun u =>
        bind_keepsHostSide (enTreeBody_keepsHostSide u) fun u =>
          bind_keepsHostSide (enTextBody_keepsHostSide u) enEmitBody_keepsHostSide

theorem deHdrBody_keepsHostSide (s : State) : KeepsHostSide s (deHdrBody s) where
  ok h := by obtain ⟨-, rfl⟩ | ⟨-, -, hd, -, rfl⟩ := deHdrBody_ok h <;> rfl
  raised h := by obtain ⟨-, -, rfl⟩ := deHdrBody_raised h; rfl

theorem deTreeBody_keepsHostSide (s : State) : KeepsHostSide s (deTreeBody s) where
  ok h := by obtain ⟨-, -, p, -, rfl⟩ := deTreeBody_ok h; rfl
  raised h := by obtain ⟨-, rfl, -⟩ | ⟨-, -, rfl⟩ := deTreeBody_raised h <;> rfl

theorem deTextBody_keepsHostSide (s : State) : KeepsHostSide s (deTextBody s) where
  ok h := by obtain ⟨r, x, n, txt, -, -, -, -, -, rfl⟩ := deTextBody_ok h; rfl
  raised h := by obtain ⟨-, rfl, -⟩ | ⟨r, x, txt, -, -, -, -, rfl⟩ := deTextBody_raised h <;> rfl

theorem decodeBody_keepsHostSide (s : State) : KeepsHostSide s (decodeBody s) := by
  refine KeepsHostSide.of_hostSide_eq (u := { s.clearWorking with txtLen := 0 }) ?_ rfl
  refine bind_keepsHostSide (deHdrBody_keepsHostSide _) fun u => ?_
  split
  · exact ok_keepsHostSide rfl
  · exact bind_keepsHostSide (deTreeBody_keepsHostSide u) deTextBody_keepsHostSide

/-- No command touches the host's side. -/
theorem exec_hostSide {i : Instr} {s t : State} (h : exec i s = .next t) : t.hostSide = s.hostSide := by
  cases i with
  | plIns n => exact finish_hostSide (plInsBody_keepsHostSide n s) h
  | plRmin => exact finish_hostSide (plRminBody_keepsHostSide s) h
  | plOne => exact finish_hostSide (plOneBody_keepsHostSide s) h
  | tbLeaf c => exact finish_hostSide (tbLeafBody_keepsHostSide c s) h
  | tbCount => exact finish_hostSide (tbCountBody_keepsHostSide s) h
  | tbLeaves => exact finish_hostSide (tbLeavesBody_keepsHostSide s) h
  | tbMerge => exact finish_hostSide (tbMergeBody_keepsHostSide s) h
  | tbRoot => exact finish_hostSide (tbRootBody_keepsHostSide s) h
  | tbBuild => exact finish_hostSide (tbBuildBody_keepsHostSide s) h
  | ctGen => exact finish_hostSide (ctGenBody_keepsHostSide s) h
  | ctLookup c => exact finish_hostSide (ctLookupBody_keepsHostSide c s) h
  | enTree => exact finish_hostSide (enTreeBody_keepsHostSide s) h
  | enText => exact finish_hostSide (enTextBody_keepsHostSide s) h
  | enEmit => exact finish_hostSide (enEmitBody_keepsHostSide s) h
  | encode => exact finish_hostSide (encodeBody_keepsHostSide s) h
  | deHdr => exact finish_hostSide (deHdrBody_keepsHostSide s) h
  | deTree => exact finish_hostSide (deTreeBody_keepsHostSide s) h
  | deText => exact finish_hostSide (deTextBody_keepsHostSide s) h
  | decode => exact finish_hostSide (decodeBody_keepsHostSide s) h
  | nop => cases h; rfl
  | clr => cases h; rfl

/-- Whatever a command word does, the host's side stays (`spec/20_memory.md` R71). -/
theorem execWord_hostSide {w : Word} {s t : State} (h : execWord w s = .next t) : t.hostSide = s.hostSide := by
  obtain ⟨i, -, hi⟩ | rfl := execWord_next h
  · exact exec_hostSide hi
  · rfl

/-! ### Words that are no command -/

theorem opcodeOf_toNat (w : Word) : (opcodeOf w).toNat = w.toNat / 2 ^ 24 := by
  simp only [opcodeOf, BitVec.extractLsb'_toNat, Nat.shiftRight_eq_div_pow]
  omega

/-- A field of `k` bits from bit `a` on that is 0, as a number. -/
theorem field_eq_zero {w : Word} {a k : Nat} (h : w.extractLsb' a k = 0) : w.toNat / 2 ^ a % 2 ^ k = 0 := by
  simpa [Nat.shiftRight_eq_div_pow] using congrArg BitVec.toNat h

/-- Format Z rejects an operand field that is not 0 (`spec/30_encoding.md` R101). -/
theorem decodeZ_rejects {w : Word} (h : w.toNat % 2 ^ 24 ≠ 0) (i : Instr) : decodeZ w i = .error .nonZeroReserved := by
  refine if_neg fun hz => h ?_
  simpa using field_eq_zero hz

/-- Format N rejects an operand field of more than 17 bits (`spec/30_encoding.md` R101). -/
theorem decodeN_rejects {w : Word} (h : w.toNat % 2 ^ 24 / 2 ^ 17 ≠ 0) (mk : Nat → Instr) :
    decodeN w mk = .error .nonZeroReserved := by
  refine if_neg fun hz => h ?_
  have := field_eq_zero hz
  omega

/-- Format C rejects an operand field of more than 16 bits (`spec/30_encoding.md` R101). -/
theorem decodeC_rejects {w : Word} (h : w.toNat % 2 ^ 24 / 2 ^ 16 ≠ 0) (mk : CharUnit → Instr) :
    decodeC w mk = .error .nonZeroReserved := by
  refine if_neg fun hz => h ?_
  have := field_eq_zero hz
  omega

/-- The opcodes of format Z are decoded in format Z (`spec/30_encoding.md` R102). -/
theorem decodeWord_opcodeZ {w : Word} (h : (opcodeOf w).toNat ∈ opcodesZ) : ∃ i, decodeWord w = decodeZ w i := by
  simp only [opcodesZ, List.cons_append, List.nil_append, List.mem_cons, List.not_mem_nil, or_false] at h
  obtain h | h | h | h | h | h | h | h | h | h | h | h | h | h | h | h | h | h := h <;>
    exact ⟨_, by rw [decodeWord, h]; rfl⟩

/-- An opcode that no row of the command list has (`spec/30_encoding.md` R101, R102). -/
theorem decodeWord_unknownOpcode {w : Word} (hz : (opcodeOf w).toNat ∉ opcodesZ) (hn : (opcodeOf w).toNat ≠ 0x10)
    (hc : (opcodeOf w).toNat ≠ 0x20) (hc' : (opcodeOf w).toNat ≠ 0x31) : decodeWord w = .error .unknownOpcode := by
  unfold decodeWord
  split
  case h_22 => rfl
  all_goals simp_all [opcodesZ]

/-- A word that R101 calls illegal decodes to no command. -/
theorem decodeWord_illegal {w : Word} (h : illegalWord w) : ∃ e, decodeWord w = .error e := by
  rw [illegalWord, ← opcodeOf_toNat] at h
  obtain ⟨hz, hn, hc, hc'⟩ | ⟨hz, hw⟩ | ⟨hn, hw⟩ | ⟨hc, hw⟩ := h
  · exact ⟨_, decodeWord_unknownOpcode hz hn hc hc'⟩
  · obtain ⟨i, hi⟩ := decodeWord_opcodeZ hz
    exact ⟨_, hi.trans (decodeZ_rejects hw i)⟩
  · exact ⟨_, by rw [decodeWord, hn]; exact decodeN_rejects hw _⟩
  · obtain hc | hc := hc <;> exact ⟨_, by rw [decodeWord, hc]; exact decodeC_rejects hw _⟩

/-- An illegal word ends with IllegalCommand(0, w) and does nothing else (`spec/30_encoding.md` R103). -/
theorem execWord_illegal {w : Word} (h : illegalWord w) (s : State) :
    execWord w s = .next (s.raise (illegalCommand w)) := by
  obtain ⟨e, he⟩ := decodeWord_illegal h
  simp [execWord, he]

/-! ### What a read of each register answers -/

/-- Register numbers end at 39 (`spec/20_memory.md` R75, R76). -/
theorem regOf_none {r : Nat} (h : 39 < r) : regOf r = none := List.getElem?_eq_none h

theorem hostRead_unmapped {r : Nat} (h : 39 < r) (s : State) : hostRead r s = .ok .herr := by
  simp [hostRead, regOf_none h]

theorem readTxtData_value {s : State} (h : s.txtAddr.toNat < s.caps.txtCap) :
    readTxtData s = .ok (.value ((s.readTxt s.txtAddr.toNat).zeroExtend 32)) := if_pos h

theorem readFilData_refused {s : State} (h : s.caps.filCap = 0) : readFilData s = .ok .herr := if_pos h

theorem readFilData_value {s : State} (h : s.filAddr.toNat < s.caps.filCap) :
    readFilData s = .ok (.value ((s.readFil s.filAddr.toNat).zeroExtend 32)) := by
  rw [readFilData, if_neg (by omega), if_pos h]

/-- The register numbers that are neither CMD nor a data register nor a register of the NODE window (`spec/10_state.md`
R38). -/
abbrev plainNumber (r : Nat) : Prop :=
  (1 ≤ r ∧ r ≤ 9) ∨ (11 ≤ r ∧ r ≤ 12) ∨ (14 ≤ r ∧ r ≤ 32) ∨ (38 ≤ r ∧ r ≤ 39)

/-- A read of a plain register answers a value in every state. -/
theorem hostRead_plain {r : Nat} (h : plainNumber r) (s : State) : ∃ v, hostRead r s = .ok (.value v) := by
  obtain ⟨hl, hu⟩ | ⟨hl, hu⟩ | ⟨hl, hu⟩ | ⟨hl, hu⟩ := h <;> interval_cases r <;> exact ⟨_, rfl⟩

/-- The address register of FIL is in range wherever FIL has a cell (`spec/10_state.md` R42). -/
theorem MemoryInv.filAddr_lt {s : State} (hs : MemoryInv s) (h : s.caps.filCap ≠ 0) :
    s.filAddr.toNat < s.caps.filCap :=
  hs.filAddr.resolve_right fun hz => h hz.1

theorem hostRead_refused {s : State} {r : Nat} (h : readRefused s r) : hostRead r s = .ok .herr := by
  obtain h | rfl | ⟨rfl, h⟩ | ⟨hl, hu, h⟩ := h
  · exact hostRead_unmapped h s
  · rfl
  · exact readFilData_refused h
  · exact hostRead_nodeWindow_unallocated hl hu h

theorem hostRead_answered {s : State} {r : Nat} (hs : MemoryInv s) (h : ¬ readRefused s r) :
    ∃ v, hostRead r s = .ok (.value v) := by
  obtain plain | rfl | rfl | ⟨hl, hu⟩ : plainNumber r ∨ r = 10 ∨ r = 13 ∨ (33 ≤ r ∧ r ≤ 37) := by omega
  · exact hostRead_plain plain s
  · exact ⟨_, readTxtData_value hs.txtAddr⟩
  · exact ⟨_, readFilData_value (hs.filAddr_lt (by omega))⟩
  · obtain ⟨view, hview⟩ := hostRead_nodeWindow hl hu
    have allocated : s.nodeAddr.toNat < s.nodeCnt := by omega
    exact ⟨_, (hview s).trans (nodeWindow_allocated (List.getElem?_eq_getElem allocated) view)⟩

/-! ### What a write of each register stores or refuses -/

theorem writeReg_warg (v : Word) (s : State) : writeReg .warg v s = .ok (some { s with warg := v }) := rfl

theorem writeReg_txtLen_refused {v : Word} {s : State} (h : s.caps.txtCap < v.toNat) :
    writeReg .txtLen v s = .ok none := by
  simp [writeReg, h]

theorem writeReg_txtLen_stored {v : Word} {s : State} (h : v.toNat ≤ s.caps.txtCap) :
    writeReg .txtLen v s = .ok (some { s with txtLen := v }) := by
  simp [writeReg, Nat.not_lt.mpr h]

theorem writeReg_txtAddr_refused {v : Word} {s : State} (h : s.caps.txtCap ≤ v.toNat) :
    writeReg .txtAddr v s = .ok none := by
  simp [writeReg, h]

theorem writeReg_txtAddr_stored {v : Word} {s : State} (h : v.toNat < s.caps.txtCap) :
    writeReg .txtAddr v s = .ok (some { s with txtAddr := v }) := by
  simp [writeReg, Nat.not_le.mpr h]

theorem writeReg_txtData_refused {v : Word} (h : 0xFFFF < v.toNat) (s : State) : writeReg .txtData v s = .ok none :=
  if_pos h

theorem writeReg_txtData_stored {v : Word} {s : State} (h : v.toNat ≤ 0xFFFF) (ha : s.txtAddr.toNat < s.caps.txtCap) :
    writeReg .txtData v s = .ok (some (s.writeTxt s.txtAddr.toNat (v.truncate 16))) := by
  simp [writeReg, Nat.not_lt.mpr h, ha]

theorem writeReg_filLen_refused {v : Word} {s : State} (h : s.caps.filCap < v.toNat) :
    writeReg .filLen v s = .ok none := by
  simp [writeReg, h]

theorem writeReg_filLen_stored {v : Word} {s : State} (h : v.toNat ≤ s.caps.filCap) :
    writeReg .filLen v s = .ok (some { s with filLen := v }) := by
  simp [writeReg, Nat.not_lt.mpr h]

theorem writeReg_filAddr_refused {v : Word} {s : State} (h : s.caps.filCap ≤ v.toNat) :
    writeReg .filAddr v s = .ok none := by
  simp [writeReg, h]

theorem writeReg_filAddr_stored {v : Word} {s : State} (h : v.toNat < s.caps.filCap) :
    writeReg .filAddr v s = .ok (some { s with filAddr := v }) := by
  simp [writeReg, Nat.not_le.mpr h]

theorem writeReg_filData_refused {v : Word} {s : State} (h : 0xFF < v.toNat ∨ s.caps.filCap = 0) :
    writeReg .filData v s = .ok none :=
  if_pos h

theorem writeReg_filData_stored {v : Word} {s : State} (h : v.toNat ≤ 0xFF) (ha : s.filAddr.toNat < s.caps.filCap) :
    writeReg .filData v s = .ok (some (s.writeFil s.filAddr.toNat (v.truncate 8))) := by
  rw [writeReg, if_neg (by omega), if_pos ha]

/-- A register that is not RW refuses every value (`spec/10_state.md` R38). -/
theorem writeReg_readOnly {reg : Reg} (h : regWritable reg = false) (v : Word) (s : State) :
    writeReg reg v s = .ok none := by
  cases reg with
  | warg | txtLen | txtAddr | txtData | filLen | filAddr | filData | nodeAddr | frqAddr => simp [regWritable] at h
  | _ => rfl

/-- The register numbers that `spec/10_state.md` R38 marks RO. -/
abbrev readOnlyNumber (r : Nat) : Prop :=
  r ∈ [1, 2, 3, 4, 6, 7] ∨ (14 ≤ r ∧ r ≤ 31) ∨ (33 ≤ r ∧ r ≤ 37) ∨ r = 39

theorem regOf_readOnly {r : Nat} (h : readOnlyNumber r) : ∃ reg, regOf r = some reg ∧ regWritable reg = false := by
  have inTable : r < 40 := by
    simp only [readOnlyNumber, List.mem_cons, List.not_mem_nil, or_false] at h; omega
  have table : ∀ k < 40, readOnlyNumber k → (regOf k).map regWritable = some false := by decide
  simpa using table r inTable h

theorem hostStep_write_unmapped {r : Nat} (h : 39 < r) (v : Word) (s : State) :
    hostStep (.write r v) s = .next (s.answer .herr) := by
  simp [hostStep, show r ≠ 0 by omega, portWrite, regOf_none h]

theorem hostStep_write_readOnly {r : Nat} (h : readOnlyNumber r) (v : Word) (s : State) :
    hostStep (.write r v) s = .next (s.answer .herr) := by
  obtain ⟨reg, hreg, hw⟩ := regOf_readOnly h
  have hcmd : r ≠ 0 := by rintro rfl; exact absurd h (by decide)
  exact hostStep_write_refused hcmd hreg (writeReg_readOnly hw v s)

/-- Every write on the list of R76 is answered HERR and changes nothing. -/
theorem hostStep_write_herr {s : State} {r : Nat} {v : Word} (h : writeRefused s r v) :
    hostStep (.write r v) s = .next (s.answer .herr) := by
  obtain h | h | h | h | h | ⟨rfl, h⟩ | ⟨rfl, h⟩ | ⟨rfl, h⟩ | ⟨rfl, h⟩ | ⟨rfl, h⟩ | ⟨rfl, h⟩ | ⟨rfl, h⟩ | ⟨rfl, h⟩ := h
  · exact hostStep_write_unmapped h v s
  · exact hostStep_write_readOnly (.inl h) v s
  · exact hostStep_write_readOnly (.inr (.inl h)) v s
  · exact hostStep_write_readOnly (.inr (.inr (.inl h))) v s
  · exact hostStep_write_readOnly (.inr (.inr (.inr h))) v s
  · exact hostStep_write_refused (by decide) rfl (writeReg_txtLen_refused h)
  · exact hostStep_write_refused (by decide) rfl (writeReg_txtAddr_refused h)
  · exact hostStep_write_refused (by decide) rfl (writeReg_txtData_refused h s)
  · exact hostStep_write_refused (by decide) rfl (writeReg_filLen_refused h)
  · exact hostStep_write_refused (by decide) rfl (writeReg_filAddr_refused h)
  · exact hostStep_write_refused (by decide) rfl (writeReg_filData_refused h)
  · exact hostStep_write_refused (by decide) rfl (writeReg_nodeAddr_refused h s)
  · exact hostStep_write_refused (by decide) rfl (writeReg_frqAddr_refused h s)

/-- The numbers of the RW registers, as what the list of R76 leaves over. -/
theorem rw_of_not_writeRefused {s : State} {r : Nat} {v : Word} (h : ¬ writeRefused s r v) (hcmd : r ≠ 0) :
    r = 5 ∨ r = 8 ∨ r = 9 ∨ r = 10 ∨ r = 11 ∨ r = 12 ∨ r = 13 ∨ r = 32 ∨ r = 38 := by
  simp only [writeRefused, List.mem_cons, List.not_mem_nil, or_false, not_or] at h
  obtain ⟨mapped, notRO, notView, notWindow, notFrqData, -⟩ := h
  omega

/-- Every write that is not on the list of R76, CMD apart, is of a RW register that stores the value. -/
theorem writeReg_accepted {s : State} {r : Nat} {v : Word} (hs : MemoryInv s) (h : ¬ writeRefused s r v)
    (hcmd : r ≠ 0) : ∃ reg t, regOf r = some reg ∧ writeReg reg v s = .ok (some t) := by
  obtain rfl | rfl | rfl | rfl | rfl | rfl | rfl | rfl | rfl := rw_of_not_writeRefused h hcmd
  · exact ⟨_, _, rfl, writeReg_warg v s⟩
  · exact ⟨_, _, rfl, writeReg_txtLen_stored (by simpa [writeRefused] using h)⟩
  · exact ⟨_, _, rfl, writeReg_txtAddr_stored (by simpa [writeRefused] using h)⟩
  · exact ⟨_, _, rfl, writeReg_txtData_stored (by simpa [writeRefused] using h) hs.txtAddr⟩
  · exact ⟨_, _, rfl, writeReg_filLen_stored (by simpa [writeRefused] using h)⟩
  · exact ⟨_, _, rfl, writeReg_filAddr_stored (by simpa [writeRefused] using h)⟩
  · obtain ⟨hv, hcap⟩ : v.toNat ≤ 0xFF ∧ s.caps.filCap ≠ 0 := by simpa [writeRefused] using h
    exact ⟨_, _, rfl, writeReg_filData_stored hv (hs.filAddr_lt hcap)⟩
  · exact ⟨_, _, rfl, writeReg_nodeAddr_stored (by simpa [writeRefused] using h) s⟩
  · exact ⟨_, _, rfl, writeReg_frqAddr_stored (by simpa [writeRefused] using h) s⟩

/-- Storing a value leaves the transcript to the port. -/
theorem writeReg_answers {reg : Reg} {v : Word} {s t : State} (h : writeReg reg v s = .ok (some t)) :
    t.answers = s.answers := by
  obtain ⟨-, rfl⟩ | ⟨-, -, rfl⟩ | ⟨-, -, rfl⟩ | ⟨-, -, -, rfl⟩ | ⟨-, -, rfl⟩ | ⟨-, -, rfl⟩ | ⟨-, -, -, rfl⟩ |
    ⟨-, -, rfl⟩ | ⟨-, -, rfl⟩ := writeReg_some h <;> rfl

/-! ### Cells that nothing has written -/

theorem cellsGet?_unlisted {α : Type} {m : Cells α} {a : Nat} (h : ∀ v, (a, v) ∉ m) : cellsGet? m a = none :=
  Option.eq_none_iff_forall_ne_some.mpr fun v hv => h v (cellsGet?_mem hv)

theorem readTxt_unwritten {s : State} {i : Nat} (h : ∀ u, (i, u) ∉ s.txt) :
    s.readTxt i = Config.txtUnwritten s.resets i := by
  simp [State.readTxt, cellsGet?_unlisted h]

theorem readFil_unwritten {s : State} {i : Nat} (h : ∀ u, (i, u) ∉ s.fil) :
    s.readFil i = Config.filUnwritten s.resets i := by
  simp [State.readFil, cellsGet?_unlisted h]

/-! ### The two statements -/

/-- Settles O11: the refused and the answered operations register by register; a CMD write is answered OK because no
command touches the transcript. -/
theorem herrRefusesExactlyThese : Obligations.HerrRefusesExactlyThese := by
  intro s r hs
  refine ⟨fun h => hostStep_read (hostRead_refused h), fun h => ?_, fun v =>
    ⟨hostStep_write_herr, fun h hcmd => ?_, fun t h => ?_, fun h => ?_⟩⟩
  · obtain ⟨v, hv⟩ := hostRead_answered hs h
    exact ⟨v, hostStep_read hv⟩
  · obtain ⟨reg, t, hreg, hw⟩ := writeReg_accepted hs h hcmd
    exact ⟨_, hostStep_write_stored hcmd hreg hw, congrArg (Answer.ok :: ·) (writeReg_answers hw)⟩
  · obtain ⟨u, hu, rfl⟩ := answerOk_next h
    exact congrArg (fun side => Answer.ok :: side.answers) (execWord_hostSide hu)
  · exact congrArg answerOk (execWord_illegal h s)

/-- Settles O12: TXT_DATA and FIL_DATA by the rules of their reads and writes, the stored cell by read after write. -/
theorem hostLoadsAndStores : Obligations.HostLoadsAndStores := by
  intro s hs
  refine ⟨hs.txtAddr, hostStep_read (readTxtData_value hs.txtAddr), fun v hv => ?_, fun hcap => ?_,
    fun i => readTxt_unwritten, fun i => readFil_unwritten⟩
  · exact ⟨_, hostStep_write_stored (by decide) rfl (writeReg_txtData_stored hv hs.txtAddr), rfl,
      fun i => readTxt_writeTxt s _ i _⟩
  · have inRange := hs.filAddr_lt (by omega)
    refine ⟨inRange, hostStep_read (readFilData_value inRange), fun v hv => ?_⟩
    exact ⟨_, hostStep_write_stored (by decide) rfl (writeReg_filData_stored hv inRange), rfl,
      fun i => readFil_writeFil s _ i _⟩

end Sys2Proof.Machine
end

section
/-!
The command list (`spec/30_encoding.md` R102) and the illegal words (R101, R103), both from one fact: a word with the
opcode of a command and no bit above the operand of that command is the word of the command.
-/

namespace Sys2Proof.Machine

/-! ### A command and the operand in its word -/

/-- The low bits of a word that hold the operand of `i`; the rest of bits 23:0 must be 0: format Z, N or C
(`spec/30_encoding.md` R101). -/
def operandWidth (i : Instr) : Nat :=
  match i with
  | .plIns _ => 17
  | .tbLeaf _ | .ctLookup _ => 16
  | _ => 0

/-- The command of `i` with the operand that `w` holds (`spec/30_encoding.md` R101). -/
def withOperand (w : Word) (i : Instr) : Instr :=
  match i with
  | .plIns _ => .plIns (w.toNat % 131072)
  | .tbLeaf _ => .tbLeaf (w.truncate 16)
  | .ctLookup _ => .ctLookup (w.truncate 16)
  | i => i

/-- The commands in the order of the list of `spec/30_encoding.md` R102, with any operand. -/
def listedCommands : List Instr :=
  [.plIns 0, .plRmin, .plOne, .tbLeaf 0, .tbCount, .tbLeaves, .tbMerge, .tbRoot, .tbBuild, .ctGen, .ctLookup 0,
   .enTree, .enText, .enEmit, .encode, .deHdr, .deTree, .deText, .decode, .nop, .clr]

theorem operandWidth_le (i : Instr) : operandWidth i ≤ 24 := by cases i <;> simp [operandWidth]

@[simp] theorem operandWidth_withOperand (w : Word) (i : Instr) : operandWidth (withOperand w i) = operandWidth i := by
  cases i <;> rfl

@[simp] theorem opcodeByte_withOperand (w : Word) (i : Instr) : opcodeByte (withOperand w i) = opcodeByte i := by
  cases i <;> rfl

/-- The must-be-zero bits of `w` for the format of `i` are 0 (`spec/30_encoding.md` R101). -/
abbrev reservedZero (w : Word) (i : Instr) : Prop := w.toNat % 2 ^ 24 / 2 ^ operandWidth i = 0

/-! ### Which words decode to which command -/

theorem extractLsb'_eq_zero_iff {w : Word} {a k : Nat} : w.extractLsb' a k = 0 ↔ w.toNat / 2 ^ a % 2 ^ k = 0 := by
  refine ⟨field_eq_zero, fun h => BitVec.eq_of_toNat_eq ?_⟩
  simpa [Nat.shiftRight_eq_div_pow] using h

theorem decodeZ_accepts {w : Word} (h : w.toNat % 2 ^ 24 = 0) (i : Instr) : decodeZ w i = .ok i :=
  if_pos (extractLsb'_eq_zero_iff.mpr (by omega))

theorem decodeN_accepts {w : Word} (h : w.toNat % 2 ^ 24 / 2 ^ 17 = 0) (mk : Nat → Instr) :
    decodeN w mk = .ok (mk (w.toNat % 131072)) := by
  rw [decodeN, if_pos (extractLsb'_eq_zero_iff.mpr (by omega))]
  simp

theorem decodeC_accepts {w : Word} (h : w.toNat % 2 ^ 24 / 2 ^ 16 = 0) (mk : CharUnit → Instr) :
    decodeC w mk = .ok (mk (w.truncate 16)) := by
  rw [decodeC, if_pos (extractLsb'_eq_zero_iff.mpr (by omega)), BitVec.truncate_eq_setWidth,
    BitVec.setWidth_eq_extractLsb' (by decide)]

/-- The opcode of a command with the must-be-zero bits 0 decodes to the command (`spec/30_encoding.md` R101, R102). -/
theorem decodeWord_of_opcode {w : Word} {i : Instr} (hop : opcodeOf w = opcodeByte i) (hz : reservedZero w i) :
    decodeWord w = .ok (withOperand w i) := by
  unfold decodeWord
  rw [hop]
  cases i with
  | plIns n => exact decodeN_accepts hz _
  | tbLeaf c | ctLookup c => exact decodeC_accepts hz _
  | _ => exact decodeZ_accepts (by simpa [reservedZero, operandWidth] using hz) _

/-- Every opcode of format Z is the opcode of a listed command (`spec/30_encoding.md` R102). -/
theorem command_of_opcodeZ : ∀ op ∈ opcodesZ, ∃ i ∈ listedCommands, (opcodeByte i).toNat = op := by decide

/-- A word that R101 does not call illegal has the opcode of a command and no bit above the operand. -/
theorem command_of_legalWord {w : Word} (h : ¬ illegalWord w) :
    ∃ i, opcodeOf w = opcodeByte i ∧ reservedZero w i := by
  simp only [← BitVec.toNat_inj, opcodeOf_toNat]
  by_cases hz : w.toNat / 2 ^ 24 ∈ opcodesZ
  · obtain ⟨i, -, hop⟩ := command_of_opcodeZ _ hz
    have operandZero : w.toNat % 2 ^ 24 = 0 := by_contra fun hw => h (.inr (.inl ⟨hz, hw⟩))
    exact ⟨i, hop.symm, by rw [reservedZero, operandZero, Nat.zero_div]⟩
  · obtain hop | hop | hop : w.toNat / 2 ^ 24 = 0x10 ∨ w.toNat / 2 ^ 24 = 0x20 ∨ w.toNat / 2 ^ 24 = 0x31 := by
      by_contra unlisted
      exact h (.inl ⟨hz, by omega, by omega, by omega⟩)
    · exact ⟨.plIns 0, hop, by_contra fun hw => h (.inr (.inr (.inl ⟨hop, hw⟩)))⟩
    · exact ⟨.tbLeaf 0, hop, by_contra fun hw => h (.inr (.inr (.inr ⟨.inl hop, hw⟩)))⟩
    · exact ⟨.ctLookup 0, hop, by_contra fun hw => h (.inr (.inr (.inr ⟨.inr hop, hw⟩)))⟩

theorem not_illegalWord_of_decodeWord {w : Word} {i : Instr} (h : decodeWord w = .ok i) : ¬ illegalWord w := by
  intro hw
  obtain ⟨e, he⟩ := decodeWord_illegal hw
  simp [he] at h

/-- A word that decodes has the opcode of its command and no bit above the operand. -/
theorem opcode_of_decodeWord {w : Word} {i : Instr} (h : decodeWord w = .ok i) :
    opcodeOf w = opcodeByte i ∧ reservedZero w i := by
  obtain ⟨j, hop, hz⟩ := command_of_legalWord (not_illegalWord_of_decodeWord h)
  obtain rfl : withOperand w j = i := Except.ok.inj ((decodeWord_of_opcode hop hz).symm.trans h)
  simpa [reservedZero] using And.intro hop hz

theorem decodeWord_withOperand_iff {w : Word} {i : Instr} :
    decodeWord w = .ok (withOperand w i) ↔ opcodeOf w = opcodeByte i ∧ reservedZero w i :=
  ⟨fun h => by simpa [reservedZero] using opcode_of_decodeWord h, fun ⟨hop, hz⟩ => decodeWord_of_opcode hop hz⟩

/-! ### The masks of the command list -/

/-- Masking all bits from `k` on leaves an opcode and nothing else exactly when bits 23 to `k` are 0. -/
theorem and_highMask_eq_iff {w : Word} {op : BitVec 8} {k : Nat} (hk : k ≤ 24) :
    w &&& BitVec.allOnes 32 <<< k = op ++ 0#24 ↔ opcodeOf w = op ∧ w.toNat % 2 ^ 24 / 2 ^ k = 0 := by
  have factor : 2 ^ 24 = 2 ^ k * 2 ^ (24 - k) := by rw [← pow_add, Nat.add_sub_cancel' hk]
  have kept : (w >>> k <<< k).toNat = w.toNat / 2 ^ k * 2 ^ k := by
    have := Nat.div_mul_le_self w.toNat (2 ^ k)
    rw [BitVec.toNat_shiftLeft, BitVec.toNat_ushiftRight, Nat.shiftLeft_eq, Nat.shiftRight_eq_div_pow]
    exact Nat.mod_eq_of_lt (by omega)
  simp only [← BitVec.shiftLeft_ushiftRight, ← BitVec.toNat_inj, kept, toNat_append_add, opcodeOf_toNat]
  rw [factor, Nat.mod_mul_right_div_self, ← Nat.div_div_eq_div_mul]
  simp only [BitVec.toNat_ofNat, Nat.zero_mod, Nat.add_zero]
  generalize w.toNat / 2 ^ k = q
  rw [show op.toNat * (2 ^ k * 2 ^ (24 - k)) = op.toNat * 2 ^ (24 - k) * 2 ^ k by ring,
    Nat.mul_left_inj (by positivity)]
  constructor
  · rintro rfl
    simp
  · rintro ⟨hop, hz⟩
    rw [← hop, Nat.div_mul_cancel (Nat.dvd_of_mod_eq_zero hz)]

/-- The row of a command in the list: match, mask and the command with the operand of `w` (`spec/30_encoding.md`
R102). -/
def rowOf (w : Word) (i : Instr) : Word × Word × Instr :=
  (opcodeByte i ++ 0#24, BitVec.allOnes 32 <<< operandWidth i, withOperand w i)

theorem commandRows_eq_map_rowOf (w : Word) : commandRows w = listedCommands.map (rowOf w) := rfl

/-! ### The two statements -/

/-- Settles O3: for each row, both sides say that the word has the opcode of the row and no bit above the operand. -/
theorem wordsMatchTheCommandList : Obligations.WordsMatchTheCommandList := by
  intro w row hrow
  rw [commandRows_eq_map_rowOf, List.mem_map] at hrow
  obtain ⟨i, -, rfl⟩ := hrow
  exact (and_highMask_eq_iff (operandWidth_le i)).trans decodeWord_withOperand_iff.symm

/-- Settles O4: a word that is not illegal decodes by its opcode, an illegal one is answered by IllegalCommand. -/
theorem illegalWordRule : Obligations.IllegalWordRule := by
  refine ⟨fun w => ⟨fun hw i hi => not_illegalWord_of_decodeWord hi hw, fun undecoded => ?_⟩,
    fun w s hw => execWord_illegal hw s, rfl⟩
  by_contra legal
  obtain ⟨i, hop, hz⟩ := command_of_legalWord legal
  exact undecoded _ (decodeWord_of_opcode hop hz)

end Sys2Proof.Machine
end

section
/-!
The commands of the priority list (`spec/40_priority_list.md` R142, R144, R145). The procedures Insert, RemoveMin and
HasOne are described once in the laws of the list; here, for each command: what its body answers, that what it leaves is
again a list, and the statement.
-/

namespace Sys2Proof.Machine

/-! ### PL.INS -/

/-- The word of PL.INS n, for every n that fits the operand field (`spec/30_encoding.md` R101, R102). -/
theorem decodeWord_plIns {n : Nat} (hn : n ≤ 131071) :
    decodeWord (BitVec.ofNat 32 (0x10000000 + n)) = .ok (.plIns n) := by
  have value : (BitVec.ofNat 32 (0x10000000 + n)).toNat = 0x10000000 + n := by
    rw [BitVec.toNat_ofNat, Nat.mod_eq_of_lt (by omega)]
  have opcode : opcodeOf (BitVec.ofNat 32 (0x10000000 + n)) = opcodeByte (.plIns n) := by
    refine BitVec.eq_of_toNat_eq ?_
    rw [opcodeOf_toNat, value, show (opcodeByte (.plIns n)).toNat = 0x10 from rfl]
    omega
  rw [decodeWord_of_opcode opcode (by rw [reservedZero, value, operandWidth]; omega), withOperand, value,
    show (0x10000000 + n) % 131072 = n by omega]

/-- PL.INS raises BadState for a node that is not allocated, listed or a child. -/
theorem plInsBody_badState {s : State} {n : Nat} (h : ∀ x, s.nodes[n]? = some x → x.inl = true ∨ x.child = true) :
    plInsBody n s = badState s := by
  rw [plInsBody, State.node?]
  cases hx : s.nodes[n]? with
  | none => rfl
  | some x => exact if_pos (by simpa using h x hx)

/-- PL.INS runs `Insert` on an allocated node that is neither listed nor a child. -/
theorem plInsBody_inserts {s : State} {n : Nat} {x : Node} {a : Arena} (hx : s.nodes[n]? = some x)
    (hi : x.inl = false) (hc : x.child = false) (ha : insertNode s.arena n = some a) :
    plInsBody n s = .ok (s.withArena a) := by
  simp [plInsBody, State.node?, hx, hi, hc, ha]

theorem ListIs.not_mem_of_inl_false {s : State} {xs : List Nat} (h : ListIs s xs) {n : Nat} {x : Node}
    (hx : s.nodes[n]? = some x) (hi : x.inl = false) : n ∉ xs := by
  intro hn
  obtain ⟨y, hy, hyi⟩ := h.marked n hn
  obtain rfl : x = y := Option.some.inj (hx.symm.trans hy)
  simp [hi] at hyi

/-- A list with one more node is again a list, when the node gets INL = 1 and the others keep theirs. -/
theorem ListIs.insert {s t : State} {n : Nat} {x : Node} {xs : List Nat} (wt : Nat → Word) (h : ListIs s xs)
    (hn : n ∉ xs) (hx : s.nodes[n]? = some x) (hc : Chain t.nodes t.listHead (stableInsert wt n xs))
    (hinl : ∀ m y, s.nodes[m]? = some y → ∃ z, t.nodes[m]? = some z ∧ z.inl = if m = n then true else y.inl) :
    ListIs t (stableInsert wt n xs) where
  chain := hc
  distinct := (stableInsert_perm wt n xs).nodup_iff.mpr (List.nodup_cons.mpr ⟨hn, h.distinct⟩)
  marked m hm := by
    obtain rfl | old := List.mem_cons.mp ((stableInsert_perm wt n xs).mem_iff.mp hm)
    · obtain ⟨z, hz, hzi⟩ := hinl m x hx
      exact ⟨z, hz, by simpa using hzi⟩
    · obtain ⟨y, hy, hyi⟩ := h.marked m old
      obtain ⟨z, hz, hzi⟩ := hinl m y hy
      exact ⟨z, hz, by simpa [hyi] using hzi⟩

/-- Settles O18: BadState by the two tests of the body, the insertion by what `Insert` does to the list. -/
theorem plInsRule : Obligations.PlInsRule := by
  intro s n xs hs hn
  refine ⟨decodeWord_plIns hn, fun h => congrArg finish (plInsBody_badState h), fun x hx hi hc => ?_⟩
  have unlisted := hs.not_mem_of_inl_false hx hi
  obtain ⟨a, ha, hlen, hchain, hfields, hothers⟩ := insertNode_spec hs.chain hs.distinct hx unlisted
  refine ⟨(s.withArena a).done, congrArg finish (plInsBody_inserts hx hi hc ha), rfl, ?_, hlen, fun m y hy => ?_⟩
  · refine hs.insert _ unlisted hx hchain fun m y hy => ?_
    obtain ⟨z, hz, he⟩ := hfields m y hy
    exact ⟨z, hz, congrArg Node.inl he⟩
  · obtain ⟨z, hz, he⟩ := hfields m y hy
    refine ⟨z, hz, he, fun hmn hm => ?_⟩
    exact Option.some.inj (hz.symm.trans (hothers m y hy (by simp [hmn, hm])))

/-! ### PL.RMIN -/

/-- PL.RMIN on an empty list reports NULL and the weight 0. -/
theorem plRminBody_empty {s : State} (h : s.listHead = none) :
    plRminBody s = .ok { s.setEmpty true with res0 := refWord none, res1 := 0 } := by
  simp [plRminBody, State.arena, h]

/-- PL.RMIN hands on what `RemoveMin` took off the list. -/
theorem plRminBody_removes {s : State} {r : Removed} (h : removeMin s.arena = some (some r)) :
    plRminBody s = .ok { (s.setEmpty false).withArena r.arena with res0 := Word.ofNat r.index, res1 := r.wt } := by
  simp [plRminBody, h]

/-- The rest of a list is a list, when only the node of its head changed. -/
theorem ListIs.tail {s t : State} {n : Nat} {xs : List Nat} (h : ListIs s (n :: xs))
    (hc : Chain t.nodes t.listHead xs) (hothers : ∀ m, m ≠ n → t.nodes[m]? = s.nodes[m]?) : ListIs t xs where
  chain := hc
  distinct := h.distinct.of_cons
  marked m hm := by
    have notHead : m ≠ n := by
      rintro rfl
      exact h.distinct.notMem hm
    rw [hothers m notHead]
    exact h.marked m (List.mem_cons_of_mem n hm)

/-- Settles O19: both cases by what `RemoveMin` does to the list. -/
theorem plRminRule : Obligations.PlRminRule := by
  refine ⟨rfl, fun s => ⟨fun h => congrArg finish (plRminBody_empty h), fun n xs hs => ?_⟩⟩
  obtain ⟨x, nodes, hx, hr, -, hlen, hchain, hhead, hothers⟩ := removeMin_cons hs.chain hs.distinct
  exact ⟨_, x, hx, congrArg finish (plRminBody_removes hr), rfl, hs.tail hchain hothers, hlen, hhead, hothers⟩

/-! ### PL.ONE -/

/-- PL.ONE stores the answer of `HasOne`. -/
theorem plOneBody_stores {s : State} {b : Bool} (h : hasOne s.arena = some b) : plOneBody s = .ok (s.setOne b) := by
  rw [plOneBody, h, withAnswer_some]

/-- Settles O20: by what `HasOne` answers on a list. -/
theorem plOneRule : Obligations.PlOneRule :=
  ⟨rfl, fun _ _ hs => congrArg finish (plOneBody_stores (hasOne_chain hs.chain))⟩

end Sys2Proof.Machine
end

section
/-!
The single commands of the tree builder (`spec/41_tree_builder.md` R161, R162, R164, R166, R168). What the loops of
TB.LEAVES and TB.MERGE do to the arena stands in the laws of the tree builder; here, for each command: what its body
answers, and the statement.
-/

namespace Sys2Proof.Machine

/-! ### TB.LEAF -/

/-- The word of TB.LEAF ch: the opcode, a zero byte and the character (`spec/30_encoding.md` R101, R102). -/
theorem decodeWord_tbLeaf (ch : CharUnit) : decodeWord (0x20#8 ++ 0#8 ++ ch) = .ok (.tbLeaf ch) := by
  have value : (0x20#8 ++ 0#8 ++ ch : Word).toNat = 0x20000000 + ch.toNat := by
    rw [toNat_append_add]; rfl
  have small := ch.isLt
  have opcode : opcodeOf (0x20#8 ++ 0#8 ++ ch) = opcodeByte (.tbLeaf ch) := by
    refine BitVec.eq_of_toNat_eq ?_
    rw [opcodeOf_toNat, value, show (opcodeByte (.tbLeaf ch)).toNat = 0x20 from rfl]
    omega
  have operand : (0x20#8 ++ 0#8 ++ ch : Word).truncate 16 = ch := by
    refine BitVec.eq_of_toNat_eq ?_
    rw [BitVec.truncate_eq_setWidth, BitVec.toNat_setWidth, value]
    omega
  rw [decodeWord_of_opcode opcode (by rw [reservedZero, value, operandWidth]; omega), withOperand, operand]

theorem arenaFull_eq_true_iff {nodes : List Node} : arenaFull nodes = true ↔ Config.nodeMax ≤ nodes.length :=
  decide_eq_true_iff

theorem arenaFull_eq_false_iff {nodes : List Node} : arenaFull nodes = false ↔ nodes.length < Config.nodeMax :=
  decide_eq_false_iff_not.trans Nat.not_le

theorem tbLeafBody_full {s : State} (h : Config.nodeMax ≤ s.nodes.length) (ch : CharUnit) :
    tbLeafBody ch s = badState s :=
  if_pos (arenaFull_eq_true_iff.mpr h)

theorem tbLeafBody_appends {s : State} (h : s.nodes.length < Config.nodeMax) (ch : CharUnit) :
    tbLeafBody ch s = .ok { s with nodes := s.nodes ++ [newLeaf ch s.warg], res0 := Word.ofNat s.nodeCnt } := by
  simp [tbLeafBody, arenaFull_eq_false_iff.mpr h]

/-- Settles O22: the word by its opcode and operand, the two outcomes by the test for a full arena. -/
theorem tbLeafRule : Obligations.TbLeafRule := fun _ ch =>
  ⟨decodeWord_tbLeaf ch, fun full => congrArg finish (tbLeafBody_full full ch),
    fun room => congrArg finish (tbLeafBody_appends room ch)⟩

/-! ### TB.COUNT -/

/-- What TB.COUNT leaves in FREQ. -/
abbrev State.counts (s : State) : Cells Word := s.text.foldl countUnit []

theorem tbCountBody_counts {s : State} (h : s.txtLen.toNat ≤ s.caps.txtCap) :
    tbCountBody s = .ok { s with freq := s.counts } :=
  if_pos (decide_eq_true h)

/-- No count of a text overflows its cell of FREQ: the text has at most as many units as TXT_LEN can say. -/
theorem toNat_ofNat_count (s : State) (c : CharUnit) : (BitVec.ofNat 32 (s.text.count c)).toNat = s.text.count c := by
  have count_le : s.text.count c ≤ s.txtLen.toNat := text_length s ▸ List.count_le_length
  rw [BitVec.toNat_ofNat, Nat.mod_eq_of_lt (by omega)]

theorem counts_toNat (s : State) (c : CharUnit) : (tableGet 0 s.counts c.toNat).toNat = s.text.count c := by
  rw [foldl_countUnit_get, tableGet_nil, zero_add, toNat_ofNat_count]

/-- Settles O23: the loop adds one per unit, and no count overflows. -/
theorem tbCountRule : Obligations.TbCountRule :=
  ⟨rfl, fun s h => ⟨_, congrArg finish (tbCountBody_counts h), rfl, counts_toNat s⟩⟩

/-! ### TB.LEAVES -/

theorem tbLeavesBody_adds {s : State} {a : Arena} (h : addLeaves { nodes := [], head := none } s.freq = some a) :
    tbLeavesBody s = .ok (s.clearNodes.withArena a) := by
  simp [tbLeavesBody, h]

/-- In a canonical table an entry is listed exactly when its value is the one read and not the default. -/
theorem mem_table_iff {α : Type} {d : α} {size : Nat} {t : Cells α} (h : Table.wf d size t) {k : Nat} {v : α} :
    (k, v) ∈ t ↔ v = tableGet d t k ∧ v ≠ d := by
  constructor
  · intro hm
    exact ⟨by rw [tableGet, cellsGet?_of_mem h.1.1 hm]; rfl, h.2 _ hm⟩
  · rintro ⟨rfl, hv⟩
    unfold tableGet at hv ⊢
    cases hk : cellsGet? t k with
    | none => simp [hk] at hv
    | some v => exact cellsGet?_mem hk

/-- The listed indices of a canonical table are those with a value other than the default, in ascending order. -/
theorem table_indices {α : Type} [DecidableEq α] {d : α} {size : Nat} {t : Cells α} (h : Table.wf d size t) :
    t.map Prod.fst = (List.range size).filter (fun k => decide (tableGet d t k ≠ d)) := by
  have rising : (t.map Prod.fst).Pairwise (· < ·) := List.pairwise_map.mpr h.1.1
  have rising' := (List.pairwise_lt_range (n := size)).filter (fun k => decide (tableGet d t k ≠ d))
  refine List.Perm.eq_of_pairwise (fun a b _ _ hab hba => absurd hab (Nat.lt_asymm hba)) rising rising' ?_
  refine (List.perm_ext_iff_of_nodup (rising.imp Nat.ne_of_lt) (rising'.imp Nat.ne_of_lt)).mpr fun k => ?_
  simp only [List.mem_map, Prod.exists, exists_and_right, exists_eq_right, mem_table_iff h, List.mem_filter,
    List.mem_range, decide_eq_true_eq]
  constructor
  · rintro ⟨v, rfl, hv⟩
    exact ⟨h.1.2 _ ((mem_table_iff h).mpr ⟨rfl, hv⟩), hv⟩
  · rintro ⟨-, hk⟩
    exact ⟨_, rfl, hk⟩

/-- A canonical table spelled out: every index with a value other than the default, with this value. -/
theorem table_eq_map {α : Type} [DecidableEq α] {d : α} {size : Nat} {t : Cells α} (h : Table.wf d size t) :
    t = ((List.range size).filter (fun k => decide (tableGet d t k ≠ d))).map (fun k => (k, tableGet d t k)) := by
  rw [← table_indices h, List.map_map]
  refine (List.map_id t).symm.trans (List.map_congr_left fun c hc => ?_)
  rw [Function.comp_apply, ← ((mem_table_iff h).mp hc).1, id]

/-- The leaves that TB.LEAVES makes stand in a list. -/
theorem LeavesOf.listIs {cs : List (Nat × Word)} {a : Arena} (h : LeavesOf cs a) {t : State} (ht : t.arena = a) :
    ∃ xs, ListIs t xs ∧ xs.Perm (List.range cs.length) ∧
      xs.Pairwise (fun m n => wtAt t.nodes m < wtAt t.nodes n ∨ (wtAt t.nodes m = wtAt t.nodes n ∧ m < n)) := by
  subst ht
  obtain ⟨xs, chain, perm, sorted⟩ := h.list
  refine ⟨xs, ⟨chain, perm.nodup_iff.mpr List.nodup_range, fun n hn => ?_⟩, perm, sorted⟩
  have inRange : n < cs.length := List.mem_range.mp (perm.mem_iff.mp hn)
  obtain ⟨x, hx, leaf⟩ := h.leaf n _ (List.getElem?_eq_getElem inRange)
  exact ⟨x, hx, congrArg Node.inl leaf⟩

/-- Settles O24: the loop runs over the listed cells of FREQ, which are the characters with a count, ascending. -/
theorem tbLeavesRule : Obligations.TbLeavesRule := by
  refine ⟨rfl, fun s cs hs hcs => ?_⟩
  obtain ⟨a, ha, leaves⟩ := addLeaves_leavesOf s.freq leavesOf_nil
  have entries : s.freq = cs.map (fun c => (c, s.freqOf c)) := hcs ▸ table_eq_map hs.freq
  have length : s.freq.length = cs.length := by rw [entries, List.length_map]
  refine ⟨_, congrArg finish (tbLeavesBody_adds ha), rfl, leaves.length.trans length, fun i c hi => ?_, ?_⟩
  · exact leaves.leaf i (c, s.freqOf c) (by rw [List.nil_append, entries, List.getElem?_map, hi]; rfl)
  · rw [← length]
    exact leaves.listIs rfl

/-! ### TB.MERGE -/

theorem tbMergeBody_tooFew {s : State} {xs : List Nat} (hs : ListIs s xs) (h : xs.length < 2) :
    tbMergeBody s = badState s := by
  simp [tbMergeBody, State.arena, hasTwo_chain hs.chain, Nat.not_le.mpr h]

/-- With a full arena TB.MERGE raises BadState, whether the list holds two nodes or not. -/
theorem tbMergeBody_full {s : State} {xs : List Nat} (hs : ListIs s xs) (h : Config.nodeMax ≤ s.nodes.length) :
    tbMergeBody s = badState s := by
  simp [tbMergeBody, State.arena, hasTwo_chain hs.chain, arenaFull_eq_true_iff.mpr h]

/-- With a sum that does not fit, TB.MERGE raises BadState, whether the arena is full or not. -/
theorem tbMergeBody_overflow {s : State} {a b : Nat} {ys : List Nat} (hs : ListIs s (a :: b :: ys))
    (h : 0xFFFFFFFF < (wtAt s.nodes a).toNat + (wtAt s.nodes b).toNat) : tbMergeBody s = badState s := by
  simp [tbMergeBody, State.arena, hasTwo_chain hs.chain, headSum_chain hs.chain, h]

/-- The list after a merge is a list: the new node gets INL = 1, the old ones but the two lowest keep theirs. -/
theorem ListIs.merge {s t : State} {a b : Nat} {ys : List Nat} (wt : Nat → Word) (h : ListIs s (a :: b :: ys))
    (hc : Chain t.nodes t.listHead (stableInsert wt s.nodes.length ys))
    (hnew : ∃ x, t.nodes[s.nodes.length]? = some x ∧ x.inl = true)
    (hold : ∀ m y, s.nodes[m]? = some y → m ≠ a → m ≠ b → ∃ z, t.nodes[m]? = some z ∧ z.inl = y.inl) :
    ListIs t (stableInsert wt s.nodes.length ys) where
  chain := hc
  distinct := by
    have unallocated : s.nodes.length ∉ ys := fun hm => Nat.lt_irrefl _ (h.chain.lt (by simp [hm]))
    exact (stableInsert_perm wt _ ys).nodup_iff.mpr (List.nodup_cons.mpr ⟨unallocated, h.distinct.of_cons.of_cons⟩)
  marked m hm := by
    obtain rfl | old := List.mem_cons.mp ((stableInsert_perm wt _ ys).mem_iff.mp hm)
    · exact hnew
    · have notFirst : m ≠ a := by rintro rfl; exact h.distinct.notMem (List.mem_cons_of_mem b old)
      have notSecond : m ≠ b := by rintro rfl; exact h.distinct.of_cons.notMem old
      obtain ⟨y, hy, hyi⟩ := h.marked m (by simp [old])
      obtain ⟨z, hz, hzi⟩ := hold m y hy notFirst notSecond
      exact ⟨z, hz, hzi.trans hyi⟩

/-- What the body of TB.MERGE answers on a list of two nodes or more, with room in the arena and a sum that fits: the
next state, its list and its nodes (`spec/41_tree_builder.md` R166). -/
theorem tbMergeBody_merges {s : State} {a b : Nat} {ys : List Nat} (hs : ListIs s (a :: b :: ys))
    (room : s.nodes.length < Config.nodeMax)
    (fits : (wtAt s.nodes a).toNat + (wtAt s.nodes b).toNat ≤ 0xFFFFFFFF) :
    ∃ t x, tbMergeBody s = .ok t ∧
      t = { s with
        nodes := t.nodes, listHead := t.listHead, res0 := Word.ofNat s.nodes.length
        res1 := wtAt s.nodes a + wtAt s.nodes b } ∧
      t.nodes.length = s.nodes.length + 1 ∧ ListIs t (stableInsert (wtAt t.nodes) s.nodes.length ys) ∧
      t.nodes[s.nodes.length]? = some x ∧
      x = { newInternal (some a) (some b) (wtAt s.nodes a + wtAt s.nodes b) with next := x.next, inl := true } ∧
      ∀ (m : Nat) (y : Node), s.nodes[m]? = some y → ∃ z, t.nodes[m]? = some z ∧
        (m = a ∨ m = b → z = { y with next := none, inl := false, child := true }) ∧
        (m ≠ a → m ≠ b → z = { y with next := z.next }) ∧ (m ∉ a :: b :: ys → z = y) := by
  obtain ⟨a', x, merged, length, chain, hx, new, old⟩ := mergeArena_spec hs.chain hs.distinct
  refine ⟨_, x, tbMergeBody_ok hs.chain room fits merged, rfl, length, ?_, hx, new, old⟩
  refine hs.merge _ chain ⟨x, hx, congrArg Node.inl new⟩ fun m y hy notFirst notSecond => ?_
  obtain ⟨z, hz, -, kept, -⟩ := old m y hy
  exact ⟨z, hz, by rw [kept notFirst notSecond]⟩

/-- Settles O25: each cause of BadState by the test that finds it, the merge by what the body answers. -/
theorem tbMergeRule : Obligations.TbMergeRule := by
  refine ⟨rfl, fun s xs hs => ⟨fun causes => ?_, fun a b ys hxs room fits => ?_⟩⟩
  · obtain few | full | ⟨a, b, ys, rfl, overflow⟩ := causes
    · exact congrArg finish (tbMergeBody_tooFew hs few)
    · exact congrArg finish (tbMergeBody_full hs full)
    · exact congrArg finish (tbMergeBody_overflow hs overflow)
  · subst hxs
    obtain ⟨t, x, body, frame, length, list, hx, new, old⟩ := tbMergeBody_merges hs room fits
    refine ⟨t.done, x, congrArg finish body, ?_, length, ⟨list.chain, list.distinct, list.marked⟩, hx, new, old⟩
    rw [frame]; rfl

/-! ### TB.ROOT -/

theorem tbRootBody_notOne {s : State} {xs : List Nat} (hs : ListIs s xs) (h : xs.length ≠ 1) :
    tbRootBody s = badState s := by
  simp [tbRootBody, State.arena, hasOne_chain hs.chain, h]

/-- TB.ROOT hands on what `RemoveMin` took off a list of one. -/
theorem tbRootBody_removes {s : State} {r : Removed} (one : hasOne s.arena = some true)
    (removed : removeMin s.arena = some (some r)) :
    tbRootBody s =
      .ok { s.withArena r.arena with root := some r.index, res0 := Word.ofNat r.index, res1 := r.wt } := by
  simp [tbRootBody, one, removed]

/-- TB.ROOT hands on the one node of the list as ROOT. -/
theorem tbRootBody_takes {s : State} {r : Nat} (hc : Chain s.nodes s.listHead [r]) :
    ∃ t x, s.nodes[r]? = some x ∧ tbRootBody s = .ok t ∧
      t = { s with nodes := t.nodes, listHead := none, root := some r, res0 := Word.ofNat r, res1 := x.wt } ∧
      t.nodes.length = s.nodes.length ∧ t.nodes[r]? = some { x with next := none, inl := false } ∧
      ∀ m, m ≠ r → t.nodes[m]? = s.nodes[m]? := by
  obtain ⟨x, nodes, hx, removed, -, length, rest, taken, others⟩ := removeMin_cons hc (List.nodup_singleton r)
  have last : x.next = none := rest
  refine ⟨_, x, hx, tbRootBody_removes (hasOne_chain hc) removed, ?_, length, taken, others⟩
  rw [last]; rfl

/-- Settles O26: BadState by `HasOne`, the root by what `RemoveMin` takes off the list. -/
theorem tbRootRule : Obligations.TbRootRule := by
  refine ⟨rfl, fun s xs hs => ⟨fun h => congrArg finish (tbRootBody_notOne hs h), fun r hxs => ?_⟩⟩
  subst hxs
  obtain ⟨t, x, hx, body, frame, length, taken, others⟩ := tbRootBody_takes hs.chain
  refine ⟨t.done, x, hx, congrArg finish body, ?_, length, taken, others⟩
  rw [frame]; rfl

end Sys2Proof.Machine
end

section
/-!
TB.BUILD (`spec/41_tree_builder.md` R170): the counts of a text character by character, the leaves that the loop of
merges starts from, that the composite is the stepwise sequence, and the statement.
-/

namespace Sys2Proof.Machine

/-! ### The counts of a text -/

/-- An index of the tables is the number of its character. -/
theorem toNat_charOfIndex {k : Nat} (hk : k < Config.nchar) : (BitVec.ofNat 16 k).toNat = k :=
  (BitVec.toNat_ofNat k 16).trans (Nat.mod_eq_of_lt hk)

theorem counts_toNat_of_lt (s : State) {k : Nat} (hk : k < Config.nchar) :
    (tableGet 0 s.counts k).toNat = s.text.count (BitVec.ofNat 16 k) := by
  simpa only [toNat_charOfIndex hk] using counts_toNat s (BitVec.ofNat 16 k)

/-- The characters with a count are the characters of the text. -/
theorem counted_indices (s : State) :
    (List.range Config.nchar).filter (fun k => decide (tableGet 0 s.counts k ≠ 0)) = distinctChars s.text := by
  refine List.filter_congr fun k hk => decide_eq_decide.mpr ?_
  rw [← List.count_pos_iff, ← counts_toNat_of_lt s (List.mem_range.mp hk), Nat.pos_iff_ne_zero]
  exact not_congr BitVec.toNat_inj.symm

/-- What TB.COUNT leaves in FREQ, spelled out. -/
theorem counts_eq_map (s : State) :
    s.counts = (distinctChars s.text).map (fun c => (c, tableGet 0 s.counts c)) := by
  rw [← counted_indices]
  exact table_eq_map (foldl_countUnit_wf s.text (table_wf_nil _ _))

theorem counts_length (s : State) : s.counts.length = (distinctChars s.text).length := by
  rw [counts_eq_map, List.length_map]

theorem mem_distinctChars {text : List CharUnit} {k : Nat} :
    k ∈ distinctChars text ↔ k < Config.nchar ∧ BitVec.ofNat 16 k ∈ text := by
  simp [distinctChars]

theorem distinctChars_length_le (text : List CharUnit) : (distinctChars text).length ≤ Config.nchar :=
  (List.length_filter_le _ _).trans_eq List.length_range

theorem distinctChars_toNat_mem {text : List CharUnit} {c : CharUnit} (h : c ∈ text) : c.toNat ∈ distinctChars text :=
  mem_distinctChars.mpr ⟨c.isLt, by simpa using h⟩

theorem distinctChars_ne_nil {s : State} (h : s.txtLen ≠ 0) : distinctChars s.text ≠ [] := by
  intro none
  have noText : s.text = [] := List.eq_nil_iff_forall_not_mem.mpr fun c hc =>
    List.ne_nil_of_mem (distinctChars_toNat_mem hc) none
  exact h (BitVec.eq_of_toNat_eq (by rw [← text_length, noText]; rfl))

/-- The distinct characters of a text are its characters without the repetitions. -/
theorem distinctChars_perm_dedup (text : List CharUnit) :
    ((distinctChars text).map (BitVec.ofNat 16)).Perm text.dedup := by
  have distinct : ((distinctChars text).map (BitVec.ofNat 16)).Nodup := by
    refine List.Nodup.map_on (fun a ha b hb hab => ?_) (List.nodup_range.filter _)
    have values := congrArg BitVec.toNat hab
    rwa [toNat_charOfIndex (mem_distinctChars.mp ha).1, toNat_charOfIndex (mem_distinctChars.mp hb).1] at values
  refine (List.perm_ext_iff_of_nodup distinct (List.nodup_dedup text)).mpr fun c => ?_
  rw [List.mem_dedup, List.mem_map]
  constructor
  · rintro ⟨k, hk, rfl⟩
    exact (mem_distinctChars.mp hk).2
  · exact fun hc => ⟨c.toNat, distinctChars_toNat_mem hc, by simp⟩

/-- "The sum of all counts is TXT_LEN" (`spec/41_tree_builder.md` R162). -/
theorem counts_sum (s : State) : (s.counts.map (fun c => c.2.toNat)).sum = s.txtLen.toNat := by
  have counts : s.counts.map (fun c => c.2.toNat) =
      ((distinctChars s.text).map (BitVec.ofNat 16)).map (fun c => s.text.count c) := by
    rw [counts_eq_map, List.map_map, List.map_map]
    exact List.map_congr_left fun k hk => counts_toNat_of_lt s (mem_distinctChars.mp hk).1
  rw [counts, ((distinctChars_perm_dedup s.text).map _).sum_eq, List.sum_map_count_dedup_eq_length, text_length]

/-! ### The leaves that the merges start from -/

/-- The tree of one leaf that stands at node `m` of an arena of leaves. -/
def leafAt (nodes : List Node) (m : Nat) : HTree := .leaf (((nodes[m]?).map Node.ch).getD 0)

theorem LeavesOf.holds {cs : List (Nat × Word)} {a : Arena} (h : LeavesOf cs a) {m : Nat} (hm : m < cs.length) :
    HoldsTree a.nodes m (leafAt a.nodes m) := by
  obtain ⟨x, hx, leaf⟩ := h.leaf m _ (List.getElem?_eq_getElem hm)
  exact ⟨x, hx, congrArg Node.leaf leaf, by simp [hx]⟩

/-- The weights of the listed leaves are the counts they were made for, in some order. -/
theorem LeavesOf.weights {cs : List (Nat × Word)} {a : Arena} (h : LeavesOf cs a) {xs : List Nat}
    (hp : xs.Perm (List.range cs.length)) :
    (xs.map (fun m => (wtAt a.nodes m).toNat)).sum = (cs.map (fun c => c.2.toNat)).sum := by
  have byIndex : (List.range cs.length).map (fun m => (wtAt a.nodes m).toNat) = cs.map (fun c => c.2.toNat) := by
    refine List.ext_getElem (by simp) fun m hm hm' => ?_
    obtain ⟨x, hx, leaf⟩ := h.leaf m _ (List.getElem?_eq_getElem (by simpa using hm'))
    have weight : x.wt = _ := congrArg Node.wt leaf
    simp [wtAt_of hx, weight, newLeaf]
  rw [(hp.map _).sum_eq, byIndex]

/-! ### The stepwise sequence -/

@[simp] theorem done_done (s : State) : s.done.done = s.done := rfl

theorem exec_tbCount (s : State) : exec .tbCount s = finish (tbCountBody s) := rfl
theorem exec_tbLeaves (s : State) : exec .tbLeaves s = finish (tbLeavesBody s) := rfl
theorem exec_tbMerge (s : State) : exec .tbMerge s = finish (tbMergeBody s) := rfl
theorem exec_tbRoot (s : State) : exec .tbRoot s = finish (tbRootBody s) := rfl
theorem exec_tbBuild (s : State) : exec .tbBuild s = finish (tbBuildBody s) := rfl

/-- The host goes on behind a command whose body ends normally. -/
theorem runAll_cons {i : Instr} {s t : State} {b : Body} (hi : exec i s = finish b) (hb : b = .ok t)
    (is : List Instr) : runAll (i :: is) s = runAll is t.done := by
  simp [runAll, hi, hb, ErrorRecord.clear]

/-- TB.LEAVES does the same whatever error the command before it left. -/
theorem tbLeavesBody_done {s t : State} (h : tbLeavesBody s = .ok t) : tbLeavesBody s.done = .ok t.done := by
  obtain ⟨a, ha, rfl⟩ := tbLeavesBody_ok h
  exact tbLeavesBody_adds ha

/-- The converse of `tbMergeBody_ok_cases`: TB.MERGE hands on what the merge of the arena left. -/
theorem tbMergeBody_of_checks {s : State} {n : Nat} {r : Nat × Word × Arena} (two : hasTwo s.arena = some true)
    (room : s.nodes.length < Config.nodeMax) (sum : headSum s.arena = some n) (fits : n ≤ 0xFFFFFFFF)
    (merged : mergeArena s.arena = some r) :
    tbMergeBody s = .ok { s.withArena r.2.2 with res0 := Word.ofNat r.1, res1 := r.2.1 } := by
  simp [tbMergeBody, two, arenaFull_eq_false_iff.mpr room, sum, Nat.not_lt.mpr fits, merged]

/-- TB.MERGE does the same whatever error the command before it left. -/
theorem tbMergeBody_done {s t : State} (h : tbMergeBody s = .ok t) : tbMergeBody s.done = .ok t.done := by
  obtain ⟨n, r, two, room, sum, fits, merged, rfl⟩ := tbMergeBody_ok_cases h
  exact tbMergeBody_of_checks two room sum fits merged

/-- TB.ROOT does the same whatever error the command before it left. -/
theorem tbRootBody_done {s t : State} (h : tbRootBody s = .ok t) : tbRootBody s.done = .ok t.done := by
  obtain ⟨r, one, removed, rfl⟩ := tbRootBody_ok h
  exact tbRootBody_removes one removed

/-- A merge makes the list one node shorter. -/
theorem tbMergeBody_shortens {s t : State} {xs : List Nat} (hs : ListIs s xs) (h : tbMergeBody s = .ok t) :
    ∃ ys, ListIs t ys ∧ ys.length + 1 = xs.length := by
  obtain ⟨n, r, two, room, sum, fits, -, -⟩ := tbMergeBody_ok_cases h
  rw [State.arena, hasTwo_chain hs.chain, Option.some.injEq, decide_eq_true_eq] at two
  match xs, two with
  | a :: b :: ys, _ =>
    rw [State.arena, headSum_chain hs.chain, Option.some.injEq] at sum
    obtain ⟨u, x, body, -, -, list, -⟩ := tbMergeBody_merges hs room (sum.trans_le fits)
    obtain rfl : t = u := Except.ok.inj (h.symm.trans body)
    exact ⟨_, list, by simp⟩

/-- The loop of merges is one TB.MERGE fewer than the list has nodes (`spec/41_tree_builder.md` R170). -/
theorem runAll_merges {fuel : Nat} {s t : State} {xs : List Nat} (hs : ListIs s xs) (h : mergeLoop fuel s = .ok t)
    (is : List Instr) : runAll (List.replicate (xs.length - 1) .tbMerge ++ is) s.done = runAll is t.done := by
  induction fuel generalizing s xs with
  | zero => simp [mergeLoop] at h
  | succ fuel ih =>
    rw [mergeLoop, State.arena, hasOne_chain hs.chain, withAnswer_some] at h
    by_cases one : xs.length = 1
    · rw [if_pos (by simpa using one)] at h
      obtain rfl : s = t := Except.ok.inj h
      simp [one]
    · rw [if_neg (by simpa using one)] at h
      cases body : tbMergeBody s with
      | error e => simp [body] at h
      | ok u =>
        rw [body] at h
        obtain ⟨ys, list, shorter⟩ := tbMergeBody_shortens hs body
        have turns : xs.length - 1 = ys.length - 1 + 1 := by omega
        rw [turns, List.replicate_succ, List.cons_append, runAll_cons (exec_tbMerge _) (tbMergeBody_done body),
          done_done]
        exact ih list h

/-! ### The composite -/

theorem tbBuildBody_emptyText {s : State} (h : s.txtLen = 0) : tbBuildBody s = raiseAt s .invalidArgument 0 0 :=
  if_pos h

/-- The parts of TB.BUILD on a text that is not empty: TB.LEAVES makes a list of one leaf per distinct character, the
merges make it one node, which becomes ROOT and weighs TXT_LEN. -/
theorem tbBuild_parts {s : State} (hne : s.txtLen ≠ 0) :
    ∃ s₂ s₃ t xs r, tbLeavesBody { s with freq := s.counts } = .ok s₂ ∧ ListIs s₂ xs ∧
      xs.length = (distinctChars s.text).length ∧ mergeLoop s₂.nodeCnt s₂ = .ok s₃ ∧ tbRootBody s₃ = .ok t ∧
      t = { s with
        freq := t.freq, nodes := t.nodes, listHead := none, root := some r, res0 := Word.ofNat r
        res1 := s.txtLen } := by
  obtain ⟨a, added, leaves⟩ := addLeaves_leavesOf s.counts leavesOf_nil
  rw [List.nil_append] at leaves
  let s₂ : State := { s with freq := s.counts }.clearNodes.withArena a
  obtain ⟨xs, list, perm, -⟩ := leaves.listIs (t := s₂) rfl
  have length : xs.length = (distinctChars s.text).length := by rw [perm.length_eq, List.length_range, counts_length]
  have nodes : s₂.nodes.length = (distinctChars s.text).length := leaves.length.trans (counts_length s)
  have room : s₂.nodes.length + xs.length ≤ Config.nodeMax + 1 := by
    have atMost : (distinctChars s.text).length ≤ 65536 := distinctChars_length_le s.text
    rw [length, nodes, Config.nodeMax]
    omega
  have nonempty : xs ≠ [] := by
    rintro rfl
    exact distinctChars_ne_nil hne (List.length_eq_zero_iff.mp length.symm)
  have weights : (xs.map (fun m => (wtAt s₂.nodes m).toNat)).sum = s.txtLen.toNat :=
    (leaves.weights perm).trans (counts_sum s)
  obtain ⟨s₃, r, u, merged, frame₃, chain, -, -, weight, -⟩ := mergeLoop_spec s₂.nodeCnt s₂ xs (leafAt s₂.nodes)
    list.chain list.distinct (fun m hm => leaves.holds (List.mem_range.mp (perm.mem_iff.mp hm))) nonempty
    (length.trans nodes.symm).le room (by rw [weights]; omega)
  have head : s₃.listHead = some r := congrArg State.listHead frame₃
  obtain ⟨t, x, hx, body, frame, -⟩ := tbRootBody_takes (head ▸ chain)
  refine ⟨s₂, s₃, t, xs, r, tbLeavesBody_adds added, list, length, merged, body, ?_⟩
  have total : x.wt = s.txtLen := BitVec.eq_of_toNat_eq (by rw [← wtAt_of hx, weight, weights])
  rw [frame, frame₃, total]
  rfl

/-- Settles O27: the parts of the composite end one after another, each as its own command does. -/
theorem tbBuildRule : Obligations.TbBuildRule := by
  refine ⟨rfl, fun s => ⟨fun h => congrArg finish (tbBuildBody_emptyText h), fun hne hcap => ?_⟩⟩
  obtain ⟨s₂, s₃, t, xs, r, leaves, list, length, merged, root, frame⟩ := tbBuild_parts hne
  have counted := tbCountBody_counts hcap
  have build : exec .tbBuild s = .next t.done := by
    rw [exec_tbBuild, tbBuildBody, if_neg hne, counted, body_ok_bind, leaves, body_ok_bind, merged, body_ok_bind, root,
      finish_ok]
  refine ⟨?_, t.done, r, build, congrArg State.root frame, ?_⟩
  · rw [build, ← length, List.append_assoc, List.cons_append, List.cons_append, List.nil_append,
      runAll_cons (exec_tbCount s) counted, runAll_cons (exec_tbLeaves _) (tbLeavesBody_done leaves),
      done_done, runAll_merges list merged, runAll_cons (exec_tbRoot _) (tbRootBody_done root), done_done, runAll]
  · rw [frame]; rfl

end Sys2Proof.Machine
end

section
/-!
The code table (`spec/42_code_table.md` R192, R194, R196). What the walk of CT.GEN assigns stands in the laws of the
tree and of the code table; here: the table that a list of paths leaves, that CT.GEN makes the table of the codes of its
tree or none, what a lookup answers, and the three statements.
-/

namespace Sys2Proof.Machine

/-! ### The codes of a tree -/

theorem HTree.codes_chars (u : HTree) : u.codes.map Prod.fst = u.chars := by
  cases u with
  | leaf c => rfl
  | node l r => exact HTree.paths_chars _

/-- Every code has a bit: the root of a tree of two leaves or more is no leaf, and a single leaf gets the code 0. -/
theorem HTree.codes_ne_nil (u : HTree) : ∀ p ∈ u.codes, p.2 ≠ [] := by
  cases u with
  | leaf c => simp [HTree.codes]
  | node l r =>
    intro p hp
    simp only [HTree.codes, HTree.paths, List.mem_append, List.mem_map] at hp
    obtain ⟨q, -, rfl⟩ | ⟨q, -, rfl⟩ := hp <;> exact List.cons_ne_nil _ _

theorem lastPath_mem {ps : List (CharUnit × List Bool)} {c : CharUnit} {p : List Bool} (h : lastPath ps c = some p) :
    (c, p) ∈ ps := by
  obtain ⟨⟨d, q⟩, found, rfl⟩ := Option.map_eq_some_iff.mp h
  obtain rfl : d = c := by simpa using List.find?_some found
  exact List.mem_reverse.mp (List.mem_of_find?_eq_some found)

theorem lastPath_eq_none_iff {ps : List (CharUnit × List Bool)} {c : CharUnit} :
    lastPath ps c = none ↔ c ∉ ps.map Prod.fst := by
  simp only [lastPath, Option.map_eq_none_iff, List.find?_eq_none, List.mem_reverse, beq_iff_eq, List.mem_map,
    not_exists, not_and]

/-! ### The entry of a path -/

/-- The entry that a path leaves: its bits right-justified, with their number (`spec/42_code_table.md` R190). -/
def pathEntry (p : List Bool) : CodeEntry := { code := pathCode 0 p, len := BitVec.ofNat 5 p.length }

theorem pathEntry_len_toNat {p : List Bool} (h : p.length ≤ 16) : (pathEntry p).len.toNat = p.length := by
  rw [pathEntry, BitVec.toNat_ofNat, Nat.mod_eq_of_lt (by omega)]

theorem pathEntry_code_lt (p : List Bool) : (pathEntry p).code.toNat < 2 ^ p.length := by
  rw [pathEntry, pathCode_toNat]
  exact (Nat.mod_le _ _).trans_lt (bitsToNat_lt p)

theorem entryBits_pathEntry {p : List Bool} (h : p.length ≤ 16) : entryBits (pathEntry p) = p := entryBits_path p h

theorem pathEntry_ne_absent {p : List Bool} (hp : p ≠ []) (h : p.length ≤ 16) : pathEntry p ≠ CodeEntry.absent := by
  intro absent
  have length := pathEntry_len_toNat h
  rw [absent] at length
  exact hp (List.length_eq_zero_iff.mp length.symm)

/-- A code that is stored has at most 16 bits and "has lost no bit" (`spec/42_code_table.md` R194): the entry holds a
whole path of its character, or no code. -/
def HoldsWholePath (ps : List (CharUnit × List Bool)) (d : CharUnit) (e : CodeEntry) : Prop :=
  e.len.toNat ≤ 16 ∧ (e.len ≠ 0 → (d, entryBits e) ∈ ps)

theorem holdsWholePath_absent (ps : List (CharUnit × List Bool)) (d : CharUnit) :
    HoldsWholePath ps d CodeEntry.absent :=
  ⟨Nat.zero_le _, fun coded => absurd rfl coded⟩

theorem holdsWholePath_pathEntry {ps : List (CharUnit × List Bool)} {d : CharUnit} {p : List Bool} (hp : (d, p) ∈ ps)
    (h : p.length ≤ 16) : HoldsWholePath ps d (pathEntry p) :=
  ⟨(pathEntry_len_toNat h).trans_le h, fun _ => (entryBits_pathEntry h).symm ▸ hp⟩

/-! ### The table of a list of paths -/

/-- The canonical table that gives each character the last of its paths, and no other character a code
(`spec/42_code_table.md` R192). -/
structure CodesOf (ps : List (CharUnit × List Bool)) (t : Codes) : Prop where
  inv : t.Inv
  entry : ∀ d, entryOf t.ctab d = ((lastPath ps d).map pathEntry).getD CodeEntry.absent

/-- The table that CT.GEN starts from: no character has a code (`spec/42_code_table.md` R192). -/
abbrev Codes.empty : Codes := { ctab := [], ncodes := 0 }

/-- The assignments of paths that fit the code register fill the table. -/
theorem assignPaths_codesOf {ps : List (CharUnit × List Bool)} (hne : ∀ p ∈ ps, p.2 ≠ [])
    (hfit : ∀ p ∈ ps, p.2.length ≤ 16) :
    ∃ t, assignPaths 0 0 ps Codes.empty = .ok t ∧ CodesOf ps t := by
  obtain ⟨t, filled, entry⟩ := assignPaths_ok 0 0 ps Codes.empty (by simpa using hfit)
  simp only [Nat.zero_add] at entry
  exact ⟨t, filled, assignPaths_inv ps Codes.inv_empty hne filled, entry⟩

namespace CodesOf

variable {ps : List (CharUnit × List Bool)} {t : Codes}

theorem entry_of_path (h : CodesOf ps t) {c : CharUnit} {p : List Bool} (hp : lastPath ps c = some p) :
    entryOf t.ctab c = pathEntry p := by
  simp [h.entry, hp]

theorem entry_absent (h : CodesOf ps t) {c : CharUnit} (hc : c ∉ ps.map Prod.fst) :
    entryOf t.ctab c = CodeEntry.absent := by
  simp [h.entry, lastPath_eq_none_iff.mpr hc]

/-- No code of the table has lost a bit. -/
theorem entry_holdsWholePath (h : CodesOf ps t) (hfit : ∀ p ∈ ps, p.2.length ≤ 16) (d : CharUnit) :
    HoldsWholePath ps d (entryOf t.ctab d) := by
  cases last : lastPath ps d with
  | none =>
    rw [h.entry_absent (lastPath_eq_none_iff.mp last)]
    exact holdsWholePath_absent ps d
  | some p =>
    rw [h.entry_of_path last]
    exact holdsWholePath_pathEntry (lastPath_mem last) (hfit _ (lastPath_mem last))

section
variable (hne : ∀ p ∈ ps, p.2 ≠ []) (hfit : ∀ p ∈ ps, p.2.length ≤ 16)
include hne hfit

theorem entry_ne_absent_iff (h : CodesOf ps t) (c : CharUnit) :
    entryOf t.ctab c ≠ CodeEntry.absent ↔ c ∈ ps.map Prod.fst := by
  refine ⟨fun coded => by_contra fun hc => coded (h.entry_absent hc), fun hc => ?_⟩
  obtain ⟨p, last⟩ := Option.ne_none_iff_exists'.mp (mt lastPath_eq_none_iff.mp (not_not.mpr hc))
  rw [h.entry_of_path last]
  exact pathEntry_ne_absent (hne _ (lastPath_mem last)) (hfit _ (lastPath_mem last))

/-- The listed indices of the table are the characters of the paths. -/
theorem indices (h : CodesOf ps t) : t.ctab.map Prod.fst = distinctChars (ps.map Prod.fst) := by
  rw [table_indices h.inv.ctab]
  refine List.filter_congr fun k hk => decide_eq_decide.mpr ?_
  rw [← h.entry_ne_absent_iff hne hfit, entryOf, toNat_charOfIndex (List.mem_range.mp hk)]

/-- "NCODES counts the character once" (`spec/42_code_table.md` R192). -/
theorem ncodes_toNat (h : CodesOf ps t) : t.ncodes.toNat = (ps.map Prod.fst).dedup.length := by
  rw [h.inv.count, ← List.length_map Prod.fst, h.indices hne hfit, ← (distinctChars_perm_dedup _).length_eq,
    List.length_map]

end

end CodesOf

/-! ### CT.GEN -/

/-- The walk of CT.GEN assigns the codes of the tree in preorder, a single leaf's code included
(`spec/42_code_table.md` R192). -/
theorem genWalk_holds {s : State} {r : Nat} {x : Node} {u : HTree} (hu : HoldsTree s.nodes r u)
    (hx : s.nodes[r]? = some x) : genWalk s r x = assignPaths 0 0 u.codes Codes.empty := by
  cases u with
  | leaf c =>
    obtain ⟨y, hy, leaf, rfl⟩ := hu
    obtain rfl : x = y := Option.some.inj (hx.symm.trans hy)
    rw [genWalk, if_pos leaf]
    rfl
  | node l r =>
    have walk := visit_holds hu hu.depth_lt 0 0 Codes.empty
    obtain ⟨y, a, b, hy, inner, -⟩ := hu
    obtain rfl : x = y := Option.some.inj (hx.symm.trans hy)
    rw [genWalk, if_neg (by simp [inner])]
    exact walk

/-- How CT.GEN ends on what its walk answered: with the filled table, or with CodeOverflow and an empty one
(`spec/42_code_table.md` R192, R194). -/
def genOutcome (s : State) (walk : Except VisitStop Codes) : Body :=
  match walk with
  | .ok c => .ok { s with ctab := c.ctab, ncodes := c.ncodes }
  | .error (.overflow c) => raiseAt s.clearCodes .codeOverflow 0 c.toNat
  | .error .broken => brokenArena

theorem ctGenBody_noTree {s : State} (h : s.root = none) : ctGenBody s = badState s := by
  simp [ctGenBody, h]

section
variable {s : State} {r : Nat} {u : HTree} (hr : s.root = some r) (hu : HoldsTree s.nodes r u)
include hr hu

/-- The body of CT.GEN ends as the assignments of the codes of the tree under ROOT do. -/
theorem ctGenBody_holds : ctGenBody s = genOutcome s (assignPaths 0 0 u.codes Codes.empty) := by
  have hx := List.getElem?_eq_getElem hu.lt
  rw [← genWalk_holds hu hx]
  simp only [ctGenBody, genOutcome, hr, State.node?, hx, withAnswer_some]
  rfl

/-- CT.GEN completes the table of a tree no deeper than the code register is wide. -/
theorem ctGen_completes (hfit : ∀ p ∈ u.codes, p.2.length ≤ 16) :
    ∃ c, exec .ctGen s = .next (State.done { s with ctab := c.ctab, ncodes := c.ncodes }) ∧ CodesOf u.codes c := by
  obtain ⟨c, filled, codes⟩ := assignPaths_codesOf u.codes_ne_nil hfit
  exact ⟨c, congrArg finish ((ctGenBody_holds hr hu).trans (congrArg (genOutcome s) filled)), codes⟩

/-- CT.GEN reports the first leaf that is too deep, with an empty table (`spec/42_code_table.md` R194). -/
theorem ctGen_overflows {c : CharUnit} {p : List Bool}
    (h : u.codes.find? (fun q => decide (16 < q.2.length)) = some (c, p)) :
    exec .ctGen s =
      .next (s.clearCodes.raise { kind := .codeOverflow, sub := 0, pos := c.zeroExtend 32 }) := by
  have overflow := assignPaths_overflow 0 0 u.codes Codes.empty (by simpa using h)
  have body : ctGenBody s = raiseAt s.clearCodes .codeOverflow 0 c.toNat :=
    (ctGenBody_holds hr hu).trans (congrArg (genOutcome s) overflow)
  have pos : Word.ofNat c.toNat = c.zeroExtend 32 := BitVec.ofNat_toNat 32 c
  exact (congrArg finish body).trans (by rw [raiseAt, finish_raised, pos]; rfl)

end

/-- Settles O29: the table of the codes, which the walk fills when no path is too long. -/
theorem ctGenRule : Obligations.CtGenRule := by
  refine ⟨rfl, fun s => ⟨fun hr => congrArg finish (ctGenBody_noTree hr), fun r u hr hu hfit => ?_⟩⟩
  obtain ⟨c, next, codes⟩ := ctGen_completes hr hu hfit
  refine ⟨_, next, rfl, fun d p last => ?_, fun d absent => ?_, ?_⟩
  · have fits := hfit _ (lastPath_mem last)
    rw [done_ctab, codes.entry_of_path last]
    exact ⟨pathEntry_len_toNat fits, entryBits_pathEntry fits, pathEntry_code_lt p⟩
  · exact codes.entry_absent (u.codes_chars ▸ absent)
  · rw [← u.codes_chars]
    exact codes.ncodes_toNat u.codes_ne_nil hfit

/-- Settles O30: the walk overflows at the first path that is too long; where there is none, the table it fills holds
whole paths. -/
theorem ctGenOverflowRule : Obligations.CtGenOverflowRule := by
  intro s r u hr hu
  refine ⟨fun c p deep => ⟨_, ctGen_overflows hr hu deep, rfl, entryOf_reset⟩, fun t d next => ?_⟩
  cases deep : u.codes.find? (fun q => decide (16 < q.2.length)) with
  | some q =>
    obtain rfl := Host.Outcome.next.inj ((ctGen_overflows hr hu deep).symm.trans next)
    exact holdsWholePath_absent u.codes d
  | none =>
    have hfit : ∀ p ∈ u.codes, p.2.length ≤ 16 := by simpa using deep
    obtain ⟨c, completed, codes⟩ := ctGen_completes hr hu hfit
    obtain rfl := Host.Outcome.next.inj (completed.symm.trans next)
    exact codes.entry_holdsWholePath hfit d

/-! ### CT.LOOKUP -/

/-- The word of CT.LOOKUP ch: the opcode, a zero byte and the character (`spec/30_encoding.md` R101, R102). -/
theorem decodeWord_ctLookup (ch : CharUnit) : decodeWord (0x31#8 ++ 0#8 ++ ch) = .ok (.ctLookup ch) := by
  have opcode : opcodeOf (0x31#8 ++ 0#8 ++ ch) = 0x31#8 := BitVec.extractLsb'_append_eq_of_le (by decide)
  have reserved : (0x31#8 ++ 0#8 ++ ch : Word).extractLsb' 16 8 = 0 := BitVec.extractLsb'_append_eq_of_le (by decide)
  have format : decodeWord (0x31#8 ++ 0#8 ++ ch) = decodeC (0x31#8 ++ 0#8 ++ ch) .ctLookup := by
    rw [decodeWord, opcode]; rfl
  rw [format, decodeC, if_pos reserved, BitVec.extractLsb'_append_eq_right]

/-- Settles O32: the word by its opcode and operand, the outcome from the body. -/
theorem ctLookupRule : Obligations.CtLookupRule := fun _ ch => ⟨decodeWord_ctLookup ch, rfl⟩

end Sys2Proof.Machine
end

section
/-!
EN.TREE, EN.TEXT and EN.EMIT (`spec/43_encoder.md` R211, R213, R216 to R218): what the body of each answers, what stands
in FIL afterwards, and the three statements.
-/

namespace Sys2Proof.Machine

/-! ### EN.TREE -/

theorem enTreeBody_noTree {s : State} (h : s.root = none) : enTreeBody s = badState s := by
  simp [enTreeBody, h]

theorem enTreeBody_serialises {s : State} {r : Nat} {u : HTree} (hr : s.root = some r) (hu : HoldsTree s.nodes r u) :
    enTreeBody s = .ok { s with tbuf := u.ser } := by
  have bits : serialise s.nodes s.nodeCnt r = some u.ser := serialise_holds hu hu.depth_lt
  simp [enTreeBody, hr, bits]

theorem HTree.ser_length_eq (u : HTree) : u.ser.length = 18 * u.leafCount - 1 :=
  Nat.eq_sub_of_add_eq u.ser_length

theorem HTree.ser_ne_nil (u : HTree) : u.ser ≠ [] := by
  cases u <;> exact List.cons_ne_nil _ _

/-- Settles O33: the walk under ROOT appends the serialised tree. -/
theorem enTreeRule : Obligations.EnTreeRule :=
  ⟨rfl, fun _ => ⟨fun hr => congrArg finish (enTreeBody_noTree hr), fun _ u hr hu =>
    ⟨congrArg finish (enTreeBody_serialises hr hu), u.ser_length_eq⟩⟩⟩

/-! ### EN.TEXT -/

/-- The codes of a text, joined in its order (`spec/30_encoding.md` R112). -/
abbrev joinedCodes (t : Cells CodeEntry) (text : List CharUnit) : List Bool :=
  (text.map (fun c => entryBits (entryOf t c))).flatten

theorem textBits_coded {t : Cells CodeEntry} {text : List CharUnit} (h : ∀ c ∈ text, (entryOf t c).len ≠ 0) (i : Nat) :
    textBits t i text = .ok (joinedCodes t text) := by
  induction text generalizing i with
  | nil => rfl
  | cons c cs ih =>
    obtain ⟨coded, rest⟩ := List.forall_mem_cons.mp h
    rw [textBits, if_neg coded, ih rest]
    rfl

theorem joinedCodes_ne_nil {t : Cells CodeEntry} {text : List CharUnit} (hne : text ≠ [])
    (coded : ∀ c ∈ text, (entryOf t c).len ≠ 0) : joinedCodes t text ≠ [] := by
  obtain ⟨c, hc⟩ := List.exists_mem_of_ne_nil text hne
  intro none
  have noBits : entryBits (entryOf t c) = [] := List.flatten_eq_nil_iff.mp none _ (List.mem_map_of_mem hc)
  have length : (entryOf t c).len.toNat = 0 := by
    rw [← bitsOf_length (entryOf t c).code (entryOf t c).len.toNat, ← entryBits, noBits]
    rfl
  exact coded c hc (BitVec.eq_of_toNat_eq length)

/-- EN.TEXT stops at the first character without a code, whose index counts from that of the first unit. -/
theorem textBits_uncoded {t : Cells CodeEntry} {text : List CharUnit} {i : Nat} {c : CharUnit} (hc : text[i]? = some c)
    (uncoded : (entryOf t c).len = 0)
    (before : ∀ (j : Nat) (d : CharUnit), j < i → text[j]? = some d → (entryOf t d).len ≠ 0) (k : Nat) :
    textBits t k text = .error (k + i) := by
  induction text generalizing i k with
  | nil => simp at hc
  | cons d ds ih =>
    cases i with
    | zero =>
      obtain rfl : d = c := by simpa using hc
      simp [textBits, uncoded]
    | succ i =>
      have coded : (entryOf t d).len ≠ 0 := before 0 d (Nat.succ_pos i) rfl
      have rest := ih (by simpa using hc) (fun j e hj he => before (j + 1) e (Nat.succ_lt_succ hj) (by simpa using he))
        (k + 1)
      rw [textBits, if_neg coded, rest, Nat.add_right_comm, Nat.add_assoc]

section
variable {s : State} (hcap : s.txtLen.toNat ≤ s.caps.txtCap)
include hcap

theorem enTextBody_writes {bits : List Bool} (h : textBits s.ctab 0 s.text = .ok bits) :
    enTextBody s = .ok { s with xbuf := bits } := by
  simp [enTextBody, State.textInMemory, hcap, h]

theorem enTextBody_stops {i : Nat} (h : textBits s.ctab 0 s.text = .error i) :
    enTextBody s = raiseAt { s with xbuf := [] } .badState 0 i := by
  simp [enTextBody, State.textInMemory, hcap, h]

end

/-- Settles O34: along the text, either every character has a code or the first without one stops the walk. -/
theorem enTextRule : Obligations.EnTextRule := by
  refine ⟨rfl, fun s hcap => ⟨fun coded => congrArg finish (enTextBody_writes hcap (textBits_coded coded 0)),
    fun i c hc uncoded before => ?_⟩⟩
  have stops := textBits_uncoded hc uncoded before 0
  rw [Nat.zero_add] at stops
  exact congrArg finish (enTextBody_stops hcap stops)

/-! ### EN.EMIT -/

/-- What EN.EMIT leaves when the file fits (`spec/43_encoder.md` R216, R218). -/
def State.emitted (s : State) : State :=
  { s with
    fil := cellsPutAll s.fil 0 (fileBytes s.tbuf s.xbuf)
    filLen := Word.ofNat (4 + ceil8 s.tcur + ceil8 s.xcur)
    stats := { chars := s.txtLen, metaB := Word.ofNat Config.metaBytes, tree := Word.ofNat (ceil8 s.tcur)
               text := Word.ofNat (ceil8 s.xcur) } }

theorem enEmitBody_emptyBuffer {s : State} (h : s.tbuf = [] ∨ s.xbuf = []) : enEmitBody s = badState s :=
  if_pos (h.imp (congrArg List.length) (congrArg List.length))

section
variable {s : State} (htree : s.tbuf ≠ []) (htext : s.xbuf ≠ [])
include htree htext

theorem buffers_filled : ¬ (s.tcur = 0 ∨ s.xcur = 0) :=
  not_or.mpr ⟨mt List.length_eq_zero_iff.mp htree, mt List.length_eq_zero_iff.mp htext⟩

theorem enEmitBody_noRoom (h : s.caps.filCap < 4 + ceil8 s.tcur + ceil8 s.xcur) :
    enEmitBody s = raiseAt s .storageError 0 0 :=
  (if_neg (buffers_filled htree htext)).trans (if_pos h)

theorem enEmitBody_fits (h : 4 + ceil8 s.tcur + ceil8 s.xcur ≤ s.caps.filCap) : enEmitBody s = .ok s.emitted :=
  (if_neg (buffers_filled htree htext)).trans (if_neg (Nat.not_lt.mpr h))

/-- With both buffers filled EN.EMIT stops for lack of room or writes the file. -/
theorem enEmitBody_ends :
    (s.caps.filCap < 4 + ceil8 s.tcur + ceil8 s.xcur ∧ enEmitBody s = raiseAt s .storageError 0 0) ∨
    (4 + ceil8 s.tcur + ceil8 s.xcur ≤ s.caps.filCap ∧ enEmitBody s = .ok s.emitted) :=
  (Nat.lt_or_ge _ _).imp (fun h => ⟨h, enEmitBody_noRoom htree htext h⟩) (fun h => ⟨h, enEmitBody_fits htree htext h⟩)

end

/-! ### The bytes of the file -/

/-- The first four bytes are the header (`spec/30_encoding.md` R105). -/
theorem fileBytes_header (tree text : List Bool) {i : Nat} (hi : i < 4) :
    (fileBytes tree text)[i]? =
      (headerBytes (ceil8 tree.length) (lastBits tree.length) (lastBits text.length))[i]? :=
  List.getElem?_append_left hi

theorem fileBytes_tree (tree text : List Bool) {i : Nat} (hi : i < ceil8 tree.length) :
    (fileBytes tree text)[4 + i]? = (packBytes (ceil8 tree.length) tree)[i]? := by
  rw [fileBytes, List.getElem?_append_right (by simp), List.getElem?_append_left (by simpa using hi)]
  simp

theorem fileBytes_text (tree text : List Bool) (i : Nat) :
    (fileBytes tree text)[4 + ceil8 tree.length + i]? = (packBytes (ceil8 text.length) text)[i]? := by
  rw [fileBytes, List.getElem?_append_right (by simp; omega), List.getElem?_append_right (by simp; omega)]
  congr 1
  simp
  omega

theorem readFil_emitted (s : State) (i : Nat) :
    s.emitted.readFil i = ((fileBytes s.tbuf s.xbuf)[i]?).getD (s.readFil i) :=
  readFil_putAll s _ i

theorem readFil_emitted_header (s : State) {i n : Nat} (hi : i < 4)
    (hb : (headerBytes (ceil8 s.tcur) (lastBits s.tcur) (lastBits s.xcur))[i]? = some (BitVec.ofNat 8 n))
    (hn : n < 256) : (s.emitted.readFil i).toNat = n := by
  have header : (fileBytes s.tbuf s.xbuf)[i]? = some (BitVec.ofNat 8 n) := (fileBytes_header _ _ hi).trans hb
  rw [readFil_emitted, header, Option.getD_some, BitVec.toNat_ofNat, Nat.mod_eq_of_lt hn]

/-- A cell that holds byte `i` of a packed stream holds its bits (`spec/43_encoder.md` R210). -/
theorem readFil_emitted_bit (s : State) {n k i j : Nat} {bits : List Bool}
    (h : (fileBytes s.tbuf s.xbuf)[n]? = (packBytes k bits)[i]?) (hi : i < k) (hj : j < 8) :
    (s.emitted.readFil n).getLsbD (7 - j) = (bits[8 * i + j]?).getD false := by
  rw [readFil_emitted, h, packBytes_get k bits i hi, Option.getD_some, byteOfBits_bit _ j hj, List.getElem?_drop]

theorem readFil_emitted_above (s : State) {i : Nat} (hi : 4 + ceil8 s.tcur + ceil8 s.xcur ≤ i) :
    s.emitted.readFil i = s.readFil i := by
  rw [readFil_emitted, List.getElem?_eq_none (by rw [fileBytes_length]; exact hi), Option.getD_none]

theorem lastBits_le (n : Nat) : lastBits n ≤ 8 := by
  rw [lastBits]
  omega

theorem filLen_emitted_toNat {s : State} (hcaps : s.caps.Legal) (h : 4 + ceil8 s.tcur + ceil8 s.xcur ≤ s.caps.filCap) :
    s.emitted.filLen.toNat = 4 + ceil8 s.tcur + ceil8 s.xcur := by
  obtain ⟨-, -, small⟩ := hcaps
  exact Nat.mod_eq_of_lt (by omega)

/-- Settles O35: the three outcomes by the tests of the body, the file region by region. -/
theorem enEmitRule : Obligations.EnEmitRule := by
  refine ⟨rfl, fun s tb xb hcaps htb hxb => ?_⟩
  obtain rfl : tb = ceil8 s.tcur := htb
  obtain rfl : xb = ceil8 s.xcur := hxb
  refine ⟨fun h => congrArg finish (enEmitBody_emptyBuffer h),
    fun htree htext h => congrArg finish (enEmitBody_noRoom htree htext h), fun htree htext h => ?_⟩
  have tail := lastBits_le s.tcur
  have tail' := lastBits_le s.xcur
  refine ⟨s.emitted.done, congrArg finish (enEmitBody_fits htree htext h), rfl, filLen_emitted_toNat hcaps h, ?_, ?_,
    ?_, ?_, fun i j hi hj => ?_, fun i j hi hj => ?_, fun i hi => readFil_emitted_above s hi⟩
  · exact readFil_emitted_header s (by decide) rfl (by omega)
  · exact readFil_emitted_header s (by decide) rfl (by omega)
  · exact readFil_emitted_header s (by decide) rfl (by omega)
  · exact readFil_emitted_header s (by decide) rfl (by omega)
  · exact readFil_emitted_bit s (fileBytes_tree _ _ hi) hi hj
  · exact readFil_emitted_bit s (fileBytes_text _ _ i) hi hj

end Sys2Proof.Machine
end

section
/-!
ENCODE (`spec/43_encoder.md` R221 to R223): the tree and the table that its parts make of the text, how it ends, that it
is the stepwise sequence, and the three statements.
-/

namespace Sys2Proof.Machine

/-! ### The text of a state -/

/-- The text is what its cells read as. -/
theorem text_congr {s t : State} (hlen : t.txtLen = s.txtLen) (hread : ∀ i, t.readTxt i = s.readTxt i) :
    t.text = s.text := by
  refine List.ext_getElem? fun i => ?_
  by_cases hi : i < s.txtLen.toNat
  · rw [State.text, State.text, textFrom_get _ _ _ _ hi, textFrom_get _ _ _ _ (hlen ▸ hi), hread]
  · rw [List.getElem?_eq_none (by simpa [hlen] using hi), List.getElem?_eq_none (by simpa using hi)]

@[simp] theorem text_done (s : State) : s.done.text = s.text := text_congr rfl fun _ => rfl
@[simp] theorem text_clearWorking (s : State) : s.clearWorking.text = s.text := text_congr rfl fun _ => rfl

theorem text_ne_nil {s : State} (h : s.txtLen ≠ 0) : s.text ≠ [] := fun none =>
  h (BitVec.eq_of_toNat_eq (by rw [← text_length, none]; rfl))

/-! ### The tree of a text -/

/-- The characters of the listed leaves are those they were made for, in some order. -/
theorem LeavesOf.chars {cs : List (Nat × Word)} {a : Arena} (h : LeavesOf cs a) {xs : List Nat}
    (hp : xs.Perm (List.range cs.length)) :
    (xs.flatMap (fun m => (leafAt a.nodes m).chars)).Perm (cs.map (fun c => BitVec.ofNat 16 c.1)) := by
  have byIndex : (List.range cs.length).flatMap (fun m => (leafAt a.nodes m).chars) =
      cs.map (fun c => BitVec.ofNat 16 c.1) := by
    simp only [leafAt, HTree.chars, ← List.map_eq_flatMap]
    refine List.ext_getElem (by simp) fun m hm hm' => ?_
    obtain ⟨x, hx, leaf⟩ := h.leaf m _ (List.getElem?_eq_getElem (by simpa using hm'))
    have char : x.ch = _ := congrArg Node.ch leaf
    simp [hx, char, newLeaf]
  exact byIndex ▸ hp.flatMap_right _

theorem counts_chars (s : State) :
    s.counts.map (fun c => BitVec.ofNat 16 c.1) = (distinctChars s.text).map (BitVec.ofNat 16) := by
  rw [counts_eq_map, List.map_map]
  rfl

/-- What TB.BUILD makes of the text of `s`: the counts, and under ROOT a tree that has each character of the text in one
leaf; the list is empty and nothing else changes (`spec/41_tree_builder.md` R170). -/
structure TreeBuilt (s t : State) (r : Nat) (u : HTree) : Prop where
  frame : t = { s with
    freq := s.counts, nodes := t.nodes, listHead := none, root := some r, res0 := Word.ofNat r, res1 := s.txtLen }
  holds : HoldsTree t.nodes r u
  chars : u.chars.Perm ((distinctChars s.text).map (BitVec.ofNat 16))

/-- TB.ROOT changes the links only, so that the tree of the one listed node stays. -/
theorem tbRootBody_keepsTree {s : State} {r : Nat} {u : HTree} (hc : Chain s.nodes s.listHead [r])
    (hu : HoldsTree s.nodes r u) :
    ∃ t, tbRootBody s = .ok t ∧ HoldsTree t.nodes r u ∧ t = { s with
      nodes := t.nodes, listHead := none, root := some r, res0 := Word.ofNat r, res1 := wtAt s.nodes r } := by
  obtain ⟨t, x, hx, body, frame, -, taken, others⟩ := tbRootBody_takes hc
  refine ⟨t, body, hu.congr fun m y hy => ?_, wtAt_of hx ▸ frame⟩
  by_cases hm : m = r
  · subst hm
    obtain rfl : x = y := Option.some.inj (hx.symm.trans hy)
    exact ⟨_, taken, rfl, rfl, rfl, rfl⟩
  · exact ⟨y, (others m hm).trans hy, rfl, rfl, rfl, rfl⟩

/-- The loop of merges makes one tree of the leaves of a text: the arena has room for it, and the sum of the counts is
TXT_LEN, which fits the weight of the root (`spec/41_tree_builder.md` R162, R170). -/
theorem mergeLoop_counts {s : State} {a : Arena} (leaves : LeavesOf s.counts a) {xs : List Nat} {s₂ : State}
    (arena : s₂.arena = a) (list : ListIs s₂ xs) (perm : xs.Perm (List.range s.counts.length)) (hne : s.txtLen ≠ 0) :
    ∃ s₃ r u, mergeLoop s₂.nodeCnt s₂ = .ok s₃ ∧
      s₃ = { s₂ with nodes := s₃.nodes, listHead := some r, res0 := s₃.res0, res1 := s₃.res1 } ∧
      Chain s₃.nodes (some r) [r] ∧ HoldsTree s₃.nodes r u ∧ wtAt s₃.nodes r = s.txtLen ∧
      u.chars.Perm ((distinctChars s.text).map (BitVec.ofNat 16)) := by
  subst arena
  have length : xs.length = s.counts.length := perm.length_eq.trans List.length_range
  have nodes : s₂.nodes.length = s.counts.length := leaves.length
  have nonempty : xs ≠ [] := fun none =>
    distinctChars_ne_nil hne (List.length_eq_zero_iff.mp (by rw [← counts_length, ← length, none]; rfl))
  have room : s₂.nodes.length + xs.length ≤ Config.nodeMax + 1 := by
    have atMost : s.counts.length ≤ 65536 := (counts_length s).trans_le (distinctChars_length_le s.text)
    rw [length, nodes, Config.nodeMax]
    omega
  have weights : (xs.map (fun m => (wtAt s₂.nodes m).toNat)).sum = s.txtLen.toNat :=
    (leaves.weights perm).trans (counts_sum s)
  obtain ⟨s₃, r, u, merged, frame, chain, holds, chars, weight, -⟩ := mergeLoop_spec s₂.nodeCnt s₂ xs (leafAt s₂.nodes)
    list.chain list.distinct (fun m hm => leaves.holds (List.mem_range.mp (perm.mem_iff.mp hm))) nonempty
    (length.trans nodes.symm).le room (by rw [weights]; omega)
  refine ⟨s₃, r, u, merged, frame, chain, holds, BitVec.eq_of_toNat_eq (weight.trans weights), ?_⟩
  exact counts_chars s ▸ chars.trans (leaves.chars perm)

theorem tbBuildBody_builds {s : State} (hne : s.txtLen ≠ 0) (hcap : s.txtLen.toNat ≤ s.caps.txtCap) :
    ∃ t r u, tbBuildBody s = .ok t ∧ TreeBuilt s t r u := by
  obtain ⟨a, added, leaves⟩ := addLeaves_leavesOf s.counts leavesOf_nil
  obtain ⟨xs, list, perm, -⟩ := leaves.listIs (t := { s with freq := s.counts }.clearNodes.withArena a) rfl
  obtain ⟨s₃, r, u, merged, frame₃, chain, holds, weight, chars⟩ := mergeLoop_counts leaves rfl list perm hne
  have head : s₃.listHead = some r := congrArg State.listHead frame₃
  obtain ⟨t, root, kept, frame⟩ := tbRootBody_keepsTree (head ▸ chain) holds
  refine ⟨t, r, u, ?_, ?_, kept, chars⟩
  · rw [tbBuildBody, if_neg hne, tbCountBody_counts hcap, body_ok_bind, tbLeavesBody_adds added, body_ok_bind, merged,
      body_ok_bind, root]
  · rw [frame, weight, frame₃]
    rfl

/-! ### What TB.BUILD leaves for the other parts -/

section
variable {s t : State} {r : Nat} {u : HTree} (h : TreeBuilt s t r u)
include h

theorem TreeBuilt.root : t.root = some r := congrArg State.root h.frame

theorem TreeBuilt.caps : t.caps = s.caps := by rw [h.frame]

theorem TreeBuilt.txtLen : t.txtLen = s.txtLen := by rw [h.frame]

theorem TreeBuilt.textInCells (hcap : s.txtLen.toNat ≤ s.caps.txtCap) : t.txtLen.toNat ≤ t.caps.txtCap := by
  rwa [h.caps, h.txtLen]

theorem TreeBuilt.readTxt (i : Nat) : t.readTxt i = s.readTxt i := congrArg (fun t => t.readTxt i) h.frame

theorem TreeBuilt.text : t.text = s.text := text_congr h.txtLen h.readTxt

/-- The leaves carry the characters of the text. -/
theorem TreeBuilt.mem_chars {c : CharUnit} : c ∈ u.chars ↔ c ∈ s.text :=
  (h.chars.trans (distinctChars_perm_dedup s.text)).mem_iff.trans List.mem_dedup

/-- The leaves carry distinct characters. -/
theorem TreeBuilt.chars_nodup : u.chars.Nodup :=
  (h.chars.trans (distinctChars_perm_dedup s.text)).nodup_iff.mpr (List.nodup_dedup s.text)

end

section
variable {s t : State} {r : Nat} {u : HTree} (h : TreeBuilt s.clearWorking t r u)
include h

/-- Building the tree leaves the file alone. -/
theorem TreeBuilt.keepsFile : t.filLen = s.filLen ∧ ∀ i, t.readFil i = s.readFil i := by
  rw [h.frame]
  exact ⟨rfl, fun _ => rfl⟩

/-- What the clearing of ENCODE leaves stays as it is while the tree is built. -/
theorem TreeBuilt.keepsCleared : t.flags = Flags.zero ∧ t.stats = Stats.zero ∧ t.tbuf = [] ∧ t.xbuf = [] := by
  rw [h.frame]
  exact ⟨rfl, rfl, rfl, rfl⟩

theorem TreeBuilt.freqOf_toNat (c : CharUnit) : (t.freqOf c.toNat).toNat = s.text.count c := by
  rw [← text_clearWorking, ← counts_toNat, h.frame]
  rfl

end

/-! ### The table of a tree -/

/-- The code table is the one of the tree `u`, whose codes all fit the code register. -/
structure TableOf (u : HTree) (c : Codes) : Prop where
  fits : ∀ p ∈ u.codes, p.2.length ≤ 16
  codes : CodesOf u.codes c

theorem TableOf.len_ne_zero {u : HTree} {t : Codes} (h : TableOf u t) {c : CharUnit} (hc : c ∈ u.chars) :
    (entryOf t.ctab c).len ≠ 0 := by
  have coded := (h.codes.entry_ne_absent_iff u.codes_ne_nil h.fits c).mpr (u.codes_chars ▸ hc)
  have listed := (mem_table_iff h.codes.inv.ctab).mpr ⟨rfl, coded⟩
  have positive : 1 ≤ (entryOf t.ctab c).len.toNat := (h.codes.inv.codes _ listed).1
  intro zero
  simp [zero] at positive

theorem TableOf.ncodes_toNat {u : HTree} {t : Codes} (h : TableOf u t) (distinct : u.chars.Nodup) :
    t.ncodes.toNat = u.chars.length := by
  rw [h.codes.ncodes_toNat u.codes_ne_nil h.fits, u.codes_chars, distinct.dedup]

/-- The state with its code table replaced. -/
def State.withCodes (s : State) (c : Codes) : State := { s with ctab := c.ctab, ncodes := c.ncodes }

/-- CT.GEN makes the table of the tree under ROOT, or finds a leaf that is too deep. -/
theorem ctGenBody_ends {s : State} {r : Nat} {u : HTree} (hr : s.root = some r) (hu : HoldsTree s.nodes r u) :
    (∃ c : CharUnit, ctGenBody s = raiseAt s.clearCodes .codeOverflow 0 c.toNat) ∨
    ∃ c, TableOf u c ∧ ctGenBody s = .ok (s.withCodes c) := by
  rw [ctGenBody_holds hr hu]
  cases deep : u.codes.find? (fun q => decide (16 < q.2.length)) with
  | some q =>
    exact .inl ⟨q.1, congrArg (genOutcome s) (assignPaths_overflow 0 0 u.codes Codes.empty (by simpa using deep))⟩
  | none =>
    have hfit : ∀ p ∈ u.codes, p.2.length ≤ 16 := by simpa using deep
    obtain ⟨c, filled, codes⟩ := assignPaths_codesOf u.codes_ne_nil hfit
    exact .inr ⟨c, ⟨hfit, codes⟩, congrArg (genOutcome s) filled⟩

/-! ### How ENCODE ends -/

theorem encodeBody_emptyText {s : State} (h : s.txtLen = 0) :
    encodeBody s = .ok { s.clearWorking with filLen := 0 } :=
  if_pos h

theorem encodeBody_built {s t : State} (hne : s.txtLen ≠ 0) (h : tbBuildBody s.clearWorking = .ok t) :
    encodeBody s = ctGenBody t >>= fun s => enTreeBody s >>= fun s => enTextBody s >>= enEmitBody := by
  refine (if_neg hne).trans ?_
  rw [h]
  rfl

/-- The state in which EN.EMIT finds the table `c` of the tree `u` and both buffers. -/
def State.withBuffers (s : State) (u : HTree) (c : Codes) : State :=
  { s.withCodes c with tbuf := u.ser, xbuf := joinedCodes c.ctab s.text }

/-- With a code for every character of the text, EN.TREE and EN.TEXT fill the two buffers. -/
theorem enTree_enText_fill {s : State} {r : Nat} {u : HTree} {c : Codes} (hr : s.root = some r)
    (hu : HoldsTree s.nodes r u) (hcap : s.txtLen.toNat ≤ s.caps.txtCap)
    (covered : ∀ x ∈ s.text, (entryOf c.ctab x).len ≠ 0) :
    (enTreeBody (s.withCodes c) >>= fun s => enTextBody s >>= enEmitBody) = enEmitBody (s.withBuffers u c) := by
  have text : ({ s.withCodes c with tbuf := u.ser } : State).text = s.text := text_congr rfl fun _ => rfl
  rw [enTreeBody_serialises (s := s.withCodes c) hr hu, body_ok_bind,
    enTextBody_writes (s := { s.withCodes c with tbuf := u.ser }) (bits := joinedCodes c.ctab s.text) hcap
      (by rw [text]; exact textBits_coded covered 0)]
  rfl

/-- ENCODE of a text that is not empty builds its tree and stops at a leaf that is too deep, or makes the table and both
buffers and stops for lack of room, or writes the file (`spec/43_encoder.md` R221). -/
theorem encodeBody_ends {s : State} (hne : s.txtLen ≠ 0) (hcap : s.txtLen.toNat ≤ s.caps.txtCap) :
    ∃ t r u, TreeBuilt s.clearWorking t r u ∧
      ((∃ c : CharUnit, encodeBody s = raiseAt t.clearCodes .codeOverflow 0 c.toNat) ∨
       ∃ c full, TableOf u c ∧ full = t.withBuffers u c ∧
        ((full.caps.filCap < 4 + ceil8 full.tcur + ceil8 full.xcur ∧ encodeBody s = raiseAt full .storageError 0 0) ∨
         (4 + ceil8 full.tcur + ceil8 full.xcur ≤ full.caps.filCap ∧ encodeBody s = .ok full.emitted))) := by
  obtain ⟨t, r, u, build, built⟩ := tbBuildBody_builds (s := s.clearWorking) hne hcap
  refine ⟨t, r, u, built, ?_⟩
  rw [encodeBody_built hne build]
  obtain ⟨c, overflow⟩ | ⟨c, table, gen⟩ := ctGenBody_ends built.root built.holds
  · exact .inl ⟨c, by rw [overflow]; rfl⟩
  · have covered : ∀ x ∈ t.text, (entryOf c.ctab x).len ≠ 0 := fun x hx =>
      table.len_ne_zero (built.mem_chars.mpr (built.text ▸ hx))
    have filled : joinedCodes c.ctab t.text ≠ [] :=
      joinedCodes_ne_nil (built.text ▸ text_ne_nil (s := s.clearWorking) hne) covered
    rw [gen, body_ok_bind, enTree_enText_fill built.root built.holds (built.textInCells hcap) covered]
    exact .inr ⟨c, _, table, rfl, enEmitBody_ends (s := t.withBuffers u c) u.ser_ne_nil filled⟩

/-! ### The stepwise sequence -/

/-- A body in front of others is its command in front of theirs: the host goes on when the body ends normally and stops
when it raises. -/
theorem runAll_bind {i : Instr} {is : List Instr} {s : State} {b : Body} {k : State → Body} (hi : exec i s = finish b)
    (raised : ∀ t e, b = .error (.raised t e) → e.kind ≠ .ok)
    (rest : ∀ t, b = .ok t → runAll is t.done = finish (k t)) :
    runAll (i :: is) s = finish (b >>= k) := by
  match b with
  | .ok t => exact (runAll_cons hi rfl is).trans (rest t rfl)
  | .error (.raised t e) => simp [runAll, hi, raised t e rfl]
  | .error (.fault f) => simp [runAll, hi]

theorem runAll_singleton (i : Instr) (s : State) : runAll [i] s = exec i s := by
  cases h : exec i s <;> simp [runAll, h]

/-! A command of ENCODE does the same whatever error the command before it left, and overwrites it
(`spec/60_exceptions.md` R298). -/

theorem ctGenBody_walks {s : State} {r : Nat} (hr : s.root = some r) :
    ctGenBody s = withAnswer s.nodes[r]? (fun x => genOutcome s (genWalk s r x)) := by
  simp only [ctGenBody, genOutcome, hr]
  rfl

theorem genOutcome_done (s : State) (walk : Except VisitStop Codes) :
    finish (genOutcome s.done walk) = finish (genOutcome s walk) := by
  match walk with
  | .ok _ | .error (.overflow _) | .error .broken => rfl

theorem exec_ctGen_done (s : State) : exec .ctGen s.done = finish (ctGenBody s) := by
  change finish (ctGenBody s.done) = _
  cases hr : s.root with
  | none => rw [ctGenBody_noTree hr, ctGenBody_noTree (s := s.done) hr]; rfl
  | some r =>
    rw [ctGenBody_walks hr, ctGenBody_walks (s := s.done) hr, done_nodes]
    cases s.nodes[r]? with
    | none => rfl
    | some x => exact genOutcome_done s (genWalk s r x)

theorem exec_enTree_done (s : State) : exec .enTree s.done = finish (enTreeBody s) := by
  change finish (enTreeBody s.done) = _
  simp only [enTreeBody, State.nodeCnt, done_root, done_nodes]
  cases s.root with
  | none => rfl
  | some r => dsimp only; cases serialise s.nodes s.nodes.length r <;> rfl

theorem exec_enText_done {s : State} (hcap : s.txtLen.toNat ≤ s.caps.txtCap) :
    exec .enText s.done = finish (enTextBody s) := by
  change finish (enTextBody s.done) = _
  have text := text_done s
  cases bits : textBits s.ctab 0 s.text with
  | ok xs => rw [enTextBody_writes hcap bits, enTextBody_writes (s := s.done) hcap (text ▸ bits)]; rfl
  | error i => rw [enTextBody_stops hcap bits, enTextBody_stops (s := s.done) hcap (text ▸ bits)]; rfl

theorem exec_enEmit_done (s : State) : exec .enEmit s.done = finish (enEmitBody s) := by
  change finish (enEmitBody s.done) = _
  by_cases empty : s.tbuf = [] ∨ s.xbuf = []
  · rw [enEmitBody_emptyBuffer empty, enEmitBody_emptyBuffer (s := s.done) empty]; rfl
  · obtain ⟨htree, htext⟩ := not_or.mp empty
    by_cases fits : 4 + ceil8 s.tcur + ceil8 s.xcur ≤ s.caps.filCap
    · rw [enEmitBody_fits htree htext fits, enEmitBody_fits (s := s.done) htree htext fits]; rfl
    · have noRoom := Nat.lt_of_not_le fits
      rw [enEmitBody_noRoom htree htext noRoom, enEmitBody_noRoom (s := s.done) htree htext noRoom]; rfl

/-- TB.BUILD does the same whatever error the command before it left: it starts with TB.COUNT, which does. -/
theorem exec_tbBuild_done {s : State} (hne : s.txtLen ≠ 0) (hcap : s.txtLen.toNat ≤ s.caps.txtCap) :
    exec .tbBuild s.done = exec .tbBuild s := by
  have count : exec .tbCount s.done = exec .tbCount s := by
    rw [exec_tbCount, exec_tbCount, tbCountBody_counts hcap, tbCountBody_counts (s := s.done) hcap, State.counts,
      text_done]
    rfl
  obtain ⟨steps, -⟩ := (tbBuildRule.2 s).2 hne hcap
  obtain ⟨steps', -⟩ := (tbBuildRule.2 s.done).2 hne hcap
  rw [steps, steps', text_done]
  simp only [List.cons_append, runAll, count]

theorem ctGenBody_raised_kind {s t : State} {e : ErrorRecord} (h : ctGenBody s = .error (.raised t e)) :
    e.kind ≠ .ok := by
  obtain ⟨-, -, rfl⟩ | ⟨-, -, -, -, -, -, -, rfl⟩ := ctGenBody_raised h <;> exact nofun

theorem enTreeBody_raised_kind {s t : State} {e : ErrorRecord} (h : enTreeBody s = .error (.raised t e)) :
    e.kind ≠ .ok := by
  obtain ⟨-, -, rfl⟩ := enTreeBody_raised h
  exact nofun

theorem enTextBody_raised_kind {s t : State} {e : ErrorRecord} (h : enTextBody s = .error (.raised t e)) :
    e.kind ≠ .ok := by
  obtain ⟨-, -, -, rfl⟩ := enTextBody_raised h
  exact nofun

/-- ENCODE of a text that is not empty is the clearing and its five parts, one command after another. -/
theorem exec_encode_eq_runAll {s : State} (hne : s.txtLen ≠ 0) (hcap : s.txtLen.toNat ≤ s.caps.txtCap) :
    exec .encode s = runAll [.clr, .tbBuild, .ctGen, .enTree, .enText, .enEmit] s := by
  obtain ⟨t, r, u, build, built⟩ := tbBuildBody_builds (s := s.clearWorking) hne hcap
  have built' : exec .tbBuild s.clearWorking.done = finish (tbBuildBody s.clearWorking) :=
    exec_tbBuild_done (s := s.clearWorking) hne hcap
  have encode : exec .encode s = finish (encodeBody s) := rfl
  rw [encode, encodeBody_built hne build, runAll_cons (b := .ok s.clearWorking) rfl rfl, runAll_cons built' build]
  refine (runAll_bind (exec_ctGen_done t) (fun _ _ => ctGenBody_raised_kind) fun t₂ gen => ?_).symm
  refine runAll_bind (exec_enTree_done t₂) (fun _ _ => enTreeBody_raised_kind) fun t₃ tree => ?_
  have textInCells : t₃.txtLen.toNat ≤ t₃.caps.txtCap := by
    obtain ⟨-, -, -, -, rfl⟩ := enTreeBody_ok tree
    obtain ⟨-, -, -, -, -, -, rfl⟩ := ctGenBody_ok gen
    exact built.textInCells hcap
  refine runAll_bind (exec_enText_done textInCells) (fun _ _ => enTextBody_raised_kind) fun t₄ _ => ?_
  rw [runAll_singleton, exec_enEmit_done]

/-! ### The three statements -/

/-- Settles O36: the clearing, and no more than FIL_LEN after it. -/
theorem encodeEmptyText : Obligations.EncodeEmptyText := by
  intro s c hempty hclr
  obtain rfl : c = s.clearWorking.done := Host.Outcome.next.inj (hclr.symm.trans (exec_clr s))
  exact ⟨congrArg finish (encodeBody_emptyText hempty), rfl, rfl, rfl, rfl, rfl⟩

/-- Settles O37: the tree is always built, so that only the table and the file can fail. -/
theorem encodeRule : Obligations.EncodeRule := by
  refine ⟨rfl, fun s hs => ⟨fun hempty c hclr => (encodeEmptyText s c hempty hclr).1,
    fun hne => exec_encode_eq_runAll hne hs.txtLen, ?_⟩⟩
  by_cases hempty : s.txtLen = 0
  · exact ⟨_, congrArg finish (encodeBody_emptyText hempty), .head _, fun failed => absurd rfl failed,
      fun _ hne => absurd hempty hne, rfl⟩
  obtain ⟨t, r, u, built, ends⟩ := encodeBody_ends hempty hs.txtLen
  have flags := built.keepsCleared.1
  obtain ⟨c, overflow⟩ | ⟨c, full, -, rfl, ⟨-, noRoom⟩ | ⟨-, written⟩⟩ := ends
  · exact ⟨_, congrArg finish overflow, .tail _ (.head _), fun _ => built.keepsFile, nofun, flags⟩
  · exact ⟨_, congrArg finish noRoom, .tail _ (.tail _ (.head _)), fun _ => built.keepsFile, nofun, flags⟩
  · exact ⟨_, congrArg finish written, .head _, fun failed => absurd rfl failed,
      fun _ _ => ⟨r, built.root, congrArg State.res0 built.frame, congrArg State.res1 built.frame⟩, flags⟩

/-- Settles O38: both errors leave the tree that was built, with an empty table or with the table and both buffers. -/
theorem encodeErrorKeepsTheFile : Obligations.EncodeErrorKeepsTheFile := by
  intro s t' hs next failed
  by_cases hempty : s.txtLen = 0
  · obtain rfl := Host.Outcome.next.inj (next.symm.trans (congrArg finish (encodeBody_emptyText hempty)))
    exact absurd rfl failed
  obtain ⟨t, r, u, built, ends⟩ := encodeBody_ends hempty hs.txtLen
  obtain ⟨filLen, file⟩ := built.keepsFile
  obtain ⟨-, stats, tbuf, xbuf⟩ := built.keepsCleared
  have text : t.text = s.text := built.text.trans (text_clearWorking s)
  have chars := text_clearWorking s ▸ built.chars
  obtain ⟨c, overflow⟩ | ⟨c, full, table, rfl, ⟨noRoom, stored⟩ | ⟨-, written⟩⟩ := ends
  · obtain rfl := Host.Outcome.next.inj (next.symm.trans (congrArg finish overflow))
    exact ⟨file, filLen, built.readTxt, built.txtLen, stats, built.freqOf_toNat,
      ⟨r, u, built.root, built.holds, chars, nofun⟩, fun _ => ⟨entryOf_reset, rfl, tbuf, xbuf⟩, nofun⟩
  · obtain rfl := Host.Outcome.next.inj (next.symm.trans (congrArg finish stored))
    have ncodes : c.ncodes.toNat = (distinctChars s.text).length := by
      rw [table.ncodes_toNat built.chars_nodup, chars.length_eq, List.length_map]
    exact ⟨file, filLen, built.readTxt, built.txtLen, stats, built.freqOf_toNat,
      ⟨r, u, built.root, built.holds, chars, fun _ => ⟨rfl, congrArg (joinedCodes c.ctab) text⟩⟩, nofun,
      fun _ => ⟨ncodes, (congrArg Config.Capacities.filCap built.caps).symm.trans_lt noRoom⟩⟩
  · obtain rfl := Host.Outcome.next.inj (next.symm.trans (congrArg finish written))
    exact absurd rfl failed

end Sys2Proof.Machine
end

section
/-!
DE.HDR, DE.TREE and DE.TEXT (`spec/44_decoder.md` R241 to R257): what each body makes of the header checks, of the descent
and of the walk, and the three statements.
-/

namespace Sys2Proof.Machine

/-! ### DE.HDR -/

/-- How DE.HDR ends on what its checks answered (`spec/44_decoder.md` R241). -/
def headerOutcome (s : State) (checks : Except ErrorRecord Header) : Body :=
  match checks with
  | .ok h => .ok (s.setHeader true false h)
  | .error e => .error (.raised (s.setHeader false false Header.zero) e)

theorem deHdrBody_emptyFile {s : State} (h : s.filLen = 0) : deHdrBody s = .ok (s.setHeader false true Header.zero) :=
  if_pos h

theorem deHdrBody_checks {s : State} (hne : s.filLen ≠ 0) (hcap : s.filLen.toNat ≤ s.caps.filCap) :
    deHdrBody s = headerOutcome s (checkHeader s) :=
  (if_neg hne).trans (if_neg (Nat.not_lt.mpr hcap))

/-- Settles O40: the empty file first; for another, each check in its order decides how the command ends. -/
theorem deHdrRule : Obligations.DeHdrRule := by
  refine ⟨rfl, fun s z len ver tlen tbits xbits hcap hlen hver htlen htbits hxbits hz => ?_⟩
  subst hlen hver htlen htbits hxbits hz
  change finish (deHdrBody s) = _
  by_cases hempty : s.filLen = 0
  · have zero : s.filLen.toNat = 0 := congrArg BitVec.toNat hempty
    rw [deHdrBody_emptyFile hempty, if_pos zero]
    rfl
  · have nonzero : s.filLen.toNat ≠ 0 := fun zero => hempty (BitVec.eq_of_toNat_eq zero)
    rw [deHdrBody_checks hempty hcap, if_neg nonzero, checkHeader]
    -- each check of the body is a test of the statement: carry the outcome into the branches
    simp only [apply_ite (headerOutcome s), apply_ite finish, apply_ite Host.Outcome.next]
    rfl

/-! ### DE.TREE -/

/-- How DE.TREE ends on what `Parse` answered (`spec/44_decoder.md` R249). -/
def treeOutcome (s : State) (parsed : Except ErrorRecord Parsed) : Body :=
  match parsed with
  | .ok p => .ok { s.clearNodes with nodes := p.nodes, root := some p.index, rcur := Word.ofNat p.rcur }
  | .error e => .error (.raised { s.clearNodes with rcur := e.pos } e)

/-- `Parse()` on the tree region of the file, from an empty arena (`spec/44_decoder.md` R249). -/
abbrev parseRegion (s : State) : Except ErrorRecord Parsed :=
  parse s s.hdr.tend.toNat (s.hdr.tend.toNat - treeStart) [] treeStart

/-- The bits of the tree region (`spec/44_decoder.md` R249). -/
abbrev State.treeBits (s : State) : List Bool := s.fileBits 32 (s.hdr.tend.toNat - 32)

/-- The scan of the descent over the tree region. -/
abbrev State.descent (s : State) : Descent := descend s.treeBits.length s.treeBits 32 1 0

theorem descend_needNone (fuel : Nat) (bits : List Bool) (pos count : Nat) :
    descend fuel bits pos 0 count = .complete pos := by
  cases fuel <;> rfl

/-- Within the tree region `Parse` ends as the scan does: stopped with its cause at its offset, or with the nodes in
preorder of the tree whose serialisation it consumed (`spec/44_decoder.md` R250, R251). -/
theorem parseRegion_ends {s : State} (start : 32 ≤ s.hdr.tend.toNat) :
    (∃ sub pos, (sub = 6 ∨ sub = 7) ∧ s.descent = .stopped sub pos ∧ parseRegion s = .error (corrupt sub pos)) ∨
    ∃ u : HTree, u.ser <+: s.treeBits ∧ s.descent = .complete (32 + u.ser.length) ∧
      parseRegion s = .ok { index := 0, nodes := u.preorder 0 false, rcur := 32 + u.ser.length } := by
  have fuel : s.hdr.tend.toNat - 32 ≤ s.treeBits.length := (fileBits_length s 32 _).ge
  have scan := parse_descend s s.hdr.tend.toNat (s.hdr.tend.toNat - 32) [] 32 start le_rfl
  cases hp : parse s s.hdr.tend.toNat (s.hdr.tend.toNat - 32) [] 32 with
  | error e =>
    rw [hp] at scan
    obtain ⟨sub, pos, rfl, cause, -, -, stops⟩ := scan
    exact .inl ⟨sub, pos, cause, stops _ 0 fuel, hp⟩
  | ok p =>
    rw [hp] at scan
    obtain ⟨past, within, -, room, ⟨u, bits, size⟩, goesOn⟩ := scan
    have length : p.rcur - 32 = u.ser.length := by rw [← bits, fileBits_length]
    rw [length] at bits
    have consumed : u.ser ++ s.fileBits (32 + u.ser.length) (s.hdr.tend.toNat - 32 - u.ser.length) = s.treeBits :=
      calc u.ser ++ _
        _ = s.fileBits 32 (u.ser.length + (s.hdr.tend.toNat - 32 - u.ser.length)) := by rw [fileBits_append, bits]
        _ = s.treeBits := congrArg (s.fileBits 32) (by omega)
    have parsed := parse_ser s s.hdr.tend.toNat u (s.hdr.tend.toNat - 32) [] 32 bits (by omega) (by omega)
      (by rw [← size]; exact room)
    obtain ⟨fuel', -, complete⟩ := goesOn _ 0 fuel
    rw [descend_needNone, show p.rcur = 32 + u.ser.length by omega] at complete
    exact .inr ⟨u, ⟨_, consumed⟩, complete, parsed⟩

theorem deTreeBody_noHeader {s : State} (h : s.flags.hdrv = false) : deTreeBody s = badState s := if_pos h

theorem fileInMemory_of_le {s : State} {p : Nat} (h : p ≤ 8 * s.caps.filCap) : s.fileInMemory p = true := by
  simpa [State.fileInMemory] using h

theorem deTreeBody_parses {s : State} (hv : s.flags.hdrv = true) (inside : s.hdr.tend.toNat ≤ 8 * s.caps.filCap) :
    deTreeBody s = treeOutcome s (parseRegion s) := by
  simp only [deTreeBody, hv, fileInMemory_of_le inside, Bool.true_eq_false, if_false]
  rfl

/-- The state with no node but those of the decoded tree `u`, which ends before offset `pos` (`spec/44_decoder.md` R249,
R251). -/
def State.withDecodedTree (s : State) (u : HTree) (pos : Nat) : State :=
  { s.clearNodes with nodes := u.preorder 0 false, root := some 0, rcur := Word.ofNat pos }

@[simp] theorem withDecodedTree_caps (s : State) (u : HTree) (pos : Nat) : (s.withDecodedTree u pos).caps = s.caps := rfl
@[simp] theorem withDecodedTree_resets (s : State) (u : HTree) (pos : Nat) :
    (s.withDecodedTree u pos).resets = s.resets := rfl
@[simp] theorem withDecodedTree_filLen (s : State) (u : HTree) (pos : Nat) :
    (s.withDecodedTree u pos).filLen = s.filLen := rfl
@[simp] theorem withDecodedTree_fil (s : State) (u : HTree) (pos : Nat) : (s.withDecodedTree u pos).fil = s.fil := rfl
@[simp] theorem withDecodedTree_hdr (s : State) (u : HTree) (pos : Nat) : (s.withDecodedTree u pos).hdr = s.hdr := rfl

theorem withDecodedTree_holds (s : State) (u : HTree) (pos : Nat) : HoldsTree (s.withDecodedTree u pos).nodes 0 u := by
  have holds : HoldsTree (u.preorder 0 false) 0 u := by simpa using preorder_holds u [] [] false
  exact holds

/-- DE.TREE ends as the scan of the tree region does. -/
theorem deTreeBody_ends {s : State} (hv : s.flags.hdrv = true) (start : 32 ≤ s.hdr.tend.toNat)
    (inside : s.hdr.tend.toNat ≤ 8 * s.caps.filCap) :
    (∃ sub pos, (sub = 6 ∨ sub = 7) ∧ s.descent = .stopped sub pos ∧
      deTreeBody s = .error (.raised { s.clearNodes with rcur := Word.ofNat pos } (corrupt sub pos))) ∨
    ∃ u : HTree, u.ser <+: s.treeBits ∧ s.descent = .complete (32 + u.ser.length) ∧
      deTreeBody s = .ok (s.withDecodedTree u (32 + u.ser.length)) := by
  rw [deTreeBody_parses hv inside]
  obtain ⟨sub, pos, cause, stopped, parsed⟩ | ⟨u, bits, complete, parsed⟩ := parseRegion_ends start
  · exact .inl ⟨sub, pos, cause, stopped, by rw [parsed]; rfl⟩
  · exact .inr ⟨u, bits, complete, by rw [parsed]; rfl⟩

/-- Settles O41: DE.TREE ends as the scan does, which ends in one way only. -/
theorem deTreeRule : Obligations.DeTreeRule := by
  refine ⟨rfl, fun s bits => ⟨fun hv => congrArg finish (deTreeBody_noHeader hv), fun hv start inside hbits => ?_⟩⟩
  subst hbits
  obtain ⟨sub, pos, cause, stopped, body⟩ | ⟨u, serial, complete, body⟩ := deTreeBody_ends hv start.le inside
  · refine ⟨fun sub' pos' h => ?_, fun pos' h => Descent.noConfusion (stopped.symm.trans h)⟩
    obtain ⟨rfl, rfl⟩ := Descent.stopped.inj (stopped.symm.trans h)
    exact ⟨cause, congrArg finish body⟩
  · refine ⟨fun sub pos h => Descent.noConfusion (complete.symm.trans h), fun pos h => ?_⟩
    obtain rfl := Descent.complete.inj (complete.symm.trans h)
    exact ⟨u, serial, rfl, congrArg finish body⟩

/-! ### DE.TEXT -/

/-- How DE.TEXT ends on what its loop answered (`spec/44_decoder.md` R254, R256). -/
def textOutcome (s : State) (walk : Except TextStop (Nat × Cells CharUnit)) : Body :=
  match walk with
  | .ok (n, txt) => .ok { s with txt := txt, txtLen := Word.ofNat n, rcur := s.hdr.xend }
  | .error (.fail txt e) => .error (.raised { s with txt := txt, txtLen := 0, rcur := e.pos } e)
  | .error .broken => brokenArena

theorem deTextBody_noTree {s : State} (h : s.flags.hdrv = false ∨ s.root = none) : deTextBody s = badState s := by
  cases hr : s.root with
  | none => simp [deTextBody, hr]
  | some r => simp [deTextBody, hr, h.resolve_right (by simp [hr])]

section
variable {s : State} {r : Nat} (hv : s.flags.hdrv = true) (hr : s.root = some r)
  (inside : s.hdr.xend.toNat ≤ 8 * s.caps.filCap)
include hv hr inside

theorem deTextBody_walks {x : Node} (hx : s.nodes[r]? = some x) : deTextBody s = textOutcome s (textWalk s r x) := by
  simp only [deTextBody, textOutcome, hr, hv, fileInMemory_of_le inside, State.node?, hx, withAnswer_some,
    Bool.true_eq_false, if_false]
  rfl

theorem deTextBody_leaf {c : CharUnit} (hu : HoldsTree s.nodes r (.leaf c)) :
    deTextBody s = textOutcome s (oneLeafText s c (s.hdr.xend.toNat - s.hdr.xstart.toNat) s.hdr.xstart.toNat 0 s.txt) := by
  obtain ⟨x, hx, leaf, rfl⟩ := hu
  rw [deTextBody_walks hv hr inside hx, textWalk, if_pos leaf]

theorem deTextBody_node {l l' : HTree} (hu : HoldsTree s.nodes r (.node l l')) :
    deTextBody s = textOutcome s (walkText s r (s.hdr.xend.toNat - s.hdr.xstart.toNat) s.hdr.xstart.toNat r 0 s.txt) := by
  obtain ⟨x, -, -, hx, internal, -⟩ := hu
  rw [deTextBody_walks hv hr inside hx, textWalk, if_neg (by simp [internal])]

theorem exec_deText_leaf {c : CharUnit} (hu : HoldsTree s.nodes r (.leaf c))
    {out : Except TextStop (Nat × Cells CharUnit)}
    (h : oneLeafText s c (s.hdr.xend.toNat - s.hdr.xstart.toNat) s.hdr.xstart.toNat 0 s.txt = out) :
    exec .deText s = finish (textOutcome s out) :=
  congrArg finish (h ▸ deTextBody_leaf hv hr inside hu)

theorem exec_deText_node {l l' : HTree} (hu : HoldsTree s.nodes r (.node l l'))
    {out : Except TextStop (Nat × Cells CharUnit)}
    (h : walkText s r (s.hdr.xend.toNat - s.hdr.xstart.toNat) s.hdr.xstart.toNat r 0 s.txt = out) :
    exec .deText s = finish (textOutcome s out) :=
  congrArg finish (h ▸ deTextBody_node hv hr inside hu)

end

/-- The loop of DE.TEXT from the root on: the characters that the bits spell all fit, or one has no cell. -/
theorem walkText_fromRoot {s : State} {r : Nat} {l l' : HTree} (hu : HoldsTree s.nodes r (.node l l')) (k p : Nat)
    {ems : List (CharUnit × Nat)} (hems : ems = HTree.emits (.node l l') (.node l l') p (s.fileBits p k)) :
    (ems.length ≤ s.caps.txtCap ∧
      walkText s r k p r 0 s.txt = .ok (ems.length, cellsPutAll s.txt 0 ((ems.take s.caps.txtCap).map Prod.fst))) ∨
    ∃ c q, ems[s.caps.txtCap]? = some (c, q) ∧
      walkText s r k p r 0 s.txt = .error (.fail (cellsPutAll s.txt 0 ((ems.take s.caps.txtCap).map Prod.fst))
        { kind := .storageError, sub := 0, pos := Word.ofNat q }) := by
  have walk := walkText_emits s r _ hu (by simp) k p r 0 s.txt _ hu (by simp)
  rw [← hems, Nat.sub_zero] at walk
  cases rest : ems.drop s.caps.txtCap with
  | nil =>
    have fits := List.drop_eq_nil_iff.mp rest
    exact .inl ⟨fits, by simpa [rest, List.take_of_length_le fits] using walk⟩
  | cons e es =>
    have first : ems[s.caps.txtCap]? = some e := by rw [← List.head?_drop, rest, List.head?_cons]
    exact .inr ⟨e.1, e.2, first, by simpa [rest] using walk⟩

theorem readTxt_putAll_emitted {s t : State} {ems : List (CharUnit × Nat)}
    (h : t.txt = cellsPutAll s.txt 0 (ems.map Prod.fst)) (hr : t.resets = s.resets) (i : Nat) :
    t.readTxt i = match ems[i]? with
      | some e => e.1
      | none => s.readTxt i := by
  rw [readTxt_putAll h hr, List.getElem?_map]
  cases ems[i]? <;> rfl

theorem readTxt_putAll_replicate {s t : State} {k : Nat} {c : CharUnit}
    (h : t.txt = cellsPutAll s.txt 0 (List.replicate k c)) (hr : t.resets = s.resets) (i : Nat) :
    t.readTxt i = if i < k then c else s.readTxt i := by
  rw [readTxt_putAll h hr, List.getElem?_replicate]
  split <;> rfl

/-- Settles O43: the walk by the characters that the bits spell, the one-leaf loop by its first 1 bit or its last
cell. -/
theorem deTextRule : Obligations.DeTextRule := by
  refine ⟨rfl, fun s => ⟨fun h => congrArg finish (deTextBody_noTree h),
    fun r l l' ems hv hr hu inside hems => ?_, fun r c start count hv hr hu inside hstart hcount => ?_⟩⟩
  · obtain ⟨fits, walk⟩ | ⟨c, q, first, walk⟩ := walkText_fromRoot hu _ _ hems
    · refine ⟨_, exec_deText_node hv hr inside hu walk, fun _ => rfl, fun c p h => ?_, readTxt_putAll_emitted rfl rfl⟩
      rw [List.getElem?_eq_none fits] at h
      cases h
    · refine ⟨_, exec_deText_node hv hr inside hu walk, fun h => ?_, fun c' p h => ?_, readTxt_putAll_emitted rfl rfl⟩
      · rw [List.getElem?_eq_none h] at first
        cases first
      · obtain ⟨rfl, rfl⟩ := Prod.mk.inj (Option.some.inj (first.symm.trans h))
        rfl
  · subst hstart hcount
    obtain ⟨allZero, firstOne, noCell⟩ := oneLeafText_spec s c (s.hdr.xend.toNat - s.hdr.xstart.toNat)
      s.hdr.xstart.toNat 0 s.txt
    simp only [Nat.zero_add] at allZero firstOne noCell
    refine ⟨fun zeros fits => ?_, fun k hk one zeros fits => ?_, fun more zeros => ?_⟩
    · exact ⟨_, exec_deText_leaf hv hr inside hu (allZero zeros fits), rfl, readTxt_putAll_replicate rfl rfl⟩
    · exact ⟨_, exec_deText_leaf hv hr inside hu (firstOne k hk one zeros fits), rfl, readTxt_putAll_replicate rfl rfl⟩
    · exact ⟨_, exec_deText_leaf hv hr inside hu (noCell _ rfl more zeros), rfl, readTxt_putAll_replicate rfl rfl⟩

end Sys2Proof.Machine
end

section
/-!
DECODE (`spec/44_decoder.md` R260, R261): the header it parses, how its three parts end one after another, that it is the
stepwise sequence, and the two statements.
-/

namespace Sys2Proof.Machine

/-! ### The parsed header -/

/-- The checks look at FIL_LEN and at cells of FIL only (`spec/44_decoder.md` R241). -/
theorem checkHeader_congr {s t : State} (len : t.filLen = s.filLen) (read : ∀ i, t.readFil i = s.readFil i) :
    checkHeader t = checkHeader s := by
  have version : t.fileVersion = s.fileVersion := by simp only [State.fileVersion, read]
  have treeLength : t.fileTreeLength = s.fileTreeLength := by simp only [State.fileTreeLength, read]
  have treeBits : t.fileTreeBits = s.fileTreeBits := by simp only [State.fileTreeBits, read]
  have textBits : t.fileTextBits = s.fileTextBits := by simp only [State.fileTextBits, read]
  unfold checkHeader
  rw [len, version, treeLength, treeBits, textBits]

theorem toNat_wordOfNat {n : Nat} (h : n < 2 ^ 32) : (Word.ofNat n).toNat = n := Nat.mod_eq_of_lt h

/-- The offsets of a header that passed every check are inside the file, behind the header bytes (`spec/44_decoder.md`
R246). -/
theorem checkHeader_offsets {s : State} {hd : Header} (legal : s.caps.Legal) (hcap : s.filLen.toNat ≤ s.caps.filCap)
    (h : checkHeader s = .ok hd) :
    32 ≤ hd.tend.toNat ∧ hd.tend.toNat ≤ 8 * s.caps.filCap ∧ hd.xend.toNat ≤ 8 * s.caps.filCap := by
  obtain ⟨-, -, tree, -, -, treeBits, -, textBits, fits, rfl⟩ := checkHeader_ok h
  obtain ⟨-, -, room⟩ := legal
  simp only [headerOf]
  rw [toNat_wordOfNat (by omega), toNat_wordOfNat (by omega)]
  omega

/-! ### The errors of the three parts -/

/-- The errors of the header (`spec/44_decoder.md` R244). -/
def HeaderError (e : ErrorRecord) : Prop :=
  e.kind = .unsupportedVersion ∨ (e.kind = .corruptFormat ∧ e.sub.toNat ≤ 5)

/-- The errors of the tree (`spec/44_decoder.md` R249). -/
def TreeError (e : ErrorRecord) : Prop := e.kind = .corruptFormat ∧ (e.sub = 6 ∨ e.sub = 7)

/-- The errors of the text (`spec/44_decoder.md` R255, R256). -/
def TextError (e : ErrorRecord) : Prop := e.kind = .storageError ∨ (e.kind = .corruptFormat ∧ e.sub = 9)

theorem checkHeader_headerError {s : State} {e : ErrorRecord} (h : checkHeader s = .error e) : HeaderError e := by
  obtain ⟨-, ⟨kind, -⟩ | ⟨kind, sub⟩⟩ := checkHeader_error h
  · exact .inl kind
  · exact .inr ⟨kind, (by simp : ∀ w ∈ ([1, 2, 3, 4, 5] : List Word), w.toNat ≤ 5) _ sub⟩

theorem corrupt_treeError {sub : Nat} (h : sub = 6 ∨ sub = 7) (pos : Nat) : TreeError (corrupt sub pos) := by
  obtain rfl | rfl := h
  · exact ⟨rfl, .inl rfl⟩
  · exact ⟨rfl, .inr rfl⟩

theorem HeaderError.kind_ne_ok {e : ErrorRecord} (h : HeaderError e) : e.kind ≠ .ok := by
  obtain kind | ⟨kind, -⟩ := h <;> simp [kind]

theorem HeaderError.not_treeError {e : ErrorRecord} (h : HeaderError e) : ¬ TreeError e := by
  rintro ⟨kind, sub⟩
  obtain header | ⟨-, low⟩ := h
  · cases header.symm.trans kind
  · obtain sub | sub := sub <;> simp [sub] at low

theorem HeaderError.not_textError {e : ErrorRecord} (h : HeaderError e) : ¬ TextError e := by
  obtain version | ⟨corrupt, low⟩ := h
  · rintro (kind | ⟨kind, -⟩) <;> cases version.symm.trans kind
  · rintro (kind | ⟨-, sub⟩)
    · cases corrupt.symm.trans kind
    · simp [sub] at low

theorem TreeError.not_textError {e : ErrorRecord} (h : TreeError e) : ¬ TextError e := by
  obtain ⟨tree, sub⟩ := h
  rintro (kind | ⟨-, nine⟩)
  · cases tree.symm.trans kind
  · rw [nine] at sub
    exact absurd sub (by decide)

/-- The errors that DECODE can end with (`spec/44_decoder.md` R260). -/
def RaisedByDecode (e : ErrorRecord) : Prop :=
  e.kind ∈ [ErrKind.unsupportedVersion, .corruptFormat, .storageError] ∧
    (e.kind = .corruptFormat → e.sub ∈ ([1, 2, 3, 4, 5, 6, 7, 9] : List Word))

theorem checkHeader_raisedByDecode {s : State} {e : ErrorRecord} (h : checkHeader s = .error e) : RaisedByDecode e := by
  obtain ⟨-, ⟨kind, -⟩ | ⟨kind, sub⟩⟩ := checkHeader_error h
  · exact ⟨by simp [kind], by simp [kind]⟩
  · exact ⟨by simp [kind], fun _ => List.mem_append_left [6, 7, 9] sub⟩

theorem TreeError.raisedByDecode {e : ErrorRecord} (h : TreeError e) : RaisedByDecode e := by
  obtain ⟨kind, sub | sub⟩ := h <;> exact ⟨by simp [kind], by simp [sub]⟩

theorem TextError.raisedByDecode {e : ErrorRecord} (h : TextError e) : RaisedByDecode e := by
  obtain kind | ⟨kind, sub⟩ := h
  · exact ⟨by simp [kind], by simp [kind]⟩
  · exact ⟨by simp [kind], by simp [sub]⟩

/-! ### How DE.TEXT ends -/

/-- A loop of DE.TEXT that reads to its end or fails with an error of the text. -/
def EndsText (walk : Except TextStop (Nat × Cells CharUnit)) : Prop :=
  (∃ n txt, walk = .ok (n, txt)) ∨ ∃ txt e, walk = .error (.fail txt e) ∧ TextError e

theorem oneLeafText_ends (s : State) (c : CharUnit) (k p n : Nat) (txt : Cells CharUnit) :
    EndsText (oneLeafText s c k p n txt) := by
  induction k generalizing p n txt with
  | zero => exact .inl ⟨n, txt, rfl⟩
  | succ k ih =>
    simp only [oneLeafText, emit]
    by_cases one : s.fileBit p = true
    · rw [if_pos one]
      exact .inr ⟨_, _, rfl, .inr ⟨rfl, rfl⟩⟩
    by_cases full : s.caps.txtCap ≤ n
    · rw [if_neg one, if_pos full]
      exact .inr ⟨_, _, rfl, .inl rfl⟩
    · rw [if_neg one, if_neg full]
      exact ih _ _ _

/-- DE.TEXT on a tree reads the text region to its end or raises an error of the text. -/
theorem deTextBody_ends {s : State} {r : Nat} {u : HTree} (hv : s.flags.hdrv = true) (hr : s.root = some r)
    (inside : s.hdr.xend.toNat ≤ 8 * s.caps.filCap) (hu : HoldsTree s.nodes r u) :
    ∃ walk, EndsText walk ∧ deTextBody s = textOutcome s walk := by
  cases u with
  | leaf c => exact ⟨_, oneLeafText_ends .., deTextBody_leaf hv hr inside hu⟩
  | node l l' =>
    refine ⟨_, ?_, deTextBody_node hv hr inside hu⟩
    obtain ⟨-, walk⟩ | ⟨_, _, -, walk⟩ := walkText_fromRoot hu _ _ rfl
    · exact .inl ⟨_, _, walk⟩
    · exact .inr ⟨_, _, walk, .inl rfl⟩

/-! ### How DECODE ends -/

/-- What DECODE starts its parts from: the cleared working state, and no text (`spec/44_decoder.md` R260). -/
def State.clearedForDecode (s : State) : State := { s.clearWorking with txtLen := 0 }

@[simp] theorem clearedForDecode_caps (s : State) : s.clearedForDecode.caps = s.caps := rfl
@[simp] theorem clearedForDecode_resets (s : State) : s.clearedForDecode.resets = s.resets := rfl
@[simp] theorem clearedForDecode_filLen (s : State) : s.clearedForDecode.filLen = s.filLen := rfl
@[simp] theorem clearedForDecode_fil (s : State) : s.clearedForDecode.fil = s.fil := rfl

@[simp] theorem readFil_clearedForDecode (s : State) (i : Nat) : s.clearedForDecode.readFil i = s.readFil i := by
  simp [State.readFil]

theorem decodeBody_emptyFile {s : State} (h : s.filLen = 0) :
    decodeBody s = .ok (s.clearedForDecode.setHeader false true Header.zero) := by
  change (deHdrBody s.clearedForDecode >>= _) = _
  rw [deHdrBody_emptyFile (s := s.clearedForDecode) h]
  rfl

/-- The state behind DE.HDR of DECODE, when the header passed every check. -/
abbrev State.withHeader (s : State) (hd : Header) : State := s.clearedForDecode.setHeader true false hd

section
variable {s : State} (hne : s.filLen ≠ 0) (hcap : s.filLen.toNat ≤ s.caps.filCap)
include hne hcap

theorem deHdrBody_clearedForDecode :
    deHdrBody s.clearedForDecode = headerOutcome s.clearedForDecode (checkHeader s) := by
  rw [deHdrBody_checks (by simpa using hne) (by simpa using hcap), checkHeader_congr (s := s) (by simp) (by simp)]

theorem decodeBody_badHeader {e : ErrorRecord} (checks : checkHeader s = .error e) :
    decodeBody s = .error (.raised s.clearedForDecode e) := by
  change (deHdrBody s.clearedForDecode >>= _) = _
  rw [deHdrBody_clearedForDecode hne hcap, checks]
  rfl

theorem decodeBody_goodHeader {hd : Header} (checks : checkHeader s = .ok hd) :
    decodeBody s = deTreeBody (s.withHeader hd) >>= deTextBody := by
  change (deHdrBody s.clearedForDecode >>= _) = _
  rw [deHdrBody_clearedForDecode hne hcap, checks]
  rfl

end

/-- DECODE of a file that is not empty stops at a check of the header, or in the tree region, or ends as the loop of
DE.TEXT does on the decoded tree (`spec/44_decoder.md` R260). -/
theorem decodeBody_ends {s : State} (hs : MemoryInv s) (hne : s.filLen ≠ 0) :
    (∃ e, checkHeader s = .error e ∧ decodeBody s = .error (.raised s.clearedForDecode e)) ∨
    ∃ hd, checkHeader s = .ok hd ∧
      ((∃ e, TreeError e ∧ decodeBody s = .error (.raised { s.withHeader hd with rcur := e.pos } e)) ∨
       ∃ u pos walk, EndsText walk ∧ decodeBody s = textOutcome ((s.withHeader hd).withDecodedTree u pos) walk) := by
  cases checks : checkHeader s with
  | error e => exact .inl ⟨e, rfl, decodeBody_badHeader hne hs.filLen checks⟩
  | ok hd =>
    refine .inr ⟨hd, rfl, ?_⟩
    obtain ⟨start, treeInside, textInside⟩ := checkHeader_offsets hs.caps hs.filLen checks
    rw [decodeBody_goodHeader hne hs.filLen checks]
    obtain ⟨sub, pos, cause, -, tree⟩ | ⟨u, -, -, tree⟩ := deTreeBody_ends (s := s.withHeader hd) rfl start
      (by simpa using treeInside)
    · exact .inl ⟨_, corrupt_treeError cause pos, by rw [tree]; rfl⟩
    · obtain ⟨walk, ends, text⟩ := deTextBody_ends (s := (s.withHeader hd).withDecodedTree u (32 + u.ser.length))
        rfl rfl (by simpa using textInside) (withDecodedTree_holds _ u _)
      exact .inr ⟨u, _, walk, ends, by rw [tree, body_ok_bind, text]⟩

/-! ### The stepwise sequence

A command of DECODE does the same whatever error the command before it left, and overwrites it (`spec/60_exceptions.md`
R298). -/

/-! `Parse` and the two loops of DE.TEXT do not look at the error record, nor do they hand it to their turns. -/

theorem parse_done (s : State) : parse s.done = parse s := by
  delta parse
  rfl

theorem oneLeafText_done (s : State) : oneLeafText s.done = oneLeafText s := by
  delta oneLeafText
  rfl

theorem walkText_done (s : State) : walkText s.done = walkText s := by
  delta walkText
  rfl

theorem exec_deHdr_done {s : State} (hcap : s.filLen.toNat ≤ s.caps.filCap) :
    exec .deHdr s.done = finish (deHdrBody s) := by
  change finish (deHdrBody s.done) = _
  by_cases hempty : s.filLen = 0
  · rw [deHdrBody_emptyFile hempty, deHdrBody_emptyFile (s := s.done) hempty]
    rfl
  · rw [deHdrBody_checks hempty hcap, deHdrBody_checks (s := s.done) hempty hcap,
      checkHeader_congr (s := s) (t := s.done) rfl fun _ => rfl]
    cases checkHeader s <;> rfl

theorem exec_deTree_done {s : State} (hv : s.flags.hdrv = true) (inside : s.hdr.tend.toNat ≤ 8 * s.caps.filCap) :
    exec .deTree s.done = finish (deTreeBody s) := by
  have parsed : parseRegion s.done = parseRegion s := by rw [parseRegion, parse_done]; rfl
  change finish (deTreeBody s.done) = _
  rw [deTreeBody_parses hv inside, deTreeBody_parses (s := s.done) hv inside, parsed]
  cases parseRegion s <;> rfl

theorem exec_deText_done {s : State} {r : Nat} {x : Node} (hv : s.flags.hdrv = true) (hr : s.root = some r)
    (inside : s.hdr.xend.toNat ≤ 8 * s.caps.filCap) (hx : s.nodes[r]? = some x) :
    exec .deText s.done = finish (deTextBody s) := by
  have walk : textWalk s.done r x = textWalk s r x := by simp [textWalk, oneLeafText_done, walkText_done]
  change finish (deTextBody s.done) = _
  rw [deTextBody_walks hv hr inside hx, deTextBody_walks (s := s.done) hv hr inside hx, walk]
  match textWalk s r x with
  | .ok _ | .error (.fail _ _) | .error .broken => rfl

/-- The host stops behind a command whose body raises. -/
theorem runAll_raised {i : Instr} {s t : State} {e : ErrorRecord} (hi : exec i s = finish (.error (.raised t e)))
    (he : e.kind ≠ .ok) (is : List Instr) : runAll (i :: is) s = .next (t.raise e) := by
  simp [runAll, hi, he]

/-- Behind DE.HDR the rest of DECODE is the two other commands. -/
theorem runAll_deTree_deText {s : State} (hv : s.flags.hdrv = true) (start : 32 ≤ s.hdr.tend.toNat)
    (treeInside : s.hdr.tend.toNat ≤ 8 * s.caps.filCap) (textInside : s.hdr.xend.toNat ≤ 8 * s.caps.filCap) :
    runAll [.deTree, .deText] s.done = finish (deTreeBody s >>= deTextBody) := by
  have first := exec_deTree_done hv treeInside
  obtain ⟨sub, pos, -, -, tree⟩ | ⟨u, -, -, tree⟩ := deTreeBody_ends hv start treeInside
  · rw [tree] at first
    rw [runAll_raised first nofun, tree]
    rfl
  · have root := List.getElem?_eq_getElem (withDecodedTree_holds s u (32 + u.ser.length)).lt
    rw [runAll_cons first tree, runAll_singleton, tree, body_ok_bind]
    exact exec_deText_done hv rfl textInside root

/-- DECODE of a file that is not empty is, from the cleared state, its three parts, one command after another. -/
theorem exec_decode_eq_runAll {s : State} (hs : MemoryInv s) (hne : s.filLen ≠ 0) :
    exec .decode s = runAll [.deHdr, .deTree, .deText] s.clearedForDecode.done := by
  have first : exec .deHdr s.clearedForDecode.done = _ := exec_deHdr_done (by simpa using hs.filLen)
  rw [deHdrBody_clearedForDecode hne hs.filLen] at first
  change finish (decodeBody s) = _
  cases checks : checkHeader s with
  | error e =>
    rw [checks] at first
    rw [decodeBody_badHeader hne hs.filLen checks, runAll_raised first (checkHeader_headerError checks).kind_ne_ok]
    rfl
  | ok hd =>
    rw [checks] at first
    obtain ⟨start, treeInside, textInside⟩ := checkHeader_offsets hs.caps hs.filLen checks
    rw [decodeBody_goodHeader hne hs.filLen checks, runAll_cons first rfl]
    exact (runAll_deTree_deText rfl start (by simpa using treeInside) (by simpa using textInside)).symm

/-! ### The two statements -/

/-- Settles O44: each way to end leaves the results, the flags and, after an error, TXT_LEN as the clearing left them. -/
theorem decodeRule : Obligations.DecodeRule := by
  refine ⟨rfl, fun s c hs hclr => ?_⟩
  obtain rfl : c = s.clearWorking.done := Host.Outcome.next.inj (hclr.symm.trans (exec_clr s))
  refine ⟨fun hempty => congrArg finish (decodeBody_emptyFile hempty), fun hne => exec_decode_eq_runAll hs hne, ?_⟩
  by_cases hempty : s.filLen = 0
  · exact ⟨_, congrArg finish (decodeBody_emptyFile hempty), rfl, rfl, .head _, nofun, fun _ => rfl, rfl, rfl, rfl⟩
  obtain ⟨e, checks, body⟩ | ⟨hd, -, ⟨e, error, body⟩ |
    ⟨u, pos, walk, ⟨n, txt, rfl⟩ | ⟨txt, e, rfl, error⟩, body⟩⟩ := decodeBody_ends hs hempty
  · obtain ⟨kinds, subs⟩ := checkHeader_raisedByDecode checks
    exact ⟨_, congrArg finish body, rfl, rfl, .tail _ kinds, subs, fun _ => rfl, rfl, rfl, rfl⟩
  · obtain ⟨kinds, subs⟩ := error.raisedByDecode
    exact ⟨_, congrArg finish body, rfl, rfl, .tail _ kinds, subs, fun _ => rfl, rfl, rfl, rfl⟩
  · exact ⟨_, congrArg finish body, rfl, rfl, .head _, nofun, fun failed => absurd rfl failed, rfl, rfl, rfl⟩
  · obtain ⟨kinds, subs⟩ := error.raisedByDecode
    exact ⟨_, congrArg finish body, rfl, rfl, .tail _ kinds, subs, fun _ => rfl, rfl, rfl, rfl⟩

/-- Settles O45: each way to stop leaves the file, and of the header and the tree what the parts before it made. -/
theorem decodeErrorLeaves : Obligations.DecodeErrorLeaves := by
  intro s t h hs next failed header
  by_cases hempty : s.filLen = 0
  · obtain rfl := Host.Outcome.next.inj (next.symm.trans (congrArg finish (decodeBody_emptyFile hempty)))
    exact absurd rfl failed
  have parsed : exec .deHdr s = _ := congrArg finish (deHdrBody_checks hempty hs.filLen)
  obtain ⟨e, checks, body⟩ | ⟨hd, checks, ⟨e, error, body⟩ |
    ⟨u, pos, walk, ⟨n, txt, rfl⟩ | ⟨txt, e, rfl, error⟩, body⟩⟩ := decodeBody_ends hs hempty
  · obtain rfl := Host.Outcome.next.inj (next.symm.trans (congrArg finish body))
    have error := checkHeader_headerError checks
    have pos := (checkHeader_error checks).1
    exact ⟨readFil_clearedForDecode s, clearedForDecode_filLen s, rfl, pos.symm, fun _ => ⟨rfl, rfl, rfl, rfl⟩,
      fun kind sub => absurd ⟨kind, sub⟩ error.not_treeError, fun text => absurd text error.not_textError⟩
  · obtain rfl := Host.Outcome.next.inj (next.symm.trans (congrArg finish body))
    obtain rfl := Host.Outcome.next.inj (header.symm.trans (parsed.trans (by rw [checks]; rfl)))
    exact ⟨fun i => by simp [State.readFil], by simp, rfl, rfl,
      fun header => absurd error (HeaderError.not_treeError header), fun _ _ => ⟨rfl, rfl, rfl, rfl, rfl⟩,
      fun text => absurd text error.not_textError⟩
  · obtain rfl := Host.Outcome.next.inj (next.symm.trans (congrArg finish body))
    exact absurd rfl failed
  · obtain rfl := Host.Outcome.next.inj (next.symm.trans (congrArg finish body))
    obtain rfl := Host.Outcome.next.inj (header.symm.trans (parsed.trans (by rw [checks]; rfl)))
    exact ⟨fun i => by simp [State.readFil], by simp, rfl, rfl,
      fun header => absurd error (HeaderError.not_textError header),
      fun kind sub => absurd error (TreeError.not_textError ⟨kind, sub⟩),
      fun _ => ⟨rfl, rfl, rfl, rfl, u, withDecodedTree_holds (s.withHeader hd) u pos⟩⟩

end Sys2Proof.Machine
end

section
/-!
NOP and CLR (`spec/45_control.md` R281, R282): how NOP ends, what CLR leaves in the two tables, and the two statements.
How CLR ends is `exec_clr`, which stands with the values after reset.
-/

namespace Sys2Proof.Machine

/-- NOP ends with `done` on the state as it was (`spec/45_control.md` R281). -/
theorem exec_nop (s : State) : exec .nop s = .next s.done := rfl

theorem freqOf_clearWorking_done (s : State) (c : Nat) : s.clearWorking.done.freqOf c = 0 := by
  simp [State.freqOf]

theorem entryOf_clearWorking_done (s : State) (c : CharUnit) :
    entryOf s.clearWorking.done.ctab c = CodeEntry.absent := by
  simp [entryOf]

/-- Settles O16: `done` writes the error record and nothing else. -/
theorem nopRule : Obligations.NopRule := ⟨rfl, exec_nop⟩

/-- Settles O17: every field is the one that the clearing and `done` leave, and both tables list no cell. -/
theorem clrRule : Obligations.ClrRule :=
  ⟨rfl, fun s => ⟨s.clearWorking.done, exec_clr s, rfl, freqOf_clearWorking_done s, entryOf_clearWorking_done s⟩⟩

end Sys2Proof.Machine
end

section
/-!
Command words (`spec/30_encoding.md`): encoding and decoding are inverse to each other. Which words decode to which command
stands with the command list; here, what the operand field of a word holds, and the statements.
-/

namespace Sys2Proof.Machine

/-- The word of a command as a number: the opcode above bit 24, the operand field below. -/
theorem encodeInstr_toNat (i : Instr) :
    (encodeInstr i).toNat = (opcodeByte i).toNat * 2 ^ 24 + (operandField i).toNat :=
  toNat_append_add _ _

/-- An operand fits the field of its format (`spec/30_encoding.md` R101). -/
theorem operandField_lt (i : Instr) : (operandField i).toNat < 2 ^ operandWidth i := by
  cases i with
  | plIns n => simp only [operandField, operandWidth, BitVec.truncate_eq_setWidth, BitVec.toNat_setWidth]; omega
  | tbLeaf c | ctLookup c => simp only [operandField, operandWidth, BitVec.truncate_eq_setWidth, BitVec.toNat_setWidth]; omega
  | _ => simp [operandField, operandWidth]

/-- The operand field of the command that `w` holds is bits 23:0 of `w`, when its must-be-zero bits are 0. -/
theorem operandField_withOperand {w : Word} {i : Instr} (hz : reservedZero w i) :
    (operandField (withOperand w i)).toNat = w.toNat % 2 ^ 24 := by
  cases i with
  | plIns n =>
    simp only [reservedZero, operandWidth] at hz
    simp only [operandField, withOperand, BitVec.truncate_eq_setWidth, BitVec.toNat_setWidth, BitVec.toNat_ofNat]
    omega
  | tbLeaf c | ctLookup c =>
    simp only [reservedZero, operandWidth] at hz
    simp only [operandField, withOperand, BitVec.truncate_eq_setWidth, BitVec.toNat_setWidth]
    omega
  | _ => simpa [reservedZero, operandWidth, operandField, withOperand] using hz.symm

theorem reservedZero_encodeInstr (i : Instr) : reservedZero (encodeInstr i) i := by
  have fits := operandField_lt i
  rw [reservedZero, encodeInstr_toNat, Nat.mul_add_mod_self_right, Nat.mod_eq_of_lt (operandField i).isLt]
  exact Nat.div_eq_of_lt fits

/-- A well-formed command is the one its own word holds. -/
theorem withOperand_encodeInstr {i : Instr} (h : i.wellFormed = true) : withOperand (encodeInstr i) i = i := by
  have value := encodeInstr_toNat i
  cases i with
  | plIns n =>
    have hn : n ≤ 131071 := by simpa [Instr.wellFormed] using h
    simp only [operandField, BitVec.truncate_eq_setWidth, BitVec.toNat_setWidth, BitVec.toNat_ofNat] at value
    exact congrArg Instr.plIns (by omega)
  | tbLeaf c =>
    refine congrArg Instr.tbLeaf (BitVec.eq_of_toNat_eq ?_)
    simp only [operandField, BitVec.truncate_eq_setWidth, BitVec.toNat_setWidth] at value ⊢
    omega
  | ctLookup c =>
    refine congrArg Instr.ctLookup (BitVec.eq_of_toNat_eq ?_)
    simp only [operandField, BitVec.truncate_eq_setWidth, BitVec.toNat_setWidth] at value ⊢
    omega
  | _ => rfl

theorem wellFormed_withOperand (w : Word) (i : Instr) : (withOperand w i).wellFormed = true := by
  cases i with
  | plIns n => exact decide_eq_true (by omega)
  | _ => rfl

theorem encodeInstr_withOperand {w : Word} {i : Instr} (hop : opcodeOf w = opcodeByte i) (hz : reservedZero w i) :
    encodeInstr (withOperand w i) = w := by
  refine BitVec.eq_of_toNat_eq ?_
  rw [encodeInstr_toNat, operandField_withOperand hz, opcodeByte_withOperand, ← hop, opcodeOf_toNat]
  omega

theorem decodeWord_encodeInstr {i : Instr} (h : i.wellFormed = true) : decodeWord (encodeInstr i) = .ok i := by
  rw [decodeWord_of_opcode (Laws.opcodeOf_encodeInstr i) (reservedZero_encodeInstr i), withOperand_encodeInstr h]

/-- The opcode table gives a word of 32 bits as its number. -/
theorem decodeTableWord_toNat {w : Word} {i : Instr} (h : decodeWord w = .ok i) :
    decodeTableWord 32 w.toNat = some i := by
  have same : Word.ofNat (w.toNat % 2 ^ 32) = w := by rw [Nat.mod_eq_of_lt w.isLt]; exact BitVec.ofNat_toNat 32 w
  rw [decodeTableWord, same, h]

theorem decodeWord_of_decodeTableWord {nbits w : Nat} {i : Instr} (h : decodeTableWord nbits w = some i) :
    decodeWord (Word.ofNat (w % 2 ^ nbits)) = .ok i := by
  unfold decodeTableWord at h
  split at h
  · cases h; assumption
  · cases h

/-- Settles O1: the word of a command has its opcode, and its operand field holds the operand. -/
theorem decodeOfEncode : Obligations.DecodeOfEncode := fun _ h =>
  ⟨decodeWord_encodeInstr h, decodeTableWord_toNat (decodeWord_encodeInstr h)⟩

/-- Settles O2: a word that decodes is the opcode and the operand field of its command and has no other bit. -/
theorem encodeOfDecode : Obligations.EncodeOfDecode := by
  intro w i h
  obtain ⟨hop, hz⟩ := opcode_of_decodeWord h
  have same : withOperand w i = i := Except.ok.inj ((decodeWord_of_opcode hop hz).symm.trans h)
  exact ⟨same ▸ wellFormed_withOperand w i, same ▸ encodeInstr_withOperand hop hz⟩

/-- Settles O5: each word has the opcode of its command, and the operand where there is one. -/
theorem sampleWordsDecode : Obligations.SampleWordsDecode := ⟨rfl, rfl, rfl, rfl, rfl, rfl, rfl, rfl, rfl⟩

end Sys2Proof.Machine
end

section
/-!
The step and the host port (`spec/20_memory.md` R71 to R76, `spec/10_state.md` R36, R38, R39, R65): what one step serves,
what the plain registers show and store, Reset, and the statements.
-/

namespace Sys2Proof.Machine

theorem step_idle {s : State} (h : s.pending = []) : step s = .next s := by
  rw [step, h]

theorem step_serves {s : State} {op : HostOp} {rest : List HostOp} (h : s.pending = op :: rest) :
    step s = hostStep op { s with pending := rest } := by
  rw [step, h]

/-- A CMD write of the word of a command executes the command and answers OK (`spec/10_state.md` R39). -/
theorem hostStep_cmd {w : Word} {i : Instr} (h : decodeWord w = .ok i) (s : State) :
    hostStep (.write 0 w) s = answerOk (exec i s) := by
  rw [hostStep, if_pos rfl, execWord, h]

/-- Settles O6: the step serves the CMD write, which runs the decoded command. -/
theorem stepRunsDecodedCommand : Obligations.StepRunsDecodedCommand :=
  ⟨fun _ _ _ _ queue hw => (step_serves queue).trans (hostStep_cmd hw _),
    fun s _ _ _ hw => (step_serves (s := s.withFetchWord _ _) rfl).trans
      (hostStep_cmd (decodeWord_of_decodeTableWord hw) s)⟩

/-- Settles O7: by the two cases of the step. -/
theorem stepServesTheOldestOperation : Obligations.StepServesTheOldestOperation :=
  ⟨fun _ _ _ => step_serves, fun _ => step_idle⟩

/-- STATUS as a number: each part counts in units of the width below it (`spec/10_state.md` R36). -/
theorem status_toNat (s : State) :
    s.status.toNat = (errCode s.error.kind).toNat + 16 * s.flags.one.toNat + 32 * s.flags.empty.toNat
      + 64 * s.flags.found.toNat + 128 * s.flags.hdrv.toNat + 256 * s.flags.fempty.toNat := by
  simp only [State.status, toNat_append_add, BitVec.toNat_ofBool, BitVec.toNat_ofNat]
  omega

/-- Settles O8: the bits of STATUS by their places, the outcome codes by their table. -/
theorem statusWordRule : Obligations.StatusWordRule := ⟨fun s => ⟨rfl, status_toNat s⟩, rfl⟩

/-- Settles O9: each number stands for its register, which shows its field. -/
theorem registerReads : Obligations.RegisterReads := fun _ =>
  ⟨rfl, rfl, rfl, rfl, rfl, rfl, rfl, rfl, rfl, rfl, rfl, rfl, rfl, rfl, rfl, rfl, rfl, rfl, rfl, rfl, rfl, rfl, rfl,
    rfl, rfl, rfl, rfl, rfl, rfl, rfl⟩

/-- Settles O10: each register stores a value in its range, and the port answers OK. -/
theorem registerWrites : Obligations.RegisterWrites := fun s v =>
  ⟨hostStep_write_stored (by decide) rfl (writeReg_warg v s),
    fun h => hostStep_write_stored (by decide) rfl (writeReg_txtLen_stored h),
    fun h => hostStep_write_stored (by decide) rfl (writeReg_txtAddr_stored h),
    fun h => hostStep_write_stored (by decide) rfl (writeReg_filLen_stored h),
    fun h => hostStep_write_stored (by decide) rfl (writeReg_filAddr_stored h),
    fun h => hostStep_write_stored (by decide) rfl (writeReg_nodeAddr_stored h s),
    fun h => hostStep_write_stored (by decide) rfl (writeReg_frqAddr_stored h s)⟩

/-- Settles O14: Reset names every field, and each memory and table lists no cell after it. -/
theorem resetOperation : Obligations.ResetOperation := fun s =>
  ⟨s.resetCore, rfl, rfl, fun c => tableGet_nil 0 c, fun c => tableGet_nil CodeEntry.absent c.toNat, fun _ => rfl,
    fun _ => rfl⟩

end Sys2Proof.Machine
end

section
/-!
What a command does to the state, said once: the body that each command runs, in which states a body can end, and the
frame of each command.
-/

namespace Sys2Proof.Machine

/-! ### The body of a command -/

/-- The body that each command runs (`spec/00_scope.md` R16). -/
def bodyOf (i : Instr) (s : State) : Body :=
  match i with
  | .plIns n => plInsBody n s
  | .plRmin => plRminBody s
  | .plOne => plOneBody s
  | .tbLeaf c => tbLeafBody c s
  | .tbCount => tbCountBody s
  | .tbLeaves => tbLeavesBody s
  | .tbMerge => tbMergeBody s
  | .tbRoot => tbRootBody s
  | .tbBuild => tbBuildBody s
  | .ctGen => ctGenBody s
  | .ctLookup c => ctLookupBody c s
  | .enTree => enTreeBody s
  | .enText => enTextBody s
  | .enEmit => enEmitBody s
  | .encode => encodeBody s
  | .deHdr => deHdrBody s
  | .deTree => deTreeBody s
  | .deText => deTextBody s
  | .decode => decodeBody s
  | .nop => .ok s
  | .clr => .ok s.clearWorking

theorem exec_eq_finish (i : Instr) (s : State) : exec i s = finish (bodyOf i s) := by cases i <;> rfl

/-- Every state in which the body ends, normally or with a `raise`, has the property. -/
structure Ensures (b : Body) (P : State → Prop) : Prop where
  ok : ∀ {t}, b = .ok t → P t
  raised : ∀ {t e}, b = .error (.raised t e) → P t

theorem Ensures.mono {b : Body} {P Q : State → Prop} (h : Ensures b P) (hPQ : ∀ t, P t → Q t) : Ensures b Q where
  ok ht := hPQ _ (h.ok ht)
  raised ht := hPQ _ (h.raised ht)

theorem ensures_ok {s : State} {P : State → Prop} (h : P s) : Ensures (.ok s) P where
  ok ht := by cases ht; exact h
  raised ht := by cases ht

theorem ensures_raiseAt {s : State} {P : State → Prop} (h : P s) (k : ErrKind) (sub pos : Nat) :
    Ensures (raiseAt s k sub pos) P where
  ok ht := (raiseAt_ne_ok _ _ _ _ _ ht).elim
  raised ht := by obtain ⟨rfl, -⟩ := (raiseAt_eq_raised ..).mp ht; exact h

/-- Of two bodies in a row the second starts in a state that the first ensures. -/
theorem Ensures.bind {b : Body} {k : State → Body} {P Q : State → Prop} (hb : Ensures b P) (stops : ∀ u, P u → Q u)
    (hk : ∀ u, P u → Ensures (k u) Q) : Ensures (b >>= k) Q where
  ok ht := by
    obtain ⟨u, hu, ht⟩ := body_bind_ok ht
    exact (hk u (hb.ok hu)).ok ht
  raised ht := by
    obtain ht | ⟨u, hu, ht⟩ := body_bind_raised ht
    · exact stops _ (hb.raised ht)
    · exact (hk u (hb.ok hu)).raised ht

/-- What the body of a command ensures holds of its next state but for the error record. -/
theorem Ensures.next {i : Instr} {s t : State} {P : State → Prop} (hb : Ensures (bodyOf i s) P)
    (h : exec i s = .next t) : ∃ u, P u ∧ t = { u with error := t.error } := by
  rw [exec_eq_finish] at h
  obtain ⟨u, hu, rfl⟩ | ⟨u, e, hu, rfl⟩ := finish_next h
  · exact ⟨u, hb.ok hu, rfl⟩
  · exact ⟨u, hb.raised hu, rfl⟩

/-! ### What the composite commands ensure: `P` before their last part, `Q` at their end -/

section
variable {P Q : State → Prop}

theorem mergeLoop_ensures (merge : ∀ u, P u → Ensures (tbMergeBody u) P) {s : State} (hs : P s) (fuel : Nat) :
    Ensures (mergeLoop fuel s) P where
  ok h := (mergeLoop_ok (fun u _ hu => (merge u hu).ok) hs h).1
  raised h := (mergeLoop_raised (fun u _ hu => (merge u hu).ok) hs h).1

theorem tbBuildBody_ensures (count : ∀ u, P u → Ensures (tbCountBody u) P)
    (leaves : ∀ u, P u → Ensures (tbLeavesBody u) P) (merge : ∀ u, P u → Ensures (tbMergeBody u) P)
    (root : ∀ u, P u → Ensures (tbRootBody u) P) {s : State} (hs : P s) : Ensures (tbBuildBody s) P := by
  unfold tbBuildBody
  split
  · exact ensures_raiseAt hs ..
  · exact (count s hs).bind (fun _ => id) fun u hu => (leaves u hu).bind (fun _ => id) fun u hu =>
      (mergeLoop_ensures merge hu _).bind (fun _ => id) root

theorem encodeBody_ensures (noText : ∀ u, P u → Q { u with filLen := 0 })
    (build : ∀ u, P u → Ensures (tbBuildBody u) P) (gen : ∀ u, P u → Ensures (ctGenBody u) P)
    (tree : ∀ u, P u → Ensures (enTreeBody u) P) (text : ∀ u, P u → Ensures (enTextBody u) P)
    (stops : ∀ u, P u → Q u) (emit : ∀ u, P u → Ensures (enEmitBody u) Q) {s : State} (hs : P s.clearWorking) :
    Ensures (encodeBody s) Q := by
  simp only [encodeBody]
  split
  · exact ensures_ok (noText _ hs)
  · exact (build _ hs).bind stops fun u hu => (gen u hu).bind stops fun u hu => (tree u hu).bind stops fun u hu =>
      (text u hu).bind stops emit

theorem decodeBody_ensures (header : ∀ u, P u → Ensures (deHdrBody u) P) (tree : ∀ u, P u → Ensures (deTreeBody u) P)
    (stops : ∀ u, P u → Q u) (text : ∀ u, P u → Ensures (deTextBody u) Q) {s : State} (hs : P s.clearedForDecode) :
    Ensures (decodeBody s) Q := by
  refine (header _ hs).bind stops fun u hu => ?_
  split
  · exact ensures_ok (stops u hu)
  · exact (tree u hu).bind stops text

end

/-! ### Frames -/

/-- What each command can change: every field that the right side does not name is as it was, and what the composite
commands clear is cleared. -/
abbrev FrameOf (i : Instr) (s t : State) : Prop :=
  match i with
  | .plIns _ => t = { s with error := t.error, nodes := t.nodes, listHead := t.listHead }
  | .plRmin => t = { s with
      error := t.error, nodes := t.nodes, listHead := t.listHead, res0 := t.res0, res1 := t.res1
      flags := { s.flags with empty := t.flags.empty } }
  | .plOne => t = { s with error := t.error, flags := { s.flags with one := t.flags.one } }
  | .tbLeaf _ => t = { s with error := t.error, nodes := t.nodes, res0 := t.res0 }
  | .tbCount => t = { s with error := t.error, freq := t.freq }
  | .tbLeaves => t = { s with error := t.error, nodes := t.nodes, listHead := t.listHead, root := t.root }
  | .tbMerge => t = { s with
      error := t.error, nodes := t.nodes, listHead := t.listHead, res0 := t.res0, res1 := t.res1 }
  | .tbRoot => t = { s with
      error := t.error, nodes := t.nodes, listHead := t.listHead, root := t.root, res0 := t.res0, res1 := t.res1 }
  | .tbBuild => t = { s with
      error := t.error, freq := t.freq, nodes := t.nodes, listHead := t.listHead, root := t.root, res0 := t.res0
      res1 := t.res1 }
  | .ctGen => t = { s with error := t.error, ctab := t.ctab, ncodes := t.ncodes }
  | .ctLookup _ => t = { s with
      error := t.error, res0 := t.res0, res1 := t.res1, flags := { s.flags with found := t.flags.found } }
  | .enTree => t = { s with error := t.error, tbuf := t.tbuf }
  | .enText => t = { s with error := t.error, xbuf := t.xbuf }
  | .enEmit => t = { s with error := t.error, fil := t.fil, filLen := t.filLen, stats := t.stats }
  | .encode => t = { s.clearWorking with
      error := t.error, freq := t.freq, nodes := t.nodes, listHead := t.listHead, root := t.root, res0 := t.res0
      res1 := t.res1, ctab := t.ctab, ncodes := t.ncodes, tbuf := t.tbuf, xbuf := t.xbuf, fil := t.fil
      filLen := t.filLen, stats := t.stats }
  | .deHdr => t = { s with
      error := t.error, hdr := t.hdr, flags := { s.flags with hdrv := t.flags.hdrv, fempty := t.flags.fempty } }
  | .deTree => t = { s with
      error := t.error, nodes := t.nodes, listHead := t.listHead, root := t.root, rcur := t.rcur }
  | .deText => t = { s with error := t.error, txt := t.txt, txtLen := t.txtLen, rcur := t.rcur }
  | .decode => t = { s.clearWorking with
      error := t.error, hdr := t.hdr, flags := { Flags.zero with hdrv := t.flags.hdrv, fempty := t.flags.fempty }
      nodes := t.nodes, listHead := t.listHead, root := t.root, rcur := t.rcur, txt := t.txt, txtLen := t.txtLen }
  | .nop => t = { s with error := t.error }
  | .clr => t = { s.clearWorking with error := t.error }

/-- The frame of a command says nothing of the error record. -/
theorem FrameOf.withError {i : Instr} {s t : State} (h : FrameOf i s t) (e : ErrorRecord) :
    FrameOf i s { t with error := e } := by
  cases i <;> exact congrArg (fun u : State => { u with error := e }) h

section
variable (s : State)

theorem plInsBody_frame (n : Nat) : Ensures (plInsBody n s) (FrameOf (.plIns n) s) where
  ok h := by obtain ⟨x, a, -, -, -, -, rfl⟩ := plInsBody_ok h; rfl
  raised h := by obtain ⟨rfl, -⟩ := plInsBody_raised h; rfl

theorem plRminBody_frame : Ensures (plRminBody s) (FrameOf .plRmin s) where
  ok h := by obtain ⟨-, rfl⟩ | ⟨r, -, rfl⟩ := plRminBody_ok h <;> rfl
  raised h := (plRminBody_raised h).elim

theorem plOneBody_frame : Ensures (plOneBody s) (FrameOf .plOne s) where
  ok h := by obtain ⟨b, -, rfl⟩ := plOneBody_ok h; rfl
  raised h := (plOneBody_raised h).elim

theorem tbLeafBody_frame (c : CharUnit) : Ensures (tbLeafBody c s) (FrameOf (.tbLeaf c) s) where
  ok h := by obtain ⟨-, rfl⟩ := tbLeafBody_ok h; rfl
  raised h := by obtain ⟨rfl, -⟩ := tbLeafBody_raised h; rfl

theorem tbCountBody_frame : Ensures (tbCountBody s) (FrameOf .tbCount s) where
  ok h := by obtain ⟨-, rfl⟩ := tbCountBody_ok h; rfl
  raised h := (tbCountBody_raised h).elim

theorem tbLeavesBody_frame : Ensures (tbLeavesBody s) (FrameOf .tbLeaves s) where
  ok h := by obtain ⟨a, -, rfl⟩ := tbLeavesBody_ok h; rfl
  raised h := (tbLeavesBody_raised h).elim

theorem tbMergeBody_frame : Ensures (tbMergeBody s) (FrameOf .tbMerge s) where
  ok h := by obtain ⟨n, r, -, -, -, -, -, rfl⟩ := tbMergeBody_ok_cases h; rfl
  raised h := by obtain ⟨rfl, -⟩ := tbMergeBody_raised h; rfl

theorem tbRootBody_frame : Ensures (tbRootBody s) (FrameOf .tbRoot s) where
  ok h := by obtain ⟨r, -, -, rfl⟩ := tbRootBody_ok h; rfl
  raised h := by obtain ⟨rfl, -⟩ := tbRootBody_raised h; rfl

theorem tbBuildBody_frame : Ensures (tbBuildBody s) (FrameOf .tbBuild s) :=
  tbBuildBody_ensures (fun u hu => (tbCountBody_frame u).mono fun v hv => by rw [hv, hu])
    (fun u hu => (tbLeavesBody_frame u).mono fun v hv => by rw [hv, hu])
    (fun u hu => (tbMergeBody_frame u).mono fun v hv => by rw [hv, hu])
    (fun u hu => (tbRootBody_frame u).mono fun v hv => by rw [hv, hu]) rfl

theorem ctGenBody_frame : Ensures (ctGenBody s) (FrameOf .ctGen s) where
  ok h := by obtain ⟨r, x, c, -, -, -, rfl⟩ := ctGenBody_ok h; rfl
  raised h := by obtain ⟨-, rfl, -⟩ | ⟨r, x, c, -, -, -, rfl, -⟩ := ctGenBody_raised h <;> rfl

theorem ctLookupBody_frame (c : CharUnit) : Ensures (ctLookupBody c s) (FrameOf (.ctLookup c) s) where
  ok h := by rw [ctLookupBody_ok h]; rfl
  raised h := (ctLookupBody_raised h).elim

theorem enTreeBody_frame : Ensures (enTreeBody s) (FrameOf .enTree s) where
  ok h := by obtain ⟨r, bits, -, -, rfl⟩ := enTreeBody_ok h; rfl
  raised h := by obtain ⟨-, rfl, -⟩ := enTreeBody_raised h; rfl

theorem enTextBody_frame : Ensures (enTextBody s) (FrameOf .enText s) where
  ok h := by obtain ⟨-, bits, -, rfl⟩ := enTextBody_ok h; rfl
  raised h := by obtain ⟨i, -, rfl, -⟩ := enTextBody_raised h; rfl

theorem enEmitBody_frame : Ensures (enEmitBody s) (FrameOf .enEmit s) where
  ok h := by obtain ⟨-, -, -, rfl⟩ := enEmitBody_ok h; rfl
  raised h := by obtain ⟨rfl, -⟩ := enEmitBody_raised h; rfl

theorem encodeBody_frame : Ensures (encodeBody s) (FrameOf .encode s) :=
  encodeBody_ensures (fun u hu => by rw [hu]) (fun u hu => (tbBuildBody_frame u).mono fun v hv => by rw [hv, hu])
    (fun u hu => (ctGenBody_frame u).mono fun v hv => by rw [hv, hu])
    (fun u hu => (enTreeBody_frame u).mono fun v hv => by rw [hv, hu])
    (fun u hu => (enTextBody_frame u).mono fun v hv => by rw [hv, hu]) (fun _ => id)
    (fun u hu => (enEmitBody_frame u).mono fun v hv => by rw [hv, hu]) rfl

theorem deHdrBody_frame : Ensures (deHdrBody s) (FrameOf .deHdr s) where
  ok h := by obtain ⟨-, rfl⟩ | ⟨-, -, hd, -, rfl⟩ := deHdrBody_ok h <;> rfl
  raised h := by obtain ⟨-, -, rfl⟩ := deHdrBody_raised h; rfl

theorem deTreeBody_frame : Ensures (deTreeBody s) (FrameOf .deTree s) where
  ok h := by obtain ⟨-, -, p, -, rfl⟩ := deTreeBody_ok h; rfl
  raised h := by obtain ⟨-, rfl, -⟩ | ⟨-, -, rfl⟩ := deTreeBody_raised h <;> rfl

theorem deTextBody_frame : Ensures (deTextBody s) (FrameOf .deText s) where
  ok h := by obtain ⟨r, x, n, txt, -, -, -, -, -, rfl⟩ := deTextBody_ok h; rfl
  raised h := by obtain ⟨-, rfl, -⟩ | ⟨r, x, txt, -, -, -, -, rfl⟩ := deTextBody_raised h <;> rfl

theorem decodeBody_frame : Ensures (decodeBody s) (FrameOf .decode s) :=
  decodeBody_ensures (fun u hu => (deHdrBody_frame u).mono fun v hv => by rw [hv, hu])
    (fun u hu => (deTreeBody_frame u).mono fun v hv => by rw [hv, hu]) (fun _ => id)
    (fun u hu => (deTextBody_frame u).mono fun v hv => by rw [hv, hu]) rfl

theorem bodyOf_frame (i : Instr) : Ensures (bodyOf i s) (FrameOf i s) := by
  cases i with
  | plIns n => exact plInsBody_frame s n
  | plRmin => exact plRminBody_frame s
  | plOne => exact plOneBody_frame s
  | tbLeaf c => exact tbLeafBody_frame s c
  | tbCount => exact tbCountBody_frame s
  | tbLeaves => exact tbLeavesBody_frame s
  | tbMerge => exact tbMergeBody_frame s
  | tbRoot => exact tbRootBody_frame s
  | tbBuild => exact tbBuildBody_frame s
  | ctGen => exact ctGenBody_frame s
  | ctLookup c => exact ctLookupBody_frame s c
  | enTree => exact enTreeBody_frame s
  | enText => exact enTextBody_frame s
  | enEmit => exact enEmitBody_frame s
  | encode => exact encodeBody_frame s
  | deHdr => exact deHdrBody_frame s
  | deTree => exact deTreeBody_frame s
  | deText => exact deTextBody_frame s
  | decode => exact decodeBody_frame s
  | nop => exact ensures_ok rfl
  | clr => exact ensures_ok rfl

end

/-- Every command stays inside its frame. -/
theorem exec_frame {i : Instr} {s t : State} (h : exec i s = .next t) : FrameOf i s t := by
  obtain ⟨u, hu, ht⟩ := (bodyOf_frame s i).next h
  exact ht ▸ hu.withError t.error

end Sys2Proof.Machine
end

section
/-!
Which commands write what (`spec/20_memory.md` R70, R78, `spec/10_state.md` R35): from the frames of the commands, what a
run of cells written from cell 0 on does to a host memory, and the statements.
-/

namespace Sys2Proof.Machine

/-! ### Runs of cells -/

/-- What a command does to a host memory of `cap` cells and to its length register: it writes a run of cells from cell 0
on, an empty one if none, and keeps the length, clears it, or sets it to that of the run. -/
def Written {α : Type} (cap : Nat) (m m' : Cells α) (len len' : Word) : Prop :=
  ∃ vs : List α, vs.length ≤ cap ∧ m' = cellsPutAll m 0 vs ∧ (len' = len ∨ len' = 0 ∨ len' = Word.ofNat vs.length)

section
variable {α : Type} {cap : Nat} {m m' : Cells α} {len len' : Word}

theorem written_unchanged (hm : m' = m) (hlen : len' = len ∨ len' = 0) : Written cap m m' len len' :=
  ⟨[], Nat.zero_le _, hm, hlen.imp_right .inl⟩

theorem Written.wf (h : Written cap m m' len len') (hm : Memory.wf cap m) : Memory.wf cap m' := by
  obtain ⟨vs, fits, rfl, -⟩ := h
  exact cellsPutAll_wf vs hm (by omega)

theorem Written.len_le (h : Written cap m m' len len') (hlen : len.toNat ≤ cap) : len'.toNat ≤ cap := by
  obtain ⟨vs, fits, -, rfl | rfl | rfl⟩ := h
  · exact hlen
  · exact Nat.zero_le _
  · exact (Nat.mod_le _ _).trans fits

/-- No cell at or above the capacity is written. -/
theorem Written.above (h : Written cap m m' len len') {a : Nat} (ha : cap ≤ a) : cellsGet? m' a = cellsGet? m a := by
  obtain ⟨vs, fits, rfl, -⟩ := h
  rw [cellsGet?_putAll, if_neg (by omega)]

end

/-! ### The file -/

/-- The capacity, the cells and the length of FIL. -/
abbrev State.fileSide (s : State) : Nat × List Host.Cell × Word := (s.caps.filCap, s.fil, s.filLen)

theorem enEmitBody_writes {s u : State} (hu : u.fileSide = s.fileSide) :
    Ensures (enEmitBody u) (fun t => Written s.caps.filCap s.fil t.fil s.filLen t.filLen) := by
  obtain ⟨hcap, hfil, hlen⟩ : u.caps.filCap = s.caps.filCap ∧ u.fil = s.fil ∧ u.filLen = s.filLen := by simpa using hu
  refine ⟨fun h => ?_, fun h => ?_⟩
  · obtain ⟨-, -, fits, rfl⟩ := enEmitBody_ok h
    have length := fileBytes_length u.tbuf u.xbuf
    refine ⟨fileBytes u.tbuf u.xbuf, ?_, by rw [hfil], .inr (.inr ?_)⟩
    · rw [length, ← hcap]; exact fits
    · rw [length]; rfl
  · obtain ⟨rfl, -⟩ := enEmitBody_raised h
    exact written_unchanged hfil (.inl hlen)

theorem encodeBody_writes (s : State) :
    Ensures (encodeBody s) (fun t => Written s.caps.filCap s.fil t.fil s.filLen t.filLen) := by
  refine encodeBody_ensures (P := fun u => u.fileSide = s.fileSide) (fun u hu => ?_)
    (fun u hu => (tbBuildBody_frame u).mono fun v hv => (congrArg State.fileSide hv).trans hu)
    (fun u hu => (ctGenBody_frame u).mono fun v hv => (congrArg State.fileSide hv).trans hu)
    (fun u hu => (enTreeBody_frame u).mono fun v hv => (congrArg State.fileSide hv).trans hu)
    (fun u hu => (enTextBody_frame u).mono fun v hv => (congrArg State.fileSide hv).trans hu) (fun u hu => ?_)
    (fun u => enEmitBody_writes) rfl
  all_goals obtain ⟨-, hfil, hlen⟩ : _ ∧ u.fil = s.fil ∧ u.filLen = s.filLen := by simpa using hu
  · exact written_unchanged hfil (.inr rfl)
  · exact written_unchanged hfil (.inl hlen)

theorem exec_keeps_file {i : Instr} {s t : State} (h : exec i s = .next t) (hemit : i ≠ .enEmit) (henc : i ≠ .encode) :
    t.fil = s.fil ∧ t.filLen = s.filLen := by
  have frame := exec_frame h
  cases i with
  | enEmit => exact absurd rfl hemit
  | encode => exact absurd rfl henc
  | _ => exact ⟨(congrArg State.fil frame :), (congrArg State.filLen frame :)⟩

/-- What a command does to FIL. -/
theorem exec_writes_file {i : Instr} {s t : State} (h : exec i s = .next t) :
    Written s.caps.filCap s.fil t.fil s.filLen t.filLen := by
  by_cases hemit : i = .enEmit
  · subst hemit
    obtain ⟨u, hu, ht⟩ := (enEmitBody_writes (s := s) rfl).next (i := .enEmit) h
    rw [ht]; exact hu
  by_cases henc : i = .encode
  · subst henc
    obtain ⟨u, hu, ht⟩ := (encodeBody_writes s).next (i := .encode) h
    rw [ht]; exact hu
  · obtain ⟨hfil, hlen⟩ := exec_keeps_file h hemit henc
    exact written_unchanged hfil (.inl hlen)

/-! ### The text -/

/-- What a loop of DE.TEXT with `n` characters behind it leaves in TXT: it wrote a run of cells from cell `n` on, all of
them below the capacity. -/
def WritesRun (cap n : Nat) (txt : Cells CharUnit) (walk : Except TextStop (Nat × Cells CharUnit)) : Prop :=
  match walk with
  | .ok (k, txt') => ∃ vs, txt' = cellsPutAll txt n vs ∧ k = n + vs.length ∧ k ≤ cap
  | .error (.fail txt' _) => ∃ vs, txt' = cellsPutAll txt n vs ∧ n + vs.length ≤ cap
  | .error .broken => True

/-- A run with one character in front of it. -/
theorem WritesRun.cons {cap n : Nat} {c : CharUnit} {txt : Cells CharUnit}
    {walk : Except TextStop (Nat × Cells CharUnit)} (h : WritesRun cap (n + 1) (cellsPut txt n c) walk) :
    WritesRun cap n txt walk := by
  match walk, h with
  | .ok (k, _), ⟨vs, run, length, fits⟩ => exact ⟨c :: vs, run, by simp; omega, fits⟩
  | .error (.fail _ _), ⟨vs, run, fits⟩ => exact ⟨c :: vs, run, by simp; omega⟩
  | .error .broken, _ => trivial

theorem oneLeafText_writesRun (s : State) (c : CharUnit) (k p n : Nat) (txt : Cells CharUnit)
    (hn : n ≤ s.caps.txtCap) : WritesRun s.caps.txtCap n txt (oneLeafText s c k p n txt) := by
  induction k generalizing p n txt with
  | zero => exact ⟨[], rfl, rfl, hn⟩
  | succ k ih =>
    simp only [oneLeafText, emit]
    by_cases one : s.fileBit p = true
    · rw [if_pos one]; exact ⟨[], rfl, hn⟩
    by_cases full : s.caps.txtCap ≤ n
    · rw [if_neg one, if_pos full]; exact ⟨[], rfl, hn⟩
    · rw [if_neg one, if_neg full]; exact (ih (p + 1) (n + 1) _ (by omega)).cons

theorem walkText_writesRun (s : State) (root k p cur n : Nat) (txt : Cells CharUnit) (hn : n ≤ s.caps.txtCap) :
    WritesRun s.caps.txtCap n txt (walkText s root k p cur n txt) := by
  induction k generalizing p cur n txt with
  | zero => exact ⟨[], rfl, rfl, hn⟩
  | succ k ih =>
    simp only [walkText, emit]
    split
    · trivial
    · split
      · exact ⟨[], rfl, hn⟩
      · split
        · trivial
        · split
          · by_cases full : s.caps.txtCap ≤ n
            · rw [if_pos full]; exact ⟨[], rfl, hn⟩
            · rw [if_neg full]; exact (ih (p + 1) root (n + 1) _ (by omega)).cons
          · exact ih (p + 1) _ n txt hn

theorem textWalk_writesRun (s : State) (r : Nat) (x : Node) :
    WritesRun s.caps.txtCap 0 s.txt (textWalk s r x) := by
  unfold textWalk
  split
  · exact oneLeafText_writesRun s _ _ _ 0 _ (Nat.zero_le _)
  · exact walkText_writesRun s r _ _ r 0 _ (Nat.zero_le _)

/-- The capacity and the cells of TXT. -/
abbrev State.textSide (s : State) : Nat × Cells CharUnit := (s.caps.txtCap, s.txt)

theorem deTextBody_writes {s u : State} (hu : u.textSide = s.textSide) (hlen : u.txtLen = s.txtLen ∨ u.txtLen = 0) :
    Ensures (deTextBody u) (fun t => Written s.caps.txtCap s.txt t.txt s.txtLen t.txtLen) := by
  obtain ⟨hcap, htxt⟩ : u.caps.txtCap = s.caps.txtCap ∧ u.txt = s.txt := by simpa using hu
  refine ⟨fun h => ?_, fun h => ?_⟩
  · obtain ⟨r, x, n, txt, -, -, -, -, walk, rfl⟩ := deTextBody_ok h
    have run := walk ▸ textWalk_writesRun u r x
    obtain ⟨vs, rfl, length, fits⟩ := run
    rw [Nat.zero_add] at length
    exact ⟨vs, by rw [← length, ← hcap]; exact fits, by rw [htxt], .inr (.inr (by rw [← length]))⟩
  · obtain ⟨-, rfl, -⟩ | ⟨r, x, txt, -, -, -, walk, rfl⟩ := deTextBody_raised h
    · exact written_unchanged htxt hlen
    · have run := walk ▸ textWalk_writesRun u r x
      obtain ⟨vs, rfl, fits⟩ := run
      exact ⟨vs, by rw [← hcap]; omega, by rw [htxt], .inr (.inl rfl)⟩

theorem decodeBody_writes (s : State) :
    Ensures (decodeBody s) (fun t => Written s.caps.txtCap s.txt t.txt s.txtLen t.txtLen) :=
  decodeBody_ensures (P := fun u => u.textSide = s.textSide ∧ u.txtLen = 0)
    (fun u hu => (deHdrBody_frame u).mono fun _ hv =>
      ⟨(congrArg State.textSide hv).trans hu.1, (congrArg State.txtLen hv).trans hu.2⟩)
    (fun u hu => (deTreeBody_frame u).mono fun _ hv =>
      ⟨(congrArg State.textSide hv).trans hu.1, (congrArg State.txtLen hv).trans hu.2⟩)
    (fun _ hu => written_unchanged (congrArg Prod.snd hu.1) (.inr hu.2))
    (fun _ hu => deTextBody_writes hu.1 (.inr hu.2)) ⟨rfl, rfl⟩

theorem exec_keeps_text {i : Instr} {s t : State} (h : exec i s = .next t) (htext : i ≠ .deText) (hdec : i ≠ .decode) :
    t.txt = s.txt ∧ t.txtLen = s.txtLen := by
  have frame := exec_frame h
  cases i with
  | deText => exact absurd rfl htext
  | decode => exact absurd rfl hdec
  | _ => exact ⟨(congrArg State.txt frame :), (congrArg State.txtLen frame :)⟩

/-- What a command does to TXT. -/
theorem exec_writes_text {i : Instr} {s t : State} (h : exec i s = .next t) :
    Written s.caps.txtCap s.txt t.txt s.txtLen t.txtLen := by
  by_cases htext : i = .deText
  · subst htext
    obtain ⟨u, hu, ht⟩ := (deTextBody_writes (s := s) rfl (.inl rfl)).next (i := .deText) h
    rw [ht]; exact hu
  by_cases hdec : i = .decode
  · subst hdec
    obtain ⟨u, hu, ht⟩ := (decodeBody_writes s).next (i := .decode) h
    rw [ht]; exact hu
  · obtain ⟨htxt, hlen⟩ := exec_keeps_text h htext hdec
    exact written_unchanged htxt (.inl hlen)

/-! ### Flags and the code table -/

section
variable {i : Instr} {s t : State} (frame : FrameOf i s t) (hclr : i ≠ .clr) (henc : i ≠ .encode) (hdec : i ≠ .decode)
include frame hclr henc hdec

theorem FrameOf.one (h : i ≠ .plOne) : t.flags.one = s.flags.one := by
  cases i with
  | plOne | clr | encode | decode => contradiction
  | _ => exact (congrArg (fun u : State => u.flags.one) frame :)

theorem FrameOf.empty (h : i ≠ .plRmin) : t.flags.empty = s.flags.empty := by
  cases i with
  | plRmin | clr | encode | decode => contradiction
  | _ => exact (congrArg (fun u : State => u.flags.empty) frame :)

theorem FrameOf.found (h : ∀ c, i ≠ .ctLookup c) : t.flags.found = s.flags.found := by
  cases i with
  | ctLookup c => exact absurd rfl (h c)
  | clr | encode | decode => contradiction
  | _ => exact (congrArg (fun u : State => u.flags.found) frame :)

theorem FrameOf.headerFlags (h : i ≠ .deHdr) : t.flags.hdrv = s.flags.hdrv ∧ t.flags.fempty = s.flags.fempty := by
  cases i with
  | deHdr | clr | encode | decode => contradiction
  | _ => exact ⟨(congrArg (fun u : State => u.flags.hdrv) frame :), (congrArg (fun u : State => u.flags.fempty) frame :)⟩

theorem FrameOf.codes (h : i ≠ .ctGen) : t.ctab = s.ctab ∧ t.ncodes = s.ncodes := by
  cases i with
  | ctGen | clr | encode | decode => contradiction
  | _ => exact ⟨(congrArg State.ctab frame :), (congrArg State.ncodes frame :)⟩

end

/-! ### The statements -/

/-- Settles O57: no command touches the host's side of the state. -/
theorem commandsKeepHostRegisters : Obligations.CommandsKeepHostRegisters := by
  intro i s t h
  have side := exec_hostSide h
  exact ⟨congrArg HostSide.warg side, congrArg HostSide.txtAddr side, congrArg HostSide.filAddr side,
    congrArg HostSide.nodeAddr side, congrArg HostSide.frqAddr side, congrArg HostSide.pending side,
    congrArg HostSide.answers side, congrArg HostSide.caps side, congrArg HostSide.resets side⟩

/-- Settles O58: by the frames of the commands, and by the runs of cells that the writers write. -/
theorem memoryWriters : Obligations.MemoryWriters := by
  intro i s t h
  have resets : t.resets = s.resets := congrArg HostSide.resets (exec_hostSide h)
  refine ⟨exec_keeps_file h, exec_keeps_text h, fun a ha => ?_, fun a ha => ?_⟩
  · rw [State.readFil, State.readFil, (exec_writes_file h).above ha, resets]
  · rw [State.readTxt, State.readTxt, (exec_writes_text h).above ha, resets]

/-- Settles O59: by the frames of the commands. -/
theorem flagAndTableWriters : Obligations.FlagAndTableWriters := by
  intro i s t h hclr henc hdec
  have frame := exec_frame h
  exact ⟨frame.one hclr henc hdec, frame.empty hclr henc hdec, frame.found hclr henc hdec,
    frame.headerFlags hclr henc hdec, frame.codes hclr henc hdec⟩

end Sys2Proof.Machine
end

section
/-!
The invariants of the memories, of the tables and of the header (`spec/10_state.md` R42, R43, R47, R50): what a step can
do, packaged once for every invariant, and the three statements.
-/

namespace Sys2Proof.Machine

/-! ### Invariants of a step -/

/-- A host write changes the registers and memories of the host only. -/
theorem writeReg_frame {r : Reg} {v : Word} {s t : State} (h : writeReg r v s = .ok (some t)) :
    t = { s with
      warg := t.warg, txtLen := t.txtLen, txtAddr := t.txtAddr, txt := t.txt, filLen := t.filLen, filAddr := t.filAddr
      fil := t.fil, nodeAddr := t.nodeAddr, frqAddr := t.frqAddr } := by
  obtain ⟨-, rfl⟩ | ⟨-, -, rfl⟩ | ⟨-, -, rfl⟩ | ⟨-, -, -, rfl⟩ | ⟨-, -, rfl⟩ | ⟨-, -, rfl⟩ | ⟨-, -, -, rfl⟩ |
    ⟨-, -, rfl⟩ | ⟨-, -, rfl⟩ := writeReg_some h <;> rfl

section
variable {P Q : State → Prop} (start : ∀ u, P u → Q u) (record : ∀ u a e, Q u → Q { u with answers := a, error := e })
  (command : ∀ i u v, P u → exec i u = .next v → Q v)
  (write : ∀ r v u u', P u → writeReg r v u = .ok (some u') → Q u') (reset : ∀ u, P u → Q u.resetCore)
include start record command write reset

/-- What every command, every stored value and Reset make true from `P`, a host operation makes true from `P`, when the
transcript and the error record do not matter. -/
theorem hostStep_ensures {op : HostOp} {s t : State} (hs : P s) (h : hostStep op s = .next t) : Q t := by
  obtain ⟨r, a, -, -, rfl⟩ | ⟨w, u, -, hw, rfl⟩ | ⟨r, v, -, -, rfl | ⟨reg, u, -, hu, rfl⟩⟩ | ⟨-, rfl⟩ := hostStep_next h
  · exact record s (a :: s.answers) s.error (start s hs)
  · obtain ⟨i, -, hi⟩ | rfl := execWord_next hw
    · exact record u (.ok :: u.answers) u.error (command i s u hs hi)
    · exact record s (.ok :: s.answers) (illegalCommand w) (start s hs)
  · exact record s (.herr :: s.answers) s.error (start s hs)
  · exact record u (.ok :: u.answers) u.error (write reg v s u hs hu)
  · exact reset s hs

/-- A step serves one host operation, so it makes true what every host operation does, when the queue does not matter
either. -/
theorem step_ensures (queue : ∀ u q, P u → P { u with pending := q }) {s t : State} (hs : P s)
    (h : step s = .next t) : Q t := by
  obtain ⟨-, rfl⟩ | ⟨op, rest, -, h⟩ := step_next h
  · exact start _ hs
  · exact hostStep_ensures start record command write reset (queue s rest hs) h

end

/-! ### The memories -/

theorem exec_memoryInv {i : Instr} {s t : State} (hs : MemoryInv s) (h : exec i s = .next t) : MemoryInv t := by
  have side := exec_hostSide h
  have caps : t.caps = s.caps := congrArg HostSide.caps side
  have txtAddr : t.txtAddr = s.txtAddr := congrArg HostSide.txtAddr side
  have filAddr : t.filAddr = s.filAddr := congrArg HostSide.filAddr side
  have nodeAddr : t.nodeAddr = s.nodeAddr := congrArg HostSide.nodeAddr side
  refine ⟨by rw [caps]; exact hs.caps, ?_, ?_, ?_, ?_, ?_, ?_, by rw [nodeAddr]; exact hs.nodeAddr⟩ <;> rw [caps]
  · exact (exec_writes_text h).wf hs.txt
  · exact (exec_writes_file h).wf hs.fil
  · exact (exec_writes_text h).len_le hs.txtLen
  · exact (exec_writes_file h).len_le hs.filLen
  · rw [txtAddr]; exact hs.txtAddr
  · rw [filAddr]; exact hs.filAddr

/-- Every host write that is not refused stores a value in range (`spec/20_memory.md` R76, R77). -/
theorem writeReg_memoryInv {r : Reg} {v : Word} {s t : State} (hs : MemoryInv s) (h : writeReg r v s = .ok (some t)) :
    MemoryInv t := by
  obtain ⟨-, rfl⟩ | ⟨-, hv, rfl⟩ | ⟨-, hv, rfl⟩ | ⟨-, -, ha, rfl⟩ | ⟨-, hv, rfl⟩ | ⟨-, hv, rfl⟩ | ⟨-, -, ha, rfl⟩ |
    ⟨-, hv, rfl⟩ | ⟨-, -, rfl⟩ := writeReg_some h
  · exact ⟨hs.caps, hs.txt, hs.fil, hs.txtLen, hs.filLen, hs.txtAddr, hs.filAddr, hs.nodeAddr⟩
  · exact ⟨hs.caps, hs.txt, hs.fil, hv, hs.filLen, hs.txtAddr, hs.filAddr, hs.nodeAddr⟩
  · exact ⟨hs.caps, hs.txt, hs.fil, hs.txtLen, hs.filLen, hv, hs.filAddr, hs.nodeAddr⟩
  · exact ⟨hs.caps, writeTxt_wf _ hs.txt ha, hs.fil, hs.txtLen, hs.filLen, hs.txtAddr, hs.filAddr, hs.nodeAddr⟩
  · exact ⟨hs.caps, hs.txt, hs.fil, hs.txtLen, hv, hs.txtAddr, hs.filAddr, hs.nodeAddr⟩
  · exact ⟨hs.caps, hs.txt, hs.fil, hs.txtLen, hs.filLen, hs.txtAddr, .inl hv, hs.nodeAddr⟩
  · exact ⟨hs.caps, hs.txt, writeFil_wf _ hs.fil ha, hs.txtLen, hs.filLen, hs.txtAddr, hs.filAddr, hs.nodeAddr⟩
  · have small : v.toNat < 2 ^ 17 := by rw [Config.nodeMax] at hv; omega
    refine ⟨hs.caps, hs.txt, hs.fil, hs.txtLen, hs.filLen, hs.txtAddr, hs.filAddr, ?_⟩
    exact (truncate_toNat_of_lt small).trans_lt hv
  · exact ⟨hs.caps, hs.txt, hs.fil, hs.txtLen, hs.filLen, hs.txtAddr, hs.filAddr, hs.nodeAddr⟩

/-- With no cell written and every address 0 only the capacities matter. -/
theorem resetCore_memoryInv {s : State} (legal : s.caps.Legal) : MemoryInv s.resetCore where
  caps := legal
  txt := memory_wf_nil _
  fil := memory_wf_nil _
  txtLen := Nat.zero_le _
  filLen := Nat.zero_le _
  txtAddr := legal.1
  filAddr := (Nat.eq_zero_or_pos s.caps.filCap).symm.imp id fun h => ⟨h, rfl⟩
  nodeAddr := Nat.zero_lt_succ _

theorem step_memoryInv {s t : State} (hs : MemoryInv s) (h : step s = .next t) : MemoryInv t :=
  step_ensures (fun _ => id)
    (fun _ _ _ hu => ⟨hu.caps, hu.txt, hu.fil, hu.txtLen, hu.filLen, hu.txtAddr, hu.filAddr, hu.nodeAddr⟩)
    (fun _ _ _ => exec_memoryInv) (fun _ _ _ _ => writeReg_memoryInv) (fun _ hu => resetCore_memoryInv hu.caps)
    (fun _ _ hu => ⟨hu.caps, hu.txt, hu.fil, hu.txtLen, hu.filLen, hu.txtAddr, hu.filAddr, hu.nodeAddr⟩) hs h

/-! ### The tables -/

/-- What TableInv looks at. -/
abbrev State.tables (s : State) : Cells Word × Cells CodeEntry × BitVec 17 := (s.freq, s.ctab, s.ncodes)

theorem TableInv.congr {s t : State} (hs : TableInv s) (h : t.tables = s.tables) : TableInv t := by
  obtain ⟨freq, ctab, ncodes⟩ : t.freq = s.freq ∧ t.ctab = s.ctab ∧ t.ncodes = s.ncodes := by simpa using h
  exact ⟨freq ▸ hs.freq, ctab ▸ hs.ctab, ctab ▸ hs.codes, by rw [ncodes, ctab]; exact hs.count⟩

/-- Tables that list no cell are canonical. -/
theorem tableInv_of_empty {s : State} (h : s.tables = ([], [], 0)) : TableInv s :=
  TableInv.congr (s := State.reset) ⟨table_wf_nil _ _, table_wf_nil _ _, by simp [State.reset], rfl⟩ h

theorem TableInv.withCounts {s : State} (hs : TableInv s) : TableInv { s with freq := s.counts } :=
  ⟨foldl_countUnit_wf s.text (table_wf_nil _ _), hs.ctab, hs.codes, hs.count⟩

theorem tbCountBody_tableInv {s : State} (hs : TableInv s) : Ensures (tbCountBody s) TableInv where
  ok h := by obtain ⟨-, rfl⟩ := tbCountBody_ok h; exact hs.withCounts
  raised h := (tbCountBody_raised h).elim

theorem tbBuildBody_tableInv {s : State} (hs : TableInv s) : Ensures (tbBuildBody s) TableInv :=
  tbBuildBody_ensures (fun _ => tbCountBody_tableInv)
    (fun u hu => (tbLeavesBody_frame u).mono fun _ hv => hu.congr (congrArg State.tables hv :))
    (fun u hu => (tbMergeBody_frame u).mono fun _ hv => hu.congr (congrArg State.tables hv :))
    (fun u hu => (tbRootBody_frame u).mono fun _ hv => hu.congr (congrArg State.tables hv :)) hs

/-- A walk of CT.GEN that ends has found a tree. -/
theorem visit_ok_holds {nodes : List Node} {fuel n : Nat} {code : BitVec 16} {len : Nat} {t t' : Codes}
    (h : visit nodes fuel n code len t = .ok t') : ∃ u, HoldsTree nodes n u := by
  induction fuel generalizing n code len t t' with
  | zero => simp [visit] at h
  | succ k ih =>
    cases hx : nodes[n]? with
    | none => simp [visit, hx] at h
    | some x =>
      simp only [visit, hx] at h
      by_cases leaf : x.leaf = true
      · exact ⟨.leaf x.ch, x, hx, leaf, rfl⟩
      rw [if_neg leaf] at h
      split at h
      case h_2 => cases h
      case h_1 l r hl hr =>
        split at h
        · cases h
        · rename_i t₁ left
          obtain ⟨u, hu⟩ := ih left
          obtain ⟨v, hv⟩ := ih h
          exact ⟨.node u v, x, l, r, hx, by simpa using leaf, hl, hr, hu, hv⟩

theorem genWalk_ok_holds {s : State} {r : Nat} {x : Node} {c : Codes} (hx : s.nodes[r]? = some x)
    (h : genWalk s r x = .ok c) : ∃ u, HoldsTree s.nodes r u := by
  unfold genWalk at h
  split at h
  · exact ⟨.leaf x.ch, x, hx, ‹_›, rfl⟩
  · exact visit_ok_holds h

/-- The table that CT.GEN completes is that of a tree, so it is canonical whatever the arena was. -/
theorem ctGenBody_tableInv {s : State} (hs : TableInv s) : Ensures (ctGenBody s) TableInv where
  ok {t} h := by
    obtain ⟨r, x, c, hr, hx, walk, -⟩ := ctGenBody_ok h
    obtain ⟨u, hu⟩ := genWalk_ok_holds hx walk
    obtain ⟨ch, overflow⟩ | ⟨c', table, gen⟩ := ctGenBody_ends hr hu
    · exact (raiseAt_ne_ok _ _ _ _ _ (overflow.symm.trans h)).elim
    · obtain rfl : s.withCodes c' = t := Except.ok.inj (gen.symm.trans h)
      obtain ⟨ctab, codes, count⟩ := table.codes.inv
      exact ⟨hs.freq, ctab, codes, count⟩
  raised h := by
    obtain ⟨-, rfl, -⟩ | ⟨r, x, c, -, -, -, rfl, -⟩ := ctGenBody_raised h
    · exact hs
    · exact ⟨hs.freq, table_wf_nil _ _, by simp, rfl⟩

theorem encodeBody_tableInv (s : State) : Ensures (encodeBody s) TableInv :=
  encodeBody_ensures (fun _ hu => hu.congr rfl) (fun _ => tbBuildBody_tableInv) (fun _ => ctGenBody_tableInv)
    (fun u hu => (enTreeBody_frame u).mono fun _ hv => hu.congr (congrArg State.tables hv :))
    (fun u hu => (enTextBody_frame u).mono fun _ hv => hu.congr (congrArg State.tables hv :)) (fun _ => id)
    (fun u hu => (enEmitBody_frame u).mono fun _ hv => hu.congr (congrArg State.tables hv :)) (tableInv_of_empty rfl)

/-- What a body ensures of the tables holds of the next state of its command. -/
theorem Ensures.tableInv {i : Instr} {s t : State} (hb : Ensures (bodyOf i s) TableInv) (h : exec i s = .next t) :
    TableInv t := by
  obtain ⟨u, hu, ht⟩ := hb.next h
  exact ht ▸ hu.congr rfl

theorem exec_tableInv {i : Instr} {s t : State} (hs : TableInv s) (h : exec i s = .next t) : TableInv t := by
  have frame := exec_frame h
  cases i with
  | tbCount => exact (tbCountBody_tableInv hs).tableInv (i := .tbCount) h
  | tbBuild => exact (tbBuildBody_tableInv hs).tableInv (i := .tbBuild) h
  | ctGen => exact (ctGenBody_tableInv hs).tableInv (i := .ctGen) h
  | encode => exact (encodeBody_tableInv s).tableInv (i := .encode) h
  | decode | clr => exact tableInv_of_empty (congrArg State.tables frame :)
  | _ => exact hs.congr (congrArg State.tables frame :)

theorem step_tableInv {s t : State} (hs : TableInv s) (h : step s = .next t) : TableInv t :=
  step_ensures (fun _ => id) (fun _ _ _ hu => hu.congr rfl) (fun _ _ _ => exec_tableInv)
    (fun _ _ _ _ hu hw => hu.congr (congrArg State.tables (writeReg_frame hw) :)) (fun _ _ => tableInv_of_empty rfl)
    (fun _ _ hu => hu.congr rfl) hs h

/-! ### The header -/

/-- What HeaderInv looks at. -/
abbrev State.headerSide (s : State) : Bool × Bool × Header × Nat :=
  (s.flags.hdrv, s.flags.fempty, s.hdr, s.caps.filCap)

theorem HeaderInv.congr {s t : State} (hs : HeaderInv s) (h : t.headerSide = s.headerSide) : HeaderInv t := by
  obtain ⟨hdrv, fempty, hdr, cap⟩ :
      t.flags.hdrv = s.flags.hdrv ∧ t.flags.fempty = s.flags.fempty ∧ t.hdr = s.hdr ∧ t.caps.filCap = s.caps.filCap := by
    simpa using h
  constructor <;> simp only [hdrv, fempty, hdr, cap]
  exacts [hs.zero, hs.emptyFile, hs.version, hs.tlen, hs.tbits, hs.xbits, hs.tend, hs.xstart, hs.xend]

/-- With HDRV = 0 the header registers are 0, and nothing more is asked. -/
theorem headerInv_of_zero {s : State} (hdrv : s.flags.hdrv = false) (hdr : s.hdr = Header.zero) : HeaderInv s := by
  constructor <;> simp [hdrv, hdr, Header.zero]

/-- A header that passed every check meets the invariant (`spec/44_decoder.md` R241, R246). -/
theorem headerInv_of_checkHeader {s : State} {hd : Header} (legal : s.caps.Legal) (hcap : s.filLen.toNat ≤ s.caps.filCap)
    (h : checkHeader s = .ok hd) : HeaderInv (s.setHeader true false hd) := by
  obtain ⟨-, version, tree, tree', treeBits, treeBits', textBits, textBits', fits, rfl⟩ := checkHeader_ok h
  obtain ⟨-, -, small⟩ := legal
  have tlen : (BitVec.ofNat 18 s.fileTreeLength).toNat = s.fileTreeLength := Nat.mod_eq_of_lt (by omega)
  have tbits : (BitVec.ofNat 4 s.fileTreeBits).toNat = s.fileTreeBits := Nat.mod_eq_of_lt (by omega)
  have xbits : (BitVec.ofNat 4 s.fileTextBits).toNat = s.fileTextBits := Nat.mod_eq_of_lt (by omega)
  rw [version]
  refine ⟨nofun, nofun, rfl, fun _ => ?_, fun _ => ?_, fun _ => ?_, fun _ => ?_, fun _ => ?_, fun _ => ?_⟩ <;>
    simp only [State.setHeader, headerOf, tlen, tbits, xbits]
  · exact ⟨tree, tree'⟩
  · exact ⟨treeBits, treeBits'⟩
  · exact ⟨textBits, textBits'⟩
  · exact toNat_wordOfNat (by omega)
  · exact toNat_wordOfNat (by omega)
  · rw [toNat_wordOfNat (by omega), toNat_wordOfNat (by omega), setHdrFlags_caps]
    omega

theorem deHdrBody_headerInv {s : State} (legal : s.caps.Legal) : Ensures (deHdrBody s) HeaderInv where
  ok h := by
    obtain ⟨-, rfl⟩ | ⟨-, hcap, hd, checks, rfl⟩ := deHdrBody_ok h
    · exact headerInv_of_zero rfl rfl
    · exact headerInv_of_checkHeader legal hcap checks
  raised h := by obtain ⟨-, -, rfl⟩ := deHdrBody_raised h; exact headerInv_of_zero rfl rfl

theorem decodeBody_headerInv {s : State} (legal : s.caps.Legal) : Ensures (decodeBody s) HeaderInv :=
  decodeBody_ensures (P := fun u => u.caps = s.caps ∧ HeaderInv u)
    (fun u hu => ⟨fun h => ⟨(congrArg State.caps ((deHdrBody_frame u).ok h)).trans hu.1,
        (deHdrBody_headerInv (hu.1 ▸ legal)).ok h⟩,
      fun h => ⟨(congrArg State.caps ((deHdrBody_frame u).raised h)).trans hu.1,
        (deHdrBody_headerInv (hu.1 ▸ legal)).raised h⟩⟩)
    (fun u hu => (deTreeBody_frame u).mono fun _ hv =>
      ⟨(congrArg State.caps hv).trans hu.1, hu.2.congr (congrArg State.headerSide hv :)⟩)
    (fun _ hu => hu.2) (fun u hu => (deTextBody_frame u).mono fun _ hv => hu.2.congr (congrArg State.headerSide hv :))
    ⟨rfl, headerInv_of_zero rfl rfl⟩

/-- What a body ensures of the header holds of the next state of its command. -/
theorem Ensures.headerInv {i : Instr} {s t : State} (hb : Ensures (bodyOf i s) HeaderInv) (h : exec i s = .next t) :
    HeaderInv t := by
  obtain ⟨u, hu, ht⟩ := hb.next h
  exact ht ▸ hu.congr rfl

theorem exec_headerInv {i : Instr} {s t : State} (legal : s.caps.Legal) (hs : HeaderInv s) (h : exec i s = .next t) :
    HeaderInv t := by
  have frame := exec_frame h
  cases i with
  | deHdr => exact (deHdrBody_headerInv legal).headerInv (i := .deHdr) h
  | decode => exact (decodeBody_headerInv legal).headerInv (i := .decode) h
  | encode | clr =>
    exact headerInv_of_zero (congrArg (fun u : State => u.flags.hdrv) frame :) (congrArg State.hdr frame :)
  | _ => exact hs.congr (congrArg State.headerSide frame :)

theorem step_headerInv {s t : State} (legal : s.caps.Legal) (hs : HeaderInv s) (h : step s = .next t) : HeaderInv t :=
  step_ensures (P := fun u => u.caps.Legal ∧ HeaderInv u) (fun _ hu => hu.2) (fun _ _ _ hu => hu.congr rfl)
    (fun _ _ _ hu => exec_headerInv hu.1 hu.2)
    (fun _ _ _ _ hu hw => hu.2.congr (congrArg State.headerSide (writeReg_frame hw) :))
    (fun _ _ => headerInv_of_zero rfl rfl) (fun _ _ hu => ⟨hu.1, hu.2.congr rfl⟩) ⟨legal, hs⟩ h

/-! ### The statements -/

/-- Settles O50: commands write runs of cells below the capacities, the host stores values in range. -/
theorem memoryInvariantKept : Obligations.MemoryInvariantKept := fun _ _ => step_memoryInv

/-- Settles O51: counting and the table of a tree are canonical, every other command keeps or clears the tables. -/
theorem tableInvariantKept : Obligations.TableInvariantKept := fun _ _ => step_tableInv

/-- Settles O53: DE.HDR stores a header that passed every check or none, every other command keeps or clears it. -/
theorem headerInvariantKept : Obligations.HeaderInvariantKept := fun _ _ => step_headerInv

end Sys2Proof.Machine
end

section
/-!
The node invariants (`spec/10_state.md` R45) in the form in which the operations over the arena keep them: the trees of an
arena by the list of all its children, the priority list by the sequence it holds.
-/

namespace Sys2Proof.Machine

/-! ### The children of an arena -/

/-- The children that a node names, left before right. -/
def kids (x : Node) : List Nat := x.left.toList ++ x.right.toList

theorem mem_kids {x : Node} {n : Nat} : n ∈ kids x ↔ x.left = some n ∨ x.right = some n := by
  simp [kids, Option.mem_toList]

/-- All children that the nodes of an arena name, node by node. -/
def childrenOf (nodes : List Node) : List Nat := (nodes.map kids).flatten

theorem mem_childrenOf {nodes : List Node} {n : Nat} :
    n ∈ childrenOf nodes ↔ ∃ (m : Nat) (y : Node), nodes[m]? = some y ∧ (y.left = some n ∨ y.right = some n) := by
  simp only [childrenOf, List.mem_flatten, List.mem_map, ← mem_kids]
  constructor
  · rintro ⟨_, ⟨y, hy, rfl⟩, hn⟩
    obtain ⟨m, hm⟩ := List.getElem?_of_mem hy
    exact ⟨m, y, hm, hn⟩
  · rintro ⟨m, y, hm, hn⟩
    exact ⟨_, ⟨y, List.mem_of_getElem? hm, rfl⟩, hn⟩

/-- No child is named twice exactly when no node names one twice and no two nodes name the same. -/
theorem childrenOf_nodup {nodes : List Node} :
    (childrenOf nodes).Nodup ↔ (∀ x ∈ nodes, (kids x).Nodup) ∧
      ∀ (n m m' : Nat) (y y' : Node), nodes[m]? = some y → nodes[m']? = some y' → n ∈ kids y → n ∈ kids y' → m = m' := by
  rw [childrenOf, List.nodup_flatten, List.pairwise_map, List.pairwise_iff_getElem]
  simp only [List.mem_map, forall_exists_index, and_imp, forall_apply_eq_imp_iff₂]
  refine and_congr_right fun _ => ⟨fun apart n m m' y y' hm hm' hn hn' => ?_, fun same i j hi hj hij n hn hn' => ?_⟩
  · obtain ⟨hi, rfl⟩ := List.getElem?_eq_some_iff.mp hm
    obtain ⟨hj, rfl⟩ := List.getElem?_eq_some_iff.mp hm'
    by_contra different
    obtain lt | lt := Nat.lt_or_gt_of_ne different
    · exact apart m m' hi hj lt hn hn'
    · exact apart m' m hj hi lt hn' hn
  · exact hij.ne (same n i j _ _ (List.getElem?_eq_getElem hi) (List.getElem?_eq_getElem hj) hn hn')

/-! ### The trees of an arena -/

/-- A leaf has no child, an internal node two children and no character (`spec/10_state.md` R44, R45 (a)). -/
def Node.WellShaped (x : Node) : Prop :=
  (x.leaf = true → x.left = none ∧ x.right = none) ∧
  (x.leaf = false → x.ch = 0 ∧ ∃ a b, x.left = some a ∧ x.right = some b)

/-- The node invariants that speak of the trees (`spec/10_state.md` R44, R45 (a), (b)). -/
structure TreesOk (nodes : List Node) : Prop where
  fits : nodes.length ≤ Config.nodeMax
  shaped : ∀ x ∈ nodes, x.WellShaped
  inside : ∀ n ∈ childrenOf nodes, n < nodes.length
  once : (childrenOf nodes).Nodup
  child : ∀ (n : Nat) (x : Node), nodes[n]? = some x → (x.child = true ↔ n ∈ childrenOf nodes)
  holds : ∀ n, n < nodes.length → ∃ t, HoldsTree nodes n t

/-- The node invariants that speak of the priority list, which is the sequence `xs` (`spec/10_state.md` R45 (c) to (e)). -/
structure Listed (a : Arena) (xs : List Nat) : Prop where
  chain : Chain a.nodes a.head xs
  distinct : xs.Nodup
  marked : ∀ (n : Nat) (x : Node), a.nodes[n]? = some x → (x.inl = true ↔ n ∈ xs)
  sorted : xs.Pairwise (fun m n => wtAt a.nodes m ≤ wtAt a.nodes n)
  orphan : ∀ (n : Nat) (x : Node), a.nodes[n]? = some x → n ∈ xs → x.child = false
  unlinked : ∀ (n : Nat) (x : Node), a.nodes[n]? = some x → n ∉ xs → x.next = none

theorem ArenaInv.treesOk {s : State} (hs : ArenaInv s) : TreesOk s.nodes where
  fits := hs.fits
  shaped x hx := by
    obtain ⟨n, hn⟩ := List.getElem?_of_mem hx
    obtain ⟨leaf, internal⟩ := hs.twoOrNone n x hn
    refine ⟨leaf, fun hl => ⟨hs.fields n x hn hl, ?_⟩⟩
    obtain ⟨a, b, ha, hb, -⟩ := internal hl
    exact ⟨a, b, ha, hb⟩
  inside n hn := by
    obtain ⟨m, y, hy, hk⟩ := mem_childrenOf.mp hn
    obtain ⟨leaf, internal⟩ := hs.twoOrNone m y hy
    cases hl : y.leaf with
    | true => obtain ⟨left, right⟩ := leaf hl; simp [left, right] at hk
    | false =>
      obtain ⟨a, b, left, right, -, ha, hb⟩ := internal hl
      rw [left, right, Option.some.injEq, Option.some.injEq] at hk
      obtain rfl | rfl := hk
      · exact ha
      · exact hb
  once := by
    refine childrenOf_nodup.mpr ⟨fun x hx => ?_, fun n m m' y y' hm hm' hn hn' =>
      hs.oneParent n m m' y y' hm hm' (mem_kids.mp hn) (mem_kids.mp hn')⟩
    obtain ⟨n, hn⟩ := List.getElem?_of_mem hx
    obtain ⟨leaf, internal⟩ := hs.twoOrNone n x hn
    cases hl : x.leaf with
    | true => obtain ⟨left, right⟩ := leaf hl; simp [kids, left, right]
    | false => obtain ⟨a, b, left, right, different, -⟩ := internal hl; simp [kids, left, right, different]
  child n x hx := (hs.childIff n x hx).trans mem_childrenOf.symm
  holds := hs.forest

theorem ArenaInv.listed {s : State} (hs : ArenaInv s) : ∃ xs, Listed s.arena xs := by
  obtain ⟨xs, list, complete, sorted⟩ := hs.list
  have marked : ∀ (n : Nat) (x : Node), s.nodes[n]? = some x → (x.inl = true ↔ n ∈ xs) := fun n x hx =>
    ⟨complete n x hx, fun hn => by
      obtain ⟨y, hy, inl⟩ := list.marked n hn
      obtain rfl : x = y := Option.some.inj (hx.symm.trans hy)
      exact inl⟩
  refine ⟨xs, list.chain, list.distinct, marked, sorted, fun n x hx hn => ?_, fun n x hx hn => ?_⟩
  · by_contra child
    have unlisted := hs.childUnlisted n x hx (by simpa using child)
    simp [(marked n x hx).mpr hn] at unlisted
  · exact hs.unlinked n x hx (by simpa using mt (marked n x hx).mp hn)

theorem arenaInv_of {s : State} {xs : List Nat} (trees : TreesOk s.nodes) (list : Listed s.arena xs)
    (rootIn : ∀ r, s.root = some r → r < s.nodes.length) : ArenaInv s where
  fits := trees.fits
  fields n x hx hl := ((trees.shaped x (List.mem_of_getElem? hx)).2 hl).1
  twoOrNone n x hx := by
    have hm := List.mem_of_getElem? hx
    obtain ⟨leaf, internal⟩ := trees.shaped x hm
    refine ⟨leaf, fun hl => ?_⟩
    obtain ⟨-, a, b, left, right⟩ := internal hl
    have different : a ≠ b := by simpa [kids, left, right] using (childrenOf_nodup.mp trees.once).1 x hm
    exact ⟨a, b, left, right, different, trees.inside a (mem_childrenOf.mpr ⟨n, x, hx, .inl left⟩),
      trees.inside b (mem_childrenOf.mpr ⟨n, x, hx, .inr right⟩)⟩
  oneParent n m m' y y' hm hm' hn hn' :=
    (childrenOf_nodup.mp trees.once).2 n m m' y y' hm hm' (mem_kids.mpr hn) (mem_kids.mpr hn')
  childIff n x hx := (trees.child n x hx).trans mem_childrenOf
  forest := trees.holds
  list := ⟨xs, ⟨list.chain, list.distinct, fun n hn => ⟨_, List.getElem?_eq_getElem (list.chain.lt hn),
    (list.marked n _ (List.getElem?_eq_getElem (list.chain.lt hn))).mpr hn⟩⟩,
    fun n x hx => (list.marked n x hx).mp, list.sorted⟩
  childUnlisted n x hx hc := by
    have unlisted : n ∉ xs := fun hn => by simp [list.orphan n x hx hn] at hc
    simpa using mt (list.marked n x hx).mp unlisted
  unlinked n x hx hi := list.unlinked n x hx fun hn => by simp [(list.marked n x hx).mpr hn] at hi
  rootIn := rootIn

/-- What ArenaInv looks at. -/
abbrev State.arenaSide (s : State) : List Node × Option Nat × Option Nat := (s.nodes, s.listHead, s.root)

theorem ArenaInv.congr {s t : State} (hs : ArenaInv s) (h : t.arenaSide = s.arenaSide) : ArenaInv t := by
  obtain ⟨nodes, head, root⟩ : t.nodes = s.nodes ∧ t.listHead = s.listHead ∧ t.root = s.root := by simpa using h
  obtain ⟨xs, list⟩ := hs.listed
  have arena : t.arena = s.arena := by rw [State.arena, State.arena, nodes, head]
  exact arenaInv_of (nodes ▸ hs.treesOk) (arena ▸ list) (by rw [nodes, root]; exact hs.rootIn)

/-! ### The empty arena -/

theorem treesOk_nil : TreesOk [] := by constructor <;> simp [childrenOf]

theorem listed_nil : Listed { nodes := [], head := none } [] := by constructor <;> simp

theorem arenaInv_of_empty {s : State} (h : s.arenaSide = ([], none, none)) : ArenaInv s :=
  (arenaInv_of (s := State.reset) treesOk_nil listed_nil nofun).congr h

/-! ### Arenas of the same trees -/

/-- The node without its place in the list. -/
def Node.unlisted (x : Node) : Node := { x with next := none, inl := false }

/-- The arenas differ in NEXT and INL only. -/
def SameTrees (nodes nodes' : List Node) : Prop := nodes'.map Node.unlisted = nodes.map Node.unlisted

section
variable {nodes nodes' : List Node}

theorem sameTrees_of (length : nodes'.length = nodes.length) (old : ∀ (m : Nat) (y : Node), nodes[m]? = some y →
    ∃ z, nodes'[m]? = some z ∧ z.unlisted = y.unlisted) : SameTrees nodes nodes' := by
  refine List.ext_getElem? fun m => ?_
  rw [List.getElem?_map, List.getElem?_map]
  cases hm : nodes[m]? with
  | none => rw [List.getElem?_eq_none (by rw [length]; exact List.getElem?_eq_none_iff.mp hm)]
  | some y => obtain ⟨z, hz, he⟩ := old m y hm; rw [hz]; exact congrArg some he

section
variable (h : SameTrees nodes nodes')
include h

theorem SameTrees.length : nodes'.length = nodes.length := by
  simpa using congrArg List.length h

theorem SameTrees.new {m : Nat} {z : Node} (hz : nodes'[m]? = some z) :
    ∃ y, nodes[m]? = some y ∧ z.unlisted = y.unlisted := by
  have at_m := congrArg (fun l => l[m]?) h
  simp only [List.getElem?_map, hz, Option.map_some] at at_m
  obtain ⟨y, hy, he⟩ := Option.map_eq_some_iff.mp at_m.symm
  exact ⟨y, hy, he.symm⟩

theorem SameTrees.symm : SameTrees nodes' nodes := Eq.symm h

theorem SameTrees.childrenOf : childrenOf nodes' = childrenOf nodes := by
  have ignored : kids ∘ Node.unlisted = kids := rfl
  have eq := congrArg (List.map kids) h
  rw [List.map_map, List.map_map, ignored] at eq
  exact congrArg List.flatten eq

theorem SameTrees.wtAt (m : Nat) : wtAt nodes' m = wtAt nodes m := by
  have ignored : Node.wt ∘ Node.unlisted = Node.wt := rfl
  have eq := congrArg (fun l => (l.map Node.wt)[m]?) h
  simp only [List.map_map, ignored, List.getElem?_map] at eq
  exact congrArg (Option.getD · 0) eq

theorem SameTrees.holdsTree {n : Nat} {u : HTree} (hu : HoldsTree nodes n u) : HoldsTree nodes' n u := by
  refine hu.congr fun m y hy => ?_
  obtain ⟨z, hz, he⟩ := h.symm.new hy
  exact ⟨z, hz, (congrArg Node.leaf he).symm, (congrArg Node.ch he).symm, (congrArg Node.left he).symm,
    (congrArg Node.right he).symm⟩

/-- The trees of an arena do not depend on the list. -/
theorem SameTrees.treesOk (ht : TreesOk nodes) : TreesOk nodes' where
  fits := h.length ▸ ht.fits
  shaped z hz := by
    obtain ⟨m, hm⟩ := List.getElem?_of_mem hz
    obtain ⟨y, hy, he⟩ := h.new hm
    have same : z.WellShaped = y.WellShaped := (congrArg Node.WellShaped he :)
    rw [same]
    exact ht.shaped y (List.mem_of_getElem? hy)
  inside := by rw [h.childrenOf, h.length]; exact ht.inside
  once := by rw [h.childrenOf]; exact ht.once
  child m z hm := by
    obtain ⟨y, hy, he⟩ := h.new hm
    rw [h.childrenOf, ← ht.child m y hy, show z.child = y.child from (congrArg Node.child he :)]
  holds n hn := by
    obtain ⟨u, hu⟩ := ht.holds n (h.length ▸ hn)
    exact ⟨u, h.holdsTree hu⟩

end

end

end Sys2Proof.Machine
end

section
/-!
What Insert, RemoveMin, AllocLeaf and the changes of TB.MERGE do to the trees and to the list of an arena
(`spec/40_priority_list.md` R141, R143, `spec/41_tree_builder.md` R160, R166).
-/

namespace Sys2Proof.Machine

/-! ### A new node over roots -/

/-- A new node is allocated over nodes that are no children; these become children, and nothing else of a tree changes. -/
structure GrownBy (nodes nodes' : List Node) (x : Node) : Prop where
  length : nodes'.length = nodes.length + 1
  new : nodes'[nodes.length]? = some x
  old : ∀ (m : Nat) (y : Node), nodes[m]? = some y →
    ∃ z, nodes'[m]? = some z ∧ z.unlisted = { y.unlisted with child := y.child || decide (m ∈ kids x) }

section
variable {nodes nodes' : List Node} {x : Node} (h : GrownBy nodes nodes' x)
include h

/-- A node of the grown arena is the new one or an old one. -/
theorem GrownBy.cases {m : Nat} {z : Node} (hz : nodes'[m]? = some z) :
    (m = nodes.length ∧ z = x) ∨
      ∃ y, nodes[m]? = some y ∧ z.unlisted = { y.unlisted with child := y.child || decide (m ∈ kids x) } := by
  obtain lt | rfl | gt := Nat.lt_trichotomy m nodes.length
  · obtain ⟨z', hz', eq⟩ := h.old m _ (List.getElem?_eq_getElem lt)
    obtain rfl : z = z' := Option.some.inj (hz.symm.trans hz')
    exact .inr ⟨_, List.getElem?_eq_getElem lt, eq⟩
  · exact .inl ⟨rfl, Option.some.inj (hz.symm.trans h.new)⟩
  · have inside := (List.getElem?_eq_some_iff.mp hz).1
    rw [h.length] at inside
    omega

theorem GrownBy.childrenOf : childrenOf nodes' = childrenOf nodes ++ kids x := by
  have perNode : nodes'.map kids = nodes.map kids ++ [kids x] := by
    refine List.ext_getElem (by simp [h.length]) fun m hm _ => ?_
    rw [List.length_map] at hm
    obtain ⟨rfl, last⟩ | ⟨y, hy, eq⟩ := h.cases (List.getElem?_eq_getElem hm)
    · simp [last]
    · obtain ⟨lt, rfl⟩ := List.getElem?_eq_some_iff.mp hy
      rw [List.getElem_append_left (by simpa using lt), List.getElem_map, List.getElem_map]
      exact (congrArg kids eq :)
  rw [Machine.childrenOf, perNode, List.flatten_append, List.flatten_singleton]
  rfl

theorem GrownBy.holdsTree {n : Nat} {u : HTree} (hu : HoldsTree nodes n u) : HoldsTree nodes' n u := by
  refine hu.congr fun m y hy => ?_
  obtain ⟨z, hz, eq⟩ := h.old m y hy
  exact ⟨z, hz, (congrArg Node.leaf eq :), (congrArg Node.ch eq :), (congrArg Node.left eq :), (congrArg Node.right eq :)⟩

theorem GrownBy.wtAt {m : Nat} (hm : m < nodes.length) : wtAt nodes' m = wtAt nodes m := by
  have at_m := List.getElem?_eq_getElem hm
  obtain ⟨z, hz, eq⟩ := h.old m _ at_m
  rw [wtAt_of hz, wtAt_of at_m]
  exact (congrArg Node.wt eq :)

/-- Allocation over roots keeps the invariants of the trees. -/
theorem GrownBy.treesOk (trees : TreesOk nodes) (room : nodes.length < Config.nodeMax) (shape : x.WellShaped)
    (root : x.child = false) (inside : ∀ n ∈ kids x, n < nodes.length) (once : (kids x).Nodup)
    (fresh : ∀ n ∈ kids x, n ∉ Machine.childrenOf nodes) : TreesOk nodes' where
  fits := h.length ▸ room
  shaped z hz := by
    obtain ⟨m, hm⟩ := List.getElem?_of_mem hz
    obtain ⟨-, rfl⟩ | ⟨y, hy, eq⟩ := h.cases hm
    · exact shape
    · have same : z.WellShaped = y.WellShaped := (congrArg Node.WellShaped eq :)
      exact same ▸ trees.shaped y (List.mem_of_getElem? hy)
  inside n hn := by
    rw [h.length]
    obtain old | new := List.mem_append.mp (h.childrenOf ▸ hn)
    · exact Nat.lt_succ_of_lt (trees.inside n old)
    · exact Nat.lt_succ_of_lt (inside n new)
  once := by
    rw [h.childrenOf]
    exact List.nodup_append'.mpr ⟨trees.once, once, fun n hn hk => fresh n hk hn⟩
  child m z hz := by
    rw [h.childrenOf, List.mem_append]
    obtain ⟨rfl, rfl⟩ | ⟨y, hy, eq⟩ := h.cases hz
    · have notOld : nodes.length ∉ Machine.childrenOf nodes := fun hm => Nat.lt_irrefl _ (trees.inside _ hm)
      have notNew : nodes.length ∉ kids z := fun hm => Nat.lt_irrefl _ (inside _ hm)
      simp [root, notOld, notNew]
    · have flag : z.child = (y.child || decide (m ∈ kids x)) := (congrArg Node.child eq :)
      rw [flag, Bool.or_eq_true, decide_eq_true_eq, trees.child m y hy]
  holds n hn := by
    have subtree : ∀ k, k < nodes.length → ∃ t, HoldsTree nodes' k t := fun k hk =>
      (trees.holds k hk).imp fun _ => h.holdsTree
    obtain lt | rfl := Nat.lt_succ_iff_lt_or_eq.mp (h.length ▸ hn)
    · exact subtree n lt
    · cases kind : x.leaf with
      | true => exact ⟨.leaf x.ch, x, h.new, kind, rfl⟩
      | false =>
        obtain ⟨-, a, b, left, right⟩ := shape.2 kind
        obtain ⟨l, hl⟩ := subtree a (inside a (mem_kids.mpr (.inl left)))
        obtain ⟨r, hr⟩ := subtree b (inside b (mem_kids.mpr (.inr right)))
        exact ⟨.node l r, x, a, b, h.new, kind, left, right, hl, hr⟩

end

/-! ### The list -/

theorem mem_stableInsert {wt : Nat → Word} {n m : Nat} {xs : List Nat} :
    m ∈ stableInsert wt n xs ↔ m = n ∨ m ∈ xs :=
  (stableInsert_perm wt n xs).mem_iff.trans List.mem_cons

theorem stableInsert_nodup {wt : Nat → Word} {n : Nat} {xs : List Nat} (distinct : xs.Nodup) (new : n ∉ xs) :
    (stableInsert wt n xs).Nodup :=
  (stableInsert_perm wt n xs).nodup_iff.mpr (List.nodup_cons.mpr ⟨new, distinct⟩)

/-- The order of a list depends on the weights of its own nodes. -/
theorem sorted_congr {nodes nodes' : List Node} {xs : List Nat} (same : ∀ m ∈ xs, wtAt nodes' m = wtAt nodes m)
    (h : xs.Pairwise (fun m n => wtAt nodes m ≤ wtAt nodes n)) :
    xs.Pairwise (fun m n => wtAt nodes' m ≤ wtAt nodes' n) :=
  h.imp_of_mem fun hm hn le => by rwa [same _ hm, same _ hn]

theorem getElem?_concat_cases {nodes : List Node} {x y : Node} {n : Nat} (h : (nodes ++ [x])[n]? = some y) :
    nodes[n]? = some y ∨ (n = nodes.length ∧ y = x) := by
  rw [List.getElem?_append] at h
  split at h
  · exact .inl h
  · next behind =>
    rw [List.getElem?_singleton, Option.ite_none_right_eq_some] at h
    obtain ⟨first, eq⟩ := h
    exact .inr ⟨by omega, (Option.some.inj eq).symm⟩

section
variable {a : Arena} {xs : List Nat} (h : Listed a xs)
include h

/-- `Insert` of a root that is not listed. -/
theorem Listed.insert {n : Nat} {x : Node} (hx : a.nodes[n]? = some x) (root : x.child = false) (unlisted : n ∉ xs) :
    ∃ a', insertNode a n = some a' ∧ SameTrees a.nodes a'.nodes ∧ Listed a' (stableInsert (wtAt a.nodes) n xs) := by
  obtain ⟨a', inserted, length, chain, fields, others⟩ := insertNode_spec h.chain h.distinct hx unlisted
  have trees : SameTrees a.nodes a'.nodes := sameTrees_of length fun m y hy => by
    obtain ⟨z, hz, eq⟩ := fields m y hy
    exact ⟨z, hz, (congrArg Node.unlisted eq :)⟩
  have new : ∀ (m : Nat) (z : Node), a'.nodes[m]? = some z → ∃ y, a.nodes[m]? = some y ∧
      z = { y with next := z.next, inl := if m = n then true else y.inl } := fun m z hz => by
    obtain ⟨y, hy, -⟩ := trees.new hz
    obtain ⟨z', hz', eq⟩ := fields m y hy
    obtain rfl : z = z' := Option.some.inj (hz.symm.trans hz')
    exact ⟨y, hy, eq⟩
  refine ⟨a', inserted, trees, chain, stableInsert_nodup h.distinct unlisted, fun m z hz => ?_, ?_,
    fun m z hz hm => ?_, fun m z hz hm => ?_⟩
  · obtain ⟨y, hy, eq⟩ := new m z hz
    have flag : z.inl = if m = n then true else y.inl := (congrArg Node.inl eq :)
    rw [flag, mem_stableInsert, ← h.marked m y hy]
    split <;> simp [*]
  · refine sorted_congr (fun m _ => trees.wtAt m) (stableInsert_sorted _ n h.sorted)
  · obtain ⟨y, hy, eq⟩ := new m z hz
    have flag : z.child = y.child := (congrArg Node.child eq :)
    rw [flag]
    obtain rfl | listed := mem_stableInsert.mp hm
    · rwa [Option.some.inj (hy.symm.trans hx)]
    · exact h.orphan m y hy listed
  · rw [mem_stableInsert, not_or] at hm
    obtain ⟨y, hy, -⟩ := new m z hz
    obtain rfl : z = y := Option.some.inj (hz.symm.trans (others m y hy (by simp [hm])))
    exact h.unlinked m z hy hm.2

/-- Allocation of a node that is in no list. -/
theorem Listed.append {x : Node} (unlisted : x.inl = false) (unlinked : x.next = none) :
    Listed { a with nodes := a.nodes ++ [x] } xs where
  chain := h.chain.congr fun n _ y hy =>
    ⟨y, (List.getElem?_append_left (List.getElem?_eq_some_iff.mp hy).1).trans hy, rfl⟩
  distinct := h.distinct
  marked n y hy := by
    obtain old | ⟨rfl, rfl⟩ := getElem?_concat_cases hy
    · exact h.marked n y old
    · have notIn : a.nodes.length ∉ xs := fun hn => Nat.lt_irrefl _ (h.chain.lt hn)
      simp [unlisted, notIn]
  sorted := sorted_congr (fun m hm => by rw [wtAt, List.getElem?_append_left (h.chain.lt hm)]; rfl) h.sorted
  orphan n y hy hn := h.orphan n y ((List.getElem?_append_left (h.chain.lt hn)).symm.trans hy) hn
  unlinked n y hy hn := by
    obtain old | ⟨rfl, rfl⟩ := getElem?_concat_cases hy
    · exact h.unlinked n y old hn
    · exact unlinked

end

/-- `RemoveMin` of a list that is not empty. -/
theorem Listed.removeMin {a : Arena} {n : Nat} {xs : List Nat} (h : Listed a (n :: xs)) :
    ∃ r, removeMin a = some (some r) ∧ r.index = n ∧ SameTrees a.nodes r.arena.nodes ∧ Listed r.arena xs := by
  obtain ⟨x, nodes', hx, removed, -, length, chain, taken, others⟩ := removeMin_cons h.chain h.distinct
  have notIn := h.distinct.notMem
  refine ⟨_, removed, rfl, ?_, chain, h.distinct.of_cons, fun m z hz => ?_, ?_, fun m z hz hm => ?_, fun m z hz hm => ?_⟩
  · refine sameTrees_of length fun m y hy => ?_
    by_cases head : m = n
    · subst head
      obtain rfl : y = x := Option.some.inj (hy.symm.trans hx)
      exact ⟨_, taken, rfl⟩
    · exact ⟨y, (others m head).trans hy, rfl⟩
  · by_cases head : m = n
    · subst head
      rw [← Option.some.inj (taken.symm.trans hz)]
      simp [notIn]
    · simpa [head] using h.marked m z ((others m head).symm.trans hz)
  · refine sorted_congr (fun m hm => ?_) h.sorted.of_cons
    have notHead : m ≠ n := fun eq => notIn (eq ▸ hm)
    rw [wtAt, others m notHead]; rfl
  · have notHead : m ≠ n := fun eq => notIn (eq ▸ hm)
    exact h.orphan m z ((others m notHead).symm.trans hz) (List.mem_cons_of_mem n hm)
  · by_cases head : m = n
    · subst head
      rw [← Option.some.inj (taken.symm.trans hz)]
    · exact h.unlinked m z ((others m head).symm.trans hz) (by simp [head, hm])

/-- The changes of TB.MERGE on a list of two nodes or more. -/
theorem Listed.merge {s : Arena} {a b : Nat} {ys : List Nat} (h : Listed s (a :: b :: ys)) :
    ∃ n w s' x, mergeArena s = some (n, w, s') ∧ x.WellShaped ∧ x.child = false ∧ kids x = [a, b] ∧
      GrownBy s.nodes s'.nodes x ∧ Listed s' (stableInsert (wtAt s'.nodes) s.nodes.length ys) := by
  obtain ⟨s', x, merged, length, chain, hx, shape, fields⟩ := mergeArena_spec h.chain h.distinct
  have children : kids x = [a, b] := by rw [shape]; rfl
  have grown : GrownBy s.nodes s'.nodes x := ⟨length, hx, fun m y hy => by
    obtain ⟨z, hz, merged, kept, -⟩ := fields m y hy
    refine ⟨z, hz, ?_⟩
    by_cases child : m = a ∨ m = b
    · rw [merged child]
      simp [children, child, Node.unlisted]
    · have others := kept (fun eq => child (.inl eq)) (fun eq => child (.inr eq))
      have same : z.unlisted = y.unlisted := (congrArg Node.unlisted others :)
      rw [same]
      simp [children, child, Node.unlisted]⟩
  have firstNot : a ∉ ys := fun hm => h.distinct.notMem (List.mem_cons_of_mem b hm)
  have secondNot : b ∉ ys := h.distinct.of_cons.notMem
  have newNot : s.nodes.length ∉ ys := fun hm => Nat.lt_irrefl _ (h.chain.lt (by simp [hm]))
  have old : ∀ (m : Nat) (z : Node), s'.nodes[m]? = some z → m ≠ s.nodes.length → ∃ y, s.nodes[m]? = some y ∧
      (m = a ∨ m = b → z = { y with next := none, inl := false, child := true }) ∧
      (m ≠ a → m ≠ b → z = { y with next := z.next }) ∧ (m ∉ a :: b :: ys → z = y) := fun m z hz notNew => by
    obtain ⟨eq, -⟩ | ⟨y, hy, -⟩ := grown.cases hz
    · exact absurd eq notNew
    · obtain ⟨z', hz', parts⟩ := fields m y hy
      obtain rfl : z = z' := Option.some.inj (hz.symm.trans hz')
      exact ⟨y, hy, parts⟩
  refine ⟨_, _, s', x, merged, ?_, by rw [shape]; rfl, children, grown, chain,
    stableInsert_nodup h.distinct.of_cons.of_cons newNot, fun m z hz => ?_, ?_, fun m z hz hm => ?_, fun m z hz hm => ?_⟩
  · rw [shape]
    exact ⟨nofun, fun _ => ⟨rfl, a, b, rfl, rfl⟩⟩
  · rw [mem_stableInsert]
    by_cases new : m = s.nodes.length
    · subst new
      rw [← Option.some.inj (hx.symm.trans hz), shape]
      simp
    · obtain ⟨y, hy, merged, kept, -⟩ := old m z hz new
      by_cases child : m = a ∨ m = b
      · have notIn : m ∉ ys := by obtain rfl | rfl := child <;> assumption
        simp [merged child, new, notIn]
      · rw [not_or] at child
        have flag : z.inl = y.inl := (congrArg Node.inl (kept child.1 child.2) :)
        rw [flag, h.marked m y hy]
        simp [child, new]
  · refine stableInsert_sorted _ _ (sorted_congr (fun m hm => ?_) h.sorted.of_cons.of_cons)
    exact grown.wtAt (h.chain.lt (by simp [hm]))
  · by_cases new : m = s.nodes.length
    · subst new
      rw [← Option.some.inj (hx.symm.trans hz), shape]
      rfl
    · obtain ⟨y, hy, -, kept, -⟩ := old m z hz new
      have listed : m ∈ ys := (mem_stableInsert.mp hm).resolve_left new
      have flag : z.child = y.child :=
        (congrArg Node.child (kept (fun eq => firstNot (eq ▸ listed)) (fun eq => secondNot (eq ▸ listed))) :)
      rw [flag]
      exact h.orphan m y hy (by simp [listed])
  · rw [mem_stableInsert, not_or] at hm
    obtain ⟨y, hy, merged, -, same⟩ := old m z hz hm.1
    by_cases child : m = a ∨ m = b
    · rw [merged child]
    · have notIn : m ∉ a :: b :: ys := by rw [not_or] at child; simp [child, hm.2]
      rw [same notIn]
      exact h.unlinked m y hy notIn

end Sys2Proof.Machine
end

section
/-!
Which trees and which list the arena holds after each command that changes it, and that the node invariants of
`spec/10_state.md` R45 are kept.
-/

namespace Sys2Proof.Machine

/-! ### The priority list -/

section
variable {s : State}

/-- An arena of the same trees with a list. -/
theorem ArenaInv.relisted (hs : ArenaInv s) {a : Arena} {xs : List Nat} (trees : SameTrees s.nodes a.nodes)
    (list : Listed a xs) : ArenaInv (s.withArena a) :=
  arenaInv_of (trees.treesOk hs.treesOk) list fun r hr => (hs.rootIn r hr).trans_eq trees.length.symm

theorem plInsBody_arenaInv (hs : ArenaInv s) (n : Nat) : Ensures (plInsBody n s) ArenaInv where
  ok h := by
    obtain ⟨x, a, hx, unlisted, root, inserted, rfl⟩ := plInsBody_ok h
    obtain ⟨xs, list⟩ := hs.listed
    have notIn : n ∉ xs := fun hn => by simp [(list.marked n x hx).mpr hn] at unlisted
    obtain ⟨a', inserted', trees, list'⟩ := list.insert hx root notIn
    obtain rfl : a = a' := Option.some.inj (inserted.symm.trans inserted')
    exact hs.relisted trees list'
  raised h := by obtain ⟨rfl, -⟩ := plInsBody_raised h; exact hs

/-- Whatever `RemoveMin` hands back, the arena without it is one of the same trees with a list. -/
theorem ArenaInv.removeMin (hs : ArenaInv s) {r : Removed} (removed : removeMin s.arena = some (some r)) :
    r.index < s.nodes.length ∧ SameTrees s.nodes r.arena.nodes ∧ ∃ xs, Listed r.arena xs := by
  obtain ⟨xs, list⟩ := hs.listed
  cases xs with
  | nil =>
    have empty : s.listHead = none := list.chain
    simp [State.arena, empty] at removed
  | cons n ns =>
    obtain ⟨r', removed', index, trees, rest⟩ := list.removeMin
    obtain rfl : r = r' := Option.some.inj (Option.some.inj (removed.symm.trans removed'))
    exact ⟨index ▸ list.chain.lt List.mem_cons_self, trees, ns, rest⟩

theorem plRminBody_arenaInv (hs : ArenaInv s) : Ensures (plRminBody s) ArenaInv where
  ok h := by
    obtain ⟨-, rfl⟩ | ⟨r, removed, rfl⟩ := plRminBody_ok h
    · exact hs.congr rfl
    · obtain ⟨-, trees, xs, rest⟩ := hs.removeMin removed
      exact (hs.relisted trees rest).congr rfl
  raised h := (plRminBody_raised h).elim

/-! ### The tree builder -/

theorem newLeaf_wellShaped (c : CharUnit) (w : Word) : (newLeaf c w).WellShaped := ⟨fun _ => ⟨rfl, rfl⟩, nofun⟩

theorem grownBy_newLeaf (nodes : List Node) (c : CharUnit) (w : Word) :
    GrownBy nodes (nodes ++ [newLeaf c w]) (newLeaf c w) where
  length := List.length_append
  new := List.getElem?_concat_length
  old m y hy :=
    ⟨y, (List.getElem?_append_left (List.getElem?_eq_some_iff.mp hy).1).trans hy, by simp [kids, newLeaf, Node.unlisted]⟩

theorem TreesOk.newLeaf {nodes : List Node} (trees : TreesOk nodes) (room : nodes.length < Config.nodeMax) (c : CharUnit)
    (w : Word) : TreesOk (nodes ++ [newLeaf c w]) :=
  (grownBy_newLeaf nodes c w).treesOk trees room (newLeaf_wellShaped c w) rfl nofun List.nodup_nil nofun

theorem tbLeafBody_arenaInv (hs : ArenaInv s) (c : CharUnit) : Ensures (tbLeafBody c s) ArenaInv where
  ok h := by
    obtain ⟨room, rfl⟩ := tbLeafBody_ok h
    obtain ⟨xs, list⟩ := hs.listed
    refine arenaInv_of (hs.treesOk.newLeaf room c s.warg) (list.append rfl rfl) fun r hr => ?_
    exact (hs.rootIn r hr).trans_le (by simp)
  raised h := by obtain ⟨rfl, -⟩ := tbLeafBody_raised h; exact hs

/-- One turn of TB.LEAVES. -/
theorem addLeaf_keeps {a a' : Arena} {xs : List Nat} (trees : TreesOk a.nodes) (list : Listed a xs)
    (room : a.nodes.length < Config.nodeMax) {c : Nat} {w : Word} (h : addLeaf a c w = some a') :
    TreesOk a'.nodes ∧ (∃ ys, Listed a' ys) ∧ a'.nodes.length = a.nodes.length + 1 := by
  have unlisted : a.nodes.length ∉ xs := fun hn => Nat.lt_irrefl _ (list.chain.lt hn)
  have appended : Listed { a with nodes := a.nodes ++ [newLeaf (BitVec.ofNat 16 c) w] } xs := list.append rfl rfl
  obtain ⟨a₁, inserted, same, list'⟩ := appended.insert List.getElem?_concat_length rfl unlisted
  obtain rfl : a' = a₁ := Option.some.inj (h.symm.trans inserted)
  exact ⟨same.treesOk (trees.newLeaf room _ w), ⟨_, list'⟩, same.length.trans List.length_append⟩

/-- The loop of TB.LEAVES, as long as the arena has room for every leaf. -/
theorem addLeaves_keeps {freq : Cells Word} {a a' : Arena} {xs : List Nat} (trees : TreesOk a.nodes) (list : Listed a xs)
    (room : a.nodes.length + freq.length ≤ Config.nodeMax) (h : addLeaves a freq = some a') :
    TreesOk a'.nodes ∧ ∃ ys, Listed a' ys := by
  induction freq generalizing a xs with
  | nil => obtain rfl := Option.some.inj h; exact ⟨trees, xs, list⟩
  | cons f rest ih =>
    obtain ⟨c, w⟩ := f
    rw [List.length_cons] at room
    cases leaf : addLeaf a c w with
    | none => simp [addLeaves, leaf] at h
    | some a₁ =>
      obtain ⟨trees₁, ⟨ys, list₁⟩, length⟩ := addLeaf_keeps trees list (by omega) leaf
      exact ih trees₁ list₁ (by omega) (by simpa [addLeaves, leaf] using h)

theorem tbLeavesBody_arenaInv (hs : TableInv s) : Ensures (tbLeavesBody s) ArenaInv where
  ok h := by
    obtain ⟨a, added, rfl⟩ := tbLeavesBody_ok h
    have few : s.freq.length ≤ Config.nchar := memory_wf_length hs.freq.1
    have room : s.freq.length ≤ Config.nodeMax := few.trans (by decide)
    obtain ⟨trees, xs, list⟩ := addLeaves_keeps treesOk_nil listed_nil (by simpa using room) added
    exact arenaInv_of trees list nofun
  raised h := (tbLeavesBody_raised h).elim

/-- The arena that a merge leaves, when the list held two nodes and the arena had room. -/
theorem ArenaInv.merge (hs : ArenaInv s) (two : hasTwo s.arena = some true) (room : s.nodes.length < Config.nodeMax)
    {r : Nat × Word × Arena} (merged : mergeArena s.arena = some r) :
    TreesOk r.2.2.nodes ∧ (∃ ys, Listed r.2.2 ys) ∧ r.2.2.nodes.length = s.nodes.length + 1 := by
  obtain ⟨xs, list⟩ := hs.listed
  have atLeastTwo : 2 ≤ xs.length := by simpa using (hasTwo_chain list.chain).symm.trans two
  match xs with
  | a :: b :: ys =>
    obtain ⟨n, w, s', x, merged', shape, root, children, grown, list'⟩ := list.merge
    obtain rfl : r = (n, w, s') := Option.some.inj (merged.symm.trans merged')
    have different : a ≠ b := fun eq => list.distinct.notMem (by simp [eq])
    have isRoot : ∀ m ∈ kids x, m < s.nodes.length ∧ m ∉ childrenOf s.nodes := fun m hm => by
      have listed : m ∈ a :: b :: ys := by rw [children] at hm; simp at hm ⊢; tauto
      have allocated := list.chain.lt listed
      have hm := List.getElem?_eq_getElem allocated
      have orphan := list.orphan m _ hm listed
      exact ⟨allocated, fun child => Bool.false_ne_true (orphan.symm.trans ((hs.treesOk.child m _ hm).mpr child))⟩
    exact ⟨grown.treesOk hs.treesOk room shape root (fun m hm => (isRoot m hm).1) (by simp [children, different])
      fun m hm => (isRoot m hm).2, ⟨_, list'⟩, grown.length⟩

theorem tbMergeBody_arenaInv (hs : ArenaInv s) : Ensures (tbMergeBody s) ArenaInv where
  ok h := by
    obtain ⟨sum, r, two, room, -, -, merged, rfl⟩ := tbMergeBody_ok_cases h
    obtain ⟨trees, ⟨ys, list⟩, length⟩ := hs.merge two room merged
    exact arenaInv_of trees list fun r hr => (hs.rootIn r hr).trans_le ((Nat.le_succ _).trans_eq length.symm)
  raised h := by obtain ⟨rfl, -⟩ := tbMergeBody_raised h; exact hs

theorem tbRootBody_arenaInv (hs : ArenaInv s) : Ensures (tbRootBody s) ArenaInv where
  ok h := by
    obtain ⟨r, -, removed, rfl⟩ := tbRootBody_ok h
    obtain ⟨inside, trees, xs, rest⟩ := hs.removeMin removed
    refine arenaInv_of (trees.treesOk hs.treesOk) rest fun r' hr' => ?_
    obtain rfl : r.index = r' := Option.some.inj hr'
    exact inside.trans_eq trees.length.symm
  raised h := by obtain ⟨rfl, -⟩ := tbRootBody_raised h; exact hs

end

/-- The two invariants that TB.BUILD and ENCODE keep together: TB.LEAVES has room for the counts of a canonical FREQ. -/
structure BuildInv (s : State) : Prop where
  tables : TableInv s
  arena : ArenaInv s

section
variable {s : State}

theorem tbBuildBody_buildInv (hs : BuildInv s) : Ensures (tbBuildBody s) BuildInv :=
  tbBuildBody_ensures
    (fun u hu =>
      { ok := fun h => ⟨(tbCountBody_tableInv hu.tables).ok h,
          hu.arena.congr (congrArg State.arenaSide ((tbCountBody_frame u).ok h) :)⟩
        raised := fun h => (tbCountBody_raised h).elim })
    (fun u hu =>
      { ok := fun h => ⟨hu.tables.congr (congrArg State.tables ((tbLeavesBody_frame u).ok h) :),
          (tbLeavesBody_arenaInv hu.tables).ok h⟩
        raised := fun h => (tbLeavesBody_raised h).elim })
    (fun u hu =>
      { ok := fun h => ⟨hu.tables.congr (congrArg State.tables ((tbMergeBody_frame u).ok h) :),
          (tbMergeBody_arenaInv hu.arena).ok h⟩
        raised := fun h => by obtain ⟨rfl, -⟩ := tbMergeBody_raised h; exact hu })
    (fun u hu =>
      { ok := fun h => ⟨hu.tables.congr (congrArg State.tables ((tbRootBody_frame u).ok h) :),
          (tbRootBody_arenaInv hu.arena).ok h⟩
        raised := fun h => by obtain ⟨rfl, -⟩ := tbRootBody_raised h; exact hu }) hs

theorem encodeBody_arenaInv (s : State) : Ensures (encodeBody s) ArenaInv :=
  encodeBody_ensures (P := BuildInv) (fun _ hu => hu.arena.congr rfl) (fun _ => tbBuildBody_buildInv)
    (fun u hu =>
      { ok := fun h => ⟨(ctGenBody_tableInv hu.tables).ok h,
          hu.arena.congr (congrArg State.arenaSide ((ctGenBody_frame u).ok h) :)⟩
        raised := fun h => ⟨(ctGenBody_tableInv hu.tables).raised h,
          hu.arena.congr (congrArg State.arenaSide ((ctGenBody_frame u).raised h) :)⟩ })
    (fun u hu => (enTreeBody_frame u).mono fun _ hv =>
      ⟨hu.tables.congr (congrArg State.tables hv :), hu.arena.congr (congrArg State.arenaSide hv :)⟩)
    (fun u hu => (enTextBody_frame u).mono fun _ hv =>
      ⟨hu.tables.congr (congrArg State.tables hv :), hu.arena.congr (congrArg State.arenaSide hv :)⟩)
    (fun _ hu => hu.arena)
    (fun u hu => (enEmitBody_frame u).mono fun _ hv => hu.arena.congr (congrArg State.arenaSide hv :))
    ⟨tableInv_of_empty rfl, arenaInv_of_empty rfl⟩

end

/-! ### The nodes of a decoded tree -/

namespace HTree

theorem preorder_unlisted {u : HTree} {base : Nat} {c : Bool} {x : Node} (hx : x ∈ u.preorder base c) :
    x.WellShaped ∧ x.next = none ∧ x.inl = false := by
  induction u generalizing base c with
  | leaf ch =>
    obtain rfl := List.mem_singleton.mp hx
    exact ⟨⟨fun _ => ⟨rfl, rfl⟩, nofun⟩, rfl, rfl⟩
  | node l r ihl ihr =>
    obtain rfl | below := List.mem_cons.mp hx
    · exact ⟨⟨nofun, fun _ => ⟨rfl, _, _, rfl, rfl⟩⟩, rfl, rfl⟩
    · exact (List.mem_append.mp below).elim ihl ihr

/-- The children of a decoded tree are all its nodes but the first, once each. -/
theorem childrenOf_preorder (u : HTree) (base : Nat) (c : Bool) :
    (base :: childrenOf (u.preorder base c)).Perm (List.range' base u.size) := by
  induction u generalizing base c with
  | leaf ch => exact .refl _
  | node l r ihl ihr =>
    have split : List.range' base (HTree.node l r).size =
        base :: (List.range' (base + 1) l.size ++ List.range' (base + 1 + l.size) r.size) := by
      rw [HTree.size, List.range'_append_1, ← List.range'_succ]; congr 1; omega
    rw [split]
    refine List.Perm.cons base (.trans ?_ ((ihl (base + 1) true).append (ihr (base + 1 + l.size) true)))
    have children : childrenOf ((node l r).preorder base c) = (base + 1) :: (base + 1 + l.size) ::
        (childrenOf (l.preorder (base + 1) true) ++ childrenOf (r.preorder (base + 1 + l.size) true)) := by
      simp [preorder, childrenOf, kids]
    rw [children]
    exact List.Perm.cons _ List.perm_middle.symm

/-- Every node of a decoded tree but the first is a child. -/
theorem preorder_child {u : HTree} {base m : Nat} {c : Bool} {x : Node} (hx : (u.preorder base c)[m]? = some x) :
    x.child = if m = 0 then c else true := by
  have below : ∀ (u : HTree) (base : Nat), ∀ x ∈ u.preorder base true, x.child = true := fun u => by
    induction u with
    | leaf ch => intro base x hx; rw [List.mem_singleton.mp hx]
    | node l r ihl ihr =>
      intro base x hx
      obtain rfl | deeper := List.mem_cons.mp hx
      · rfl
      · exact (List.mem_append.mp deeper).elim (ihl _ x) (ihr _ x)
  cases u with
  | leaf ch =>
    rw [preorder, List.getElem?_singleton, Option.ite_none_right_eq_some] at hx
    obtain ⟨rfl, eq⟩ := hx
    rw [← Option.some.inj eq]; rfl
  | node l r =>
    cases m with
    | zero => rw [← Option.some.inj hx]; rfl
    | succ m =>
      exact (List.mem_append.mp (List.mem_of_getElem? (List.getElem?_cons_succ .. ▸ hx))).elim (below l _ x) (below r _ x)

/-- Every node of a decoded tree holds a tree, wherever its nodes stand. -/
theorem preorder_forest (u : HTree) (A B : List Node) (c : Bool) {n : Nat} (below : A.length ≤ n)
    (inside : n < A.length + u.size) : ∃ t, HoldsTree (A ++ (u.preorder A.length c ++ B)) n t := by
  induction u generalizing A B c with
  | leaf ch =>
    obtain rfl : n = A.length := by rw [HTree.size] at inside; omega
    exact ⟨_, preorder_holds (leaf ch) A B c⟩
  | node l r ihl ihr =>
    obtain rfl | below := below.eq_or_lt
    · exact ⟨_, preorder_holds (node l r) A B c⟩
    rw [HTree.size] at inside
    obtain ⟨top, rest⟩ : ∃ x, (node l r).preorder A.length c =
        x :: (l.preorder (A.length + 1) true ++ r.preorder (A.length + 1 + l.size) true) := ⟨_, rfl⟩
    rw [rest]
    by_cases left : n < A.length + 1 + l.size
    · have here := ihl (A ++ [top]) (r.preorder (A.length + 1 + l.size) true ++ B) true (by simpa using below)
        (by simpa using left)
      simpa using here
    · have length : (A ++ top :: l.preorder (A.length + 1) true).length = A.length + 1 + l.size := by simp; omega
      have here := ihr (A ++ top :: l.preorder (A.length + 1) true) B true (by omega) (by omega)
      rw [length] at here
      simpa using here

theorem preorder_treesOk {u : HTree} (fits : u.size ≤ Config.nodeMax) : TreesOk (u.preorder 0 false) := by
  have all := childrenOf_preorder u 0 false
  have distinct := List.nodup_cons.mp (all.nodup_iff.mpr List.nodup_range')
  have child : ∀ n, n ∈ childrenOf (u.preorder 0 false) ↔ n ≠ 0 ∧ n < u.size := fun n => by
    have mem := all.mem_iff (a := n)
    rw [List.mem_cons, List.mem_range'_1] at mem
    constructor
    · exact fun hn => ⟨fun zero => distinct.1 (zero ▸ hn), by simpa using (mem.mp (.inr hn)).2⟩
    · exact fun ⟨notFirst, inside⟩ => (mem.mpr ⟨Nat.zero_le n, by simpa using inside⟩).resolve_left notFirst
  refine ⟨by rwa [preorder_length], fun x hx => (preorder_unlisted hx).1, fun n hn => ?_, distinct.2,
    fun n x hx => ?_, fun n hn => ?_⟩
  · rw [preorder_length]; exact ((child n).mp hn).2
  · have inside := (List.getElem?_eq_some_iff.mp hx).1
    rw [preorder_length] at inside
    rw [preorder_child hx, child]
    split <;> simp [*]
  · rw [preorder_length] at hn
    simpa using preorder_forest u [] [] false (Nat.zero_le n) (by simpa using hn)

end HTree

/-- In an arena with an empty list no node is listed. -/
theorem listed_empty {nodes : List Node} (h : ∀ x ∈ nodes, x.next = none ∧ x.inl = false) :
    Listed { nodes := nodes, head := none } [] where
  chain := rfl
  distinct := List.nodup_nil
  marked n x hx := by simp [(h x (List.mem_of_getElem? hx)).2]
  sorted := .nil
  orphan _ _ _ := nofun
  unlinked n x hx _ := (h x (List.mem_of_getElem? hx)).1

/-! ### The decoder -/

section
variable {s : State}

theorem arenaInv_withDecodedTree {u : HTree} (fits : u.size ≤ Config.nodeMax) (pos : Nat) :
    ArenaInv (s.withDecodedTree u pos) := by
  refine arenaInv_of (HTree.preorder_treesOk fits) (listed_empty fun x hx => (HTree.preorder_unlisted hx).2) fun r hr => ?_
  obtain rfl : 0 = r := Option.some.inj hr
  exact (List.length_pos_of_ne_nil (by cases u <;> nofun))

/-- A tree that `Parse` found fits in the arena. -/
theorem parse_size_le {tend fuel rcur : Nat} {u : HTree} {i p : Nat} (start : rcur ≤ tend) (fueled : tend - rcur ≤ fuel)
    (h : parse s tend fuel [] rcur = .ok { index := i, nodes := u.preorder 0 false, rcur := p }) :
    u.size ≤ Config.nodeMax := by
  have scan := parse_descend s tend fuel [] rcur start fueled
  rw [h] at scan
  obtain ⟨-, -, -, fits, -⟩ := scan
  simpa using fits

theorem deTreeBody_arenaInv (hs : ArenaInv s) : Ensures (deTreeBody s) ArenaInv where
  ok h := by
    obtain ⟨-, -, p, parsed, rfl⟩ := deTreeBody_ok h
    obtain start | short := Nat.lt_or_ge treeStart s.hdr.tend.toNat
    · obtain ⟨sub, pos, -, -, stopped⟩ | ⟨u, -, -, parsed'⟩ := parseRegion_ends (s := s) start.le
      · exact nomatch stopped.symm.trans parsed
      · obtain rfl := Except.ok.inj (parsed.symm.trans parsed')
        exact arenaInv_withDecodedTree (parse_size_le start.le le_rfl parsed) _
    · rw [Nat.sub_eq_zero_of_le short] at parsed
      exact nomatch parsed
  raised h := by
    obtain ⟨-, rfl, -⟩ | ⟨-, -, rfl⟩ := deTreeBody_raised h
    · exact hs
    · exact arenaInv_of_empty rfl

theorem decodeBody_arenaInv (s : State) : Ensures (decodeBody s) ArenaInv :=
  decodeBody_ensures (P := ArenaInv)
    (fun u hu => (deHdrBody_frame u).mono fun _ hv => hu.congr (congrArg State.arenaSide hv :))
    (fun _ => deTreeBody_arenaInv) (fun _ => id)
    (fun u hu => (deTextBody_frame u).mono fun _ hv => hu.congr (congrArg State.arenaSide hv :)) (arenaInv_of_empty rfl)

end

/-! ### Every step -/

/-- What a body ensures of the arena holds of the next state of its command. -/
theorem Ensures.arenaInv {i : Instr} {s t : State} (hb : Ensures (bodyOf i s) ArenaInv) (h : exec i s = .next t) :
    ArenaInv t := by
  obtain ⟨u, hu, ht⟩ := hb.next h
  exact ht ▸ hu.congr rfl

theorem exec_arenaInv {i : Instr} {s t : State} (hs : BuildInv s) (h : exec i s = .next t) : ArenaInv t := by
  have frame := exec_frame h
  cases i with
  | plIns n => exact (plInsBody_arenaInv hs.arena n).arenaInv (i := .plIns n) h
  | plRmin => exact (plRminBody_arenaInv hs.arena).arenaInv (i := .plRmin) h
  | tbLeaf c => exact (tbLeafBody_arenaInv hs.arena c).arenaInv (i := .tbLeaf c) h
  | tbLeaves => exact (tbLeavesBody_arenaInv hs.tables).arenaInv (i := .tbLeaves) h
  | tbMerge => exact (tbMergeBody_arenaInv hs.arena).arenaInv (i := .tbMerge) h
  | tbRoot => exact (tbRootBody_arenaInv hs.arena).arenaInv (i := .tbRoot) h
  | tbBuild => exact ((tbBuildBody_buildInv hs).mono fun _ hu => hu.arena).arenaInv (i := .tbBuild) h
  | encode => exact (encodeBody_arenaInv s).arenaInv (i := .encode) h
  | deTree => exact (deTreeBody_arenaInv hs.arena).arenaInv (i := .deTree) h
  | decode => exact (decodeBody_arenaInv s).arenaInv (i := .decode) h
  | clr => exact arenaInv_of_empty (congrArg State.arenaSide frame :)
  | _ => exact hs.arena.congr (congrArg State.arenaSide frame :)

theorem step_arenaInv {s t : State} (hs : BuildInv s) (h : step s = .next t) : ArenaInv t :=
  step_ensures (fun _ hu => hu.arena) (fun _ _ _ hu => hu.congr rfl) (fun _ _ _ => exec_arenaInv)
    (fun _ _ _ _ hu hw => hu.arena.congr (congrArg State.arenaSide (writeReg_frame hw) :))
    (fun _ _ => arenaInv_of_empty rfl) (fun _ _ hu => ⟨hu.tables.congr rfl, hu.arena.congr rfl⟩) hs h

/-- Settles O52: every command grows the trees over roots, relinks the list, decodes a tree or clears the arena. -/
theorem arenaInvariantKept : Obligations.ArenaInvariantKept := fun _ _ tables arena => step_arenaInv ⟨tables, arena⟩

end Sys2Proof.Machine
end

section
/-!
The invariants right after reset, the order that PL.INS keeps, the table of CT.GEN in which no code begins another, and
the inverse that DE.TREE is of the serialisation.
-/

namespace Sys2Proof.Machine

/-! ### Reset -/

theorem reset_memoryInv : MemoryInv State.reset := by
  have again := resetCore_memoryInv (s := State.reset) (by decide)
  exact ⟨again.caps, again.txt, again.fil, again.txtLen, again.filLen, again.txtAddr, again.filAddr, again.nodeAddr⟩

/-- Settles O55: everything is empty, and the recommended capacities are legal. -/
theorem resetMeetsInvariants : Obligations.ResetMeetsInvariants where
  left := ⟨reset_memoryInv, tableInv_of_empty rfl, arenaInv_of_empty rfl, headerInv_of_zero rfl rfl⟩
  right := ⟨Nat.zero_le _, Nat.zero_le _⟩

/-! ### PL.INS -/

theorem stableInsert_sublist (wt : Nat → Word) (n : Nat) (xs : List Nat) : xs.Sublist (stableInsert wt n xs) := by
  conv => lhs; rw [← List.takeWhile_append_dropWhile (p := fun m => decide (wt m ≤ wt n)) (l := xs)]
  exact (List.sublist_cons_self ..).append_left _

/-- The list is a matter of the arena alone. -/
theorem ListIs.congr {s t : State} {xs : List Nat} (h : ListIs s xs) (same : t.arena = s.arena) : ListIs t xs := by
  obtain ⟨nodes, head⟩ := Arena.mk.inj same
  exact ⟨by rw [nodes, head]; exact h.chain, h.distinct, by rw [nodes]; exact h.marked⟩

/-- Settles O21: BadState changes nothing, and a stable insertion keeps both orders. -/
theorem plInsKeepsTheListSorted : Obligations.PlInsKeepsTheListSorted := by
  intro s t n xs hs sorted h
  obtain ⟨u, body, rfl⟩ | ⟨u, e, body, rfl⟩ := finish_next h
  · obtain ⟨x, a, hx, unlisted, root, inserted, rfl⟩ := plInsBody_ok body
    have notIn := hs.not_mem_of_inl_false hx unlisted
    obtain ⟨a', inserted', -, chain, fields, -⟩ := insertNode_spec hs.chain hs.distinct hx notIn
    obtain rfl : a = a' := Option.some.inj (inserted.symm.trans inserted')
    have list : ListIs (s.withArena a) (stableInsert (wtAt s.nodes) n xs) :=
      hs.insert _ notIn hx chain fun m y hy => by
        obtain ⟨z, hz, eq⟩ := fields m y hy
        exact ⟨z, hz, (congrArg Node.inl eq :)⟩
    have weights : ∀ m ∈ stableInsert (wtAt s.nodes) n xs, wtAt a.nodes m = wtAt s.nodes m := fun m hm => by
      have allocated : m < s.nodes.length := by
        obtain rfl | old := mem_stableInsert.mp hm
        · exact (List.getElem?_eq_some_iff.mp hx).1
        · exact hs.chain.lt old
      obtain ⟨z, hz, eq⟩ := fields m _ (List.getElem?_eq_getElem allocated)
      rw [wtAt_of hz, wtAt_of (List.getElem?_eq_getElem allocated)]
      exact (congrArg Node.wt eq :)
    exact ⟨_, list.congr rfl, stableInsert_sublist _ n xs, sorted_congr weights (stableInsert_sorted _ n sorted)⟩
  · obtain ⟨rfl, -⟩ := plInsBody_raised body
    exact ⟨xs, hs.congr rfl, .refl xs, sorted⟩

/-! ### CT.GEN -/

/-- A tree with two leaves or more has its paths for codes. -/
theorem HTree.codes_eq_paths {u : HTree} (h : 2 ≤ u.leafCount) : u.codes = u.paths := by
  cases u with
  | leaf c => rw [HTree.leafCount] at h; omega
  | node l r => rfl

/-- Settles O31: a table without overflow holds whole paths, and no path of a tree begins with another. -/
theorem ctGenPrefixFree : Obligations.CtGenPrefixFree := by
  intro s t r u hr hu distinct leaves h ok c d different hc hd
  have whole := fun e he => ((ctGenOverflowRule s r u hr hu).2 t e h).2 he
  have free := u.codes_eq_paths leaves ▸ u.paths_prefixFree
  have symmetric : Std.Symm fun p q : CharUnit × List Bool => ¬ p.2 <+: q.2 ∧ ¬ q.2 <+: p.2 := ⟨fun _ _ => And.symm⟩
  exact (free.forall (whole c hc) (whole d hd) fun eq => different (congrArg Prod.fst eq)).1

/-! ### DE.TREE -/

/-- DE.TREE where the tree region begins with a serialised tree that fits in the arena. -/
theorem deTreeBody_ser {s : State} {u : HTree} (hv : s.flags.hdrv = true) (inside : s.hdr.tend.toNat ≤ 8 * s.caps.filCap)
    (leaves : u.leafCount ≤ 65536) (region : 32 + u.ser.length ≤ s.hdr.tend.toNat) (bits : u.ser <+: s.treeBits) :
    deTreeBody s = .ok (s.withDecodedTree u (32 + u.ser.length)) := by
  have here : s.fileBits 32 u.ser.length = u.ser := by
    obtain ⟨rest, split⟩ := bits
    rw [State.treeBits, show s.hdr.tend.toNat - 32 = u.ser.length + (s.hdr.tend.toNat - 32 - u.ser.length) by omega,
      fileBits_append] at split
    exact (List.append_inj_left split (fileBits_length ..).symm).symm
  have fits : u.size ≤ Config.nodeMax := by
    have size := u.size_eq
    rw [Config.nodeMax]; omega
  have parsed := parse_ser s s.hdr.tend.toNat u (s.hdr.tend.toNat - treeStart) [] treeStart here region
    (Nat.le_sub_of_add_le' region) (by simpa using fits)
  rw [deTreeBody_parses hv inside, parseRegion, parsed]
  rfl

/-- Settles O42: `Parse` consumes the serialised tree and no bit more; at most 65536 leaves fit in the arena. -/
theorem deTreeReadsEveryTree : Obligations.DeTreeReadsEveryTree := fun s u hv inside leaves region bits =>
  ⟨congrArg finish (deTreeBody_ser hv inside leaves region bits), withDecodedTree_holds s u 0⟩

end Sys2Proof.Machine
end

section
/-!
The shape of the tree that TB.BUILD makes (`spec/41_tree_builder.md` section 3): the leaves in front, the merged nodes
behind them with their children below, the root last.
-/

namespace Sys2Proof.Machine

/-- The nodes of a tree built for the text of `s`, the root last. -/
structure BuiltNodes (s : State) (nodes : List Node) : Prop where
  length : nodes.length + 1 = 2 * (distinctChars s.text).length
  weight : wtAt nodes (nodes.length - 1) = s.txtLen
  leaf : ∀ (i c : Nat), (distinctChars s.text)[i]? = some c → ∃ x : Node, nodes[i]? = some x ∧ x.leaf = true ∧
    x.ch = BitVec.ofNat 16 c ∧ x.wt.toNat = s.text.count (BitVec.ofNat 16 c)
  internal : ∀ (m : Nat) (y : Node), (distinctChars s.text).length ≤ m → nodes[m]? = some y →
    ∃ a b, y.leaf = false ∧ y.left = some a ∧ y.right = some b ∧ a < m ∧ b < m
  tree : ∃ u, HoldsTree nodes (nodes.length - 1) u ∧ u.chars.Perm ((distinctChars s.text).map (BitVec.ofNat 16))

theorem BuiltNodes.congr {s : State} {nodes nodes' : List Node} (h : BuiltNodes s nodes) (same : SameTrees nodes nodes') :
    BuiltNodes s nodes' where
  length := by rw [same.length]; exact h.length
  weight := by rw [same.length, same.wtAt]; exact h.weight
  leaf i c hc := by
    obtain ⟨x, hx, leaf, ch, wt⟩ := h.leaf i c hc
    obtain ⟨z, hz, eq⟩ := same.symm.new hx
    exact ⟨z, hz, (congrArg Node.leaf eq :).symm.trans leaf, (congrArg Node.ch eq :).symm.trans ch,
      (congrArg (fun x => x.wt.toNat) eq :).symm.trans wt⟩
  internal m z hm hz := by
    obtain ⟨y, hy, eq⟩ := same.new hz
    obtain ⟨a, b, leaf, left, right, below⟩ := h.internal m y hm hy
    exact ⟨a, b, (congrArg Node.leaf eq :).trans leaf, (congrArg Node.left eq :).trans left,
      (congrArg Node.right eq :).trans right, below⟩
  tree := by
    obtain ⟨u, hu, chars⟩ := h.tree
    exact ⟨u, by rw [same.length]; exact same.holdsTree hu, chars⟩

/-- The leaf that TB.LEAVES makes for the i-th distinct character of a text. -/
theorem LeavesOf.counted {s : State} {a : Arena} (leaves : LeavesOf s.counts a) {i c : Nat}
    (hc : (distinctChars s.text)[i]? = some c) : ∃ x, a.nodes[i]? = some x ∧ x.leaf = true ∧
      x.ch = BitVec.ofNat 16 c ∧ x.wt.toNat = s.text.count (BitVec.ofNat 16 c) := by
  have entry : s.counts[i]? = some (c, tableGet 0 s.counts c) :=
    (congrArg (·[i]?) (counts_eq_map s)).trans (by rw [List.getElem?_map, hc, Option.map_some])
  obtain ⟨x, hx, eq⟩ := leaves.leaf i _ entry
  refine ⟨x, hx, (congrArg Node.leaf eq :), (congrArg Node.ch eq :), ?_⟩
  rw [← counts_toNat_of_lt s (mem_distinctChars.mp (List.mem_of_getElem? hc)).1]
  exact (congrArg (fun x => x.wt.toNat) eq :)

/-- The merges over the leaves of a text. -/
theorem mergeLoop_builtNodes {s : State} {a : Arena} (leaves : LeavesOf s.counts a) {xs : List Nat} {s₂ : State}
    (arena : s₂.arena = a) (list : ListIs s₂ xs) (perm : xs.Perm (List.range s.counts.length)) (hne : s.txtLen ≠ 0) :
    ∃ s₃, mergeLoop s₂.nodeCnt s₂ = .ok s₃ ∧ Chain s₃.nodes s₃.listHead [s₃.nodes.length - 1] ∧ BuiltNodes s s₃.nodes := by
  subst arena
  have length : xs.length = (distinctChars s.text).length := by rw [perm.length_eq, List.length_range, counts_length]
  have nodes : s₂.nodes.length = (distinctChars s.text).length := leaves.length.trans (counts_length s)
  have nonempty : xs ≠ [] := fun none =>
    distinctChars_ne_nil hne (List.length_eq_zero_iff.mp (by rw [← length, none]; rfl))
  have room : s₂.nodes.length + xs.length ≤ Config.nodeMax + 1 := by
    have atMost : (distinctChars s.text).length ≤ 65536 := distinctChars_length_le s.text
    rw [length, nodes, Config.nodeMax]
    omega
  have weights : (xs.map (fun m => (wtAt s₂.nodes m).toNat)).sum = s.txtLen.toNat :=
    (leaves.weights perm).trans (counts_sum s)
  obtain ⟨s₃, r, u, merged, frame, chain, holds, chars, weight, count, place, old, new⟩ :=
    mergeLoop_spec s₂.nodeCnt s₂ xs (leafAt s₂.nodes) list.chain list.distinct
      (fun m hm => leaves.holds (List.mem_range.mp (perm.mem_iff.mp hm))) nonempty (length.trans nodes.symm).le room
      (by rw [weights]; omega)
  have last : r = s₃.nodes.length - 1 := by
    obtain rfl | last := place
    · have only : r < s₂.nodes.length := list.chain.lt List.mem_cons_self
      rw [List.length_singleton] at length count
      omega
    · omega
  subst last
  refine ⟨s₃, merged, congrArg State.listHead frame ▸ chain, by omega,
    BitVec.eq_of_toNat_eq (weight.trans weights), fun i c hc => ?_, fun m y hm hy => new m y (nodes.trans_le hm) hy,
    u, holds, counts_chars s ▸ chars.trans (leaves.chars perm)⟩
  obtain ⟨x, hx, leaf, ch, wt⟩ := leaves.counted hc
  obtain ⟨z, hz, eq⟩ := old i x hx
  exact ⟨z, hz, (congrArg Node.leaf eq :).trans leaf, (congrArg Node.ch eq :).trans ch,
    (congrArg (fun x => x.wt.toNat) eq :).trans wt⟩

theorem tbBuildBody_builtNodes {s : State} (hne : s.txtLen ≠ 0) (hcap : s.txtLen.toNat ≤ s.caps.txtCap) :
    ∃ t, tbBuildBody s = .ok t ∧ t.root = some (t.nodes.length - 1) ∧ BuiltNodes s t.nodes := by
  obtain ⟨a, added, leaves⟩ := addLeaves_leavesOf s.counts leavesOf_nil
  obtain ⟨xs, list, perm, -⟩ := leaves.listIs (t := { s with freq := s.counts }.clearNodes.withArena a) rfl
  obtain ⟨s₃, merged, chain, built⟩ := mergeLoop_builtNodes leaves rfl list perm hne
  obtain ⟨t, x, hx, body, frame, length, taken, others⟩ := tbRootBody_takes chain
  have same : SameTrees s₃.nodes t.nodes := sameTrees_of length fun m y hy => by
    by_cases root : m = s₃.nodes.length - 1
    · subst root
      obtain rfl : y = x := Option.some.inj (hy.symm.trans hx)
      exact ⟨_, taken, rfl⟩
    · exact ⟨y, (others m root).trans hy, rfl⟩
  refine ⟨t, ?_, (congrArg State.root frame).trans (by rw [length]), built.congr same⟩
  rw [tbBuildBody, if_neg hne, tbCountBody_counts hcap, body_ok_bind, tbLeavesBody_adds added, body_ok_bind, merged,
    body_ok_bind, body]

/-- Settles O28: the invariant of the loop of merges, from the leaves of the counts on. -/
theorem tbBuildShape : Obligations.TbBuildShape := by
  intro s t k hne hcap hk h
  obtain ⟨t', body, root, built⟩ := tbBuildBody_builtNodes hne hcap
  obtain rfl : t'.done = t := Host.Outcome.next.inj ((congrArg finish body).symm.trans h)
  have length : t'.nodes.length + 1 = 2 * k := by rw [hk]; exact built.length
  have last : 2 * k - 2 = t'.nodes.length - 1 := by omega
  rw [last]
  refine ⟨by omega, Nat.eq_sub_of_add_eq length, root, built.weight, built.leaf, fun m y hm => ?_, ?_⟩
  · exact built.internal m y (hk.symm.trans_le hm)
  · exact built.tree

end Sys2Proof.Machine
end

section
/-!
The ranges of the two bit buffers (`spec/10_state.md` R31, R32): a tree of the arena has no more nodes than the arena, and
no code has more than 16 bits.
-/

namespace Sys2Proof.Machine

/-! ### The nodes of one tree -/

/-- Node `m` names node `n` as a child. -/
def ChildOf (nodes : List Node) (n m : Nat) : Prop := ∃ y, nodes[m]? = some y ∧ n ∈ kids y

section
variable {nodes : List Node} (trees : TreesOk nodes)
include trees

/-- No node has two parents (`spec/10_state.md` R45 (b)). -/
theorem TreesOk.parent_unique : Relator.RightUnique (ChildOf nodes) := by
  rintro n m m' ⟨y, hy, hn⟩ ⟨y', hy', hn'⟩
  exact (childrenOf_nodup.mp trees.once).2 n m m' y y' hy hy' hn hn'

/-- A child of a tree holds a smaller tree. -/
theorem TreesOk.child_smaller {n m : Nat} {u : HTree} (h : ChildOf nodes n m) (hu : HoldsTree nodes m u) :
    ∃ v, HoldsTree nodes n v ∧ v.size < u.size := by
  obtain ⟨y, hy, hn⟩ := h
  cases u with
  | leaf c =>
    obtain ⟨x, hx, leaf, -⟩ := hu
    obtain rfl : x = y := Option.some.inj (hx.symm.trans hy)
    obtain ⟨left, right⟩ := (trees.shaped x (List.mem_of_getElem? hy)).1 leaf
    simp [kids, left, right] at hn
  | node l r =>
    obtain ⟨x, a, b, hx, -, left, right, hl, hr⟩ := hu
    obtain rfl : x = y := Option.some.inj (hx.symm.trans hy)
    obtain rfl | rfl : n = a ∨ n = b := by simpa [kids, left, right] using hn
    · exact ⟨l, hl, by simp only [HTree.size]; omega⟩
    · exact ⟨r, hr, by simp only [HTree.size]; omega⟩

/-- A node below the top of a tree holds a tree that is no greater. -/
theorem TreesOk.below_holds {n m : Nat} {u : HTree} (h : Relation.ReflTransGen (ChildOf nodes) n m)
    (hu : HoldsTree nodes m u) : ∃ v, HoldsTree nodes n v ∧ v.size ≤ u.size := by
  induction h using Relation.ReflTransGen.head_induction_on with
  | refl => exact ⟨u, hu, le_rfl⟩
  | head step _ ih =>
    obtain ⟨v, hv, le⟩ := ih
    obtain ⟨w, hw, lt⟩ := trees.child_smaller step hv
    exact ⟨w, hw, lt.le.trans le⟩

/-- The two subtrees of a node have no node in common. -/
theorem TreesOk.subtrees_disjoint {n a b m : Nat} {u : HTree} (hu : HoldsTree nodes n u) (ha : ChildOf nodes a n)
    (hb : ChildOf nodes b n) (different : a ≠ b) (hma : Relation.ReflTransGen (ChildOf nodes) m a)
    (hmb : Relation.ReflTransGen (ChildOf nodes) m b) : False := by
  -- of two nodes above `m` one is above the other, and then the parent `n` of both is below one of its own children
  have above : ∀ {c d : Nat}, ChildOf nodes c n → ChildOf nodes d n → c ≠ d →
      ¬ Relation.ReflTransGen (ChildOf nodes) c d := fun {c d} hc hd apart path => by
    obtain eq | ⟨p, hp, rest⟩ := path.cases_head
    · exact apart eq
    · obtain rfl := trees.parent_unique hp hc
      obtain ⟨v, hv, smaller⟩ := trees.child_smaller hd hu
      obtain ⟨w, hw, le⟩ := trees.below_holds rest hv
      obtain rfl := hw.unique hu
      omega
  obtain path | path := Relation.ReflTransGen.total_of_right_unique trees.parent_unique hma hmb
  · exact above ha hb different path
  · exact above hb ha different.symm path

/-- The nodes of a tree, once each. -/
theorem TreesOk.nodesBelow {n : Nat} {u : HTree} (hu : HoldsTree nodes n u) :
    ∃ ms : List Nat, ms.Nodup ∧ ms.length = u.size ∧ ∀ m ∈ ms, Relation.ReflTransGen (ChildOf nodes) m n := by
  induction u generalizing n with
  | leaf c => exact ⟨[n], List.nodup_singleton n, rfl, fun m hm => List.mem_singleton.mp hm ▸ .refl⟩
  | node l r ihl ihr =>
    have whole := hu
    obtain ⟨x, a, b, hx, -, left, right, hl, hr⟩ := hu
    have ha : ChildOf nodes a n := ⟨x, hx, mem_kids.mpr (.inl left)⟩
    have hb : ChildOf nodes b n := ⟨x, hx, mem_kids.mpr (.inr right)⟩
    have different : a ≠ b := by
      simpa [kids, left, right] using (childrenOf_nodup.mp trees.once).1 x (List.mem_of_getElem? hx)
    obtain ⟨ls, ldistinct, llength, lbelow⟩ := ihl hl
    obtain ⟨rs, rdistinct, rlength, rbelow⟩ := ihr hr
    have notBelow : ∀ {c : Nat}, ChildOf nodes c n → ¬ Relation.ReflTransGen (ChildOf nodes) n c := fun {c} hc path => by
      obtain ⟨v, hv, smaller⟩ := trees.child_smaller hc whole
      obtain ⟨w, hw, le⟩ := trees.below_holds path hv
      obtain rfl := hw.unique whole
      omega
    refine ⟨n :: (ls ++ rs), List.nodup_cons.mpr ⟨fun hn => ?_, List.nodup_append'.mpr ⟨ldistinct, rdistinct, ?_⟩⟩, ?_,
      fun m hm => ?_⟩
    · obtain hn | hn := List.mem_append.mp hn
      · exact notBelow ha (lbelow n hn)
      · exact notBelow hb (rbelow n hn)
    · exact fun m hm hm' => trees.subtrees_disjoint whole ha hb different (lbelow m hm) (rbelow m hm')
    · simp only [List.length_cons, List.length_append, llength, rlength, HTree.size]; omega
    · obtain rfl | hm := List.mem_cons.mp hm
      · exact .refl
      · exact (List.mem_append.mp hm).elim (fun h => (lbelow m h).tail ha) fun h => (rbelow m h).tail hb

/-- A tree has no more nodes than the arena that holds it. -/
theorem TreesOk.size_le {n : Nat} {u : HTree} (hu : HoldsTree nodes n u) : u.size ≤ nodes.length := by
  obtain ⟨ms, distinct, length, below⟩ := trees.nodesBelow hu
  have allocated : ms ⊆ List.range nodes.length := fun m hm => by
    obtain ⟨v, hv, -⟩ := trees.below_holds (below m hm) hu
    exact List.mem_range.mpr hv.lt
  rw [← length, ← List.length_range (n := nodes.length)]
  exact (distinct.subperm allocated).length_le

end

/-! ### What the two buffers hold -/

theorem ArenaInv.rootTree {s : State} (hs : ArenaInv s) {r : Nat} (hr : s.root = some r) :
    ∃ u, HoldsTree s.nodes r u :=
  hs.forest r (hs.rootIn r hr)

/-- A tree of the arena has at most 65536 leaves. -/
theorem ArenaInv.leafCount_le {s : State} (hs : ArenaInv s) {r : Nat} {u : HTree} (hu : HoldsTree s.nodes r u) :
    u.leafCount ≤ 65536 := by
  have size := hs.treesOk.size_le hu
  have fits : s.nodes.length ≤ 131071 := hs.fits
  have double := u.size_eq
  omega

theorem entryOf_len_le {s : State} (hs : TableInv s) (c : CharUnit) : (entryOf s.ctab c).len.toNat ≤ 16 := by
  rw [entryOf, tableGet]
  cases found : cellsGet? s.ctab c.toNat with
  | none => exact Nat.zero_le _
  | some e => exact (hs.codes _ (cellsGet?_mem found)).2.1

theorem textBits_length_le {t : Cells CodeEntry} (short : ∀ c, (entryOf t c).len.toNat ≤ 16) {text : List CharUnit}
    {i : Nat} {bits : List Bool} (h : textBits t i text = .ok bits) : bits.length ≤ 16 * text.length := by
  induction text generalizing i bits with
  | nil => obtain rfl := Except.ok.inj h; exact le_rfl
  | cons c rest ih =>
    rw [textBits] at h
    split at h
    · cases h
    · cases tail : textBits t (i + 1) rest with
      | error j => simp [tail] at h
      | ok more =>
        rw [tail] at h
        obtain rfl := Except.ok.inj h
        have first : (entryBits (entryOf t c)).length ≤ 16 := (bitsOf_length ..).trans_le (short c)
        have others := ih tail
        rw [List.length_append, List.length_cons]
        omega

/-! ### The bounds -/

/-- What BufferInv looks at. -/
abbrev State.buffers (s : State) : List Bool × List Bool × Nat := (s.tbuf, s.xbuf, s.caps.txtCap)

theorem BufferInv.congr {s t : State} (hs : BufferInv s) (h : t.buffers = s.buffers) : BufferInv t := by
  obtain ⟨tbuf, xbuf, cap⟩ : t.tbuf = s.tbuf ∧ t.xbuf = s.xbuf ∧ t.caps.txtCap = s.caps.txtCap := by simpa using h
  exact ⟨by rw [State.tcur, tbuf]; exact hs.tcur, by rw [State.xcur, xbuf, cap]; exact hs.xcur⟩

theorem bufferInv_of_empty {s : State} (tbuf : s.tbuf = []) (xbuf : s.xbuf = []) : BufferInv s :=
  ⟨by rw [State.tcur, tbuf]; exact Nat.zero_le _, by rw [State.xcur, xbuf]; exact Nat.zero_le _⟩

theorem enTreeBody_bufferInv {s : State} (arena : ArenaInv s) (hs : BufferInv s) : Ensures (enTreeBody s) BufferInv where
  ok h := by
    obtain ⟨r, bits, hr, -, -⟩ := enTreeBody_ok h
    obtain ⟨u, hu⟩ := arena.rootTree hr
    obtain rfl := Except.ok.inj ((enTreeBody_serialises hr hu).symm.trans h)
    have leaves := arena.leafCount_le hu
    refine ⟨?_, hs.xcur⟩
    rw [State.tcur, u.ser_length_eq]
    omega
  raised h := by obtain ⟨-, rfl, -⟩ := enTreeBody_raised h; exact hs

theorem enTextBody_bufferInv {s : State} (tables : TableInv s) (hs : BufferInv s) : Ensures (enTextBody s) BufferInv where
  ok h := by
    obtain ⟨inside, bits, coded, rfl⟩ := enTextBody_ok h
    have few := textBits_length_le (entryOf_len_le tables) coded
    rw [text_length] at few
    exact ⟨hs.tcur, few.trans (Nat.mul_le_mul_left 16 inside)⟩
  raised h := by obtain ⟨i, -, rfl, -⟩ := enTextBody_raised h; exact ⟨hs.tcur, Nat.zero_le _⟩

/-- What the parts of ENCODE keep for the bounds of the buffers. -/
structure EncodeInv (s : State) : Prop where
  build : BuildInv s
  buffers : BufferInv s

theorem Ensures.and {b : Body} {P Q : State → Prop} (hP : Ensures b P) (hQ : Ensures b Q) :
    Ensures b (fun t => P t ∧ Q t) where
  ok h := ⟨hP.ok h, hQ.ok h⟩
  raised h := ⟨hP.raised h, hQ.raised h⟩

theorem encodeBody_bufferInv (s : State) : Ensures (encodeBody s) BufferInv :=
  encodeBody_ensures (P := EncodeInv) (fun _ hu => hu.buffers.congr rfl)
    (fun u hu => ((tbBuildBody_buildInv hu.build).and (tbBuildBody_frame u)).mono fun _ ⟨build, hv⟩ =>
      ⟨build, hu.buffers.congr (congrArg State.buffers hv :)⟩)
    (fun u hu => ((ctGenBody_tableInv hu.build.tables).and (ctGenBody_frame u)).mono fun _ ⟨tables, hv⟩ =>
      ⟨⟨tables, hu.build.arena.congr (congrArg State.arenaSide hv :)⟩, hu.buffers.congr (congrArg State.buffers hv :)⟩)
    (fun u hu => ((enTreeBody_bufferInv hu.build.arena hu.buffers).and (enTreeBody_frame u)).mono fun _ ⟨buffers, hv⟩ =>
      ⟨⟨hu.build.tables.congr (congrArg State.tables hv :), hu.build.arena.congr (congrArg State.arenaSide hv :)⟩, buffers⟩)
    (fun u hu => ((enTextBody_bufferInv hu.build.tables hu.buffers).and (enTextBody_frame u)).mono fun _ ⟨buffers, hv⟩ =>
      ⟨⟨hu.build.tables.congr (congrArg State.tables hv :), hu.build.arena.congr (congrArg State.arenaSide hv :)⟩, buffers⟩)
    (fun _ hu => hu.buffers)
    (fun u hu => (enEmitBody_frame u).mono fun _ hv => hu.buffers.congr (congrArg State.buffers hv :))
    ⟨⟨tableInv_of_empty rfl, arenaInv_of_empty rfl⟩, bufferInv_of_empty rfl rfl⟩

theorem exec_bufferInv {i : Instr} {s t : State} (hs : EncodeInv s) (h : exec i s = .next t) : BufferInv t := by
  have frame := exec_frame h
  cases i with
  | enTree =>
    obtain ⟨u, hu, ht⟩ := (enTreeBody_bufferInv hs.build.arena hs.buffers).next (i := .enTree) h
    exact ht ▸ hu.congr rfl
  | enText =>
    obtain ⟨u, hu, ht⟩ := (enTextBody_bufferInv hs.build.tables hs.buffers).next (i := .enText) h
    exact ht ▸ hu.congr rfl
  | encode =>
    obtain ⟨u, hu, ht⟩ := (encodeBody_bufferInv s).next (i := .encode) h
    exact ht ▸ hu.congr rfl
  | decode | clr => exact bufferInv_of_empty (congrArg State.tbuf frame :) (congrArg State.xbuf frame :)
  | _ => exact hs.buffers.congr (congrArg State.buffers frame :)

theorem step_bufferInv {s t : State} (hs : EncodeInv s) (h : step s = .next t) : BufferInv t :=
  step_ensures (fun _ hu => hu.buffers) (fun _ _ _ hu => hu.congr rfl) (fun _ _ _ => exec_bufferInv)
    (fun _ _ _ _ hu hw => hu.buffers.congr (congrArg State.buffers (writeReg_frame hw) :))
    (fun _ _ => bufferInv_of_empty rfl rfl)
    (fun _ _ hu => ⟨⟨hu.build.tables.congr rfl, hu.build.arena.congr rfl⟩, hu.buffers.congr rfl⟩) hs h

/-- Settles O54: at most 65536 leaves are serialised, and at most 16 bits per character of the text. -/
theorem bufferBoundsKept : Obligations.BufferBoundsKept := fun _ _ safe hs =>
  step_bufferInv ⟨⟨safe.tables, safe.arena⟩, hs⟩

end Sys2Proof.Machine
end

section
/-!
How the body of each command ends from a safe state: normally, or with one of the errors that `spec/60_exceptions.md`
section 1 lists for it, and never with a fault. Both statements follow: no step stops, and which command raises what.
-/

namespace Sys2Proof.Machine

/-! ### Errors -/

/-- A record of one of the kinds, whose sub-cause is 0 but for CorruptFormat, where it is 1 to 9 and never 8
(`spec/60_exceptions.md` R291, R292). -/
structure Proper (kinds : List ErrKind) (e : ErrorRecord) : Prop where
  kind : e.kind ∈ kinds
  plain : e.kind ≠ .corruptFormat → e.sub = 0
  corrupt : e.kind = .corruptFormat → 1 ≤ e.sub.toNat ∧ e.sub.toNat ≤ 9 ∧ e.sub.toNat ≠ 8

section
variable {kinds : List ErrKind}

theorem proper_plain {k : ErrKind} (pos : Word) (h : k ∈ kinds := by decide)
    (plain : k ≠ .corruptFormat := by decide) : Proper kinds { kind := k, sub := 0, pos := pos } :=
  ⟨h, fun _ => rfl, fun corrupt => absurd corrupt plain⟩

theorem proper_corrupt {e : ErrorRecord} (kind : e.kind = .corruptFormat)
    (sub : e.sub ∈ ([1, 2, 3, 4, 5, 6, 7, 9] : List Word)) (h : ErrKind.corruptFormat ∈ kinds := by decide) :
    Proper kinds e :=
  ⟨kind ▸ h, fun plain => absurd kind plain, fun _ =>
    (by simp : ∀ w ∈ ([1, 2, 3, 4, 5, 6, 7, 9] : List Word), 1 ≤ w.toNat ∧ w.toNat ≤ 9 ∧ w.toNat ≠ 8) _ sub⟩

theorem proper_corruptAt {sub : Nat} (listed : Word.ofNat sub ∈ ([1, 2, 3, 4, 5, 6, 7, 9] : List Word)) (pos : Nat)
    (h : ErrKind.corruptFormat ∈ kinds := by decide) : Proper kinds (corrupt sub pos) :=
  proper_corrupt rfl listed h

end

/-- The body ends normally or raises an error of one of the kinds. -/
def EndsWith (b : Body) (kinds : List ErrKind) : Prop :=
  (∃ t, b = .ok t) ∨ ∃ t e, b = .error (.raised t e) ∧ Proper kinds e

section
variable {kinds : List ErrKind} {b : Body}

theorem endsWith_ok {t : State} (h : b = .ok t) : EndsWith b kinds := .inl ⟨t, h⟩

theorem endsWith_raiseAt {s : State} {k : ErrKind} {pos : Nat} (h : b = raiseAt s k 0 pos)
    (mem : k ∈ kinds := by decide) (plain : k ≠ .corruptFormat := by decide) : EndsWith b kinds :=
  .inr ⟨s, _, h, proper_plain _ mem plain⟩

theorem endsWith_badState {s : State} (h : b = badState s) (mem : .badState ∈ kinds := by decide) : EndsWith b kinds :=
  endsWith_raiseAt h mem

theorem EndsWith.weaken {more : List ErrKind} (h : EndsWith b kinds) (sub : kinds ⊆ more) : EndsWith b more :=
  h.imp id fun ⟨t, e, raised, proper⟩ => ⟨t, e, raised, sub proper.kind, proper.plain, proper.corrupt⟩

end

/-! ### The priority list -/

section
variable {s : State}

theorem plInsBody_endsWith (hs : ArenaInv s) (n : Nat) : EndsWith (plInsBody n s) [.badState] := by
  have bad := fun h => endsWith_badState (kinds := [.badState]) (plInsBody_badState (s := s) (n := n) h)
  cases hx : s.nodes[n]? with
  | none => exact bad fun x hx' => nomatch hx.symm.trans hx'
  | some x =>
    by_cases free : x.inl = false ∧ x.child = false
    · obtain ⟨unlisted, root⟩ := free
      obtain ⟨xs, list⟩ := hs.listed
      have notIn : n ∉ xs := fun hn => Bool.false_ne_true (unlisted.symm.trans ((list.marked n x hx).mpr hn))
      obtain ⟨a, inserted, -⟩ := list.insert hx root notIn
      exact endsWith_ok (plInsBody_inserts hx unlisted root inserted)
    · refine bad fun y hy => ?_
      obtain rfl : x = y := Option.some.inj (hx.symm.trans hy)
      simpa [← Bool.not_eq_true, imp_iff_not_or] using free

theorem plRminBody_endsWith (hs : ArenaInv s) : EndsWith (plRminBody s) [] := by
  obtain ⟨xs, list⟩ := hs.listed
  cases xs with
  | nil => exact endsWith_ok (plRminBody_empty list.chain)
  | cons n ns =>
    obtain ⟨r, removed, -⟩ := list.removeMin
    exact endsWith_ok (plRminBody_removes removed)

theorem plOneBody_endsWith (hs : ArenaInv s) : EndsWith (plOneBody s) [] := by
  obtain ⟨xs, list⟩ := hs.listed
  exact endsWith_ok (plOneBody_stores (hasOne_chain list.chain))

/-! ### The tree builder -/

theorem tbLeafBody_endsWith (s : State) (c : CharUnit) : EndsWith (tbLeafBody c s) [.badState] := by
  obtain room | full := Nat.lt_or_ge s.nodes.length Config.nodeMax
  · exact endsWith_ok (tbLeafBody_appends room c)
  · exact endsWith_raiseAt (tbLeafBody_full full c)

theorem tbLeavesBody_endsWith (s : State) : EndsWith (tbLeavesBody s) [] := by
  obtain ⟨a, added, -⟩ := addLeaves_leavesOf s.freq leavesOf_nil
  exact endsWith_ok (tbLeavesBody_adds added)

theorem ArenaInv.listIs (hs : ArenaInv s) : ∃ xs, ListIs s xs := hs.list.imp fun _ h => h.1

theorem tbMergeBody_endsWith (hs : ArenaInv s) : EndsWith (tbMergeBody s) [.badState] := by
  have bad := fun h => endsWith_badState (b := tbMergeBody s) (s := s) (kinds := [.badState]) h
  obtain ⟨xs, list⟩ := hs.listIs
  match xs with
  | [] | [_] => exact bad (tbMergeBody_tooFew list (by simp))
  | a :: b :: ys =>
    obtain room | full := Nat.lt_or_ge s.nodes.length Config.nodeMax
    · obtain fits | overflow := le_or_gt ((wtAt s.nodes a).toNat + (wtAt s.nodes b).toNat) 0xFFFFFFFF
      · obtain ⟨t, x, merged, -⟩ := tbMergeBody_merges list room fits
        exact endsWith_ok merged
      · exact bad (tbMergeBody_overflow list overflow)
    · exact bad (tbMergeBody_full list full)

theorem tbRootBody_endsWith (hs : ArenaInv s) : EndsWith (tbRootBody s) [.badState] := by
  obtain ⟨xs, list⟩ := hs.listIs
  by_cases one : xs.length = 1
  · obtain ⟨r, rfl⟩ := List.length_eq_one_iff.mp one
    obtain ⟨t, x, -, taken, -⟩ := tbRootBody_takes list.chain
    exact endsWith_ok taken
  · exact endsWith_raiseAt (tbRootBody_notOne list one)

theorem tbBuildBody_endsWith (hcap : s.txtLen.toNat ≤ s.caps.txtCap) : EndsWith (tbBuildBody s) [.invalidArgument] := by
  by_cases hne : s.txtLen = 0
  · exact endsWith_raiseAt (tbBuildBody_emptyText hne)
  · obtain ⟨t, r, u, built, -⟩ := tbBuildBody_builds hne hcap
    exact endsWith_ok built

/-! ### The code table and the encoder -/

theorem ctGenBody_endsWith (hs : ArenaInv s) : EndsWith (ctGenBody s) [.codeOverflow, .badState] := by
  cases hr : s.root with
  | none => exact endsWith_raiseAt (ctGenBody_noTree hr)
  | some r =>
    obtain ⟨u, hu⟩ := hs.rootTree hr
    obtain ⟨c, overflow⟩ | ⟨c, -, gen⟩ := ctGenBody_ends hr hu
    · exact endsWith_raiseAt overflow
    · exact endsWith_ok gen

theorem enTreeBody_endsWith (hs : ArenaInv s) : EndsWith (enTreeBody s) [.badState] := by
  cases hr : s.root with
  | none => exact endsWith_raiseAt (enTreeBody_noTree hr)
  | some r =>
    obtain ⟨u, hu⟩ := hs.rootTree hr
    exact endsWith_ok (enTreeBody_serialises hr hu)

theorem enTextBody_endsWith (hcap : s.txtLen.toNat ≤ s.caps.txtCap) : EndsWith (enTextBody s) [.badState] := by
  cases bits : textBits s.ctab 0 s.text with
  | ok xs => exact endsWith_ok (enTextBody_writes hcap bits)
  | error i => exact endsWith_raiseAt (enTextBody_stops hcap bits)

theorem enEmitBody_endsWith (s : State) : EndsWith (enEmitBody s) [.storageError, .badState] := by
  by_cases empty : s.tbuf = [] ∨ s.xbuf = []
  · exact endsWith_raiseAt (enEmitBody_emptyBuffer empty)
  · obtain ⟨tree, text⟩ := not_or.mp empty
    obtain ⟨-, noRoom⟩ | ⟨-, written⟩ := enEmitBody_ends tree text
    · exact endsWith_raiseAt noRoom
    · exact endsWith_ok written

theorem encodeBody_endsWith (hcap : s.txtLen.toNat ≤ s.caps.txtCap) :
    EndsWith (encodeBody s) [.storageError, .codeOverflow] := by
  by_cases hne : s.txtLen = 0
  · exact endsWith_ok (encodeBody_emptyText hne)
  · obtain ⟨t, r, u, -, ⟨c, overflow⟩ | ⟨c, full, -, -, ⟨-, noRoom⟩ | ⟨-, written⟩⟩⟩ := encodeBody_ends hne hcap
    · exact endsWith_raiseAt overflow
    · exact endsWith_raiseAt noRoom
    · exact endsWith_ok written

/-! ### The decoder -/

theorem checkHeader_proper {e : ErrorRecord} (h : checkHeader s = .error e) :
    Proper [.unsupportedVersion, .corruptFormat] e := by
  obtain ⟨-, ⟨kind, sub⟩ | ⟨kind, sub⟩⟩ := checkHeader_error h
  · exact ⟨kind ▸ .head _, fun _ => sub, fun corrupt => nomatch kind.symm.trans corrupt⟩
  · exact proper_corrupt kind (List.mem_append_left [6, 7, 9] sub)

theorem deHdrBody_endsWith (hcap : s.filLen.toNat ≤ s.caps.filCap) :
    EndsWith (deHdrBody s) [.unsupportedVersion, .corruptFormat] := by
  by_cases hne : s.filLen = 0
  · exact endsWith_ok (deHdrBody_emptyFile hne)
  · rw [deHdrBody_checks hne hcap]
    cases checks : checkHeader s with
    | ok hd => exact endsWith_ok rfl
    | error e => exact .inr ⟨_, e, rfl, checkHeader_proper checks⟩

/-- DE.TREE behind a header. -/
theorem deTreeBody_endsWith (hv : s.flags.hdrv = true) (start : 32 ≤ s.hdr.tend.toNat)
    (inside : s.hdr.tend.toNat ≤ 8 * s.caps.filCap) : EndsWith (deTreeBody s) [.corruptFormat] := by
  obtain ⟨sub, pos, cause, -, stopped⟩ | ⟨u, -, -, decoded⟩ := deTreeBody_ends hv start inside
  · obtain rfl | rfl := cause <;> exact .inr ⟨_, _, stopped, proper_corruptAt (by decide) pos⟩
  · exact endsWith_ok decoded

/-- A loop of DE.TEXT fails for lack of a cell or at a 1 bit under a tree of one leaf (`spec/44_decoder.md` R255,
R256). -/
def ReadsText (walk : Except TextStop (Nat × Cells CharUnit)) : Prop :=
  (∃ n txt, walk = .ok (n, txt)) ∨ ∃ txt e, walk = .error (.fail txt e) ∧ Proper [.storageError, .corruptFormat] e

theorem oneLeafText_readsText (s : State) (c : CharUnit) (k p n : Nat) (txt : Cells CharUnit) :
    ReadsText (oneLeafText s c k p n txt) := by
  induction k generalizing p n txt with
  | zero => exact .inl ⟨n, txt, rfl⟩
  | succ k ih =>
    rw [oneLeafText, emit]
    split
    · exact .inr ⟨_, _, rfl, proper_corruptAt (by decide) p⟩
    · by_cases full : s.caps.txtCap ≤ n
      · rw [if_pos full]
        exact .inr ⟨_, _, rfl, proper_plain _⟩
      · rw [if_neg full]
        exact ih _ _ _

/-- DE.TEXT behind a header and a tree. -/
theorem deTextBody_endsWith {r : Nat} {u : HTree} (hv : s.flags.hdrv = true) (hr : s.root = some r)
    (inside : s.hdr.xend.toNat ≤ 8 * s.caps.filCap) (hu : HoldsTree s.nodes r u) :
    EndsWith (deTextBody s) [.storageError, .corruptFormat] := by
  obtain ⟨walk, reads, body⟩ : ∃ walk, ReadsText walk ∧ deTextBody s = textOutcome s walk := by
    cases u with
    | leaf c => exact ⟨_, oneLeafText_readsText .., deTextBody_leaf hv hr inside hu⟩
    | node l l' =>
      refine ⟨_, ?_, deTextBody_node hv hr inside hu⟩
      obtain ⟨-, walk⟩ | ⟨_, _, -, walk⟩ := walkText_fromRoot hu _ _ rfl
      · exact .inl ⟨_, _, walk⟩
      · exact .inr ⟨_, _, walk, proper_plain _⟩
  obtain ⟨n, txt, rfl⟩ | ⟨txt, e, rfl, proper⟩ := reads
  · exact endsWith_ok body
  · exact .inr ⟨_, e, body, proper⟩

theorem decodeBody_endsWith (hs : MemoryInv s) :
    EndsWith (decodeBody s) [.storageError, .unsupportedVersion, .corruptFormat] := by
  by_cases hne : s.filLen = 0
  · exact endsWith_ok (decodeBody_emptyFile hne)
  cases checks : checkHeader s with
  | error e =>
    rw [decodeBody_badHeader hne hs.filLen checks]
    exact EndsWith.weaken (.inr ⟨_, e, rfl, checkHeader_proper checks⟩) (by decide)
  | ok hd =>
    obtain ⟨start, treeInside, textInside⟩ := checkHeader_offsets hs.caps hs.filLen checks
    rw [decodeBody_goodHeader hne hs.filLen checks]
    obtain ⟨sub, pos, cause, -, stopped⟩ | ⟨u, -, -, decoded⟩ := deTreeBody_ends (s := s.withHeader hd) rfl start
      (by simpa using treeInside)
    · rw [stopped]
      obtain rfl | rfl := cause <;> exact .inr ⟨_, _, rfl, proper_corruptAt (by decide) pos⟩
    · rw [decoded, body_ok_bind]
      exact (deTextBody_endsWith (s := (s.withHeader hd).withDecodedTree u (32 + u.ser.length)) rfl rfl
        (by simpa using textInside) (withDecodedTree_holds _ u _)).weaken (by decide)

/-! ### Every command -/

/-- What a command can raise (`spec/60_exceptions.md` R292). -/
def errorsOf (i : Instr) : List ErrKind :=
  match i with
  | .plIns _ | .tbLeaf _ | .tbMerge | .tbRoot | .enTree | .enText => [.badState]
  | .plRmin | .plOne | .tbCount | .tbLeaves | .ctLookup _ | .nop | .clr => []
  | .tbBuild => [.invalidArgument]
  | .ctGen => [.codeOverflow, .badState]
  | .enEmit => [.storageError, .badState]
  | .encode => [.storageError, .codeOverflow]
  | .deHdr => [.unsupportedVersion, .corruptFormat]
  | .deTree => [.corruptFormat, .badState]
  | .deText => [.storageError, .corruptFormat, .badState]
  | .decode => [.storageError, .unsupportedVersion, .corruptFormat]

theorem ok_notMem_errorsOf (i : Instr) : ErrKind.ok ∉ errorsOf i := by
  unfold errorsOf
  split <;> decide

/-- Where a header is held, its offsets are inside FIL, behind the header bytes. -/
theorem HeaderInv.offsets (hs : HeaderInv s) (hv : s.flags.hdrv = true) :
    32 ≤ s.hdr.tend.toNat ∧ s.hdr.tend.toNat ≤ 8 * s.caps.filCap ∧ s.hdr.xend.toNat ≤ 8 * s.caps.filCap := by
  obtain ⟨tree, -⟩ := hs.tlen hv
  obtain ⟨-, bits⟩ := hs.tbits hv
  have tend := hs.tend hv
  have xstart := hs.xstart hv
  obtain ⟨order, inside⟩ := hs.xend hv
  rw [Config.treeBytesMin] at tree
  omega

theorem bodyOf_endsWith (hs : SafeState s) (i : Instr) : EndsWith (bodyOf i s) (errorsOf i) := by
  cases i with
  | plIns n => exact plInsBody_endsWith hs.arena n
  | plRmin => exact plRminBody_endsWith hs.arena
  | plOne => exact plOneBody_endsWith hs.arena
  | tbLeaf c => exact tbLeafBody_endsWith s c
  | tbCount => exact endsWith_ok (tbCountBody_counts hs.memory.txtLen)
  | tbLeaves => exact tbLeavesBody_endsWith s
  | tbMerge => exact tbMergeBody_endsWith hs.arena
  | tbRoot => exact tbRootBody_endsWith hs.arena
  | tbBuild => exact tbBuildBody_endsWith hs.memory.txtLen
  | ctGen => exact ctGenBody_endsWith hs.arena
  | ctLookup c => exact endsWith_ok rfl
  | enTree => exact enTreeBody_endsWith hs.arena
  | enText => exact enTextBody_endsWith hs.memory.txtLen
  | enEmit => exact enEmitBody_endsWith s
  | encode => exact encodeBody_endsWith hs.memory.txtLen
  | deHdr => exact deHdrBody_endsWith hs.memory.filLen
  | deTree =>
    cases hv : s.flags.hdrv with
    | false => exact endsWith_raiseAt (deTreeBody_noHeader hv)
    | true =>
      obtain ⟨start, inside, -⟩ := hs.header.offsets hv
      exact (deTreeBody_endsWith hv start inside).weaken (by decide)
  | deText =>
    have bad := fun h => endsWith_badState (deTextBody_noTree (s := s) h) (kinds := [.storageError, .corruptFormat, .badState])
    cases hv : s.flags.hdrv with
    | false => exact bad (.inl hv)
    | true =>
      cases hr : s.root with
      | none => exact bad (.inr hr)
      | some r =>
        obtain ⟨u, hu⟩ := hs.arena.rootTree hr
        exact (deTextBody_endsWith hv hr (hs.header.offsets hv).2.2 hu).weaken (by decide)
  | decode => exact decodeBody_endsWith hs.memory
  | nop => exact endsWith_ok rfl
  | clr => exact endsWith_ok rfl

end

/-- A command from a safe state answers a next state. -/
theorem exec_answers {s : State} (hs : SafeState s) (i : Instr) : ∃ t, exec i s = .next t := by
  rw [exec_eq_finish]
  obtain ⟨t, ok⟩ | ⟨t, e, raised, -⟩ := bodyOf_endsWith hs i
  · exact ⟨_, congrArg finish ok⟩
  · exact ⟨_, congrArg finish raised⟩

theorem hostStep_answers {s : State} (hs : SafeState s) (op : HostOp) : ∃ t, hostStep op s = .next t := by
  cases op with
  | reset => exact ⟨_, rfl⟩
  | read r =>
    obtain ⟨refused, answered, -⟩ := herrRefusesExactlyThese s r hs.memory
    by_cases h : readRefused s r
    · exact ⟨_, refused h⟩
    · obtain ⟨v, hv⟩ := answered h
      exact ⟨_, hv⟩
  | write r v =>
    by_cases cmd : r = 0
    · subst cmd
      cases word : decodeWord v with
      | ok i =>
        obtain ⟨t, ht⟩ := exec_answers hs i
        exact ⟨t.answer .ok, (hostStep_cmd word s).trans (congrArg answerOk ht)⟩
      | error e => exact ⟨_, by rw [hostStep, if_pos rfl, execWord, word]; rfl⟩
    · obtain ⟨-, -, writes⟩ := herrRefusesExactlyThese s r hs.memory
      obtain ⟨refused, stored, -⟩ := writes v
      by_cases h : writeRefused s r v
      · exact ⟨_, refused h⟩
      · exact (stored h cmd).imp fun _ ht => ht.1

/-- The invariants do not look at the queue. -/
theorem SafeState.withPending {s : State} (hs : SafeState s) (rest : List HostOp) :
    SafeState { s with pending := rest } where
  memory :=
    have m := hs.memory
    ⟨m.caps, m.txt, m.fil, m.txtLen, m.filLen, m.txtAddr, m.filAddr, m.nodeAddr⟩
  tables := hs.tables.congr rfl
  arena := hs.arena.congr rfl
  header := hs.header.congr rfl

/-- Settles O56: commands end normally or with an error, every other operation is answered or refused. -/
theorem stepNeverStops : Obligations.StepNeverStops := by
  intro s hs
  cases pending : s.pending with
  | nil => exact ⟨s, step_idle pending⟩
  | cons op rest =>
    rw [step_serves pending]
    exact hostStep_answers (hs.withPending rest) op

/-- The error record that a command leaves. -/
theorem exec_error {i : Instr} {s t : State} (hs : SafeState s) (h : exec i s = .next t) :
    (t.error.kind = .ok → t.error.sub = 0 ∧ t.error.pos = 0) ∧ (t.error.kind ≠ .corruptFormat → t.error.sub = 0) ∧
    (t.error.kind = .corruptFormat → 1 ≤ t.error.sub.toNat ∧ t.error.sub.toNat ≤ 9 ∧ t.error.sub.toNat ≠ 8) ∧
    t.error.kind ∈ ErrKind.ok :: errorsOf i := by
  rw [exec_eq_finish] at h
  obtain ⟨u, body⟩ | ⟨u, e, body, proper⟩ := bodyOf_endsWith hs i <;> rw [body] at h
  · obtain rfl : u.done = t := Host.Outcome.next.inj h
    exact ⟨fun _ => ⟨rfl, rfl⟩, fun _ => rfl, nofun, .head _⟩
  · obtain rfl : u.raise e = t := Host.Outcome.next.inj h
    exact ⟨fun ok => absurd (ok ▸ proper.kind) (ok_notMem_errorsOf i), proper.plain, proper.corrupt, .tail _ proper.kind⟩

/-- Settles O60: the errors of each body, and the record that `done` clears. -/
theorem errorsOfEachCommand : Obligations.ErrorsOfEachCommand := by
  intro i s t hs h
  obtain ⟨done, plain, corrupt, kind⟩ := exec_error hs h
  refine ⟨done, plain, corrupt, ?_⟩
  cases i <;> exact kind

end Sys2Proof.Machine
end

section
/-!
DECODE on a file of the format (`spec/30_encoding.md` section 2): what the checks of the header find in it, which bits the
two regions hold, and what the three parts of DECODE make of them.
-/

namespace Sys2Proof.Machine

/-! ### The layout of a file -/

/-- FIL holds exactly the file of the two bit streams (`spec/30_encoding.md` R105). -/
structure HoldsFile (s : State) (tree text : List Bool) : Prop where
  length : s.filLen.toNat = (fileBytes tree text).length
  bytes : ∀ (i : Nat) (b : Byte), (fileBytes tree text)[i]? = some b → s.readFil i = b

/-- The header registers for such a file. -/
def fileHeader (tree text : List Bool) : Header :=
  headerOf 0 (ceil8 tree.length) (lastBits tree.length) (lastBits text.length) (fileBytes tree text).length

/-- The bytes before the last and the bits of the last, one to eight, are the whole stream (`spec/30_encoding.md`
R108). -/
theorem lastBits_spec {bits : List Bool} (h : bits ≠ []) :
    8 * ceil8 bits.length + lastBits bits.length = bits.length + 8 ∧ 1 ≤ lastBits bits.length ∧
      lastBits bits.length ≤ 8 := by
  have := List.length_pos_of_ne_nil h
  rw [ceil8, lastBits]
  omega

section
variable {s : State} {tree text : List Bool}

/-- The offsets of the header are those of the two streams, when the file is no longer than FIL can be. -/
theorem fileHeader_offsets (hne : tree ≠ []) (hne' : text ≠ []) (small : (fileBytes tree text).length < 2 ^ 29) :
    (fileHeader tree text).tend.toNat = 32 + tree.length ∧
    (fileHeader tree text).xstart.toNat = 8 * (4 + ceil8 tree.length) ∧
    (fileHeader tree text).xend.toNat = 8 * (4 + ceil8 tree.length) + text.length := by
  obtain ⟨treeBits, -, treeTail⟩ := lastBits_spec hne
  obtain ⟨textBits, -, textTail⟩ := lastBits_spec hne'
  have first := List.length_pos_of_ne_nil hne
  have first' := List.length_pos_of_ne_nil hne'
  rw [fileBytes_length] at small
  simp only [fileHeader, headerOf, fileBytes_length]
  rw [toNat_wordOfNat (by omega), toNat_wordOfNat (by omega), toNat_wordOfNat (by omega)]
  omega

section
variable (file : HoldsFile s tree text)
include file

/-- The value of a header byte. -/
theorem HoldsFile.headerByte {i n : Nat} (hi : i < 4)
    (hb : (headerBytes (ceil8 tree.length) (lastBits tree.length) (lastBits text.length))[i]? = some (BitVec.ofNat 8 n))
    (hn : n < 256) : (s.readFil i).toNat = n := by
  rw [file.bytes i _ ((fileBytes_header tree text hi).trans hb), BitVec.toNat_ofNat, Nat.mod_eq_of_lt hn]

/-- The header passes every check (`spec/44_decoder.md` R241, R243). -/
theorem HoldsFile.checkHeader (least : 17 ≤ tree.length) (most : tree.length ≤ 1179648) (hne : text ≠ []) :
    checkHeader s = .ok (fileHeader tree text) := by
  obtain ⟨treeBits, treeHead, treeTail⟩ := lastBits_spec (List.ne_nil_of_length_pos (by omega : 0 < tree.length))
  obtain ⟨textBits, textHead, textTail⟩ := lastBits_spec hne
  have first := List.length_pos_of_ne_nil hne
  have byte0 := file.headerByte (by decide : 0 < 4) rfl (by omega)
  have byte1 := file.headerByte (by decide : 1 < 4) rfl (by omega)
  have byte2 := file.headerByte (by decide : 2 < 4) rfl (by omega)
  have byte3 := file.headerByte (by decide : 3 < 4) rfl (by omega)
  have version : s.fileVersion = 0 := by rw [State.fileVersion, byte0]; omega
  have treeLength : s.fileTreeLength = ceil8 tree.length := by
    rw [State.fileTreeLength, byte0, byte1, byte2]; omega
  have treeField : s.fileTreeBits = lastBits tree.length := by rw [State.fileTreeBits, byte3]; omega
  have textField : s.fileTextBits = lastBits text.length := by rw [State.fileTextBits, byte3]; omega
  have total := fileBytes_length tree text
  rw [Machine.checkHeader, version, treeLength, treeField, textField, file.length]
  exact ((if_neg (by omega : ¬ _ < 8)).trans <| (if_neg (Nat.not_lt_zero 0)).trans <|
    (if_neg (by omega : ¬ (_ < 3 ∨ 147456 < _))).trans <| (if_neg (by omega)).trans <| (if_neg (by omega)).trans <|
    if_neg (by omega))

/-- The tree region begins with the tree stream (`spec/30_encoding.md` R105). -/
theorem HoldsFile.treeBits : s.fileBits 32 tree.length = tree :=
  fileBits_packed s 4 (ceil8 tree.length) tree (fun i hi => file.bytes _ _ (by
    rw [fileBytes_tree tree text hi, packBytes_get _ _ _ hi])) (by rw [ceil8]; omega)

/-- The text region begins with the text stream. -/
theorem HoldsFile.textBits : s.fileBits (8 * (4 + ceil8 tree.length)) text.length = text :=
  fileBits_packed s (4 + ceil8 tree.length) (ceil8 text.length) text (fun i hi => file.bytes _ _ (by
    rw [fileBytes_text tree text i, packBytes_get _ _ _ hi])) (by rw [ceil8]; omega)

end

end

/-! ### What DE.TEXT makes of bits that spell a text -/

/-- The characters that bits spell do not depend on the offset of the first. -/
theorem HTree.emits_chars_offset (root cur : HTree) (p q : Nat) (bits : List Bool) :
    (HTree.emits root cur p bits).map Prod.fst = (HTree.emits root cur q bits).map Prod.fst := by
  induction bits generalizing cur p q with
  | nil => rfl
  | cons b rest ih =>
    cases cur with
    | leaf c => rfl
    | node l r =>
      simp only [HTree.emits]
      cases (if b then r else l) with
      | leaf c => exact congrArg (c :: ·) (ih root (p + 1) (q + 1))
      | node l' r' => exact ih (.node l' r') (p + 1) (q + 1)

/-- The text is what was written from the first cell on. -/
theorem text_putAll {s t : State} {vs : List CharUnit} (written : t.txt = cellsPutAll s.txt 0 vs)
    (resets : t.resets = s.resets) (length : t.txtLen.toNat = vs.length) : t.text = vs := by
  refine List.ext_getElem? fun i => ?_
  by_cases hi : i < vs.length
  · rw [State.text, textFrom_get _ _ _ _ (length ▸ hi), Nat.zero_add, readTxt_putAll written resets,
      List.getElem?_eq_getElem hi, Option.getD_some]
  · rw [List.getElem?_eq_none (by simpa [length] using hi), List.getElem?_eq_none (Nat.le_of_not_lt hi)]

/-- The state behind a DE.TEXT that wrote the text `out`. -/
def State.withText (s : State) (out : List CharUnit) : State :=
  { s with txt := cellsPutAll s.txt 0 out, txtLen := Word.ofNat out.length, rcur := s.hdr.xend }

@[simp] theorem withText_resets (s : State) (out : List CharUnit) : (s.withText out).resets = s.resets := rfl

theorem deTextBody_spells {s : State} {r : Nat} {u : HTree} {out : List CharUnit} (hv : s.flags.hdrv = true)
    (hr : s.root = some r) (inside : s.hdr.xend.toNat ≤ 8 * s.caps.filCap) (hu : HoldsTree s.nodes r u)
    (spells : u.spells (s.fileBits s.hdr.xstart.toNat (s.hdr.xend.toNat - s.hdr.xstart.toNat)) = some out)
    (fits : out.length ≤ s.caps.txtCap) : deTextBody s = .ok (s.withText out) := by
  cases u with
  | leaf c =>
    rw [HTree.spells, Option.ite_none_right_eq_some, Option.some.injEq, fileBits_length] at spells
    obtain ⟨zeros, rfl⟩ := spells
    rw [List.length_replicate] at fits
    obtain ⟨walk, -⟩ := oneLeafText_spec s c (s.hdr.xend.toNat - s.hdr.xstart.toNat) s.hdr.xstart.toNat 0 s.txt
    rw [deTextBody_leaf hv hr inside hu, walk (fun j hj => ?_) (by omega)]
    · simp [textOutcome, State.withText]
    · have bit := List.mem_of_getElem? (fileBits_get s s.hdr.xstart.toNat _ j hj)
      simpa using List.all_eq_true.mp zeros _ bit
  | node l l' =>
    rw [HTree.spells, Option.some.injEq, HTree.emits_chars_offset _ _ 0 s.hdr.xstart.toNat] at spells
    have length := congrArg List.length spells
    rw [List.length_map] at length
    rw [deTextBody_node hv hr inside hu]
    obtain ⟨-, walk⟩ | ⟨c, q, tooMany, -⟩ := walkText_fromRoot hu (s.hdr.xend.toNat - s.hdr.xstart.toNat)
      s.hdr.xstart.toNat rfl
    · rw [walk, List.take_of_length_le (length.trans_le fits), spells, length]
      rfl
    · rw [List.getElem?_eq_none (length.trans_le fits)] at tooMany
      cases tooMany

/-! ### DECODE -/

/-- The state that DECODE leaves on a file of the tree `u` and the text stream `bits`, which the tree spells to `out`. -/
def State.decoded (s : State) (u : HTree) (bits : List Bool) (out : List CharUnit) : State :=
  ((s.withHeader (fileHeader u.ser bits)).withDecodedTree u (32 + u.ser.length)).withText out

section
variable (s : State) (u : HTree) (bits : List Bool) (out : List CharUnit)

theorem decoded_txtLen : (s.decoded u bits out).txtLen = Word.ofNat out.length := rfl
theorem decoded_resets : (s.decoded u bits out).resets = s.resets := by simp [State.decoded]

theorem decoded_txt : (s.decoded u bits out).txt = cellsPutAll s.txt 0 out := by
  have cleared : (s.withHeader (fileHeader u.ser bits)).txt = s.txt := by simp [State.setHeader, State.clearedForDecode]
  exact congrArg (cellsPutAll · 0 out) cleared

end

theorem decoded_text {s : State} {u : HTree} {bits : List Bool} {out : List CharUnit} (small : out.length < 2 ^ 32) :
    (s.decoded u bits out).text = out :=
  text_putAll (decoded_txt s u bits out) (decoded_resets s u bits out)
    ((congrArg BitVec.toNat (decoded_txtLen s u bits out)).trans (toNat_wordOfNat small))

theorem decodeBody_file {s : State} {u : HTree} {text : List Bool} {out : List CharUnit} (hs : MemoryInv s)
    (leaves : u.leafCount ≤ 65536) (hne : text ≠ []) (file : HoldsFile s u.ser text) (spells : u.spells text = some out)
    (fits : out.length ≤ s.caps.txtCap) : decodeBody s = .ok (s.decoded u text out) := by
  have treeLength := u.ser_length
  have count := u.leafCount_pos
  have room := hs.filLen
  rw [file.length] at room
  obtain ⟨-, -, small⟩ := hs.caps
  have checks := file.checkHeader (by omega) (by omega) hne
  obtain ⟨tend, xstart, xend⟩ := fileHeader_offsets u.ser_ne_nil hne (by omega)
  have nonempty : s.filLen ≠ 0 := fun none => by
    have length := file.length
    rw [none, fileBytes_length] at length
    exact absurd length (by simp; omega)
  obtain ⟨-, treeInside, textInside⟩ := checkHeader_offsets hs.caps hs.filLen checks
  have tree := deTreeBody_ser (s := s.withHeader (fileHeader u.ser text)) (u := u) rfl (by simpa using treeInside) leaves
    tend.ge (by
      rw [State.treeBits, fileBits_congr _ s (by simp [State.readFil])]
      have region := (congrArg (s.fileBits 32) (Nat.sub_eq_of_eq_add' tend)).trans file.treeBits
      exact (congrArg (u.ser <+: ·) region).mpr List.prefix_rfl)
  rw [decodeBody_goodHeader nonempty hs.filLen checks, tree, body_ok_bind]
  refine deTextBody_spells rfl rfl (by simpa using textInside) (withDecodedTree_holds _ u _) ?_ (by simpa using fits)
  rw [fileBits_congr _ s (by simp [State.readFil]), withDecodedTree_hdr]
  have region : s.fileBits (fileHeader u.ser text).xstart.toNat
      ((fileHeader u.ser text).xend.toNat - (fileHeader u.ser text).xstart.toNat) = text := by
    rw [xend, xstart, Nat.add_sub_cancel_left]
    exact file.textBits
  exact (congrArg u.spells region).trans spells

/-- Settles O46: the header passes, `Parse` finds the tree and the walk writes the characters it spells. -/
theorem decodeReadsTheFile : Obligations.DecodeReadsTheFile := by
  intro s u text out hs leaves hne length bytes spells fits
  have body := decodeBody_file hs leaves hne ⟨length, bytes⟩ spells fits
  have small := fits.trans hs.caps.2.1
  have next : exec .decode s = .next (s.decoded u text out).done := congrArg finish body
  refine ⟨_, next, ?_, (text_done _).trans (decoded_text (by omega))⟩
  exact (exec_frame next).trans rfl

end Sys2Proof.Machine
end

section
/-!
DECODE of the file that ENCODE wrote (`spec/43_encoder.md` R225): the codes of a text spell the text.
-/

namespace Sys2Proof.Machine

/-! ### The codes of a text spell it -/

/-- A path of the tree walks to its leaf, emits its character and starts again at the root. -/
theorem HTree.emits_path {root l r : HTree} {c : CharUnit} {path : List Bool} (h : (c, path) ∈ (HTree.node l r).paths)
    (p : Nat) (rest : List Bool) :
    (HTree.emits root (.node l r) p (path ++ rest)).map Prod.fst = c :: (HTree.emits root root 0 rest).map Prod.fst := by
  induction path generalizing l r p with
  | nil => simp [HTree.paths] at h
  | cons b path ih =>
    have below : (c, path) ∈ (if b then r else l).paths := by
      rw [HTree.paths] at h
      cases b <;> simpa using h
    rw [List.cons_append, HTree.emits]
    cases child : (if b then r else l) with
    | leaf d =>
      rw [child, HTree.paths, List.mem_singleton, Prod.mk.injEq] at below
      obtain ⟨rfl, rfl⟩ := below
      exact congrArg (c :: ·) (HTree.emits_chars_offset root root (p + 1) 0 rest)
    | node l' r' => exact ih (child ▸ below) (p + 1)

/-- Every character of the tree has its whole path for a code. -/
theorem TableOf.entryBits_mem {u : HTree} {t : Codes} (h : TableOf u t) {c : CharUnit} (hc : c ∈ u.chars) :
    (c, entryBits (entryOf t.ctab c)) ∈ u.codes :=
  (h.codes.entry_holdsWholePath h.fits c).2 (h.len_ne_zero hc)

theorem TableOf.spells {u : HTree} {t : Codes} (h : TableOf u t) {text : List CharUnit} (covered : ∀ c ∈ text, c ∈ u.chars) :
    u.spells (joinedCodes t.ctab text) = some text := by
  have coded : ∀ c ∈ text, (c, entryBits (entryOf t.ctab c)) ∈ u.codes := fun c hc => h.entryBits_mem (covered c hc)
  cases u with
  | leaf d =>
    have single : ∀ c ∈ text, c = d ∧ entryBits (entryOf t.ctab c) = [false] := fun c hc => by
      simpa [HTree.codes] using coded c hc
    have text_eq : text = List.replicate text.length d := List.eq_replicate_iff.mpr ⟨rfl, fun c hc => (single c hc).1⟩
    have bits : joinedCodes t.ctab text = List.replicate text.length false := by
      rw [joinedCodes, List.map_congr_left fun c hc => (single c hc).2]
      simp [List.map_const', List.flatten_replicate_singleton]
    rw [bits, HTree.spells, if_pos (by simp), List.length_replicate, ← text_eq]
  | node l r =>
    rw [HTree.spells]
    congr 1
    clear covered
    induction text with
    | nil => rfl
    | cons c cs ih =>
      obtain ⟨first, others⟩ := List.forall_mem_cons.mp coded
      exact (HTree.emits_path first 0 _).trans (congrArg (c :: ·) (ih others))

/-! ### The round trip -/

theorem TreeBuilt.leafCount_le {s t : State} {r : Nat} {u : HTree} (h : TreeBuilt s t r u) : u.leafCount ≤ 65536 := by
  rw [← u.chars_length, h.chars.length_eq, List.length_map]
  exact distinctChars_length_le s.text

theorem text_eq_nil {s : State} (h : s.txtLen = 0) : s.text = [] :=
  List.eq_nil_of_length_eq_zero ((text_length s).trans (congrArg BitVec.toNat h))

/-- EN.EMIT leaves exactly the file of its two buffers. -/
theorem holdsFile_emitted {s : State} (caps : s.caps.Legal) (room : 4 + ceil8 s.tcur + ceil8 s.xcur ≤ s.caps.filCap) :
    HoldsFile s.emitted s.tbuf s.xbuf where
  length := (filLen_emitted_toNat caps room).trans (fileBytes_length ..).symm
  bytes i b hb := by rw [readFil_emitted, hb, Option.getD_some]

theorem HoldsFile.done {s : State} {tree text : List Bool} (h : HoldsFile s tree text) : HoldsFile s.done tree text :=
  ⟨h.length, h.bytes⟩

/-- An empty file gives an empty text. -/
theorem exec_decode_emptyFile {s : State} (h : s.filLen = 0) :
    ∃ t, exec .decode s = .next t ∧ t.error = ErrorRecord.clear ∧ t.txtLen = 0 ∧ t.text = [] :=
  ⟨_, congrArg finish (decodeBody_emptyFile h), rfl, rfl, text_eq_nil rfl⟩

/-- A file of the format gives the text that its bits spell. -/
theorem exec_decode_file {s : State} {u : HTree} {text : List Bool} {out : List CharUnit} (hs : MemoryInv s)
    (leaves : u.leafCount ≤ 65536) (hne : text ≠ []) (file : HoldsFile s u.ser text) (spells : u.spells text = some out)
    (fits : out.length ≤ s.caps.txtCap) :
    ∃ t, exec .decode s = .next t ∧ t.error = ErrorRecord.clear ∧ t.txtLen = Word.ofNat out.length ∧ t.text = out := by
  have small := fits.trans hs.caps.2.1
  have next : exec .decode s = .next (s.decoded u text out).done :=
    congrArg finish (decodeBody_file hs leaves hne file spells fits)
  exact ⟨_, next, rfl, decoded_txtLen s u text out, (text_done _).trans (decoded_text (by omega))⟩

/-- Settles O47: the file holds the tree and the codes of the text, which spell the text. -/
theorem roundTrip : Obligations.RoundTrip := by
  intro s t hs next ok
  have kept := exec_memoryInv hs next
  by_cases hempty : s.txtLen = 0
  · obtain rfl := Host.Outcome.next.inj (next.symm.trans (congrArg finish (encodeBody_emptyText hempty)))
    obtain ⟨v, decoded, error, txtLen, text⟩ := exec_decode_emptyFile (s := { s.clearWorking with filLen := 0 }.done) rfl
    exact ⟨v, decoded, error, txtLen.trans hempty.symm, text.trans (text_eq_nil hempty).symm⟩
  obtain ⟨b, r, u, built, ends⟩ := encodeBody_ends hempty hs.txtLen
  have text : b.text = s.text := built.text.trans (text_clearWorking s)
  have caps : b.caps = s.caps := built.caps
  obtain ⟨c, overflow⟩ | ⟨c, full, table, rfl, ⟨-, stored⟩ | ⟨room, written⟩⟩ := ends
  · obtain rfl := Host.Outcome.next.inj (next.symm.trans (congrArg finish overflow))
    cases ok
  · obtain rfl := Host.Outcome.next.inj (next.symm.trans (congrArg finish stored))
    cases ok
  · obtain rfl := Host.Outcome.next.inj (next.symm.trans (congrArg finish written))
    have covered : ∀ c ∈ s.text, c ∈ u.chars := fun c hc => built.mem_chars.mpr ((text_clearWorking s).symm ▸ hc)
    have file : HoldsFile (b.withBuffers u c).emitted.done u.ser (joinedCodes c.ctab s.text) := by
      have emitted := (holdsFile_emitted (s := b.withBuffers u c) kept.caps room).done
      rw [← text]
      exact emitted
    have filled := joinedCodes_ne_nil (text_ne_nil hempty) fun x hx => table.len_ne_zero (covered x hx)
    have fits : s.text.length ≤ (b.withBuffers u c).emitted.done.caps.txtCap := by
      rw [text_length]
      exact hs.txtLen.trans_eq (congrArg Config.Capacities.txtCap caps).symm
    obtain ⟨v, decoded, error, txtLen, text⟩ := exec_decode_file kept built.leafCount_le filled file
      (table.spells covered) fits
    exact ⟨v, decoded, error, txtLen.trans (by rw [text_length]; exact BitVec.ofNat_toNat 32 s.txtLen), text⟩

end Sys2Proof.Machine
end

section
/-!
ENCODE of a text of at most 17 distinct characters (`spec/70_reset_and_hazards.md` section 3): its tree has no path of more
than 16 bits, and the file is short.
-/

namespace Sys2Proof.Machine

/-! ### Trees of few leaves -/

theorem HTree.depth_lt_leafCount (u : HTree) : u.depth < u.leafCount := by
  induction u with
  | leaf c => exact Nat.zero_lt_one
  | node l r ihl ihr =>
    have := l.leafCount_pos
    have := r.leafCount_pos
    rw [HTree.depth, HTree.leafCount]
    omega

/-- With at most 17 leaves every code fits the code register. -/
theorem HTree.codes_short {u : HTree} (few : u.leafCount ≤ 17) : ∀ p ∈ u.codes, p.2.length ≤ 16 := by
  intro p hp
  have shallow := u.depth_lt_leafCount
  cases u with
  | leaf c => rw [List.mem_singleton.mp hp]; exact Nat.succ_le_succ (Nat.zero_le 15)
  | node l r =>
    have below := (HTree.node l r).paths_le p hp
    omega

/-- Where every path fits the code register CT.GEN makes the table of the tree. -/
theorem ctGenBody_fits {s : State} {r : Nat} {u : HTree} (hr : s.root = some r) (hu : HoldsTree s.nodes r u)
    (hfit : ∀ p ∈ u.codes, p.2.length ≤ 16) : ∃ c, TableOf u c ∧ ctGenBody s = .ok (s.withCodes c) := by
  obtain ⟨c, filled, codes⟩ := assignPaths_codesOf u.codes_ne_nil hfit
  exact ⟨c, ⟨hfit, codes⟩, (ctGenBody_holds hr hu).trans (congrArg (genOutcome s) filled)⟩

/-! ### The size of the file -/

theorem TableOf.joinedCodes_length_le {u : HTree} {t : Codes} (h : TableOf u t) {text : List CharUnit}
    (covered : ∀ c ∈ text, c ∈ u.chars) : (joinedCodes t.ctab text).length ≤ 16 * text.length :=
  textBits_length_le (fun c => (h.codes.entry_holdsWholePath h.fits c).1)
    (textBits_coded (fun c hc => h.len_ne_zero (covered c hc)) 0)

theorem TableOf.lastPath {u : HTree} {t : Codes} (h : TableOf u t) {c : CharUnit} (hc : c ∈ u.chars) :
    lastPath u.codes c = some (entryBits (entryOf t.ctab c)) := by
  obtain ⟨p, last⟩ := Option.ne_none_iff_exists'.mp (mt lastPath_eq_none_iff.mp (not_not.mpr (u.codes_chars ▸ hc)))
  rw [last, h.codes.entry_of_path last, entryBits_pathEntry (h.fits _ (lastPath_mem last))]

/-! ### ENCODE -/

/-- What ENCODE leaves when it completes: the tree and the table of the text, both buffers and the file. -/
structure Encoded (s t : State) (r : Nat) (u : HTree) : Prop where
  results : t.res0 = Word.ofNat r ∧ t.res1 = s.txtLen
  place : t.listHead = none ∧ t.root = some r
  buffers : t.tbuf = u.ser ∧ t.xbuf = joinedCodes t.ctab s.text
  error : t.error = ErrorRecord.clear
  holds : HoldsTree t.nodes r u
  chars : u.chars.Perm ((distinctChars s.text).map (BitVec.ofNat 16))
  codes : ∀ c ∈ s.text, lastPath u.codes c = some (entryBits (entryOf t.ctab c))
  file : HoldsFile t t.tbuf t.xbuf

theorem exec_encode_completes {s : State} (hs : MemoryInv s) (hne : s.txtLen ≠ 0)
    (few : (distinctChars s.text).length ≤ 17) (room : 4 + 39 + 2 * s.txtLen.toNat ≤ s.caps.filCap) :
    ∃ t r u, exec .encode s = .next t ∧ Encoded s t r u := by
  obtain ⟨b, r, u, build, built⟩ := tbBuildBody_builds (s := s.clearWorking) hne hs.txtLen
  have text : b.text = s.text := built.text.trans (text_clearWorking s)
  have chars := text_clearWorking s ▸ built.chars
  have covered : ∀ x ∈ b.text, x ∈ u.chars := fun x hx => built.mem_chars.mpr (built.text ▸ hx)
  have leaves := (u.chars_length.symm.trans (chars.length_eq.trans (List.length_map _))).trans_le few
  obtain ⟨c, table, gen⟩ := ctGenBody_fits built.root built.holds (HTree.codes_short leaves)
  have coded : ∀ x ∈ b.text, (entryOf c.ctab x).len ≠ 0 := fun x hx => table.len_ne_zero (covered x hx)
  have filled := joinedCodes_ne_nil (text ▸ text_ne_nil hne) coded
  have fits : 4 + ceil8 (b.withBuffers u c).tcur + ceil8 (b.withBuffers u c).xcur ≤ (b.withBuffers u c).caps.filCap := by
    have caps : (b.withBuffers u c).caps = s.caps := built.caps
    have treeLength : (b.withBuffers u c).tcur = 18 * u.leafCount - 1 := u.ser_length_eq
    have textLength : (b.withBuffers u c).xcur ≤ 16 * s.txtLen.toNat :=
      (table.joinedCodes_length_le covered).trans_eq (by rw [text, text_length])
    rw [caps, ceil8, ceil8]
    omega
  have body : encodeBody s = .ok (b.withBuffers u c).emitted := by
    rw [encodeBody_built hne build, gen, body_ok_bind,
      enTree_enText_fill built.root built.holds (built.textInCells hs.txtLen) coded]
    exact enEmitBody_fits u.ser_ne_nil filled fits
  have legal : (b.withBuffers u c).caps.Legal := by
    have caps : (b.withBuffers u c).caps = s.caps := built.caps
    exact caps ▸ hs.caps
  exact ⟨_, r, u, congrArg finish body,
    { results := ⟨congrArg State.res0 built.frame, congrArg State.res1 built.frame⟩
      place := ⟨congrArg State.listHead built.frame, built.root⟩
      buffers := ⟨rfl, congrArg (joinedCodes c.ctab) text⟩
      error := rfl
      holds := built.holds
      chars := chars
      codes := fun x hx => table.lastPath (covered x (text ▸ hx))
      file := (holdsFile_emitted legal fits).done }⟩

/-- Settles O39: with at most 17 leaves no code overflows, and the file is no longer than its bound. -/
theorem encodeCompletes : Obligations.EncodeCompletes := by
  intro s hs hne few room
  obtain ⟨t, r, u, next, encoded⟩ := exec_encode_completes hs hne few room
  have frame := exec_frame next
  obtain ⟨res0, res1⟩ := encoded.results
  obtain ⟨listHead, root⟩ := encoded.place
  obtain ⟨tbuf, xbuf⟩ := encoded.buffers
  refine ⟨t, u, r, next, ?_, encoded.holds, encoded.chars, encoded.codes,
    encoded.file.length.trans (fileBytes_length ..), encoded.file.bytes⟩
  rw [FrameOf, encoded.error, res0, res1, listHead, root, tbuf, xbuf] at frame
  exact frame

end Sys2Proof.Machine
end

section
/-!
ENCODE as a function of the text and of FIL_CAP (`spec/43_encoder.md` R226): the tree depends on the counts only, the table
on the tree, and the file on the tree, the table and the text.
-/

namespace Sys2Proof.Machine

/-! ### The tree is a function of the text -/

/-- The merges look at the arena only. -/
theorem mergeLoop_arena {fuel : Nat} {s s' t t' : State} (same : s'.arena = s.arena) (h : mergeLoop fuel s = .ok t)
    (h' : mergeLoop fuel s' = .ok t') : t'.arena = t.arena := by
  induction fuel generalizing s s' with
  | zero => cases h
  | succ fuel ih =>
    rw [mergeLoop] at h h'
    rw [same] at h'
    obtain ⟨one, answer, h⟩ := withAnswer_ok h
    obtain ⟨one', answer', h'⟩ := withAnswer_ok h'
    obtain rfl := Option.some.inj (answer.symm.trans answer')
    cases one with
    | true =>
      obtain rfl := Except.ok.inj h
      obtain rfl := Except.ok.inj h'
      exact same
    | false =>
      cases merge : tbMergeBody s with
      | error e => simp [merge] at h
      | ok u =>
        cases merge' : tbMergeBody s' with
        | error e => simp [merge'] at h'
        | ok u' =>
          obtain ⟨-, r, -, -, -, -, merged, eq⟩ := tbMergeBody_ok_cases merge
          obtain ⟨-, r', -, -, -, -, merged', eq'⟩ := tbMergeBody_ok_cases merge'
          rw [same, merged, Option.some.injEq] at merged'
          have next : u'.arena = u.arena := by rw [eq, eq', merged']; rfl
          exact ih next (by simpa [merge] using h) (by simpa [merge'] using h')

/-- TB.BUILD makes the same nodes of the same text. -/
theorem tbBuildBody_nodes {s s' t t' : State} (text : s'.text = s.text) (h : tbBuildBody s = .ok t)
    (h' : tbBuildBody s' = .ok t') : t'.nodes = t.nodes ∧ t'.root = t.root := by
  obtain ⟨-, s₁, s₂, s₃, count, leaves, merges, root⟩ := tbBuildBody_ok h
  obtain ⟨-, s₁', s₂', s₃', count', leaves', merges', root'⟩ := tbBuildBody_ok h'
  have freq : s₁'.freq = s₁.freq := by
    rw [(tbCountBody_ok count).2, (tbCountBody_ok count').2, text]
  obtain ⟨a, added, eq₂⟩ := tbLeavesBody_ok leaves
  obtain ⟨a', added', eq₂'⟩ := tbLeavesBody_ok leaves'
  rw [freq, added, Option.some.injEq] at added'
  have arena₂ : s₂'.arena = s₂.arena := by rw [eq₂, eq₂', added']; rfl
  have fuel : s₂'.nodeCnt = s₂.nodeCnt := congrArg (fun a : Arena => a.nodes.length) arena₂
  have arena₃ := mergeLoop_arena arena₂ merges (fuel ▸ merges')
  obtain ⟨r, -, removed, eq⟩ := tbRootBody_ok root
  obtain ⟨r', -, removed', eq'⟩ := tbRootBody_ok root'
  rw [arena₃, removed, Option.some.injEq, Option.some.injEq] at removed'
  rw [eq, eq', removed']
  exact ⟨rfl, rfl⟩

/-! ### How ENCODE ends, as a function of the tree -/

/-- How ENCODE ends behind its tree `u`, when the walk of CT.GEN answered `walk`. -/
def encodeOutcome (s : State) (u : HTree) (walk : Except VisitStop Codes) : Body :=
  match walk with
  | .ok c => enEmitBody (s.withBuffers u c)
  | .error (.overflow c) => raiseAt s.clearCodes .codeOverflow 0 c.toNat
  | .error .broken => brokenArena

/-- A walk that ends normally has filled the table of the tree. -/
theorem tableOf_of_walk {u : HTree} {c : Codes} (h : assignPaths 0 0 u.codes Codes.empty = .ok c) : TableOf u c := by
  cases deep : u.codes.find? (fun q => decide (16 < q.2.length)) with
  | some q =>
    have overflow := assignPaths_overflow 0 0 u.codes Codes.empty (c := q.1) (p := q.2) (by simpa using deep)
    cases h.symm.trans overflow
  | none =>
    have fits : ∀ p ∈ u.codes, p.2.length ≤ 16 := by simpa using deep
    obtain ⟨c', filled, codes⟩ := assignPaths_codesOf u.codes_ne_nil fits
    obtain rfl := Except.ok.inj (h.symm.trans filled)
    exact ⟨fits, codes⟩

theorem encodeBody_outcome {s b : State} {r : Nat} {u : HTree} (hne : s.txtLen ≠ 0)
    (hcap : s.txtLen.toNat ≤ s.caps.txtCap) (build : tbBuildBody s.clearWorking = .ok b)
    (built : TreeBuilt s.clearWorking b r u) :
    encodeBody s = encodeOutcome b u (assignPaths 0 0 u.codes Codes.empty) := by
  rw [encodeBody_built hne build, ctGenBody_holds built.root built.holds]
  match walk : assignPaths 0 0 u.codes Codes.empty with
  | .ok c =>
    have covered : ∀ x ∈ b.text, (entryOf c.ctab x).len ≠ 0 := fun x hx =>
      (tableOf_of_walk walk).len_ne_zero (built.mem_chars.mpr (built.text ▸ hx))
    exact enTree_enText_fill built.root built.holds (built.textInCells hcap) covered
  | .error (.overflow c) => rfl
  | .error .broken => rfl

/-! ### The file is a function of the tree, the table, the text and FIL_CAP -/

/-- The two states hold the same error and, when there is none, the same file with the same statistics. -/
def SameFile (t t' : State) : Prop :=
  t.error = t'.error ∧ (t.error.kind = .ok → t.filLen = t'.filLen ∧ t.stats = t'.stats ∧
    ∀ i, i < t.filLen.toNat → t.readFil i = t'.readFil i)

theorem SameFile.of_error {t t' : State} (same : t.error = t'.error) (failed : t.error.kind ≠ .ok) : SameFile t t' :=
  ⟨same, fun ok => absurd ok failed⟩

/-- EN.EMIT on the same buffers with the same TXT_LEN and FIL_CAP. -/
theorem enEmitBody_sameFile {s s' t t' : State} (legal : s.caps.Legal) (tbuf : s'.tbuf = s.tbuf) (xbuf : s'.xbuf = s.xbuf)
    (cap : s'.caps.filCap = s.caps.filCap) (txtLen : s'.txtLen = s.txtLen) (h : finish (enEmitBody s) = .next t)
    (h' : finish (enEmitBody s') = .next t') : SameFile t t' := by
  have tcur : s'.tcur = s.tcur := congrArg List.length tbuf
  have xcur : s'.xcur = s.xcur := congrArg List.length xbuf
  by_cases empty : s.tbuf = [] ∨ s.xbuf = []
  · have empty' : s'.tbuf = [] ∨ s'.xbuf = [] := by rwa [tbuf, xbuf]
    rw [enEmitBody_emptyBuffer empty] at h
    rw [enEmitBody_emptyBuffer empty'] at h'
    obtain rfl := Host.Outcome.next.inj h
    obtain rfl := Host.Outcome.next.inj h'
    exact .of_error rfl nofun
  obtain ⟨tree, text⟩ := not_or.mp empty
  have tree' : s'.tbuf ≠ [] := tbuf ▸ tree
  have text' : s'.xbuf ≠ [] := xbuf ▸ text
  by_cases room : 4 + ceil8 s.tcur + ceil8 s.xcur ≤ s.caps.filCap
  · have room' : 4 + ceil8 s'.tcur + ceil8 s'.xcur ≤ s'.caps.filCap := by rwa [tcur, xcur, cap]
    have length := (holdsFile_emitted legal room).length
    rw [enEmitBody_fits tree text room] at h
    rw [enEmitBody_fits tree' text' room'] at h'
    obtain rfl := Host.Outcome.next.inj h
    obtain rfl := Host.Outcome.next.inj h'
    refine ⟨rfl, fun _ => ⟨?_, ?_, fun i hi => ?_⟩⟩
    · simp only [done_filLen, State.emitted, tcur, xcur]
    · simp only [done_stats, State.emitted, tcur, xcur, txtLen]
    · have inside : i < (fileBytes s.tbuf s.xbuf).length := hi.trans_eq length
      have same : s.emitted.readFil i = s'.emitted.readFil i := by
        rw [readFil_emitted, readFil_emitted, tbuf, xbuf, List.getElem?_eq_getElem inside, Option.getD_some, Option.getD_some]
      exact same
  · have room' : ¬ 4 + ceil8 s'.tcur + ceil8 s'.xcur ≤ s'.caps.filCap := by rwa [tcur, xcur, cap]
    rw [enEmitBody_noRoom tree text (Nat.lt_of_not_le room)] at h
    rw [enEmitBody_noRoom tree' text' (Nat.lt_of_not_le room')] at h'
    obtain rfl := Host.Outcome.next.inj h
    obtain rfl := Host.Outcome.next.inj h'
    exact .of_error rfl nofun

theorem encodeOutcome_sameFile {b b' t t' : State} {u : HTree} {walk : Except VisitStop Codes} (legal : b.caps.Legal)
    (text : b'.text = b.text) (txtLen : b'.txtLen = b.txtLen) (cap : b'.caps.filCap = b.caps.filCap)
    (h : finish (encodeOutcome b u walk) = .next t) (h' : finish (encodeOutcome b' u walk) = .next t') : SameFile t t' := by
  match walk with
  | .ok c =>
    exact enEmitBody_sameFile (s := b.withBuffers u c) (s' := b'.withBuffers u c) legal rfl
      (congrArg (joinedCodes c.ctab) text) cap txtLen h h'
  | .error (.overflow c) =>
    obtain rfl := Host.Outcome.next.inj h
    obtain rfl := Host.Outcome.next.inj h'
    exact .of_error rfl nofun
  | .error .broken => cases h

/-- Settles O48: the same text gives the same tree, and the rest of ENCODE follows from the tree. -/
theorem encodeDependsOnlyOnText : Obligations.EncodeDependsOnlyOnText := by
  intro s s' t t' hs hs' txtLen text cap h h'
  by_cases hempty : s.txtLen = 0
  · obtain rfl := Host.Outcome.next.inj (h.symm.trans (congrArg finish (encodeBody_emptyText hempty)))
    obtain rfl := Host.Outcome.next.inj (h'.symm.trans (congrArg finish (encodeBody_emptyText (txtLen ▸ hempty))))
    exact ⟨rfl, fun _ => ⟨rfl, rfl, fun i hi => absurd hi (Nat.not_lt_zero i)⟩⟩
  have hne' : s'.txtLen ≠ 0 := txtLen ▸ hempty
  obtain ⟨b, r, u, build, built⟩ := tbBuildBody_builds (s := s.clearWorking) hempty hs.txtLen
  obtain ⟨b', r', u', build', built'⟩ := tbBuildBody_builds (s := s'.clearWorking) hne' hs'.txtLen
  have cleared : s'.clearWorking.text = s.clearWorking.text := by rw [text_clearWorking, text_clearWorking, text]
  obtain ⟨nodes, root⟩ := tbBuildBody_nodes cleared build build'
  have same : u' = u := by
    have sameRoot : r' = r := Option.some.inj (built'.root.symm.trans (root.trans built.root))
    exact HoldsTree.unique (nodes ▸ sameRoot ▸ built'.holds) built.holds
  subst same
  have caps : b.caps = s.caps := built.caps
  have caps' : b'.caps = s'.caps := built'.caps
  refine encodeOutcome_sameFile (b := b) (b' := b') (caps ▸ hs.caps) ?_ ?_ ?_
    ((congrArg finish (encodeBody_outcome hempty hs.txtLen build built)).symm.trans h)
    ((congrArg finish (encodeBody_outcome hne' hs'.txtLen build' built')).symm.trans h')
  · rw [built.text, built'.text, cleared]
  · exact built'.txtLen.trans (txtLen.symm.trans built.txtLen.symm)
  · rw [caps, caps', cap]

end Sys2Proof.Machine
end

section
/-!
DECODE as a function of the file and of the capacities (`spec/45_control.md`): the checks of the header, the descent and the
loops of DE.TEXT look at the bytes below FIL_LEN only.
-/

namespace Sys2Proof.Machine

/-! ### The header -/

/-- The checks look at FIL_LEN and, in a file of the least length, at four cells (`spec/44_decoder.md` R241, R243). -/
theorem checkHeader_agrees {s s' : State} (len : s'.filLen = s.filLen)
    (read : ∀ i, i < s.filLen.toNat → s'.readFil i = s.readFil i) : checkHeader s' = checkHeader s := by
  by_cases short : s.filLen.toNat < Config.fileMin
  · have short' : s'.filLen.toNat < Config.fileMin := len ▸ short
    exact (if_pos short').trans (if_pos short).symm
  · have inside : ∀ i, i < 4 → s'.readFil i = s.readFil i := fun i hi => read i (by simp only [Config.fileMin] at short; omega)
    have version : s'.fileVersion = s.fileVersion := by rw [State.fileVersion, inside 0 (by decide)]; rfl
    have treeLength : s'.fileTreeLength = s.fileTreeLength := by
      rw [State.fileTreeLength, inside 0 (by decide), inside 1 (by decide), inside 2 (by decide)]; rfl
    have treeBits : s'.fileTreeBits = s.fileTreeBits := by rw [State.fileTreeBits, inside 3 (by decide)]; rfl
    have textBits : s'.fileTextBits = s.fileTextBits := by rw [State.fileTextBits, inside 3 (by decide)]; rfl
    unfold checkHeader
    rw [len, version, treeLength, treeBits, textBits]

/-- Both regions of a header that passed every check end inside the file (`spec/44_decoder.md` R246). -/
theorem checkHeader_insideFile {s : State} {hd : Header} (legal : s.caps.Legal) (hcap : s.filLen.toNat ≤ s.caps.filCap)
    (h : checkHeader s = .ok hd) : hd.tend.toNat ≤ 8 * s.filLen.toNat ∧ hd.xend.toNat ≤ 8 * s.filLen.toNat := by
  obtain ⟨-, -, -, -, -, treeBits, -, textBits, fits, rfl⟩ := checkHeader_ok h
  obtain ⟨-, -, small⟩ := legal
  simp only [headerOf]
  rw [toNat_wordOfNat (by omega), toNat_wordOfNat (by omega)]
  omega

/-! ### The tree -/

theorem bitsOf_inj {c d : CharUnit} (h : bitsOf c 16 = bitsOf d 16) : c = d := by
  rw [← ofNat_bitsOf c, h, ofNat_bitsOf]

/-- A serialised tree says where it ends: what begins with two of them begins with one twice. -/
theorem HTree.ser_append_inj {u v : HTree} {a b : List Bool} (h : u.ser ++ a = v.ser ++ b) : u = v ∧ a = b := by
  induction u generalizing v a b with
  | leaf c =>
    cases v with
    | leaf d =>
      obtain ⟨chars, rest⟩ := List.append_inj (List.cons.inj h).2 (by simp)
      exact ⟨congrArg HTree.leaf (bitsOf_inj chars), rest⟩
    | node l r => cases (List.cons.inj h).1
  | node l r ihl ihr =>
    cases v with
    | leaf d => cases (List.cons.inj h).1
    | node l' r' =>
      have subtrees : l.ser ++ (r.ser ++ a) = l'.ser ++ (r'.ser ++ b) := by simpa [HTree.ser] using h
      obtain ⟨rfl, behind⟩ := ihl subtrees
      obtain ⟨rfl, rest⟩ := ihr behind
      exact ⟨rfl, rest⟩

theorem fileBits_agree {s s' : State} {p n : Nat} (h : ∀ q, p ≤ q → q < p + n → s'.fileBit q = s.fileBit q) :
    s'.fileBits p n = s.fileBits p n := by
  refine List.ext_getElem? fun i => ?_
  by_cases hi : i < n
  · rw [fileBits_get s' p n i hi, fileBits_get s p n i hi, h (p + i) (by omega) (by omega)]
  · rw [List.getElem?_eq_none (by simpa using hi), List.getElem?_eq_none (by simpa using hi)]

section
variable {s s' : State} (hv : s.flags.hdrv = true) (hv' : s'.flags.hdrv = true) (hdr : s'.hdr = s.hdr)
  (start : 32 ≤ s.hdr.tend.toNat) (inside : s.hdr.tend.toNat ≤ 8 * s.caps.filCap) (caps : s'.caps = s.caps)
  (bits : ∀ p, p < s.hdr.tend.toNat → s'.fileBit p = s.fileBit p)
include hv hv' hdr start inside caps bits

/-- DE.TREE on the same tree region ends in the same way. -/
theorem deTreeBody_agrees :
    (∃ e, deTreeBody s = .error (.raised { s.clearNodes with rcur := e.pos } e) ∧
      deTreeBody s' = .error (.raised { s'.clearNodes with rcur := e.pos } e)) ∨
    ∃ u pos, deTreeBody s = .ok (s.withDecodedTree u pos) ∧ deTreeBody s' = .ok (s'.withDecodedTree u pos) := by
  have treeBits : s'.treeBits = s.treeBits := by
    rw [State.treeBits, hdr]
    exact fileBits_agree fun q _ hq => bits q (by omega)
  have descent : s'.descent = s.descent := by rw [State.descent, treeBits]
  have start' : 32 ≤ s'.hdr.tend.toNat := by rwa [hdr]
  have inside' : s'.hdr.tend.toNat ≤ 8 * s'.caps.filCap := by rwa [hdr, caps]
  obtain ⟨sub, pos, -, stopped, body⟩ | ⟨u, ⟨rest, serial⟩, complete, body⟩ := deTreeBody_ends hv start inside <;>
    obtain ⟨sub', pos', -, stopped', body'⟩ | ⟨u', ⟨rest', serial'⟩, complete', body'⟩ := deTreeBody_ends hv' start' inside'
  · rw [descent, stopped, Descent.stopped.injEq] at stopped'
    obtain ⟨rfl, rfl⟩ := stopped'
    exact .inl ⟨corrupt sub pos, body, body'⟩
  · cases complete'.symm.trans (descent.trans stopped)
  · cases complete.symm.trans (descent.symm.trans stopped')
  · obtain ⟨rfl, -⟩ := HTree.ser_append_inj (serial.trans (treeBits.symm.trans serial'.symm))
    exact .inr ⟨u, _, body, body'⟩

end

/-! ### The text -/

/-- Two loops of DE.TEXT write the same characters from the first cell on, or fail with the same error. -/
def SameReading (txt txt' : Cells CharUnit) (walk walk' : Except TextStop (Nat × Cells CharUnit)) : Prop :=
  (∃ vs : List CharUnit, walk = .ok (vs.length, cellsPutAll txt 0 vs) ∧ walk' = .ok (vs.length, cellsPutAll txt' 0 vs)) ∨
  ∃ a a' e, walk = .error (.fail a e) ∧ walk' = .error (.fail a' e)

/-- The loop for a tree of one leaf, on the same bits with the same capacity. -/
theorem oneLeafText_agrees {s s' : State} (caps : s'.caps = s.caps) (c : CharUnit) {k p : Nat}
    (bits : ∀ q, p ≤ q → q < p + k → s'.fileBit q = s.fileBit q) (n : Nat) (txt txt' : Cells CharUnit) :
    (∃ m, oneLeafText s c k p n txt = .ok (n + m, cellsPutAll txt n (List.replicate m c)) ∧
      oneLeafText s' c k p n txt' = .ok (n + m, cellsPutAll txt' n (List.replicate m c))) ∨
    ∃ a a' e, oneLeafText s c k p n txt = .error (.fail a e) ∧ oneLeafText s' c k p n txt' = .error (.fail a' e) := by
  induction k generalizing p n txt txt' with
  | zero => exact .inl ⟨0, rfl, rfl⟩
  | succ k ih =>
    simp only [oneLeafText, emit, bits p le_rfl (by omega), caps]
    by_cases one : s.fileBit p = true
    · rw [if_pos one, if_pos one]
      exact .inr ⟨_, _, _, rfl, rfl⟩
    by_cases full : s.caps.txtCap ≤ n
    · rw [if_neg one, if_neg one, if_pos full, if_pos full]
      exact .inr ⟨_, _, _, rfl, rfl⟩
    · rw [if_neg one, if_neg one, if_neg full, if_neg full]
      obtain ⟨m, run, run'⟩ | failed := ih (p := p + 1) (fun q hp hq => bits q (by omega) (by omega)) (n + 1) (cellsPut txt n c)
        (cellsPut txt' n c)
      · refine .inl ⟨m + 1, run.trans ?_, run'.trans ?_⟩ <;> rw [Nat.add_right_comm] <;> rfl
      · exact .inr failed

/-- DE.TEXT on the same text region, tree and capacity reads the same. -/
theorem deTextBody_agrees {s s' : State} {r : Nat} {u : HTree} (hv : s.flags.hdrv = true) (hv' : s'.flags.hdrv = true)
    (hdr : s'.hdr = s.hdr) (hr : s.root = some r) (hr' : s'.root = some r) (hu : HoldsTree s.nodes r u)
    (hu' : HoldsTree s'.nodes r u) (inside : s.hdr.xend.toNat ≤ 8 * s.caps.filCap) (caps : s'.caps = s.caps)
    (bits : ∀ p, p < s.hdr.xend.toNat → s'.fileBit p = s.fileBit p) :
    ∃ walk walk', deTextBody s = textOutcome s walk ∧ deTextBody s' = textOutcome s' walk' ∧
      SameReading s.txt s'.txt walk walk' := by
  have inside' : s'.hdr.xend.toNat ≤ 8 * s'.caps.filCap := by rwa [hdr, caps]
  have region : ∀ q, s.hdr.xstart.toNat ≤ q → q < s.hdr.xstart.toNat + (s.hdr.xend.toNat - s.hdr.xstart.toNat) →
      s'.fileBit q = s.fileBit q := fun q hp hq => bits q (by omega)
  cases u with
  | leaf c =>
    refine ⟨_, _, deTextBody_leaf hv hr inside hu, deTextBody_leaf hv' hr' inside' hu', ?_⟩
    rw [hdr]
    refine (oneLeafText_agrees caps c region 0 s.txt s'.txt).imp ?_ id
    rintro ⟨m, run, run'⟩
    rw [Nat.zero_add] at run run'
    exact ⟨List.replicate m c, by rw [run, List.length_replicate], by rw [run', List.length_replicate]⟩
  | node l l' =>
    refine ⟨_, _, deTextBody_node hv hr inside hu, deTextBody_node hv' hr' inside' hu', ?_⟩
    have walk := walkText_fromRoot hu (s.hdr.xend.toNat - s.hdr.xstart.toNat) s.hdr.xstart.toNat rfl
    have walk' := walkText_fromRoot hu' (s.hdr.xend.toNat - s.hdr.xstart.toNat) s.hdr.xstart.toNat rfl
    rw [fileBits_agree region, caps] at walk'
    rw [hdr]
    obtain ⟨fits, run⟩ | ⟨c, q, tooMany, run⟩ := walk <;> obtain ⟨fits', run'⟩ | ⟨c', q', tooMany', run'⟩ := walk'
    · rw [List.take_of_length_le fits] at run run'
      exact .inl ⟨_, run.trans (by rw [List.length_map]), run'.trans (by rw [List.length_map])⟩
    · rw [List.getElem?_eq_none fits] at tooMany'
      cases tooMany'
    · rw [List.getElem?_eq_none fits'] at tooMany
      cases tooMany
    · obtain ⟨rfl, rfl⟩ := Prod.mk.inj (Option.some.inj (tooMany.symm.trans tooMany'))
      exact .inr ⟨_, _, _, run, run'⟩

/-! ### DECODE -/

/-- The two states hold the same error, text, nodes and header. -/
structure SameDecoding (t t' : State) : Prop where
  error : t.error = t'.error
  txtLen : t.txtLen = t'.txtLen
  text : t.text = t'.text
  nodes : t.nodes = t'.nodes
  hdr : t.hdr = t'.hdr

/-- With no text only the error, the nodes and the header are left to compare. -/
theorem SameDecoding.of_noText {t t' : State} (error : t.error = t'.error) (txtLen : t.txtLen = 0) (txtLen' : t'.txtLen = 0)
    (nodes : t.nodes = t'.nodes) (hdr : t.hdr = t'.hdr) : SameDecoding t t' :=
  ⟨error, txtLen.trans txtLen'.symm, (text_eq_nil txtLen).trans (text_eq_nil txtLen').symm, nodes, hdr⟩

/-- Texts that were written from the first cell on. -/
theorem text_putAll_agrees {s s' t t' : State} {vs : List CharUnit} (written : t.txt = cellsPutAll s.txt 0 vs)
    (written' : t'.txt = cellsPutAll s'.txt 0 vs) (resets : t.resets = s.resets) (resets' : t'.resets = s'.resets)
    (txtLen : t.txtLen = t'.txtLen) (few : t.txtLen.toNat ≤ vs.length) : t.text = t'.text := by
  refine List.ext_getElem? fun i => ?_
  by_cases hi : i < t.txtLen.toNat
  · rw [State.text, State.text, textFrom_get _ _ _ _ hi, textFrom_get _ _ _ _ (txtLen ▸ hi), Nat.zero_add,
      readTxt_putAll written resets, readTxt_putAll written' resets', List.getElem?_eq_getElem (hi.trans_le few),
      Option.getD_some, Option.getD_some]
  · rw [List.getElem?_eq_none (by simpa using hi), List.getElem?_eq_none (by simpa [← txtLen] using hi)]

theorem textOutcome_agrees {s s' t t' : State} {walk walk' : Except TextStop (Nat × Cells CharUnit)}
    (same : SameReading s.txt s'.txt walk walk') (nodes : s.nodes = s'.nodes) (hdr : s.hdr = s'.hdr)
    (h : finish (textOutcome s walk) = .next t) (h' : finish (textOutcome s' walk') = .next t') : SameDecoding t t' := by
  obtain ⟨vs, rfl, rfl⟩ | ⟨a, a', e, rfl, rfl⟩ := same
  · obtain rfl := Host.Outcome.next.inj h
    obtain rfl := Host.Outcome.next.inj h'
    exact ⟨rfl, rfl, text_putAll_agrees (s := s) (s' := s') rfl rfl rfl rfl rfl (Nat.mod_le ..), nodes, hdr⟩
  · obtain rfl := Host.Outcome.next.inj h
    obtain rfl := Host.Outcome.next.inj h'
    exact .of_noText rfl rfl rfl nodes hdr

/-- Settles O49: each part looks at the file below FIL_LEN and at what the part before it left. -/
theorem decodeDependsOnlyOnFile : Obligations.DecodeDependsOnlyOnFile := by
  intro s s' t t' hs hs' len read caps h h'
  suffices same : SameDecoding t t' from ⟨same.error, same.txtLen, same.text, same.nodes, same.hdr⟩
  by_cases hempty : s.filLen = 0
  · obtain rfl := Host.Outcome.next.inj (h.symm.trans (congrArg finish (decodeBody_emptyFile hempty)))
    obtain rfl := Host.Outcome.next.inj (h'.symm.trans (congrArg finish (decodeBody_emptyFile (len ▸ hempty))))
    exact .of_noText rfl rfl rfl rfl rfl
  have hne' : s'.filLen ≠ 0 := len ▸ hempty
  have agrees := checkHeader_agrees len.symm fun i hi => (read i hi).symm
  cases checks : checkHeader s with
  | error e =>
    obtain rfl := Host.Outcome.next.inj (h.symm.trans (congrArg finish (decodeBody_badHeader hempty hs.filLen checks)))
    obtain rfl := Host.Outcome.next.inj
      (h'.symm.trans (congrArg finish (decodeBody_badHeader hne' hs'.filLen (agrees.trans checks))))
    exact .of_noText rfl rfl rfl rfl rfl
  | ok hd =>
    obtain ⟨start, treeInside, textInside⟩ := checkHeader_offsets hs.caps hs.filLen checks
    obtain ⟨treeEnd, textEnd⟩ := checkHeader_insideFile hs.caps hs.filLen checks
    have readFil : ∀ v : State, ∀ i, (v.withHeader hd).readFil i = v.readFil i := fun v i => by simp [State.readFil]
    have bits : ∀ p, p < 8 * s.filLen.toNat → (s'.withHeader hd).fileBit p = (s.withHeader hd).fileBit p := fun p hp => by
      rw [State.fileBit, State.fileBit, readFil, readFil, read (p / 8) (by omega)]
    have sameCaps : (s'.withHeader hd).caps = (s.withHeader hd).caps := by simpa using caps.symm
    have body := decodeBody_goodHeader hempty hs.filLen checks
    have body' := decodeBody_goodHeader hne' hs'.filLen (agrees.trans checks)
    obtain ⟨e, tree, tree'⟩ | ⟨u, pos, tree, tree'⟩ := deTreeBody_agrees (s := s.withHeader hd) (s' := s'.withHeader hd)
      rfl rfl rfl start (by simpa using treeInside) sameCaps fun p hp => bits p (hp.trans_le treeEnd)
    · rw [tree] at body
      rw [tree'] at body'
      obtain rfl := Host.Outcome.next.inj (h.symm.trans (congrArg finish body))
      obtain rfl := Host.Outcome.next.inj (h'.symm.trans (congrArg finish body'))
      exact .of_noText rfl rfl rfl rfl rfl
    · rw [tree, body_ok_bind] at body
      rw [tree', body_ok_bind] at body'
      obtain ⟨walk, walk', text, text', reading⟩ := deTextBody_agrees (s := (s.withHeader hd).withDecodedTree u pos)
        (s' := (s'.withHeader hd).withDecodedTree u pos) rfl rfl rfl rfl rfl (withDecodedTree_holds _ u pos)
        (withDecodedTree_holds _ u pos) (by simpa using textInside) sameCaps fun p hp => bits p (hp.trans_le textEnd)
      exact textOutcome_agrees reading rfl rfl ((congrArg finish (body.trans text)).symm.trans h)
        ((congrArg finish (body'.trans text')).symm.trans h')

end Sys2Proof.Machine
end
